-- ==== Sys2Proof/Word.lean ====
section
/-! DEFINITION. The byte of the three serial lines: what R157 calls a character's 8 data bits. Every other quantity of the
part is a number in a unit (tooth, mm/s, ms, percent) and is held as a number. -/

namespace Sys2Proof

/-- One character of a line (R157). -/
abbrev Byte := BitVec 8

end Sys2Proof
end

