-- ==== Sys2Proof/Syntax.lean ====
section
/-! DEFINITION. The commands of the part: one constructor of `Instr` for each row of spec/opcode_table.json, and the names
their operands use. The table gives its rows no fields; the operands are what the row's rule says the event brings. -/

namespace Sys2Proof

/-- UP (toward the summit) or DOWN: a tooth's direction, an edge of the window, a door's opening direction. -/
inductive Vertical where
  | up
  | down
deriving DecidableEq, Repr

/-- The selected direction (R17). -/
inductive Direction where
  | neutral
  | up
  | down
deriving DecidableEq, Repr

/-- The three serial lines (00_scope.md, Outside connections). -/
inductive SerialLine where
  | cab
  | crew
  | radio
deriving DecidableEq, Repr

/-- The two lines that bring requests (R182). -/
inductive RequestLine where
  | cab
  | crew
deriving DecidableEq, Repr

/-- The four proportional brakes, in the order the manual takes them (chapter 6). -/
inductive Channel where
  | rb1
  | rb2
  | ab1
  | ab2
deriving DecidableEq, Repr

/-- The four doors, in the order the manual takes them (R135). -/
inductive Door where
  | d1
  | d2
  | d3
  | d4
deriving DecidableEq, Repr

/-- The two time limits of a door's motion: OPEN_TIME_LIMIT of an opening (R140), CLOSE_TIME_LIMIT of a closing (R142). -/
inductive MotionLimit where
  | opening
  | closing
deriving DecidableEq, Repr

/-- What a motion timer's expiry is of: a door's motion under one of the two time limits (R140, R142). -/
structure MotionTimer where
  door : Door
  limit : MotionLimit
deriving DecidableEq, Repr

/-- The eight pulse-width outputs: V1 to V4 of the channels, M1 to M4 of the doors (6.3). -/
inductive OutputId where
  | valve (c : Channel)
  | motor (d : Door)
deriving DecidableEq, Repr

/-- One thing for each channel. -/
structure PerChannel (α : Type) where
  rb1 : α
  rb2 : α
  ab1 : α
  ab2 : α
deriving DecidableEq, Repr

/-- One thing for each door. -/
structure PerDoor (α : Type) where
  d1 : α
  d2 : α
  d3 : α
  d4 : α
deriving DecidableEq, Repr

/-- The eight words of one scan (R110): converters 1 to 4 are the pressures, 5 to 8 the motor currents. -/
structure ScanWords where
  pressure : PerChannel (BitVec 16)
  current : PerDoor (BitVec 16)
deriving DecidableEq, Repr

/-- The levels of one door's inputs (R134): each switch made or broken, the button pressed or not. -/
structure DoorPins where
  closedMade : Bool
  openMade : Bool
  pressed : Bool
deriving DecidableEq, Repr

/-- The levels of the inputs that the part reads at the end of power-on reset (R18, R93, R155). -/
structure PinLevels where
  phaseA : Bool
  phaseB : Bool
  loopOpen : Bool
  door : PerDoor DoorPins
deriving DecidableEq, Repr

/-- One command: a row of spec/opcode_table.json. A request brings the line it arrives on and the body bytes after its kind
byte; an addressed downlink brings its destination and the body bytes after its kind byte (R196). -/
inductive Instr where
  /-- PHASE_CHANGE: the levels of phases A and B now observed (R1). -/
  | phaseChange (a b : Bool)
  /-- MARKER_PULSE (R7). -/
  | markerPulse
  /-- STANDSTILL_TIMER_EXPIRY (R12). -/
  | standstillTimerExpiry
  /-- LOCATE (R16). -/
  | locate (line : RequestLine) (fields : List Byte)
  /-- DIRECTION (R17). -/
  | direction (line : RequestLine) (fields : List Byte)
  /-- POWER_ON_RESET: the levels of the inputs at the end of reset (R195). -/
  | powerOnReset (pins : PinLevels)
  /-- RESTART (R192). -/
  | restart (line : RequestLine) (fields : List Byte)
  /-- SEGMENT (R30). -/
  | segment (line : RequestLine) (fields : List Byte)
  /-- END_OF_LINE (R32). -/
  | endOfLine (line : RequestLine) (fields : List Byte)
  /-- READ_WINDOW (R37). -/
  | readWindow (line : RequestLine) (fields : List Byte)
  /-- AUTHORITY (R46, R47). -/
  | authority (destination : BitVec 16) (fields : List Byte)
  /-- RESTRICTION_SET (R50). -/
  | restrictionSet (destination : BitVec 16) (fields : List Byte)
  /-- RESTRICTION_CLEAR (R52). -/
  | restrictionClear (destination : BitVec 16) (fields : List Byte)
  /-- READ_AUTHORITY (R54). -/
  | readAuthority (line : RequestLine) (fields : List Byte)
  /-- EVALUATION_TIMER_EXPIRY (R58). -/
  | evaluationTimerExpiry
  /-- LOOP_OPENS (R83). -/
  | loopOpens
  /-- LOOP_CLOSES (R83). -/
  | loopCloses
  /-- ACK_INTERVENTION (R86). -/
  | ackIntervention (line : RequestLine) (fields : List Byte)
  /-- RELEASE (R90). -/
  | release (destination : BitVec 16) (fields : List Byte)
  /-- CAB_TIMER_EXPIRY (R193). -/
  | cabTimerExpiry
  /-- DRIVER_BRAKE (R102). -/
  | driverBrake (line : RequestLine) (fields : List Byte)
  /-- PARK (R104). -/
  | park (line : RequestLine) (fields : List Byte)
  /-- PERIOD_END of one output (R106). -/
  | periodEnd (output : OutputId)
  /-- SCAN_TIMER_EXPIRY (R110). -/
  | scanTimerExpiry
  /-- SCAN_COMPLETE with the eight words read (R110). -/
  | scanComplete (words : ScanWords)
  /-- PROOF_TIMER_EXPIRY (R118). -/
  | proofTimerExpiry
  /-- DWELL_TIMER_EXPIRY (R125, R126). -/
  | dwellTimerExpiry
  /-- PROVE_NOW (R130). -/
  | proveNow (line : RequestLine) (fields : List Byte)
  /-- DOOR_RELEASE (R137). -/
  | doorRelease (line : RequestLine) (fields : List Byte)
  /-- BUTTON_PRESS of one door (R138). -/
  | buttonPress (door : Door)
  /-- DOOR_OPEN_RELEASED (R139). -/
  | doorOpenReleased (line : RequestLine) (fields : List Byte)
  /-- OPEN_SWITCH_MAKES of one door (R140). -/
  | openSwitchMakes (door : Door)
  /-- OPEN_SWITCH_BREAKS of one door (R140). -/
  | openSwitchBreaks (door : Door)
  /-- MOTION_TIMER_EXPIRY of one door, of one of its two limits (R140, R142). -/
  | motionTimerExpiry (timer : MotionTimer)
  /-- DOOR_CLOSE (R141). -/
  | doorClose (line : RequestLine) (fields : List Byte)
  /-- CLOSED_SWITCH_MAKES of one door (R142, R148). -/
  | closedSwitchMakes (door : Door)
  /-- CLOSED_SWITCH_BREAKS of one door (R148). -/
  | closedSwitchBreaks (door : Door)
  /-- DOOR_ISOLATE (R149). -/
  | doorIsolate (line : RequestLine) (fields : List Byte)
  /-- DOOR_UNISOLATE (R150). -/
  | doorUnisolate (line : RequestLine) (fields : List Byte)
  /-- FRAME_REJECTED: the last byte of the rejected frame, or none for a character error (R157, R160). -/
  | frameRejected (line : SerialLine) (last : Option Byte)
  /-- DOWNLINK_DISCARDED: the body of a good frame on the radio line (R162). -/
  | downlinkDiscarded (body : List Byte)
  /-- RADIO_TIMER_EXPIRY (R164). -/
  | radioTimerExpiry
  /-- POSITION_TIMER_EXPIRY (R169). -/
  | positionTimerExpiry
  /-- POLL (R171). -/
  | poll (destination : BitVec 16) (fields : List Byte)
  /-- ACK (R174). -/
  | ack (destination : BitVec 16) (fields : List Byte)
  /-- TRANSMIT_COMPLETE (R161). -/
  | transmitComplete
  /-- RESPONSE_SENT on one line (R184). -/
  | responseSent (line : RequestLine)
  /-- REQUEST_DROPPED: a good frame handed by the line's framer (R184). -/
  | requestDropped (line : RequestLine) (body : List Byte)
  /-- UNKNOWN_REQUEST: a good frame whose kind is no request kind (R182). -/
  | unknownRequest (line : RequestLine) (kind : Byte) (fields : List Byte)
  /-- STATUS (R194). -/
  | status (line : RequestLine) (fields : List Byte)
  /-- CONFIGURE (R190). -/
  | configure (line : RequestLine) (fields : List Byte)
  /-- RESUME (R187). -/
  | resume (line : RequestLine) (fields : List Byte)
  /-- QUIESCE (R188). -/
  | quiesce (line : RequestLine) (fields : List Byte)
  /-- BUTTON_RELEASE of one door (R134). -/
  | buttonRelease (door : Door)
  /-- BYTE_RECEIVED on one line (R158). -/
  | byteReceived (line : SerialLine) (byte : Byte)
deriving DecidableEq, Repr

end Sys2Proof
end

