-- ==== Sys2Proof/Decode.lean ====
section
/-! DEFINITION. The block decodes no words: spec/opcode_table.json gives none of its 55 rows any bits, so no word spells a
command. The bytes of the lines are decoded by the framers and the layouts of chapter 11 (Machine/Layout.lean,
Machine/Lines.lean). -/

namespace Sys2Proof

/-- The command that a word spells by the table's bits: none, since the table gives no row any bits. -/
def decodeTableWord (_nbits _w : Nat) : Option Instr := none

end Sys2Proof
end

