-- ==== Sys2Proof/Config.lean ====
section
/-! DEFINITION. The constants the manual fixes for every part: times in µs of the part's clock (log 1), distances in teeth,
currents in mA. The configuration ITEMS of 10.4 are state (`Settings` in Machine/State.lean). The manual leaves no result
undefined, so there is no free value here. -/

namespace Sys2Proof.Config

/-- The highest line position (00_scope.md, Conventions; R2). -/
def maxPosition : Nat := 1048575

/-- STANDSTILL_TIME, 2,000 ms (R12). -/
def standstillTime : Nat := 2000000

/-- Saturation of the speed timer, µs (R10, R11). -/
def maxInterval : Nat := 4194303

/-- The highest speed, mm/s (R10). -/
def maxSpeed : Nat := 20000

/-- MARKER_TOLERANCE, teeth (R7). -/
def markerTolerance : Nat := 2

/-- Least distance between markers of the window, teeth (R30). -/
def markerSpacing : Nat := 20

/-- Teeth of slip that raise u by one (R5). -/
def slipTeeth : Nat := 32

/-- Capacity of the window (R21). -/
def windowCapacity : Nat := 32

/-- Capacity of the restriction table (R49). -/
def restrictionCapacity : Nat := 8

/-- DECEL_FLOOR, mm/s² (R34). -/
def decelFloor : Nat := 100

/-- The evaluation timer, 100 ms (R58). -/
def evaluationTime : Nat := 100000

/-- The scan timer, 10 ms (R110). -/
def scanTime : Nat := 10000

/-- FEEDBACK_SETTLE, 400 ms (R113). -/
def feedbackSettle : Nat := 400000

/-- Persistence of a deviation that fails a channel, 200 ms (R113). -/
def feedbackPersistence : Nat := 200000

/-- PROOF_DWELL, 300 ms (R124). -/
def proofDwell : Nat := 300000

/-- OPEN_TIME_LIMIT, 6,000 ms (R135). -/
def openTimeLimit : Nat := 6000000

/-- CLOSE_TIME_LIMIT, 8,000 ms (R135). -/
def closeTimeLimit : Nat := 8000000

/-- Persistence of an over-limit current that is an obstruction, 150 ms (R145). -/
def obstructionPersistence : Nat := 150000

/-- Capacity of the report queue (R166). -/
def queueCapacity : Nat := 32

/-- Capacity of a response list (R184). -/
def responseCapacity : Nat := 4

/-- The sync byte (9.1). -/
def sync : Byte := 0x5A#8

/-- The longest body (9.1). -/
def maxBody : Nat := 120

end Sys2Proof.Config
end

