-- ==== Sys2Proof/Machine/State.lean ====
section
/-! DEFINITION. Everything the manual gives the part, as plain data: one structure for each of the twelve blocks of
00_scope.md, the part's clock (log 1) and the queue of waiting commands. Names follow the manual's; each field's docstring
cites the rule that gives it. -/

namespace Sys2Proof.Machine

/-- Why the part would stop. No rule of the manual stops it, so there is no reason (log 23). -/
inductive Fault where
deriving DecidableEq, Repr

/-- Why a command would have no meaning. -/
inductive Refusal where
  /-- Raised by an arm of `exec` whose command has no meaning yet; safe, since the machine stops. No arm raises it. -/
  | notModelled (mnemonic : String)
deriving DecidableEq, Repr

/-- A moment of the clock (µs) at which a running timer expires; none while it is stopped. -/
abbrev Timer := Option Nat

/-- The kinds of track (R20). -/
inductive TrackKind where
  | rack
  | adhesion
  | entry
deriving DecidableEq, Repr

/-- One thing for each kind of track. -/
structure PerKind (α : Type) where
  rack : α
  adhesion : α
  entry : α
deriving DecidableEq, Repr

/-- Odometry Unit (chapter 1). -/
structure Odometry where
  /-- p (R2) -/
  p : Nat
  /-- u (R4, R5) -/
  u : Nat
  /-- R16 -/
  located : Bool
  /-- v, mm/s (R10, R11) -/
  v : Nat
  /-- R12, R13 -/
  standstill : Bool
  /-- R12 -/
  standstillTimer : Timer
  /-- R2 -/
  lastDir : Option Vertical
  /-- µs (R10) -/
  lastInterval : Option Nat
  /-- the moment of the last tooth event (R10, R11) -/
  lastToothAt : Option Nat
  /-- R17 -/
  direction : Direction
  /-- R14 -/
  rollback : Nat
  /-- R5 -/
  slip : Nat
  /-- R1 -/
  phaseA : Bool
  /-- R1 -/
  phaseB : Bool
  /-- R1 -/
  stepCount : Int
deriving DecidableEq, Repr

/-- The side of a platform (R20). -/
inductive PlatformSide where
  | left
  | right
  | both
deriving DecidableEq, Repr

/-- The platform part of a record (R20). -/
structure Platform where
  id : Nat
  side : PlatformSide
deriving DecidableEq, Repr

/-- A segment record (R20). -/
structure Segment where
  number : Nat
  start : Nat
  length : Nat
  kind : TrackKind
  gradient : Int
  limitUp : Nat
  limitDown : Nat
  platform : Option Platform
  /-- the marker's offset from start -/
  marker : Option Nat
  /-- R34 -/
  barredUp : Bool
  /-- R34 -/
  barredDown : Bool
deriving DecidableEq, Repr

/-- The wanted request (R24). -/
inductive Wanted where
  | none
  | byPosition (number position : Nat)
  | byNumber (number : Nat) (edge : Vertical)
  | pinned (number : Nat) (edge : Vertical)
deriving DecidableEq, Repr

/-- What the window holds from the last accepted LOCATE (R24, R38). -/
structure LocatedAt where
  number : Nat
  position : Nat
deriving DecidableEq, Repr

/-- Profile Window (chapter 2). -/
structure Window where
  /-- in ascending position (R21) -/
  records : List Segment
  /-- R32, R33 -/
  endUp : Bool
  /-- R32, R33 -/
  endDown : Bool
  /-- R38 -/
  located : Option LocatedAt
  /-- R24 -/
  wanted : Wanted
  /-- R23 -/
  ahead : Nat
  /-- R23 -/
  behind : Nat
deriving DecidableEq, Repr

/-- An authority range (R41). -/
structure Range where
  low : Nat
  high : Nat
deriving DecidableEq, Repr

/-- The directions to which a restriction applies (R49). -/
inductive Applies where
  | up
  | down
  | both
deriving DecidableEq, Repr

/-- A line restriction (R49). -/
structure Restriction where
  id : Nat
  low : Nat
  high : Nat
  speed : Nat
  direction : Applies
deriving DecidableEq, Repr

/-- Authority Table (chapter 3). -/
structure AuthorityTable where
  /-- range A (R41) -/
  a : Range
  /-- range B (R41) -/
  b : Range
  /-- R41 -/
  id : Nat
  /-- R42 -/
  inside : Bool
  /-- A is a containing range (R42) -/
  inA : Bool
  /-- B is a containing range (R42) -/
  inB : Bool
  /-- in arrival order (R49) -/
  restrictions : List Restriction
deriving DecidableEq, Repr

/-- The supervision state (R69). -/
inductive Supervision where
  | normal
  | warning
  | intervening
deriving DecidableEq, Repr

/-- Speed Supervisor (chapter 4). -/
structure Supervisor where
  /-- L (R60, R61) -/
  staticLimit : Nat
  /-- P (R68) -/
  permitted : Nat
  /-- W (R68) -/
  warning : Nat
  /-- I_s (R68) -/
  serviceSpeed : Nat
  /-- I_e (R68) -/
  emergencySpeed : Nat
  /-- R69 -/
  state : Supervision
  /-- the permit and its output (R73) -/
  permit : Bool
  /-- R58 -/
  timer : Timer
deriving DecidableEq, Repr

/-- The eight causes (5.2). -/
inductive Cause where
  | overspeedService
  | overspeedEmergency
  | authorityOverrun
  | rollback
  | doorUnlockedMoving
  | cabSilent
  | emergencyLoop
  | brakeFeedback
deriving DecidableEq, Repr

/-- The two levels (R78). -/
inductive Level where
  | service
  | emergency
deriving DecidableEq, Repr

/-- What a raising brings (R79). -/
structure Capture where
  position : Nat
  speed : Nat
  permitted : Nat
deriving DecidableEq, Repr

/-- An entry of the set (R78). Its level is the cause's (5.2). -/
structure Entry where
  cause : Cause
  capture : Capture
  /-- part time at raising, ms, 32 bits -/
  time : Nat
  /-- the cab heard mark, meaningful in CAB_SILENT entries alone (R89) -/
  heard : Bool
deriving DecidableEq, Repr

/-- Intervention Set (chapter 5). -/
structure InterventionSet where
  /-- oldest first (R78) -/
  entries : List Entry
  /-- the loop input level (R83) -/
  loopOpen : Bool
  /-- the loop-break output (R82) -/
  breakOpen : Bool
deriving DecidableEq, Repr

/-- The PARK setting (R104). -/
inductive ParkSetting where
  | apply
  | release
deriving DecidableEq, Repr

/-- A channel's feedback record (R99, R113). -/
structure Feedback where
  lastChange : Nat
  deviationStart : Option Nat
deriving DecidableEq, Repr

/-- Brake Combiner (chapter 6). -/
structure Combiner where
  /-- R102 -/
  driver : Nat
  /-- R104, R105 -/
  park : ParkSetting
  /-- R96 -/
  holding : Bool
  /-- D (R97) -/
  service : Nat
  /-- R98 -/
  blend : Option TrackKind
  /-- R100 -/
  emergency : Bool
  /-- R98, R100 -/
  demand : PerChannel Nat
  /-- R101 -/
  drive : PerChannel Nat
  /-- the spring state; the hold output is energized while it is false (R103) -/
  springApplied : Bool
  /-- R113 -/
  feedback : PerChannel Feedback
deriving DecidableEq, Repr

/-- The sense of a motor drive (R106). -/
inductive Sense where
  | open
  | close
deriving DecidableEq, Repr

/-- One pulse-width output (6.3). -/
structure Output where
  /-- length of the running period, µs -/
  period : Nat
  /-- the moment the running period ends; none while the output is not running -/
  boundary : Timer
  activeOn : Nat
  pendingDuty : Option Nat
  pendingOn : Nat
  activeSense : Option Sense
  pendingSense : Option Sense
deriving DecidableEq, Repr

/-- Drive Engine (6.3). -/
structure DriveEngine where
  valve : PerChannel Output
  motor : PerDoor Output
  /-- V2 follows V1 (R109) -/
  ganged : Bool
deriving DecidableEq, Repr

/-- Sensor Scan (6.4). -/
structure SensorScan where
  /-- kPa (R110) -/
  pressure : PerChannel Nat
  /-- mA (R110) -/
  current : PerDoor Nat
  /-- R110 -/
  timer : Timer
  /-- a read of the converters is in progress (R110) -/
  reading : Bool
deriving DecidableEq, Repr

/-- A channel's rating (R117). -/
inductive Health where
  | healthy
  | degraded
  | failed
deriving DecidableEq, Repr

/-- The steps of a proof that hold the channel (R125, R126). -/
inductive ProofStep where
  | rise
  | fall
deriving DecidableEq, Repr

/-- The proof in progress (R124). -/
structure Proof where
  channel : Channel
  step : ProofStep
  sample : Nat
deriving DecidableEq, Repr

/-- Proving Unit (chapter 7). -/
structure Proving where
  /-- R117 -/
  owed : PerChannel Nat
  /-- R117 -/
  health : PerChannel Health
  /-- a_cap per kind, mm/s² (R121) -/
  capability : PerKind Nat
  /-- R118 -/
  timer : Timer
  /-- R123 -/
  tried : List Channel
  /-- R124 -/
  proof : Option Proof
  /-- R124 -/
  dwell : Timer
deriving DecidableEq, Repr

/-- The states of a door (8.1). -/
inductive DoorState where
  | locked
  | released
  | opening
  | open
  | closing
  | fault
  | isolated
deriving DecidableEq, Repr

/-- One door (chapter 8). -/
structure DoorRecord where
  state : DoorState
  /-- R146 -/
  reopen : Nat
  /-- R146 -/
  closeFailed : Bool
  /-- R141 -/
  closeOrdered : Bool
  /-- R135 -/
  motion : Timer
  /-- R145 -/
  obstruction : Option Nat
  /-- the obstruction limit held, mA (R144) -/
  limit : Nat
  /-- the input levels (R134) -/
  pins : DoorPins
deriving DecidableEq, Repr

/-- Door Controller (chapter 8). -/
structure DoorController where
  door : PerDoor DoorRecord
  /-- R137 -/
  releasedLeft : Bool
  /-- R137 -/
  releasedRight : Bool
  /-- R151 -/
  hold : Bool
deriving DecidableEq, Repr

/-- The outcome of a proof (R127). -/
inductive ProofOutcome where
  | pass
  | failRise
  | failFall
deriving DecidableEq, Repr

/-- What a report record carries after its kind and time (R166). -/
inductive ReportBody where
  | position (p u v permitted : Nat) (direction : Direction) (standstill located : Bool)
  | raised (cause : Cause) (capture : Capture)
  | cleared (cause : Cause)
  | doorEvent (door : Door) (state : DoorState) (closeFailed : Bool)
  | proofResult (channel : Channel) (outcome : ProofOutcome) (owed : Nat)
  | channelState (channel : Channel) (health : Health)
  | markerUnknown (p u : Nat)
  | restrictionRefused (id : Nat)
  | authorityTaken (id : Nat) (inside : Bool)
deriving DecidableEq, Repr

/-- A report record (R166). -/
structure Report where
  /-- part time modulo 65,536 -/
  time : Nat
  body : ReportBody
deriving DecidableEq, Repr

/-- The link state (R164). -/
inductive Link where
  | silent
  | up
  | lost
deriving DecidableEq, Repr

/-- The in-flight burst (R172). -/
structure Burst where
  number : Nat
  /-- header and records as built -/
  body : List Byte
  /-- how many records at the head of the queue it carries -/
  count : Nat
deriving DecidableEq, Repr

/-- A frame going out on a line (R161, R184). -/
structure Transmission where
  frame : List Byte
  /-- the moment its last stop bit ends -/
  ends : Nat
deriving DecidableEq, Repr

/-- Radio Unit (chapter 9). -/
structure RadioUnit where
  /-- R164 -/
  link : Link
  /-- R164 -/
  timer : Timer
  /-- oldest first (R166) -/
  queue : List Report
  /-- R172 -/
  inFlight : Option Burst
  /-- R174 -/
  number : Nat
  /-- R172 -/
  carriedTally : Nat
  /-- R177 -/
  carriedLost : Bool
  /-- R173 -/
  resend : Nat
  /-- R167 -/
  lost : Nat
  /-- R177 -/
  wasLost : Bool
  /-- R169 -/
  positionTimer : Timer
  /-- R161 -/
  transmitter : Option Transmission
  /-- the bytes kept since the sync, none while hunting (R158, R160) -/
  framer : List Byte
deriving DecidableEq, Repr

/-- The operating states (10.3). -/
inductive OpState where
  | config
  | run
  | quiescing
deriving DecidableEq, Repr

/-- The configuration items (10.4). -/
structure Settings where
  carAddress : BitVec 16
  groupMask : BitVec 16
  carLength : Nat
  trainLength : Nat
  maxSpeed : Nat
  nominal : PerKind Nat
  react : PerKind Nat
  barredCreep : Nat
  rbShare : PerKind Nat
  abShare : PerKind Nat
  holdLevel : Nat
  valvePeriod : Nat
  motorPeriod : Nat
  gangRack : Bool
  fullPressure : PerChannel Nat
  feedbackTol : Nat
  /-- in seconds -/
  proofPeriod : Nat
  owedDegrade : Nat
  openDir : PerDoor Vertical
  doorDuty : Nat
  compGain : Nat
  obstructLimit : Nat
  aheadLow : Nat
  behindHigh : Nat
  rollbackLimit : Nat
  /-- in ms -/
  radioTimeout : Nat
  radioLossSpeed : Nat
  /-- in ms -/
  positionInterval : Nat
  burstCap : Nat
  answerEmpty : Bool
  listenOnly : Bool
  summaryMask : Byte
  /-- in ms -/
  cabTimeout : Nat
deriving DecidableEq, Repr

/-- One request line's port (R158, R184). -/
structure Port where
  /-- the bytes kept since the sync, none while hunting (R158) -/
  framer : List Byte
  /-- frames of responses built and not yet begun, oldest first -/
  waiting : List (List Byte)
  sending : Option Transmission
  overflow : Nat
deriving DecidableEq, Repr

/-- Line Unit (chapter 10). -/
structure LineUnit where
  /-- R186 -/
  opState : OpState
  /-- R190, R191 -/
  settings : Settings
  /-- R193 -/
  cabTimer : Timer
  cab : Port
  crew : Port
deriving DecidableEq, Repr

/-- The whole part, its clock and the commands that wait. -/
structure State where
  /-- µs since power-on reset (log 1) -/
  clock : Nat
  odo : Odometry
  win : Window
  auth : AuthorityTable
  sup : Supervisor
  set : InterventionSet
  comb : Combiner
  drive : DriveEngine
  scan : SensorScan
  prov : Proving
  doors : DoorController
  radio : RadioUnit
  line : LineUnit
  /-- the commands waiting, first in, first out -/
  pending : List Instr
deriving DecidableEq, Repr

/-- Every item at its default of 10.4 (R195). -/
def Settings.default : Settings where
  carAddress := 1#16
  groupMask := 65535#16
  carLength := 160
  trainLength := 300
  maxSpeed := 12500
  nominal := { rack := 4000, adhesion := 1100, entry := 2200 }
  react := { rack := 700, adhesion := 900, entry := 900 }
  barredCreep := 1000
  rbShare := { rack := 100, adhesion := 0, entry := 60 }
  abShare := { rack := 40, adhesion := 100, entry := 100 }
  holdLevel := 60
  valvePeriod := 2000
  motorPeriod := 50
  gangRack := false
  fullPressure := { rb1 := 500, rb2 := 500, ab1 := 500, ab2 := 500 }
  feedbackTol := 60
  proofPeriod := 1800
  owedDegrade := 2
  openDir := { d1 := .up, d2 := .down, d3 := .up, d4 := .down }
  doorDuty := 45
  compGain := 5
  obstructLimit := 1800
  aheadLow := 6
  behindHigh := 4
  rollbackLimit := 3
  radioTimeout := 10000
  radioLossSpeed := 2800
  positionInterval := 5000
  burstCap := 96
  answerEmpty := true
  listenOnly := false
  summaryMask := 255#8
  cabTimeout := 1000

/-- An output that is not running (R115). -/
def Output.off : Output where
  period := 0
  boundary := none
  activeOn := 0
  pendingDuty := none
  pendingOn := 0
  activeSense := none
  pendingSense := none

/-- A port after power-on reset (R195). -/
def Port.idle : Port where
  framer := []
  waiting := []
  sending := none
  overflow := 0

/-- A door as power-on reset sets it from its closed-and-locked switch (R155). -/
def DoorRecord.fromPins (pins : DoorPins) : DoorRecord where
  state := if pins.closedMade then .locked else .fault
  reopen := 0
  closeFailed := false
  closeOrdered := false
  motion := none
  obstruction := none
  limit := 0
  pins := pins

/-- The Radio Unit after power-on reset (R180). -/
def RadioUnit.atReset : RadioUnit where
  link := .silent
  timer := none
  queue := []
  inFlight := none
  number := 0
  carriedTally := 0
  carriedLost := false
  resend := 0
  lost := 0
  wasLost := false
  positionTimer := some 5000000
  transmitter := none
  framer := []

/-- Every block at the values of its reset table (R18, R39, R55, R76, R93, R111, R115, R132, R155, R180, R195), the inputs as
read at the end of reset, the timers that start at the end of reset running, and no block's first step taken yet. While reset
is held the loop-break output is open (`State.heldInReset`). -/
def State.atReset (pins : PinLevels) : State where
  clock := 0
  odo :=
    { p := 0, u := 255, located := false, v := 0, standstill := true, standstillTimer := none, lastDir := none
      lastInterval := none, lastToothAt := none, direction := .neutral, rollback := 0, slip := 0
      phaseA := pins.phaseA, phaseB := pins.phaseB, stepCount := 0 }
  win := { records := [], endUp := false, endDown := false, located := none, wanted := .none, ahead := 0, behind := 0 }
  auth :=
    { a := { low := 1, high := 0 }, b := { low := 1, high := 0 }, id := 0, inside := false, inA := false, inB := false
      restrictions := [] }
  sup :=
    { staticLimit := 0, permitted := 0, warning := 0, serviceSpeed := 150, emergencySpeed := 400, state := .normal
      permit := false, timer := some Config.evaluationTime }
  set := { entries := [], loopOpen := pins.loopOpen, breakOpen := false }
  comb :=
    { driver := 0, park := .apply, holding := false, service := 0, blend := none, emergency := false
      demand := { rb1 := 0, rb2 := 0, ab1 := 0, ab2 := 0 }, drive := { rb1 := 0, rb2 := 0, ab1 := 0, ab2 := 0 }
      springApplied := true
      feedback :=
        { rb1 := { lastChange := 0, deviationStart := none }, rb2 := { lastChange := 0, deviationStart := none }
          ab1 := { lastChange := 0, deviationStart := none }, ab2 := { lastChange := 0, deviationStart := none } } }
  drive :=
    { valve := { rb1 := Output.off, rb2 := Output.off, ab1 := Output.off, ab2 := Output.off }
      motor := { d1 := Output.off, d2 := Output.off, d3 := Output.off, d4 := Output.off }, ganged := false }
  scan :=
    { pressure := { rb1 := 0, rb2 := 0, ab1 := 0, ab2 := 0 }, current := { d1 := 0, d2 := 0, d3 := 0, d4 := 0 }
      timer := some Config.scanTime, reading := false }
  prov :=
    { owed := { rb1 := 2, rb2 := 2, ab1 := 2, ab2 := 2 }
      health := { rb1 := .degraded, rb2 := .degraded, ab1 := .degraded, ab2 := .degraded }
      capability := { rack := 2000, adhesion := 550, entry := 1100 }
      timer := some 1800000000, tried := [], proof := none, dwell := none }
  doors :=
    { door :=
        { d1 := DoorRecord.fromPins pins.door.d1, d2 := DoorRecord.fromPins pins.door.d2
          d3 := DoorRecord.fromPins pins.door.d3, d4 := DoorRecord.fromPins pins.door.d4 }
      releasedLeft := false, releasedRight := false
      hold :=
        !(pins.door.d1.closedMade && pins.door.d2.closedMade && pins.door.d3.closedMade && pins.door.d4.closedMade) }
  radio := RadioUnit.atReset
  line := { opState := .config, settings := Settings.default, cabTimer := none, cab := Port.idle, crew := Port.idle }
  pending := []

/-- The inputs of `State.reset` (DESIGN CHOICE, log 4): the phase pair at position 0, the loop closed, every leaf shut and
locked, no button pressed. -/
def PinLevels.atRest : PinLevels where
  phaseA := false
  phaseB := false
  loopOpen := false
  door :=
    { d1 := { closedMade := true, openMade := false, pressed := false }
      d2 := { closedMade := true, openMade := false, pressed := false }
      d3 := { closedMade := true, openMade := false, pressed := false }
      d4 := { closedMade := true, openMade := false, pressed := false } }

/-- A valve output in its first period, begun at the end of reset with HOLD_LEVEL 60 (R106, R115). -/
def Output.firstPeriod : Output where
  period := 2000
  boundary := some 2000
  activeOn := 1200
  pendingDuty := some 60
  pendingOn := 1200
  activeSense := none
  pendingSense := none

/-- The machine right after power-on reset: the reset tables (`State.atReset`), the combiner's first step (R115) and the proof
of RB1 that begins at the end of reset (R132). Laws/PowerOn.lean shows that POWER_ON_RESET with these inputs gives it. -/
def State.reset : State :=
  { State.atReset PinLevels.atRest with
    comb :=
      { (State.atReset PinLevels.atRest).comb with
        holding := true
        service := 60
        demand := { rb1 := 60, rb2 := 60, ab1 := 60, ab2 := 60 }
        drive := { rb1 := 100, rb2 := 60, ab1 := 60, ab2 := 60 } }
    drive :=
      { valve :=
          { rb1 := { Output.firstPeriod with pendingDuty := some 100, pendingOn := 2000 }
            rb2 := Output.firstPeriod, ab1 := Output.firstPeriod, ab2 := Output.firstPeriod }
        motor := (State.atReset PinLevels.atRest).drive.motor, ganged := false }
    prov :=
      { (State.atReset PinLevels.atRest).prov with
        tried := [.rb1]
        proof := some { channel := .rb1, step := .rise, sample := 0 }
        dwell := some Config.proofDwell } }

end Sys2Proof.Machine
end

