-- ==== Sys2Proof/Machine/Ops.lean ====
section
/-! DEFINITION. The operations every block uses: access to one channel's, door's or kind's item, replacement of one block of
the state, the clock and the timers, the readings one block takes of another, and the report queue (9.4). -/

namespace Sys2Proof

/-! ### One item of several -/

/-- The item of one channel. -/
def PerChannel.get {α : Type} (t : PerChannel α) : Channel → α
  | .rb1 => t.rb1
  | .rb2 => t.rb2
  | .ab1 => t.ab1
  | .ab2 => t.ab2

/-- The same items but one channel's. -/
def PerChannel.put {α : Type} (t : PerChannel α) (c : Channel) (x : α) : PerChannel α :=
  match c with
  | .rb1 => { t with rb1 := x }
  | .rb2 => { t with rb2 := x }
  | .ab1 => { t with ab1 := x }
  | .ab2 => { t with ab2 := x }

/-- The items computed channel by channel. -/
def PerChannel.of {α : Type} (f : Channel → α) : PerChannel α where
  rb1 := f .rb1
  rb2 := f .rb2
  ab1 := f .ab1
  ab2 := f .ab2

/-- The item of one door. -/
def PerDoor.get {α : Type} (t : PerDoor α) : Door → α
  | .d1 => t.d1
  | .d2 => t.d2
  | .d3 => t.d3
  | .d4 => t.d4

/-- The same items but one door's. -/
def PerDoor.put {α : Type} (t : PerDoor α) (d : Door) (x : α) : PerDoor α :=
  match d with
  | .d1 => { t with d1 := x }
  | .d2 => { t with d2 := x }
  | .d3 => { t with d3 := x }
  | .d4 => { t with d4 := x }

/-- The items computed door by door. -/
def PerDoor.of {α : Type} (f : Door → α) : PerDoor α where
  d1 := f .d1
  d2 := f .d2
  d3 := f .d3
  d4 := f .d4

namespace Machine

/-- The item of one kind of track. -/
def PerKind.get {α : Type} (t : PerKind α) : TrackKind → α
  | .rack => t.rack
  | .adhesion => t.adhesion
  | .entry => t.entry

/-- The same items but one kind's. -/
def PerKind.put {α : Type} (t : PerKind α) (k : TrackKind) (x : α) : PerKind α :=
  match k with
  | .rack => { t with rack := x }
  | .adhesion => { t with adhesion := x }
  | .entry => { t with entry := x }

/-- The channels in the manual's order (R118, R124). -/
def channels : List Channel := [.rb1, .rb2, .ab1, .ab2]

/-- The doors in the manual's order (R135). -/
def allDoors : List Door := [.d1, .d2, .d3, .d4]

/-! ### One block of the state -/

def State.withClock (s : State) (x : Nat) : State := { s with clock := x }
def State.withOdo (s : State) (x : Odometry) : State := { s with odo := x }
def State.withWin (s : State) (x : Window) : State := { s with win := x }
def State.withAuth (s : State) (x : AuthorityTable) : State := { s with auth := x }
def State.withSup (s : State) (x : Supervisor) : State := { s with sup := x }
def State.withSet (s : State) (x : InterventionSet) : State := { s with set := x }
def State.withComb (s : State) (x : Combiner) : State := { s with comb := x }
def State.withDrive (s : State) (x : DriveEngine) : State := { s with drive := x }
def State.withScan (s : State) (x : SensorScan) : State := { s with scan := x }
def State.withProv (s : State) (x : Proving) : State := { s with prov := x }
def State.withDoors (s : State) (x : DoorController) : State := { s with doors := x }
def State.withRadio (s : State) (x : RadioUnit) : State := { s with radio := x }
def State.withLine (s : State) (x : LineUnit) : State := { s with line := x }
def State.withPending (s : State) (x : List Instr) : State := { s with pending := x }

/-! ### Time -/

/-- The moment `us` µs from now. -/
def State.after (s : State) (us : Nat) : Nat := s.clock + us

/-- The part time: ms since reset, 32 bits, wrapping (00_scope.md, Conventions). -/
def State.partTime (s : State) : Nat := s.clock / 1000 % 4294967296

/-- The part time as a record carries it, modulo 65,536 (R166). -/
def State.recordTime (s : State) : Nat := s.partTime % 65536

/-- A timer runs and its moment has come. -/
def Timer.due (t : Timer) (now : Nat) : Bool :=
  match t with
  | none => false
  | some m => m ≤ now

/-- An expiry of the timer can come: it runs, and some of the `length` µs for which it is (re)started has passed. A timer that an
event has just (re)started does not expire at that moment: the event taken first restarts it before it expires (R13, R165,
R193). -/
def Timer.expires (t : Timer) (now length : Nat) : Bool :=
  match t with
  | none => false
  | some m => decide (m < now + length) || decide (m ≤ now)

/-! ### What the blocks read of each other -/

/-- The configuration as it stands (R191). -/
abbrev State.cfg (s : State) : Settings := s.line.settings

/-- The level of a cause (5.2). -/
def Cause.level : Cause → Level
  | .overspeedService => .service
  | .overspeedEmergency => .emergency
  | .authorityOverrun => .emergency
  | .rollback => .emergency
  | .doorUnlockedMoving => .service
  | .cabSilent => .service
  | .emergencyLoop => .emergency
  | .brakeFeedback => .service

/-- An entry of the cause is present (R79). -/
def InterventionSet.has (i : InterventionSet) (c : Cause) : Bool := i.entries.any (fun e => e.cause == c)

/-- An entry of the level is present (R82, R97). -/
def InterventionSet.hasLevel (i : InterventionSet) (l : Level) : Bool := i.entries.any (fun e => e.cause.level == l)

/-- The car must not be let go: neither LOCKED nor ISOLATED (R73, R151). -/
def DoorState.unlocked : DoorState → Bool
  | .locked => false
  | .isolated => false
  | _ => true

/-- The leaf is not known to be shut: OPENING, OPEN, CLOSING or FAULT (R135, R152). -/
def DoorState.ajar : DoorState → Bool
  | .opening => true
  | .open => true
  | .closing => true
  | .fault => true
  | _ => false

/-- The door moves: OPENING or CLOSING (R135, R144). -/
def DoorState.moving : DoorState → Bool
  | .opening => true
  | .closing => true
  | _ => false

/-- The time limit that a door's state puts on its motion (R140, R142); none where it does not move. -/
def DoorState.timeLimit : DoorState → Option MotionLimit
  | .opening => some .opening
  | .closing => some .closing
  | _ => none

/-- How long the motion may take, in µs (R140, R142). -/
def motionLength : MotionLimit → Nat
  | .opening => Config.openTimeLimit
  | .closing => Config.closeTimeLimit

/-- Some door is neither LOCKED nor ISOLATED (R151). -/
def DoorController.anyUnlocked (d : DoorController) : Bool :=
  allDoors.any (fun i => (d.door.get i).state.unlocked)

/-- The capture the set takes itself: p and v as they stand, P of the last completed evaluation (R79). -/
def State.capture (s : State) : Capture where
  position := s.odo.p
  speed := s.odo.v
  permitted := s.sup.permitted

/-! ### The report queue (9.4) -/

/-- The record is a POSITION record. -/
def Report.isPosition (r : Report) : Bool :=
  match r.body with
  | .position .. => true
  | _ => false

/-- The number of records in flight, all at the head of the queue (R166). -/
def RadioUnit.flying (r : RadioUnit) : Nat :=
  match r.inFlight with
  | none => 0
  | some b => b.count

/-- An unsent POSITION record is held (R167). -/
def RadioUnit.holdsUnsentPosition (r : RadioUnit) : Bool := (r.queue.drop r.flying).any Report.isPosition

/-- Queues an event record: appended, or in the place of an unsent POSITION record at a full queue, or counted lost (R167). -/
def RadioUnit.queueEvent (r : RadioUnit) (x : Report) : RadioUnit :=
  if r.queue.length < Config.queueCapacity then { r with queue := r.queue ++ [x] }
  else if r.holdsUnsentPosition then
    { r with queue := r.queue.take r.flying ++ (r.queue.drop r.flying).eraseP Report.isPosition ++ [x] }
  else { r with lost := min 255 (r.lost + 1) }

/-- Queues a POSITION record: over the unsent one in its place, or appended, or dropped at a full queue (R168). -/
def RadioUnit.queuePosition (r : RadioUnit) (x : Report) : RadioUnit :=
  if r.holdsUnsentPosition then
    { r with
      queue := r.queue.take r.flying ++ (r.queue.drop r.flying).map (fun y => if y.isPosition then x else y) }
  else if r.queue.length < Config.queueCapacity then { r with queue := r.queue ++ [x] }
  else r

/-- An event record is handed to the Radio Unit; with LISTEN_ONLY on it is not made (R167, R178). -/
def State.report (s : State) (b : ReportBody) : State :=
  if s.cfg.listenOnly then s else s.withRadio (s.radio.queueEvent { time := s.recordTime, body := b })

/-- A POSITION record is made, as the state stands; with LISTEN_ONLY on it is not made (R168, R178). -/
def State.reportPosition (s : State) : State :=
  if s.cfg.listenOnly then s
  else
    s.withRadio (s.radio.queuePosition
      { time := s.recordTime
        body := .position s.odo.p s.odo.u s.odo.v s.sup.permitted s.odo.direction s.odo.standstill s.odo.located })

end Machine

end Sys2Proof
end

