-- ==== Sys2Proof/Machine/Drive.lean ====
section
/-! DEFINITION. The Drive Engine (6.3): writes, period ends, the emergency restart and ganging. -/

namespace Sys2Proof.Machine

/-- floor(duty × period / 100) µs (R106). -/
def onTime (duty period : Nat) : Nat := duty * period / 100

/-- A duty is written: pending until the period ends, or the first period begins at once (R106). -/
def Output.write (o : Output) (duty : Nat) (sense : Option Sense) (configured now : Nat) : Output :=
  match o.boundary with
  | none =>
    { period := configured, boundary := some (now + configured), activeOn := onTime duty configured
      pendingDuty := some duty, pendingOn := onTime duty configured, activeSense := sense, pendingSense := sense }
  | some _ =>
    { o with
      pendingDuty := some duty
      pendingOn := onTime duty o.period
      pendingSense := if duty = 0 then o.pendingSense else sense }

/-- The running period ends and the next begins, with the configured period (R106, R108). An output not running has none. -/
def Output.endPeriod (o : Output) (configured now : Nat) : Output :=
  match o.boundary with
  | none => o
  | some _ =>
    { o with
      period := configured
      boundary := some (now + configured)
      activeOn := onTime (o.pendingDuty.getD 0) configured
      pendingOn := onTime (o.pendingDuty.getD 0) configured
      activeSense := o.pendingSense }

/-- An emergency demand: the running period ends at once and a new one begins at full on-time (R107). -/
def Output.restartFull (o : Output) (configured now : Nat) : Output :=
  { o with
    period := configured
    boundary := some (now + configured)
    activeOn := configured
    pendingDuty := some 100
    pendingOn := configured }

/-- The output is on: it runs, and its period is not yet older than the active on-time; an on-time equal to the period keeps it on
without a gap until the next period takes over (R106). -/
def Output.isOn (o : Output) (now : Nat) : Bool :=
  match o.boundary with
  | none => false
  | some b => decide (0 < o.activeOn) && (decide (now + o.period - b < o.activeOn) || decide (o.period ≤ o.activeOn))

/-- V1 to V4 restart at full on-time; V1's period ends here, so ganging resumes here if it may (R107, R109, log 17). -/
def DriveEngine.restartValves (e : DriveEngine) (wantGang : Bool) (period now : Nat) : DriveEngine :=
  { e with
    valve := PerChannel.of (fun c => (e.valve.get c).restartFull period now)
    ganged := wantGang }

/-- One valve output takes a drive value that differs from the one last written (R99). -/
def Output.follow (o : Output) (old new period now : Nat) : Output :=
  if new = old then o else o.write new none period now

/-- The drive values that changed are written. While V2 follows V1 it shows V1's; when ganging is suspended V2 keeps its
period and takes RB2's own drive value (R99, R109). -/
def DriveEngine.writeValves (e : DriveEngine) (old new : PerChannel Nat) (wantGang : Bool) (period now : Nat) :
    DriveEngine :=
  let v1 := e.valve.rb1.follow old.rb1 new.rb1 period now
  { e with
    valve :=
      { rb1 := v1
        rb2 :=
          if e.ganged then (if wantGang then v1 else e.valve.rb2.write new.rb2 none period now)
          else e.valve.rb2.follow old.rb2 new.rb2 period now
        ab1 := e.valve.ab1.follow old.ab1 new.ab1 period now
        ab2 := e.valve.ab2.follow old.ab2 new.ab2 period now }
    ganged := e.ganged && wantGang }

/-- GANG_RACK is on and no proof suspends it (R109). -/
def State.wantGang (s : State) : Bool := s.cfg.gangRack && s.prov.proof.isNone

/-- A valve output's period ends. V1's end carries V2 along while V2 follows it, and is where V2 takes up V1's timing again;
while V2 follows V1 it has no end of its own (R106, R109). -/
def DriveEngine.valveEnds (e : DriveEngine) (c : Channel) (wantGang : Bool) (period now : Nat) : DriveEngine :=
  match c with
  | .rb1 =>
    let v1 := e.valve.rb1.endPeriod period now
    if wantGang then { e with valve := { e.valve with rb1 := v1, rb2 := v1 }, ganged := true }
    else { e with valve := { e.valve with rb1 := v1 } }
  | .rb2 => if e.ganged then e else { e with valve := e.valve.put .rb2 (e.valve.rb2.endPeriod period now) }
  | c => { e with valve := e.valve.put c ((e.valve.get c).endPeriod period now) }

/-- A motor output's period ends (R106). -/
def DriveEngine.motorEnds (e : DriveEngine) (d : Door) (period now : Nat) : DriveEngine :=
  { e with motor := e.motor.put d ((e.motor.get d).endPeriod period now) }

/-- The period of one output ends (R106, R108, R109). -/
def State.outputEnds (s : State) : OutputId → State
  | .valve c => s.withDrive (s.drive.valveEnds c s.wantGang s.cfg.valvePeriod s.clock)
  | .motor d => s.withDrive (s.drive.motorEnds d s.cfg.motorPeriod s.clock)

end Sys2Proof.Machine
end

