-- ==== Sys2Proof/Machine/Track.lean ====
section
/-! DEFINITION. Footprints (R6), the questions the other blocks ask the window (R22, R23), gravity and barring (R34, R64). -/

namespace Sys2Proof

/-- Direction as a way of travel; none in NEUTRAL. -/
def Direction.travel : Direction → Option Vertical
  | .neutral => none
  | .up => some .up
  | .down => some .down

/-- The other way. -/
def Vertical.opposite : Vertical → Vertical
  | .up => .down
  | .down => .up

namespace Machine

/-! ### Footprints (R6): signed and not clamped -/

/-- A range of positions, both ends belonging to it. -/
structure Footprint where
  low : Int
  high : Int
deriving DecidableEq, Repr

/-- A footprint widened by the uncertainty at both ends. -/
def Footprint.widened (x : Footprint) (u : Nat) : Footprint := { low := x.low - u, high := x.high + u }

/-- Car footprint: p − CAR_LENGTH to p. -/
def State.carFootprint (s : State) : Footprint := { low := (s.odo.p : Int) - s.cfg.carLength, high := s.odo.p }

/-- Train footprint: p − TRAIN_LENGTH to p. -/
def State.trainFootprint (s : State) : Footprint := { low := (s.odo.p : Int) - s.cfg.trainLength, high := s.odo.p }

/-- Extended car footprint: p − CAR_LENGTH − u to p + u. -/
def State.extendedCarFootprint (s : State) : Footprint := s.carFootprint.widened s.odo.u

/-- Extended train footprint: lo = p − TRAIN_LENGTH − u to hi = p + u. -/
def State.extendedTrainFootprint (s : State) : Footprint := s.trainFootprint.widened s.odo.u

/-- lo: the low end of the extended train footprint. -/
def State.lo (s : State) : Int := s.extendedTrainFootprint.low

/-- hi: the high end of the extended footprints. -/
def State.hi (s : State) : Int := s.extendedTrainFootprint.high

/-- Low end of the extended car footprint. -/
def State.carLo (s : State) : Int := s.extendedCarFootprint.low

/-- The front of the extended train footprint for a way of travel. -/
def State.front (s : State) : Vertical → Int
  | .up => s.hi
  | .down => s.lo

/-- The car middle, used for brake blending. -/
def State.carMiddle (s : State) : Int := (s.odo.p : Int) - (s.cfg.carLength / 2 : Nat)

/-! ### Segments -/

/-- The highest position of a segment (R20): start + length − 1. -/
def Segment.last (g : Segment) : Int := (g.start : Int) + g.length - 1

/-- The segment contains the position (R22). -/
def Segment.contains (g : Segment) (x : Int) : Bool := (g.start : Int) ≤ x && x ≤ g.last

/-- The segment overlaps the range (R22). -/
def Segment.overlaps (g : Segment) (a b : Int) : Bool := (g.start : Int) ≤ b && a ≤ g.last

/-- The position of the segment's marker (1.3): start + offset. -/
def Segment.markerAt (g : Segment) : Option Nat := g.marker.map (fun o => g.start + o)

/-- The line speed limit for a way of travel. -/
def Segment.limit (g : Segment) : Vertical → Nat
  | .up => g.limitUp
  | .down => g.limitDown

/-- The barred flag for a way of travel. -/
def Segment.barred (g : Segment) : Vertical → Bool
  | .up => g.barredUp
  | .down => g.barredDown

/-! ### Questions to the window (R22) -/

/-- The record containing a position. -/
def Window.containing (w : Window) (x : Int) : Option Segment := w.records.find? (fun g => g.contains x)

/-- The records overlapping a range. -/
def Window.overlapping (w : Window) (a b : Int) : List Segment := w.records.filter (fun g => g.overlaps a b)

/-- The window's start: the start of its lowest record. -/
def Window.first? (w : Window) : Option Int := w.records.head?.map (fun g => (g.start : Int))

/-- The window's end: the end of its highest record. -/
def Window.last? (w : Window) : Option Int := w.records.getLast?.map Segment.last

/-- The window is not empty and its start and end enclose the range (R22). -/
def Window.covers (w : Window) (a b : Int) : Bool :=
  match w.first?, w.last? with
  | some f, some l => f ≤ a && b ≤ l
  | _, _ => false

/-- The record lies beyond the range at the edge: above its high end, or below its low end (R23). -/
def Segment.beyond (g : Segment) (lo hi : Int) : Vertical → Bool
  | .up => hi < (g.start : Int)
  | .down => g.last < lo

/-- The records ahead (R23); none in NEUTRAL. -/
def State.aheadRecords (s : State) : List Segment :=
  match s.odo.direction.travel with
  | none => []
  | some t => s.win.records.filter (fun g => g.beyond s.lo s.hi t)

/-- The records behind (R23); none in NEUTRAL. -/
def State.behindRecords (s : State) : List Segment :=
  match s.odo.direction.travel with
  | none => []
  | some t => s.win.records.filter (fun g => g.beyond s.lo s.hi t.opposite)

/-! ### Gravity and barring (R34, R64) -/

/-- Gd: the descending grade for a way of travel. -/
def descendingGrade (gradient : Int) : Vertical → Int
  | .up => -gradient
  | .down => gradient

/-- gc = ceil(max(0, Gd) × 9,807 / 1,000), mm/s². -/
def gravity (gradient : Int) (t : Vertical) : Nat := ((descendingGrade gradient t).toNat * 9807 + 999) / 1000

/-- The segment is barred for a way of travel when a_cap(kind) − gc < DECEL_FLOOR, on the unclamped difference (R34). -/
def Segment.isBarred (g : Segment) (cap : PerKind Nat) (t : Vertical) : Bool :=
  decide (((cap.get g.kind : Int) - (gravity g.gradient t : Int)) < (Config.decelFloor : Int))

/-- The record with its two flags as the capability makes them (R34). -/
def Segment.withBarring (g : Segment) (cap : PerKind Nat) : Segment :=
  { g with barredUp := g.isBarred cap .up, barredDown := g.isBarred cap .down }

/-- a_seg = max(DECEL_FLOOR, a_cap(kind) − gc) (R64). -/
def Segment.deceleration (g : Segment) (cap : PerKind Nat) (t : Vertical) : Nat :=
  max Config.decelFloor (cap.get g.kind - gravity g.gradient t)

end Machine

end Sys2Proof
end

