-- ==== Sys2Proof/Machine/Figures.lean ====
section
/-! DEFINITION. What one evaluation of the Speed Supervisor computes (4.2 to 4.5): the static limit L, the targets, their
curves and P; the decay of v between teeth (R11). -/

namespace Sys2Proof.Machine

/-! ### The exact square root, rounded down (R67) -/

/-- One binary digit of the root: kept when the square still fits. -/
def rootDigit (n r b : Nat) : Nat := if (r + b) * (r + b) ≤ n then r + b else r

/-- floor(sqrt(n)) for n below 2³⁰, digit by digit; R67 asks for it below 400,000,000. -/
def floorSqrt (n : Nat) : Nat :=
  [16384, 8192, 4096, 2048, 1024, 512, 256, 128, 64, 32, 16, 8, 4, 2, 1].foldl (rootDigit n) 0

/-! ### Restrictions as the Authority Table presents them (R53) -/

/-- The entry applies to a way of travel. -/
def Restriction.appliesTo (r : Restriction) : Vertical → Bool
  | .up => r.direction != .down
  | .down => r.direction != .up

/-- The entry is not empty and applies to the way of travel. -/
def Restriction.bears (r : Restriction) (t : Vertical) : Bool := r.appliesTo t && decide (r.low ≤ r.high)

/-- The entry overlaps the footprint. -/
def Restriction.overlaps (r : Restriction) (lo hi : Int) : Bool := (r.low : Int) ≤ hi && lo ≤ (r.high : Int)

/-- The entry's end nearest to a front that travels this way. -/
def Restriction.nearEnd (r : Restriction) : Vertical → Int
  | .up => r.low
  | .down => r.high

/-- The entry lies ahead of the footprint. -/
def Restriction.isAhead (r : Restriction) (lo hi : Int) : Vertical → Bool
  | .up => hi < (r.low : Int)
  | .down => (r.high : Int) < lo

/-! ### The static limit (R60, R61) -/

/-- None of the conditions of R60 holds. -/
def State.supervisable (s : State) : Bool := s.odo.located && s.win.covers s.lo s.hi && s.auth.inside

/-- The terms of R61 other than MAX_SPEED. -/
def State.limitTerms (s : State) (t : Vertical) : List Nat :=
  (s.win.overlapping s.lo s.hi).map (fun g => g.limit t)
    ++ (s.auth.restrictions.filter (fun r => r.bears t && r.overlaps s.lo s.hi)).map Restriction.speed
    ++ (if (s.win.overlapping s.lo s.hi).any (fun g => g.barred t) then [s.cfg.barredCreep] else [])
    ++ (if s.radio.link = .lost then [s.cfg.radioLossSpeed] else [])

/-- L for a way of travel when R60 does not make it 0. -/
def State.lineLimit (s : State) (t : Vertical) : Nat := (s.limitTerms t).foldl min s.cfg.maxSpeed

/-! ### Targets (R62, R48) -/

/-- A position ahead and the speed the front must not exceed there. -/
structure Target where
  position : Int
  speed : Nat
deriving DecidableEq, Repr

/-- The end of a segment nearest to a front that travels this way. -/
def Segment.nearEnd (g : Segment) : Vertical → Int
  | .up => g.start
  | .down => g.last

/-- Near ends of the records ahead; speed 0 where the record is barred. -/
def State.recordTargets (s : State) (t : Vertical) : List Target :=
  (s.win.records.filter (fun g => g.beyond s.lo s.hi t)).map
    (fun g => { position := g.nearEnd t, speed := if g.barred t then 0 else g.limit t })

/-- Near ends, within the window, of the applicable restrictions ahead. -/
def State.restrictionTargets (s : State) (t : Vertical) : List Target :=
  (s.auth.restrictions.filter
    (fun r => r.bears t && r.isAhead s.lo s.hi t && s.win.covers (r.nearEnd t) (r.nearEnd t))).map
    (fun r => { position := r.nearEnd t, speed := r.speed })

/-- The first position beyond a range for a way of travel. -/
def Range.beyond (r : Range) : Vertical → Int
  | .up => (r.high : Int) + 1
  | .down => (r.low : Int) - 1

/-- d: the teeth the front must advance to first occupy a position (R63). -/
def State.distance (s : State) (t : Vertical) (x : Int) : Int :=
  match t with
  | .up => x - s.hi
  | .down => s.lo - x

/-- The position of the authority end: of the containing range, of the farther one when both contain the footprint (R48). -/
def State.authorityEnd (s : State) (t : Vertical) : Option Int :=
  if s.auth.inside then
    match s.auth.inA, s.auth.inB with
    | true, true =>
      if s.distance t (s.auth.b.beyond t) > s.distance t (s.auth.a.beyond t) then some (s.auth.b.beyond t)
      else some (s.auth.a.beyond t)
    | true, false => some (s.auth.a.beyond t)
    | false, true => some (s.auth.b.beyond t)
    | false, false => none
  else none

/-- The first position beyond the travel edge of the window. -/
def State.windowEdge (s : State) : Vertical → Option Int
  | .up => s.win.last?.map (· + 1)
  | .down => s.win.first?.map (· - 1)

/-- Every target for a way of travel (R62). -/
def State.targets (s : State) (t : Vertical) : List Target :=
  s.recordTargets t ++ s.restrictionTargets t
    ++ (s.authorityEnd t).toList.map (fun x => { position := x, speed := 0 })
    ++ (s.windowEdge t).toList.map (fun x => { position := x, speed := 0 })

/-! ### Curves (R64 to R67) -/

/-- The record containing the front. -/
def State.frontRecord (s : State) (t : Vertical) : Option Segment := s.win.containing (s.front t)

/-- The records over which the front passes before it reaches a position: those overlapping hi to x − 1, or x + 1 to lo; none
when that range is empty (R65). -/
def State.crossed (s : State) (t : Vertical) (x : Int) : List Segment :=
  if s.distance t x ≤ 0 then []
  else
    match t with
    | .up => s.win.overlapping s.hi (x - 1)
    | .down => s.win.overlapping (x + 1) s.lo

/-- a_eff of a curve: the least a_seg over the records crossed, or that of the front's record when none is (R65). -/
def State.effectiveDeceleration (s : State) (t : Vertical) (x : Int) : Nat :=
  let cap := s.prov.capability
  match s.crossed t x with
  | g :: rest => (rest.map (fun r => r.deceleration cap t)).foldl min (g.deceleration cap t)
  | [] =>
    match s.frontRecord t with
    | some g => g.deceleration cap t
    | none => Config.decelFloor

/-- r = ceil(v × t_r / 1,000) mm, t_r of the kind of the record containing the front (R66). -/
def State.reactionDistance (s : State) (t : Vertical) : Nat :=
  match s.frontRecord t with
  | some g => (s.odo.v * s.cfg.react.get g.kind + 999) / 1000
  | none => 0

/-- C from vt, a_eff and d_eff (R67). -/
def curveSpeed (vt decel : Nat) (dEff : Int) : Nat :=
  let sq := if dEff ≤ 0 then vt * vt else vt * vt + 2 * decel * dEff.toNat
  if 400000000 ≤ sq then 20000 else floorSqrt sq

/-- The curve speed of one target (R67). -/
def State.curve (s : State) (t : Vertical) (x : Target) : Nat :=
  curveSpeed x.speed (s.effectiveDeceleration t x.position)
    (s.distance t x.position * 100 - (s.reactionDistance t : Int))

/-! ### The four speeds (R68) -/

/-- L of this evaluation (R60, R61). -/
def State.newLimit (s : State) : Nat :=
  match s.odo.direction.travel with
  | none => 0
  | some t => if s.supervisable then s.lineLimit t else 0

/-- P of this evaluation: the least of L and every curve; 0 when L is 0 (R68). -/
def State.newPermitted (s : State) : Nat :=
  match s.odo.direction.travel with
  | none => 0
  | some t => if s.supervisable then ((s.targets t).map (s.curve t)).foldl min (s.lineLimit t) else 0

/-- I_s at P (R68). -/
def serviceMargin (p : Nat) : Nat := p + p / 16 + 150

/-- I_e at P (R68). -/
def emergencyMargin (p : Nat) : Nat := p + p / 8 + 400

/-- The figures of this evaluation take the place of the old ones (R59, R68). -/
def State.withFigures (s : State) : State :=
  s.withSup { s.sup with
    staticLimit := s.newLimit
    permitted := s.newPermitted
    warning := s.newPermitted
    serviceSpeed := serviceMargin s.newPermitted
    emergencySpeed := emergencyMargin s.newPermitted }

/-! ### Decay (R11) -/

/-- v after the decay that the time since the last tooth asks for. -/
def Odometry.decayedSpeed (o : Odometry) (now : Nat) : Nat :=
  if o.standstill then o.v
  else
    match o.lastToothAt, o.lastInterval with
    | some m, some i =>
      if i < min (now - m) Config.maxInterval then min o.v (100000000 / min (now - m) Config.maxInterval) else o.v
    | _, _ => o.v

/-- Speed decay at the start of an evaluation that no tooth caused (R11). -/
def State.decayed (s : State) : State := s.withOdo { s.odo with v := s.odo.decayedSpeed s.clock }

/-! ### Supervision state and permit (R69, R73) -/

/-- The supervision state (R69). -/
def supervisionOf (overspeed : Bool) (v p : Nat) : Supervision :=
  if overspeed then .intervening else if p < v then .warning else .normal

/-- All the conditions of R73, with the supervision state just set. -/
def State.permitHolds (s : State) (x : Supervision) : Bool :=
  s.line.opState == .run && s.odo.located && s.odo.direction != .neutral && s.set.entries.isEmpty
    && !s.doors.anyUnlocked && !s.comb.springApplied && x != .intervening

/-- The state and the permit are set at the end of an evaluation (R69, R73). -/
def State.withSupervision (s : State) (overspeed : Bool) : State :=
  let x := supervisionOf overspeed s.odo.v s.sup.permitted
  s.withSup { s.sup with state := x, permit := s.permitHolds x }

end Sys2Proof.Machine
end

