-- ==== Sys2Proof/Machine/Combiner.lean ====
section
/-! DEFINITION. One recomputation of the Brake Combiner (6.1, R99) and the control of a proof (7.3, R123 to R128), which hands
the combiner its starts and ends. Neither hands a notice to another block here: see Machine/Notices.lean. -/

namespace Sys2Proof.Machine

/-- The kind of the segment that contains the car middle; none outside the window (R98). -/
def State.blendKind (s : State) : Option TrackKind := (s.win.containing s.carMiddle).map Segment.kind

/-- The share of a channel for a blend kind; 100 where the middle is not in the window (R98). -/
def Settings.share (g : Settings) (c : Channel) (k : Option TrackKind) : Nat :=
  match k with
  | none => 100
  | some k =>
    match c with
    | .rb1 => g.rbShare.get k
    | .rb2 => g.rbShare.get k
    | .ab1 => g.abShare.get k
    | .ab2 => g.abShare.get k

/-- The holding request: the door hold is asserted, or the operating state is CONFIG (R96). -/
def State.holdingRequest (s : State) : Bool := s.doors.hold || s.line.opState == .config

/-- D: the greatest of the service inputs whose condition holds (R97). -/
def State.serviceDemand (s : State) : Nat :=
  max (max s.comb.driver (if s.set.hasLevel .service then 100 else 0))
    (if s.holdingRequest then s.cfg.holdLevel else 0)

/-- A channel's demand: 100 in an emergency, else floor(D × share / 100) (R98, R100). -/
def State.channelDemand (s : State) (c : Channel) : Nat :=
  if s.set.hasLevel .emergency then 100 else s.serviceDemand * s.cfg.share c s.blendKind / 100

/-- The value with which a proof step drives its channel (R101). -/
def ProofStep.drive : ProofStep → Nat
  | .rise => 100
  | .fall => 0

/-- The proof in progress holds the channel. -/
def Proving.holds (p : Proving) (c : Channel) : Bool :=
  match p.proof with
  | none => false
  | some x => x.channel == c

/-- A channel's drive value: 100 in an emergency, the proof step's while a proof holds it, else its demand (R101). -/
def State.driveValue (s : State) (c : Channel) : Nat :=
  if s.set.hasLevel .emergency then 100
  else
    match s.prov.proof with
    | none => s.channelDemand c
    | some x => if x.channel = c then x.step.drive else s.channelDemand c

/-- The law of the spring brake (R103). -/
def State.springLaw (s : State) (park : ParkSetting) : Bool :=
  !((s.line.opState == .run || s.line.opState == .quiescing) && park == .release && !s.set.hasLevel .emergency)

/-- A recomputation of the combiner, taken whole; with `enterConfig` it is the step on the state notice of an entry into
CONFIG, at which PARK becomes APPLY (R99, R105). -/
def State.recombine (s : State) (enterConfig : Bool) : State :=
  let c := s.comb
  let park := if enterConfig then .apply else c.park
  let demand := PerChannel.of s.channelDemand
  let drive := PerChannel.of s.driveValue
  let emergency := s.set.hasLevel .emergency
  let engine :=
    if emergency && !c.emergency then s.drive.restartValves s.wantGang s.cfg.valvePeriod s.clock
    else s.drive.writeValves c.drive drive s.wantGang s.cfg.valvePeriod s.clock
  (s.withDrive engine).withComb
    { c with
      park := park
      holding := s.holdingRequest
      service := s.serviceDemand
      blend := s.blendKind
      emergency := emergency
      demand := demand
      drive := drive
      springApplied := s.springLaw park
      feedback :=
        PerChannel.of fun ch =>
          if demand.get ch = c.demand.get ch then c.feedback.get ch
          else { lastChange := s.clock, deviationStart := none } }

/-- A channel's settling time starts again and its deviation start is cleared (R113). -/
def State.resettle (s : State) (c : Channel) : State :=
  s.withComb
    { s.comb with feedback := s.comb.feedback.put c { lastChange := s.clock, deviationStart := none } }

/-! ### Proofs -/

/-- The conditions of R123 other than an eligible channel. -/
def State.canProve (s : State) : Bool :=
  s.odo.standstill && s.comb.springApplied && !s.set.hasLevel .emergency && s.prov.proof.isNone

/-- The first channel that owes a proof and is not on the tried list (R124). -/
def Proving.next (p : Proving) : Option Channel :=
  channels.find? (fun c => decide (1 ≤ p.owed.get c) && !p.tried.contains c)

/-- A proof of one channel begins with its RISE step (R124). -/
def State.beginProof (s : State) (c : Channel) : State :=
  ((s.withProv
    { s.prov with
      tried := s.prov.tried ++ [c]
      proof := some { channel := c, step := .rise, sample := s.scan.pressure.get c }
      dwell := some (s.after Config.proofDwell) }).resettle c).recombine false

/-- The test whether a proof can begin, and its beginning (R123). -/
def State.testProof (s : State) : State :=
  if s.canProve then
    match s.prov.next with
    | none => s
    | some c => s.beginProof c
  else s

/-- RESTORE: no proof is in progress and the combiner takes the end of the proof (R127, R128). -/
def State.endProof (s : State) (c : Channel) : State :=
  ((s.withProv { s.prov with proof := none, dwell := none }).resettle c).recombine false

/-- The tried list is emptied (R123). -/
def State.emptyTried (s : State) : State := s.withProv { s.prov with tried := [] }

/-- A proof in progress is abandoned, with no record; nothing happens without one (R128). -/
def State.abandonProof (s : State) : State :=
  match s.prov.proof with
  | none => s
  | some x => (s.endProof x.channel).emptyTried

end Sys2Proof.Machine
end

