-- ==== Sys2Proof/Machine/Notices.lean ====
section
/-! DEFINITION. The notices by which one step reaches other blocks: the spring notice (R103), the state notice (R186), the set
notice (R80, R81), and the evaluations they bring (R57, R59). Order inside a step: log 6. Evaluations brought by a raising or
removal that an evaluation itself handed are `evaluateQuiet`: they find the same inputs and can raise nothing new (log 7), so
no operation here calls itself. The parameter `ev` is the evaluation that a notice brings. -/

namespace Sys2Proof.Machine

/-- An evaluation on the set notice of a raising or removal that an evaluation has just handed: decay, figures, supervision
state and permit (R59); the overspeed raisings it would hand are those already present (R79, log 7). -/
def State.evaluateQuiet (s : State) : State :=
  (s.decayed.withFigures).withSupervision (s.set.has .overspeedService || s.set.has .overspeedEmergency)

/-- The Line Unit's state after a change of operating state: the cab timer runs on entry into RUN and stops on leaving it
(R186, R193). -/
def State.setOpState (s : State) (x : OpState) : State :=
  s.withLine
    { s.line with
      opState := x
      cabTimer := if x = .run then some (s.after (s.cfg.cabTimeout * 1000)) else none }

/-- The test of R189: in QUIESCING, at standstill, with the spring applied. -/
def State.quiesced (s : State) : Bool :=
  s.line.opState == .quiescing && s.odo.standstill && s.comb.springApplied

/-- The spring notice reaches the Speed Supervisor, the Proving Unit and the Line Unit (R99, R103, R123, R128, R189). On the
entry into CONFIG that it may bring the spring is applied already, so no second spring notice follows. -/
def State.springNotice (ev : State → State) (s : State) (applied : Bool) : State :=
  let s := ev s
  if applied then
    let s := s.testProof
    if s.quiesced then (ev (s.setOpState .config)).recombine true else s
  else s.abandonProof.emptyTried

/-- A recomputation of the combiner with the spring notice it hands when the spring state changed (R99). -/
def State.combine (ev : State → State) (s : State) (enterConfig : Bool) : State :=
  let t := s.recombine enterConfig
  if t.comb.springApplied = s.comb.springApplied then t else t.springNotice ev t.comb.springApplied

/-- The set with a new entry at its end, its loop-break output following its levels (R78, R82). -/
def InterventionSet.append (i : InterventionSet) (e : Entry) : InterventionSet :=
  let all := i.entries ++ [e]
  { i with entries := all, breakOpen := all.any (fun x => x.cause.level == .emergency) }

/-- The set without the entry of a cause, the later entries closed up (R81, R82). -/
def InterventionSet.erase (i : InterventionSet) (c : Cause) : InterventionSet :=
  let rest := i.entries.filter (fun e => e.cause != c)
  { i with entries := rest, breakOpen := rest.any (fun e => e.cause.level == .emergency) }

/-- A raising is taken: ignored while the cause is present, else appended with its capture, its records, its set notice and,
at EMERGENCY level, the abandonment of a proof (R79, R80). -/
def State.raiseWith (ev : State → State) (s : State) (c : Cause) (x : Capture) : State :=
  if s.set.has c then s
  else
    let s := s.withSet (s.set.append { cause := c, capture := x, time := s.partTime, heard := false })
    let s := (s.report (.raised c x)).reportPosition
    let s := (ev s).combine ev false
    if c.level = .emergency then s.abandonProof else s

/-- A removal is taken: ignored while the cause is not present, else with its record and its set notice, on which the Proving
Unit tests for a proof (R81, R123). -/
def State.removeWith (ev : State → State) (s : State) (c : Cause) : State :=
  if s.set.has c then
    let s := (s.withSet (s.set.erase c)).report (.cleared c)
    ((ev s).combine ev false).testProof
  else s

/-- v is above I_s as the figures stand (R70). -/
def State.overService (s : State) : Bool := decide (s.sup.serviceSpeed < s.odo.v)

/-- v is above I_e as the figures stand (R70). -/
def State.overEmergency (s : State) : Bool := decide (s.sup.emergencySpeed < s.odo.v)

/-- The release condition of OVERSPEED_SERVICE (R71, R84). -/
def State.belowService (s : State) : Bool :=
  decide (s.odo.v ≤ s.sup.permitted - s.sup.permitted / 16) || s.odo.standstill

/-- The set takes the raisings that the evaluation of `judged` hands it, service before emergency (R70). -/
def State.raiseOverspeeds (s judged : State) : State :=
  let t := if judged.overService then s.raiseWith State.evaluateQuiet .overspeedService judged.capture else s
  if judged.overEmergency then t.raiseWith State.evaluateQuiet .overspeedEmergency judged.capture else t

/-- An evaluation, whose decay and figures are computed: the supervision state and the permit, then the raisings and the
removal handed to the set (R69 to R73). The figures stand before the raisings, so the POSITION record of a raising carries the new
P: DESIGN CHOICE (log 31), since R59 lets a block that reads in the same instant see all figures from before or all from after. -/
def State.judgeWith (raising : State → State) (s : State) : State :=
  let remove := s.set.has .overspeedService && s.belowService
  let overspeed :=
    ((s.set.has .overspeedService || s.overService) && !remove) || s.set.has .overspeedEmergency || s.overEmergency
  let t := raising (s.withSupervision overspeed)
  if remove then t.removeWith State.evaluateQuiet .overspeedService else t

/-- The judgement of an evaluation whose raisings the set takes at once. -/
def State.judge (s : State) : State := s.judgeWith fun t => t.raiseOverspeeds s

/-- An evaluation that a tooth notice causes: no decay (R59). -/
def State.evaluateTooth (s : State) : State := s.withFigures.judge

/-- An evaluation that no tooth notice causes: decay first (R11, R59). -/
def State.evaluate (s : State) : State := s.decayed.withFigures.judge

/-- An evaluation inside the step of an ACK_INTERVENTION or a RELEASE: the set takes its raisings when the step has ended (R87,
R91). -/
def State.evaluateAside (s : State) : State := s.decayed.withFigures.judgeWith id

/-- A raising handed by a block other than the supervisor. -/
def State.raise (s : State) (c : Cause) (x : Capture) : State := s.raiseWith State.evaluate c x

/-- A removal handed by anyone but the supervisor. -/
def State.remove (s : State) (c : Cause) : State := s.removeWith State.evaluate c

/-- A removal in the step of an ACK_INTERVENTION or a RELEASE (R81, R91). -/
def State.removeAside (s : State) (c : Cause) : State := s.removeWith State.evaluateAside c

/-- A recomputation of the combiner on anything but a state notice. -/
def State.recompute (s : State) : State := s.combine State.evaluate false

/-- A change of operating state with its state notice, first to the supervisor, then to the combiner (R186). -/
def State.changeOpState (s : State) (x : OpState) : State :=
  (s.setOpState x).evaluate.combine State.evaluate (x == .config)

/-- The Line Unit's test for the end of QUIESCING (R189). -/
def State.testQuiesced (s : State) : State := if s.quiesced then s.changeOpState .config else s

end Sys2Proof.Machine
end

