-- ==== Sys2Proof/Machine/DoorOps.lean ====
section
/-! DEFINITION. The doors' drive on a slope (8.5), the step of a door's change of state (R135) and what its switches end
(R140, R142), the platform check (R136) and the obstruction check (8.6). -/

namespace Sys2Proof.Machine

/-- The doors on the left are D1 and D2 (chapter 8). -/
def isLeft : Door → Bool
  | .d1 => true
  | .d2 => true
  | _ => false

/-- The door's side is released. -/
def DoorController.isReleased (c : DoorController) (d : Door) : Bool :=
  if isLeft d then c.releasedLeft else c.releasedRight

/-- One door's record is replaced. -/
def State.withDoor (s : State) (d : Door) (x : DoorRecord) : State :=
  s.withDoors { s.doors with door := s.doors.door.put d x }

/-- A door's record as it stands. -/
def State.doorAt (s : State) (d : Door) : DoorRecord := s.doors.door.get d

/-! ### Drive on a slope (8.5) -/

/-- The position of a door on the line: upper doors D1 and D3, lower doors D2 and D4 (R134). -/
def State.doorPosition (s : State) (d : Door) : Int :=
  let quarter : Int := (s.cfg.carLength / 4 : Nat)
  match d with
  | .d1 => (s.odo.p : Int) - quarter
  | .d3 => (s.odo.p : Int) - quarter
  | .d2 => (s.odo.p : Int) - s.cfg.carLength + quarter
  | .d4 => (s.odo.p : Int) - s.cfg.carLength + quarter

/-- G of a door; 0 where no record contains its position (R143). -/
def State.doorGradient (s : State) (d : Door) : Int :=
  match s.win.containing (s.doorPosition d) with
  | none => 0
  | some g => g.gradient

/-- The way the leaf moves: opening in its OPEN_DIR, closing the other way (R143). -/
def State.leafMoves (s : State) (d : Door) : Sense → Vertical
  | .open => s.cfg.openDir.get d
  | .close => (s.cfg.openDir.get d).opposite

/-- The motion is uphill (R143). -/
def uphill (gradient : Int) : Vertical → Bool
  | .up => decide (0 < gradient)
  | .down => decide (gradient < 0)

/-- Duty of a door in motion (R144). -/
def State.doorDuty (s : State) (d : Door) (x : Sense) : Nat :=
  let g := s.doorGradient d
  let comp := g.natAbs * s.cfg.compGain / 100
  if uphill g (s.leafMoves d x) then min 100 (s.cfg.doorDuty + comp) else max 10 (s.cfg.doorDuty - comp)

/-- Obstruction limit of a door in motion, mA (R144). -/
def State.doorLimit (s : State) (d : Door) (x : Sense) : Nat :=
  let g := s.doorGradient d
  if uphill g (s.leafMoves d x) then s.cfg.obstructLimit + 2 * g.natAbs else s.cfg.obstructLimit

/-- A duty is written to a door's motor output (R106). -/
def State.writeMotor (s : State) (d : Door) (duty : Nat) (x : Option Sense) : State :=
  s.withDrive
    { s.drive with
      motor := s.drive.motor.put d ((s.drive.motor.get d).write duty x s.cfg.motorPeriod s.clock) }

/-- Duty and limit of a moving door are computed; the duty is written when it or the sense differs from what was last
written, and the limit is held (R144). -/
def State.driveDoor (s : State) (d : Door) (x : Sense) : State :=
  let duty := s.doorDuty d x
  let s := s.withDoor d { s.doorAt d with limit := s.doorLimit d x }
  let o := s.drive.motor.get d
  if o.pendingDuty = some duty ∧ o.pendingSense = some x then s else s.writeMotor d duty (some x)

/-! ### The change of a door's state (R135) -/

/-- Step 1: the new state, with the motion timer and the motor duty that follow it. -/
def State.moveDoor (s : State) (d : Door) (x : DoorState) : State :=
  let r := s.doorAt d
  match x with
  | .opening => (s.withDoor d { r with state := x, motion := some (s.after Config.openTimeLimit) }).driveDoor d .open
  | .closing =>
    (s.withDoor d { r with state := x, motion := some (s.after Config.closeTimeLimit), obstruction := none }).driveDoor d
      .close
  | _ =>
    let t := s.withDoor d { r with state := x, motion := none }
    if r.state.moving then t.writeMotor d 0 none else t

/-- DOOR_UNLOCKED_MOVING is removed when its release condition is met (R84, R85). -/
def State.testDoorRelease (s : State) : State :=
  if !s.doors.anyUnlocked && s.odo.standstill then s.remove .doorUnlockedMoving else s

/-- Step 5: the door hold is recomputed, and the combiner takes a holding notice when it changed (R151). -/
def State.rehold (s : State) : State :=
  let t := s.withDoors { s.doors with hold := s.doors.anyUnlocked }
  if t.doors.hold = s.doors.hold then t else t.recompute

/-- A raising of DOOR_UNLOCKED_MOVING with the set's own capture (R79). -/
def State.raiseDoorMoving (s : State) : State := s.raise .doorUnlockedMoving s.capture

/-- The step of R135: the state, the record, the raising in motion, the door notice, the hold. -/
def State.stepDoor (s : State) (d : Door) (x : DoorState) : State :=
  let s := s.moveDoor d x
  let s := s.report (.doorEvent d x (s.doorAt d).closeFailed)
  let s := if !s.odo.standstill && x.ajar then s.raiseDoorMoving else s
  s.evaluate.testDoorRelease.rehold

/-- The shut state of a door: RELEASED when its side is released, else LOCKED (R142, R148). -/
def State.shutState (s : State) (d : Door) : DoorState := if s.doors.isReleased d then .released else .locked

/-- The close ordered mark of a door. -/
def State.withCloseOrdered (s : State) (d : Door) (x : Bool) : State :=
  s.withDoor d { s.doorAt d with closeOrdered := x }

/-- The leaf is shut: LOCKED or RELEASED, the close order ended (R142, R148). -/
def State.landDoor (s : State) (d : Door) : State := (s.withCloseOrdered d false).stepDoor d (s.shutState d)

/-- The door enters CLOSING; with its closed-and-locked switch made it ends its closing at once (R142). -/
def State.closeDoor (s : State) (d : Door) : State :=
  let t := s.stepDoor d .closing
  if (t.doorAt d).pins.closedMade then t.landDoor d else t

/-- The opening ends at the open stop: OPEN, and CLOSING again in the same instant under a close order (R140). -/
def State.reachOpen (s : State) (d : Door) : State :=
  let t := s.stepDoor d .open
  if (s.doorAt d).closeOrdered then t.closeDoor d else t

/-- The door enters OPENING; with its fully-open switch made it ends its opening at once (R140). -/
def State.openDoor (s : State) (d : Door) : State :=
  let t := s.stepDoor d .opening
  if (t.doorAt d).pins.openMade then t.reachOpen d else t

/-! ### The platform check (R136) -/

/-- A platform's side answers the side asked for. -/
def PlatformSide.serves (x asked : PlatformSide) : Bool := x == asked || x == .both

/-- Every record overlapping the extended car footprint carries one platform on the side, and the window covers it. -/
def State.platformCheck (s : State) (side : PlatformSide) : Bool :=
  let rs := s.win.overlapping s.carLo s.hi
  let ids := rs.map (fun g => g.platform.map Platform.id)
  s.win.covers s.carLo s.hi
    && rs.all (fun g => match g.platform with | none => false | some x => x.side.serves side)
    && ids.all (fun i => some i == ids.head?)

/-! ### Obstruction (8.6) -/

/-- An obstruction is found: the door reopens, or at the third stops OPEN with its close-failed flag set (R146). -/
def State.obstructed (s : State) (d : Door) : State :=
  let r := s.doorAt d
  let n := min 3 (r.reopen + 1)
  if n < 3 then (s.withDoor d { r with reopen := n }).openDoor d
  else (s.withDoor d { r with reopen := n, closeFailed := true, closeOrdered := false }).stepDoor d .open

/-- One door at a completed scan: its drive while it moves, and the check of its current while it is CLOSING (R144, R145). -/
def State.scanDoor (s : State) (d : Door) : State :=
  match (s.doorAt d).state with
  | .opening => s.driveDoor d .open
  | .closing =>
    let s := s.driveDoor d .close
    let r := s.doorAt d
    if s.scan.current.get d ≤ r.limit then s.withDoor d { r with obstruction := none }
    else
      match r.obstruction with
      | none => s.withDoor d { r with obstruction := some s.clock }
      | some m => if m + Config.obstructionPersistence ≤ s.clock then s.obstructed d else s
  | _ => s

end Sys2Proof.Machine
end

