-- ==== Sys2Proof/Machine/Operands.lean ====
section
/-! DEFINITION. The fields of request and downlink bodies (R196, chapter 11): high byte first, positions of three bytes,
gradients in two's complement, codes by their tables; spare bits and the bytes of an absent part ignored. -/

namespace Sys2Proof.Machine

/-- The unsigned value of bytes sent high byte first (R196). -/
def valueOf (bytes : List Byte) : Nat := bytes.foldl (fun n b => n * 256 + b.toNat) 0

/-- The field of `size` bytes at an offset, counted from the first byte after the kind. -/
def field (fields : List Byte) (offset size : Nat) : Nat := valueOf ((fields.drop offset).take size)

/-- Two bytes in two's complement (R196). -/
def signed16 (n : Nat) : Int := if n < 32768 then n else (n : Int) - 65536

/-! ### Codes (11.4) -/

/-- Selected direction: 0 NEUTRAL, 1 UP, 2 DOWN. -/
def directionOfCode : Nat → Option Direction
  | 0 => some .neutral
  | 1 => some .up
  | 2 => some .down
  | _ => none

/-- Edge, OPEN_DIR: 1 UP, 2 DOWN. -/
def verticalOfCode : Nat → Option Vertical
  | 1 => some .up
  | 2 => some .down
  | _ => none

/-- Restriction direction: 1 UP, 2 DOWN, 3 BOTH. -/
def appliesOfCode : Nat → Option Applies
  | 1 => some .up
  | 2 => some .down
  | 3 => some .both
  | _ => none

/-- Segment kind: 1 RACK, 2 ADHESION, 3 ENTRY. -/
def kindOfCode : Nat → Option TrackKind
  | 1 => some .rack
  | 2 => some .adhesion
  | 3 => some .entry
  | _ => none

/-- Side: 1 LEFT, 2 RIGHT, 3 BOTH (platform) or ALL (DOOR_CLOSE). -/
def sideOfCode : Nat → Option PlatformSide
  | 1 => some .left
  | 2 => some .right
  | 3 => some .both
  | _ => none

/-- PARK setting: 1 APPLY, 2 RELEASE. -/
def parkOfCode : Nat → Option ParkSetting
  | 1 => some .apply
  | 2 => some .release
  | _ => none

/-- Door: 1 to 4. -/
def doorOfCode : Nat → Option Door
  | 1 => some .d1
  | 2 => some .d2
  | 3 => some .d3
  | 4 => some .d4
  | _ => none

/-- Cause: 1 to 8. -/
def causeOfCode : Nat → Option Cause
  | 1 => some .overspeedService
  | 2 => some .overspeedEmergency
  | 3 => some .authorityOverrun
  | 4 => some .rollback
  | 5 => some .doorUnlockedMoving
  | 6 => some .cabSilent
  | 7 => some .emergencyLoop
  | 8 => some .brakeFeedback
  | _ => none

/-- Off, on: 0, 1. -/
def switchOfCode : Nat → Option Bool
  | 0 => some false
  | 1 => some true
  | _ => none

/-! ### The segment record as delivered (11.3) -/

/-- A SEGMENT's fields as delivered, before any range is checked. -/
structure Delivery where
  number : Nat
  start : Nat
  length : Nat
  kind : Nat
  gradient : Int
  limitUp : Nat
  limitDown : Nat
  /-- id and side, when bit 0 of offset 14 marks a platform present -/
  platform : Option (Nat × Nat)
  /-- the offset, when bit 1 of offset 14 marks a marker present -/
  marker : Option Nat
deriving DecidableEq, Repr

/-- The 19 bytes of a delivered segment record. -/
def deliveryOf (fields : List Byte) : Delivery where
  number := field fields 0 2
  start := field fields 2 3
  length := field fields 5 2
  kind := field fields 7 1
  gradient := signed16 (field fields 8 2)
  limitUp := field fields 10 2
  limitDown := field fields 12 2
  platform := if (field fields 14 1).testBit 0 then some (field fields 15 1, field fields 16 1) else none
  marker := if (field fields 14 1).testBit 1 then some (field fields 17 2) else none

/-- A platform part in its ranges: id 1 to 255, a side (R20). -/
def platformOf (x : Nat × Nat) : Option Platform :=
  if x.1 = 0 then none else (sideOfCode x.2).map (fun side => { id := x.1, side := side })

/-- The record of a delivery whose every field lies in its range of R20; none otherwise. -/
def Delivery.record (d : Delivery) : Option Segment :=
  match kindOfCode d.kind with
  | none => none
  | some k =>
    let platform := d.platform.bind platformOf
    if d.start ≤ Config.maxPosition ∧ 10 ≤ d.length ∧ d.length ≤ 4095 ∧ d.start + d.length ≤ Config.maxPosition + 1
        ∧ -500 ≤ d.gradient ∧ d.gradient ≤ 500 ∧ d.limitUp ≤ Config.maxSpeed ∧ d.limitDown ≤ Config.maxSpeed
        ∧ (d.platform.isSome = true → platform.isSome = true)
        ∧ (∀ o ∈ d.marker.toList, o < d.length) then
      some
        { number := d.number, start := d.start, length := d.length, kind := k, gradient := d.gradient
          limitUp := d.limitUp, limitDown := d.limitDown, platform := platform, marker := d.marker
          barredUp := false, barredDown := false }
    else none

end Sys2Proof.Machine
end

