-- ==== Sys2Proof/Machine/Layout.lean ====
section
/-! DEFINITION. Frames, their CRC and the framer (9.1), the codes and byte layouts of chapter 11. Multi-byte fields high byte
first, spare bits and absent values 0 (R196). -/

namespace Sys2Proof.Machine

/-! ### Bytes -/

/-- `k` bytes of a number, high byte first (R196). -/
def bytesOf : Nat → Nat → List Byte
  | 0, _ => []
  | k + 1, n => BitVec.ofNat 8 (n / 256 ^ k) :: bytesOf k n

/-- One byte of a number. -/
def byteOf (n : Nat) : Byte := BitVec.ofNat 8 n

/-- A flag as a number: 0 false, 1 true. -/
def bit (b : Bool) : Nat := if b then 1 else 0

/-- A signed number in two bytes, two's complement (R196). -/
def signedBytes (n : Int) : List Byte := bytesOf 2 (n % 65536).toNat

/-! ### CRC (R159) -/

/-- One step of the register. -/
def crcStep (r : BitVec 16) : BitVec 16 := if r.msb then (r <<< 1) ^^^ 0x1021#16 else r <<< 1

/-- `n` steps of the register. -/
def crcSteps : Nat → BitVec 16 → BitVec 16
  | 0, r => r
  | n + 1, r => crcSteps n (crcStep r)

/-- One byte combined into the upper 8 bits, then eight steps. -/
def crcByte (r : BitVec 16) (b : Byte) : BitVec 16 := crcSteps 8 (r ^^^ (b.zeroExtend 16 <<< 8))

/-- The CRC over bytes in the order they are sent. -/
def crc (bytes : List Byte) : BitVec 16 := bytes.foldl crcByte 0xFFFF#16

/-- The frame of a body: sync, length, body, CRC (9.1, R161). -/
def frameOf (body : List Byte) : List Byte :=
  Config.sync :: byteOf body.length :: body ++ bytesOf 2 (crc (byteOf body.length :: body)).toNat

/-! ### The framer (R158, R160)

A framer's state is the bytes it keeps: none while hunting, else the sync and what has arrived since. Resuming at the byte
after the sync of a rejected frame is scanning the kept bytes again without that sync. -/

/-- What the bytes after a sync amount to. -/
inductive Reception where
  /-- more bytes are needed -/
  | partly
  /-- the length or the CRC rejects the frame -/
  | rejected
  /-- a good frame, and the bytes that follow it -/
  | good (body rest : List Byte)
deriving DecidableEq, Repr

/-- The three stages of R158 over the bytes after a sync. -/
def receive : List Byte → Reception
  | [] => .partly
  | len :: t =>
    if len.toNat = 0 ∨ Config.maxBody < len.toNat then .rejected
    else if t.length < len.toNat + 2 then .partly
    else if crc (len :: t.take len.toNat) = BitVec.ofNat 16 (valueOf ((t.drop len.toNat).take 2)) then
      .good (t.take len.toNat) (t.drop (len.toNat + 2))
    else .rejected

/-- Bytes scanned from hunting: the bodies of the good frames among them, and the bytes kept at the end. The first argument
bounds the number of bytes dropped or taken, one at least for each call; the length of the bytes suffices. -/
def scanBytes : Nat → List Byte → List (List Byte) × List Byte
  | 0, _ => ([], [])
  | _ + 1, [] => ([], [])
  | n + 1, b :: t =>
    if b = Config.sync then
      match receive t with
      | .partly => ([], b :: t)
      | .rejected => scanBytes n t
      | .good body rest => (body :: (scanBytes n rest).1, (scanBytes n rest).2)
    else scanBytes n t

/-- A byte arrives at a framer that keeps `kept` (R158). -/
def frameByte (kept : List Byte) (b : Byte) : List (List Byte) × List Byte :=
  scanBytes (kept.length + 1) (kept ++ [b])

/-- A character error: the frame being received is rejected and the bytes kept after its sync are scanned again; a hunting
framer drops the character (R157, R160). -/
def frameError (kept : List Byte) : List (List Byte) × List Byte := scanBytes kept.length kept.tail

/-! ### Line times (R157, R161) -/

/-- The baud of each line (9.1). -/
def baudOf : SerialLine → Nat
  | .cab => 115200
  | .crew => 57600
  | .radio => 19200

/-- The µs that `n` characters of 10 bit times take, rounded up (R157, log 11). -/
def lineTime (x : SerialLine) (n : Nat) : Nat := (n * 10000000 + baudOf x - 1) / baudOf x

/-! ### Codes (11.4) -/

/-- Selected direction: 0 NEUTRAL, 1 UP, 2 DOWN. -/
def directionCode : Direction → Nat
  | .neutral => 0
  | .up => 1
  | .down => 2

/-- Edge: 1 UP, 2 DOWN. -/
def verticalCode : Vertical → Nat
  | .up => 1
  | .down => 2

/-- Restriction direction: 1 UP, 2 DOWN, 3 BOTH. -/
def Applies.code : Applies → Nat
  | .up => 1
  | .down => 2
  | .both => 3

/-- Segment kind: 1 RACK, 2 ADHESION, 3 ENTRY. -/
def TrackKind.code : TrackKind → Nat
  | .rack => 1
  | .adhesion => 2
  | .entry => 3

/-- Side: 1 LEFT, 2 RIGHT, 3 BOTH. -/
def PlatformSide.code : PlatformSide → Nat
  | .left => 1
  | .right => 2
  | .both => 3

/-- PARK setting: 1 APPLY, 2 RELEASE. -/
def ParkSetting.code : ParkSetting → Nat
  | .apply => 1
  | .release => 2

/-- Cause: 1 to 8. -/
def Cause.code : Cause → Nat
  | .overspeedService => 1
  | .overspeedEmergency => 2
  | .authorityOverrun => 3
  | .rollback => 4
  | .doorUnlockedMoving => 5
  | .cabSilent => 6
  | .emergencyLoop => 7
  | .brakeFeedback => 8

/-- Level in records: 1 SERVICE, 2 EMERGENCY. -/
def Level.code : Level → Nat
  | .service => 1
  | .emergency => 2

/-- Door state: 0 to 6. -/
def DoorState.code : DoorState → Nat
  | .locked => 0
  | .released => 1
  | .opening => 2
  | .open => 3
  | .closing => 4
  | .fault => 5
  | .isolated => 6

/-- Health: 0 HEALTHY, 1 DEGRADED, 2 FAILED. -/
def Health.code : Health → Nat
  | .healthy => 0
  | .degraded => 1
  | .failed => 2

/-- Proof outcome: 0 PASS, 1 FAIL_RISE, 2 FAIL_FALL. -/
def ProofOutcome.code : ProofOutcome → Nat
  | .pass => 0
  | .failRise => 1
  | .failFall => 2

/-- Proof step: 1 RISE, 2 FALL. -/
def ProofStep.code : ProofStep → Nat
  | .rise => 1
  | .fall => 2

/-- Channel: 1 to 4. -/
def channelCode : Channel → Nat
  | .rb1 => 1
  | .rb2 => 2
  | .ab1 => 3
  | .ab2 => 4

/-- Door: 1 to 4. -/
def doorCode : Door → Nat
  | .d1 => 1
  | .d2 => 2
  | .d3 => 3
  | .d4 => 4

/-- Link state: 0 SILENT, 1 UP, 2 LOST. -/
def Link.code : Link → Nat
  | .silent => 0
  | .up => 1
  | .lost => 2

/-- Operating state: 0 CONFIG, 1 RUN, 2 QUIESCING. -/
def OpState.code : OpState → Nat
  | .config => 0
  | .run => 1
  | .quiescing => 2

/-- Supervision state: 0 NORMAL, 1 WARNING, 2 INTERVENING. -/
def Supervision.code : Supervision → Nat
  | .normal => 0
  | .warning => 1
  | .intervening => 2

/-! ### Report records (11.2) -/

/-- Record kind: 0x01 to 0x09. -/
def ReportBody.code : ReportBody → Nat
  | .position .. => 1
  | .raised .. => 2
  | .cleared .. => 3
  | .doorEvent .. => 4
  | .proofResult .. => 5
  | .channelState .. => 6
  | .markerUnknown .. => 7
  | .restrictionRefused .. => 8
  | .authorityTaken .. => 9

/-- The fields of a record from offset 3. -/
def ReportBody.fields : ReportBody → List Byte
  | .position p u v permitted d standstill located =>
    bytesOf 3 p ++ bytesOf 1 u ++ bytesOf 2 v ++ bytesOf 2 permitted
      ++ [byteOf (directionCode d + 4 * bit standstill + 8 * bit located)]
  | .raised c x =>
    [byteOf c.code, byteOf c.level.code] ++ bytesOf 3 x.position ++ bytesOf 2 x.speed ++ bytesOf 2 x.permitted
  | .cleared c => [byteOf c.code]
  | .doorEvent d x failed => [byteOf (doorCode d), byteOf (x.code + 128 * bit failed)]
  | .proofResult c o owed => [byteOf (channelCode c), byteOf o.code, byteOf owed]
  | .channelState c h => [byteOf (channelCode c), byteOf h.code]
  | .markerUnknown p u => bytesOf 3 p ++ bytesOf 1 u
  | .restrictionRefused id => [byteOf id]
  | .authorityTaken id inside => [byteOf id, byteOf (bit inside)]

/-- The bytes of a record: kind, part time modulo 65,536, fields. -/
def Report.bytes (r : Report) : List Byte := byteOf r.body.code :: bytesOf 2 r.time ++ r.body.fields

/-- The length of a record, 4 to 12 bytes (R166). -/
def Report.size (r : Report) : Nat :=
  match r.body with
  | .position .. => 12
  | .raised .. => 12
  | .cleared .. => 4
  | .doorEvent .. => 5
  | .proofResult .. => 6
  | .channelState .. => 5
  | .markerUnknown .. => 7
  | .restrictionRefused .. => 4
  | .authorityTaken .. => 5

/-! ### Parts of responses (11.3) -/

/-- A segment record as READ_WINDOW returns it, 19 bytes. -/
def Segment.bytes (g : Segment) : List Byte :=
  bytesOf 2 g.number ++ bytesOf 3 g.start ++ bytesOf 2 g.length ++ [byteOf g.kind.code] ++ signedBytes g.gradient
    ++ bytesOf 2 g.limitUp ++ bytesOf 2 g.limitDown
    ++ [byteOf (bit g.platform.isSome + 2 * bit g.marker.isSome + 4 * bit g.barredUp + 8 * bit g.barredDown)]
    ++ (match g.platform with
        | none => [0#8, 0#8]
        | some x => [byteOf x.id, byteOf x.side.code])
    ++ bytesOf 2 (g.marker.getD 0)

/-- An intervention entry, 12 bytes. -/
def Entry.bytes (e : Entry) : List Byte :=
  byteOf (e.cause.code + 16 * (e.cause.level.code - 1) + 32 * bit e.heard)
    :: bytesOf 3 e.capture.position ++ bytesOf 2 e.capture.speed ++ bytesOf 2 e.capture.permitted ++ bytesOf 4 e.time

/-- A restriction entry, 10 bytes. -/
def Restriction.bytes (r : Restriction) : List Byte :=
  byteOf r.id :: bytesOf 3 r.low ++ bytesOf 3 r.high ++ bytesOf 2 r.speed ++ [byteOf r.direction.code]

/-- The wanted request in a header: form, edge code, segment number; a value the state does not give is 0 (R196). -/
def Wanted.parts : Wanted → Nat × Nat × Nat
  | .none => (0, 0, 0)
  | .byPosition n _ => (1, 0, n)
  | .byNumber n e => (2, verticalCode e, n)
  | .pinned n e => (3, verticalCode e, n)

/-! ### Refusal reasons (10.2) -/

/-- Why a request is refused. -/
inductive Reason where
  | badKind
  | badField
  | badState
  | notStandstill
  | notWanted
  | notLocated
  | notPlatform
  | doorState
  | configConflict
deriving DecidableEq, Repr

/-- Reason: 1 to 9; 0 is NONE. -/
def Reason.code : Reason → Nat
  | .badKind => 1
  | .badField => 2
  | .badState => 3
  | .notStandstill => 4
  | .notWanted => 5
  | .notLocated => 6
  | .notPlatform => 7
  | .doorState => 8
  | .configConflict => 9

/-- What a request comes to: refused with a reason, or done with the fields of its response. -/
inductive Reply where
  | refused (reason : Reason)
  | done (fields : List Byte)
deriving DecidableEq, Repr

/-- Result and reason in one byte: bits 0 to 6 reason, bit 7 refused. -/
def Reply.resultByte : Reply → Byte
  | .refused r => byteOf (r.code + 128)
  | .done _ => 0#8

/-- The fields after the header; none for a refusal (R183). -/
def Reply.fields : Reply → List Byte
  | .refused _ => []
  | .done fs => fs

end Sys2Proof.Machine
end

