-- ==== Sys2Proof/Machine/WindowOps.lean ====
section
/-! DEFINITION. The Profile Window's recomputation (R23 to R28) and its barred flags (R35); the Authority Table's recomputation
of the inside flag (R42 to R44). -/

namespace Sys2Proof.Machine

/-- Ahead and behind are counted against the footprint as it stands (R23). -/
def State.recount (s : State) : State :=
  s.withWin { s.win with ahead := s.aheadRecords.length, behind := s.behindRecords.length }

/-- `n` records leave at an edge; a record dropped there clears the edge's end-flag (R26, R28). -/
def Window.drop (w : Window) (edge : Vertical) (n : Nat) : Window :=
  if n = 0 then w
  else
    match edge with
    | .up => { w with records := w.records.take (w.records.length - n), endUp := false }
    | .down => { w with records := w.records.drop n, endDown := false }

/-- The end-flag of an edge. -/
def Window.endFlag (w : Window) : Vertical → Bool
  | .up => w.endUp
  | .down => w.endDown

/-- The number beyond an edge, when the line continues there (R24 case 3). -/
def Window.numberBeyond (w : Window) : Vertical → Option Nat
  | .up =>
    match w.records.getLast? with
    | none => none
    | some g => if g.number = 65535 ∨ g.last = (Config.maxPosition : Int) then none else some (g.number + 1)
  | .down =>
    match w.records.head? with
    | none => none
    | some g => if g.number = 0 ∨ g.start = 0 then none else some (g.number - 1)

/-- The footprint reaches beyond an edge of the window (R24 case 2). -/
def State.reachesBeyond (s : State) : Vertical → Bool
  | .up => match s.win.last? with
    | none => false
    | some l => decide (l < s.hi)
  | .down => match s.win.first? with
    | none => false
    | some f => decide (s.lo < f)

/-- The edge and number the window needs next: beyond the trailing edge first (R24 case 2), then beyond the travel edge
(case 3); none otherwise. -/
def State.neededNext (s : State) : Option (Nat × Vertical) :=
  match s.odo.direction.travel with
  | none => none
  | some t =>
    let behind := t.opposite
    match s.win.numberBeyond behind, s.reachesBeyond behind && !s.win.endFlag behind with
    | some n, true => some (n, behind)
    | _, _ =>
      if s.win.ahead < s.cfg.aheadLow ∧ s.win.endFlag t = false then (s.win.numberBeyond t).map (fun n => (n, t))
      else none

/-- The request is derived (R24); at a full window the farthest behind record is dropped to make room, or the request is
pinned (R27). The answer says whether a record was dropped. -/
def State.deriveWanted (s : State) : State × Bool :=
  if s.win.records.isEmpty then
    match s.odo.located, s.win.located with
    | true, some l => (s.withWin { s.win with wanted := .byPosition l.number l.position }, false)
    | _, _ => (s.withWin { s.win with wanted := .none }, false)
  else
    match s.neededNext, s.odo.direction.travel with
    | some (n, e), some t =>
      if s.win.records.length < Config.windowCapacity then (s.withWin { s.win with wanted := .byNumber n e }, false)
      else if 1 ≤ s.win.behind then
        (((s.withWin (s.win.drop t.opposite 1)).recount).withWin
          { ((s.withWin (s.win.drop t.opposite 1)).recount).win with wanted := .byNumber n e }, true)
      else (s.withWin { s.win with wanted := .pinned n e }, false)
    | _, _ => (s.withWin { s.win with wanted := .none }, false)

/-- Behind records beyond BEHIND_HIGH leave at the trailing edge, and the window is counted again (R26). The answer says
whether a record was dropped. -/
def State.dropBehind (s : State) : State × Bool :=
  match s.odo.direction.travel with
  | none => (s, false)
  | some t =>
    let n := s.win.behind - s.cfg.behindHigh
    if n = 0 then (s, false) else ((s.withWin (s.win.drop t.opposite n)).recount, true)

/-- A recomputation of the window, taken whole, and the window notice it earns: `earned` says that a record was added or an
end-flag set before it (R25, R36). -/
def State.recomputeWindow (s : State) (earned : Bool) : State :=
  let a := s.recount.dropBehind
  let b := a.1.deriveWanted
  if earned || a.2 || b.2 then b.1.evaluate else b.1

/-- The barred flags of every record from the present capability (R34, R35). -/
def State.rebar (s : State) : State :=
  s.withWin { s.win with records := s.win.records.map (fun g => g.withBarring s.prov.capability) }

/-! ### The inside flag -/

/-- The range contains the extended train footprint (R41). -/
def Range.holds (r : Range) (lo hi : Int) : Bool := (r.low : Int) ≤ lo && hi ≤ (r.high : Int)

/-- The flag and the containing ranges as the footprint and the ranges stand (R42). -/
def State.reflag (s : State) : State :=
  let a := s.odo.located && s.auth.a.holds s.lo s.hi
  let b := s.odo.located && s.auth.b.holds s.lo s.hi
  s.withAuth { s.auth with inside := a || b, inA := a, inB := b }

/-- The flag or the containing ranges differ (R43). -/
def AuthorityTable.flagDiffers (x y : AuthorityTable) : Bool :=
  x.inside != y.inside || x.inA != y.inA || x.inB != y.inB

/-- A recomputation of the flag that raises nothing, with its authority notice (R43). -/
def State.recomputeInside (s : State) : State :=
  if s.reflag.auth.flagDiffers s.auth then s.reflag.evaluate else s.reflag

/-- A recomputation on a tooth notice: AUTHORITY_OVERRUN when the flag turns from true to false (R44), then the authority
notice (R43). That the raising comes before the evaluation of the notice is a DESIGN CHOICE (log 6). -/
def State.recomputeInsideTooth (s : State) : State :=
  let t := s.reflag
  let u := if s.auth.inside && !t.auth.inside then t.raise .authorityOverrun t.capture else t
  if t.auth.flagDiffers s.auth then u.evaluate else u

end Sys2Proof.Machine
end

