-- ==== Sys2Proof/Machine/Ratings.lean ====
section
/-! DEFINITION. Owed counts, health and capability (7.1, 7.2), the judgement of a proof (R125 to R127) and the feedback check
of the brake channels (6.5). -/

namespace Sys2Proof.Machine

/-- The quarters a channel is worth (R121). -/
def Health.quarters : Health → Nat
  | .healthy => 2
  | .degraded => 1
  | .failed => 0

/-- The quarters of a kind (R121). -/
def quartersOf (h : PerChannel Health) : TrackKind → Nat
  | .rack => h.rb1.quarters + h.rb2.quarters
  | .adhesion => h.ab1.quarters + h.ab2.quarters
  | .entry => min (h.rb1.quarters + h.rb2.quarters) (h.ab1.quarters + h.ab2.quarters)

/-- a_cap of each kind: floor(NOMINAL × quarters / 4) (R121). -/
def capabilityOf (nominal : PerKind Nat) (h : PerChannel Health) : PerKind Nat where
  rack := nominal.rack * quartersOf h .rack / 4
  adhesion := nominal.adhesion * quartersOf h .adhesion / 4
  entry := nominal.entry * quartersOf h .entry / 4

/-- The capability is recomputed (R121), and with it, at once, the barred flags (R34). -/
def State.recap (s : State) : State :=
  (s.withProv { s.prov with capability := capabilityOf s.cfg.nominal s.prov.health }).rebar

/-- A channel takes a rating; capability and barred flags follow at once (R34, R122 steps 1 and 2). -/
def State.rate (s : State) (c : Channel) (h : Health) : State :=
  (s.withProv { s.prov with health := s.prov.health.put c h }).recap

/-- The capability notice: a window notice when a barred flag changed since `old`, then the supervisor's own evaluation
(R35, R122 step 4). -/
def State.noticeCapability (s : State) (old : State) : State :=
  let t := if s.win.records = old.win.records then s else s.evaluate
  t.evaluate

/-- The capability notice, handed when an a_cap figure changed since `old` (R122 step 4). -/
def State.noticeIfCapabilityChanged (s : State) (old : State) : State :=
  if s.prov.capability = old.prov.capability then s else s.noticeCapability old

/-- A change of one channel's health (R122). -/
def State.changeHealth (s : State) (c : Channel) (h : Health) : State :=
  ((s.rate c h).report (.channelState c h)).noticeIfCapabilityChanged s

/-- The channel is HEALTHY with a count at or above OWED_DEGRADE (R117). -/
def State.degrades (s : State) (c : Channel) : Bool :=
  s.prov.health.get c == .healthy && decide (s.cfg.owedDegrade ≤ s.prov.owed.get c)

/-- Each such channel becomes DEGRADED, in channel order, each as its own step (R117, R118, R119, R130). -/
def State.degradeOwing (s : State) : State :=
  channels.foldl (fun s c => if s.degrades c then s.changeHealth c .degraded else s) s

/-- A count of 0 becomes 1; any other keeps its value (R120, R127, R130). -/
def atLeastOne (n : Nat) : Nat := max 1 n

/-- A proof ends with its outcome (R127). -/
def State.concludeProof (s : State) (c : Channel) (o : ProofOutcome) : State :=
  let s := s.endProof c
  let passed := o == .pass
  let owed := if passed then 0 else atLeastOne (s.prov.owed.get c)
  let h : Health := if passed then .healthy else .failed
  let t := (s.withProv { s.prov with owed := s.prov.owed.put c owed }).rate c h
  let t := t.report (.proofResult c o owed)
  let t :=
    if s.prov.health.get c = h then t else (t.report (.channelState c h)).noticeIfCapabilityChanged s
  t.testProof

/-- The judgement of the present step at the expiry of the dwell timer (R125, R126). -/
def State.judgeProof (s : State) (x : Proof) : State :=
  let full := s.cfg.fullPressure.get x.channel
  match x.step with
  | .rise =>
    if 9 * full ≤ 10 * x.sample then
      (s.withProv { s.prov with proof := some { x with step := .fall }, dwell := some (s.after Config.proofDwell) }).recombine
        false
    else s.concludeProof x.channel .failRise
  | .fall => s.concludeProof x.channel (if 10 * x.sample ≤ full then .pass else .failFall)

/-- The channel's pressure sample becomes the step sample (R125). -/
def State.takeStepSample (s : State) : State :=
  match s.prov.proof with
  | none => s
  | some x => s.withProv { s.prov with proof := some { x with sample := s.scan.pressure.get x.channel } }

/-! ### Feedback supervision (6.5) -/

/-- The expected pressure of a channel (R112). -/
def State.expectedPressure (s : State) (c : Channel) : Nat := s.comb.demand.get c * s.cfg.fullPressure.get c / 100

/-- The deviation of a channel's sample from its expected pressure (R112). -/
def State.deviation (s : State) (c : Channel) : Nat :=
  (s.scan.pressure.get c - s.expectedPressure c) + (s.expectedPressure c - s.scan.pressure.get c)

/-- The channel is checked at this scan (R113). -/
def State.isChecked (s : State) (c : Channel) : Bool :=
  s.prov.health.get c != .failed && !s.prov.holds c
    && decide ((s.comb.feedback.get c).lastChange + Config.feedbackSettle ≤ s.clock)

/-- A channel's deviation start. -/
def State.withDeviationStart (s : State) (c : Channel) (x : Option Nat) : State :=
  s.withComb
    { s.comb with feedback := s.comb.feedback.put c { s.comb.feedback.get c with deviationStart := x } }

/-- A channel fails its feedback check: the failure to the Proving Unit, which tests for a proof, the record, the raising of
BRAKE_FEEDBACK, and the capability notice that follows (R114, R120, log 26). -/
def State.failChannel (s : State) (c : Channel) : State :=
  let s := s.withDeviationStart c none
  let t := (s.withProv { s.prov with owed := s.prov.owed.put c (atLeastOne (s.prov.owed.get c)) }).rate c .failed
  let t := t.testProof.report (.channelState c .failed)
  (t.raise .brakeFeedback t.capture).noticeIfCapabilityChanged s

/-- The channel's deviation is above FEEDBACK_TOL (R113). -/
def State.deviates (s : State) (c : Channel) : Bool := decide (s.cfg.feedbackTol < s.deviation c)

/-- The channel fails the check of this scan: it is checked, and its deviation began 200 ms or more before (R113). -/
def State.failsCheck (s : State) (c : Channel) : Bool :=
  s.isChecked c && s.deviates c
    && match (s.comb.feedback.get c).deviationStart with
      | none => false
      | some m => decide (m + Config.feedbackPersistence ≤ s.clock)

/-- The deviation start of one channel at a completed scan: cleared within tolerance, set at the first scan above it (R113). -/
def State.trackDeviation (s : State) (c : Channel) : State :=
  if s.isChecked c then
    if s.deviates c then
      match (s.comb.feedback.get c).deviationStart with
      | none => s.withDeviationStart c (some s.clock)
      | some _ => s
    else s.withDeviationStart c none
  else s

/-- The feedback check of a completed scan: every channel against the demand it has at the scan, then the failures in channel
order (R110, R113, R114, log 26). -/
def State.checkFeedback (s : State) : State :=
  (channels.filter s.failsCheck).foldl State.failChannel (channels.foldl State.trackDeviation s)

end Sys2Proof.Machine
end

