-- ==== Sys2Proof/Machine/Brakes.lean ====
section
/-! DEFINITION. DRIVER_BRAKE (R102), PARK (R104), the Sensor Scan (6.4), the proof timers (R118, R125) and PROVE_NOW (R130). -/

namespace Sys2Proof.Machine

/-- The fields of the DRIVER_BRAKE and PARK responses (R102). -/
def Combiner.replyBytes (c : Combiner) : List Byte :=
  bytesOf 1 c.driver ++ [byteOf c.park.code] ++ bytesOf 1 (bit (!c.springApplied))
    ++ channels.map (fun x => byteOf (c.demand.get x))

/-- DRIVER_BRAKE (R102). -/
def State.driverBrake (s : State) (fields : List Byte) : State × Reply :=
  let t := (s.withComb { s.comb with driver := min 100 (field fields 0 1) }).recompute
  (t, .done t.comb.replyBytes)

/-- PARK (R104). -/
def State.setPark (s : State) (fields : List Byte) : State × Reply :=
  match parkOfCode (field fields 0 1) with
  | none => (s, .refused .badField)
  | some x =>
    if x = .release ∧ s.line.opState = .config then (s, .refused .badState)
    else
      let t := (s.withComb { s.comb with park := x }).recompute
      (t, .done t.comb.replyBytes)

/-! ### Sensor Scan -/

/-- A sample after one read: kept on the no-data word, else the reading, at most `most` (R110). -/
def sampleAfter (old most : Nat) (w : BitVec 16) : Nat := if w = 0xFFFF#16 then old else min most w.toNat

/-- The eight samples take their new values together (R110). -/
def SensorScan.take (x : SensorScan) (w : ScanWords) : SensorScan :=
  { x with
    pressure := PerChannel.of (fun c => sampleAfter (x.pressure.get c) 1000 (w.pressure.get c))
    current := PerDoor.of (fun d => sampleAfter (x.current.get d) 4000 (w.current.get d))
    reading := false }

/-- SCAN_TIMER_EXPIRY: a read of the converters starts and the timer runs on (R110); nothing when it is stopped or has just restarted. -/
def State.scanExpiry (s : State) : State :=
  if s.scan.timer.expires s.clock Config.scanTime then
    s.withScan { s.scan with timer := some (s.after Config.scanTime), reading := true }
  else s

/-- SCAN_COMPLETE: the samples, then the combiner with its feedback check, the step sample, the doors (R110). -/
def State.scanComplete (s : State) (w : ScanWords) : State :=
  let t := (s.withScan (s.scan.take w)).recompute
  let t := t.checkFeedback
  let t := t.takeStepSample
  allDoors.foldl State.scanDoor t

/-! ### Proving -/

/-- Every owed count rises by one, saturating at 15 (R117, R118). -/
def Proving.allOweMore (p : Proving) : Proving :=
  { p with owed := PerChannel.of (fun c => min 15 (p.owed.get c + 1)) }

/-- PROOF_TIMER_EXPIRY (R118); nothing when the timer is stopped or has just restarted. -/
def State.proofExpiry (s : State) : State :=
  if s.prov.timer.expires s.clock (s.cfg.proofPeriod * 1000000) then
    let t := ((s.withProv s.prov.allOweMore).degradeOwing).emptyTried
    (t.withProv { t.prov with timer := some (t.after (t.cfg.proofPeriod * 1000000)) }).testProof
  else s

/-- DWELL_TIMER_EXPIRY (R125, R126); nothing when no dwell timer runs (R129) or it has just started. -/
def State.dwellExpiry (s : State) : State :=
  match s.prov.proof with
  | none => s
  | some x => if s.prov.dwell.expires s.clock Config.proofDwell then s.judgeProof x else s

/-- A channel's byte: bits 0 and 1 health, bits 4 to 7 owed count (11.3). -/
def Proving.channelByte (p : Proving) (c : Channel) : Byte := byteOf ((p.health.get c).code + 16 * p.owed.get c)

/-- The proof in progress: bits 0 to 2 channel, bits 4 and 5 step, 0 without one (11.3). -/
def Proving.proofByte (p : Proving) : Byte :=
  match p.proof with
  | none => 0#8
  | some x => byteOf (channelCode x.channel + 16 * x.step.code)

/-- PROVE_NOW (R130). -/
def State.proveNow (s : State) : State × Reply :=
  let t := s.withProv { s.prov with owed := PerChannel.of (fun c => atLeastOne (s.prov.owed.get c)) }
  let t := t.degradeOwing.emptyTried.testProof
  (t, .done (channels.map t.prov.channelByte ++ [t.prov.proofByte]))

end Sys2Proof.Machine
end

