-- ==== Sys2Proof/Machine/Doors.lean ====
section
/-! DEFINITION. The doors' inputs and the crew's door requests (chapter 8). -/

namespace Sys2Proof.Machine

/-- The levels of a door's inputs are replaced. -/
def State.withPins (s : State) (d : Door) (x : DoorPins) : State := s.withDoor d { s.doorAt d with pins := x }

/-- BUTTON_PRESS: the button goes from not pressed to pressed; a RELEASED door starts OPENING (R134, R138). -/
def State.buttonPress (s : State) (d : Door) : State :=
  let r := s.doorAt d
  if r.pins.pressed then s
  else
    let t := s.withPins d { r.pins with pressed := true }
    if r.state = .released then t.openDoor d else t

/-- BUTTON_RELEASE: the level alone (R134). -/
def State.buttonRelease (s : State) (d : Door) : State := s.withPins d { (s.doorAt d).pins with pressed := false }

/-- OPEN_SWITCH_MAKES: an OPENING door ends its opening; ignored in any other state (R140). -/
def State.openSwitchMakes (s : State) (d : Door) : State :=
  let r := s.doorAt d
  if r.pins.openMade then s
  else
    let t := s.withPins d { r.pins with openMade := true }
    if r.state = .opening then t.reachOpen d else t

/-- OPEN_SWITCH_BREAKS: the level alone, ignored in every state (R140). -/
def State.openSwitchBreaks (s : State) (d : Door) : State := s.withPins d { (s.doorAt d).pins with openMade := false }

/-- CLOSED_SWITCH_MAKES: a CLOSING, OPEN or FAULT door is shut; ignored in the other states (R142, R148). -/
def State.closedSwitchMakes (s : State) (d : Door) : State :=
  let r := s.doorAt d
  if r.pins.closedMade then s
  else
    let t := s.withPins d { r.pins with closedMade := true }
    match r.state with
    | .closing => t.landDoor d
    | .open => t.landDoor d
    | .fault => t.landDoor d
    | _ => t

/-- CLOSED_SWITCH_BREAKS: a LOCKED or RELEASED door goes to FAULT; ignored in the other states (R148). -/
def State.closedSwitchBreaks (s : State) (d : Door) : State :=
  let r := s.doorAt d
  if r.pins.closedMade then
    let t := s.withPins d { r.pins with closedMade := false }
    match r.state with
    | .locked => t.stepDoor d .fault
    | .released => t.stepDoor d .fault
    | _ => t
  else s

/-- MOTION_TIMER_EXPIRY: the time limit of the door's present motion expires, and the door goes to FAULT with its close order
ended (R140, R142). Nothing when the timer is stopped or has just (re)started, or runs for the other motion: the expiry then finds
the timer of its own motion gone (R147). -/
def State.motionExpiry (s : State) (d : Door) (x : MotionLimit) : State :=
  let r := s.doorAt d
  if r.motion.expires s.clock (motionLength x) && decide (r.state.timeLimit = some x) then
    (s.withCloseOrdered d false).stepDoor d .fault
  else s

/-! ### Requests -/

/-- The four door states as responses carry them (R154). -/
def State.doorStateBytes (s : State) : List Byte := allDoors.map (fun d => byteOf (s.doorAt d).state.code)

/-- The released sides: bit 0 LEFT, bit 1 RIGHT (11.3). -/
def DoorController.releasedByte (c : DoorController) : Byte := byteOf (bit c.releasedLeft + 2 * bit c.releasedRight)

/-- The doors of a side, in door order. -/
def doorsOf : PlatformSide → List Door
  | .left => [.d1, .d2]
  | .right => [.d3, .d4]
  | .both => allDoors

/-- A side is added to or removed from the released sides; BOTH names both. -/
def DoorController.setReleased (c : DoorController) (x : PlatformSide) (v : Bool) : DoorController :=
  match x with
  | .left => { c with releasedLeft := v }
  | .right => { c with releasedRight := v }
  | .both => { c with releasedLeft := v, releasedRight := v }

/-- DOOR_RELEASE of a side whose checks have passed (R137). -/
def State.releaseSide (s : State) (x : PlatformSide) : State :=
  (doorsOf x).foldl (fun s d => if (s.doorAt d).state = .locked then s.stepDoor d .released else s)
    (s.withDoors (s.doors.setReleased x true))

/-- DOOR_RELEASE (R137). -/
def State.doorRelease (s : State) (fields : List Byte) : State × Reply :=
  match sideOfCode (field fields 0 1) with
  | none => (s, .refused .badField)
  | some .both => (s, .refused .badField)
  | some x =>
    if s.odo.located = false then (s, .refused .notLocated)
    else if s.odo.standstill = false then (s, .refused .notStandstill)
    else if s.platformCheck x = false then (s, .refused .notPlatform)
    else
      let t := s.releaseSide x
      (t, .done (t.doors.releasedByte :: t.doorStateBytes))

/-- DOOR_OPEN_RELEASED (R139). -/
def State.openReleased (s : State) : State × Reply :=
  let t := allDoors.foldl (fun s d => if (s.doorAt d).state = .released then s.openDoor d else s) s
  (t, .done t.doorStateBytes)

/-- A door's record under a new close order: count 0, flag clear, mark set (R141). -/
def DoorRecord.ordered (r : DoorRecord) : DoorRecord := { r with reopen := 0, closeFailed := false, closeOrdered := true }

/-- One door under DOOR_CLOSE (R141). The close-failed flag is cleared before the step of R135, so the step's DOOR_EVENT
carries it clear: DESIGN CHOICE (log 32), since no rule orders the two. -/
def State.orderClose (s : State) (d : Door) : State :=
  let r := s.doorAt d
  match r.state with
  | .released => s.stepDoor d .locked
  | .opening => (s.withDoor d r.ordered).closeDoor d
  | .open => (s.withDoor d r.ordered).closeDoor d
  | .fault => (s.withDoor d r.ordered).closeDoor d
  | .closing =>
    s.withDoor d { r.ordered with motion := some (s.after Config.closeTimeLimit), obstruction := none }
  | .locked => s
  | .isolated => s

/-- DOOR_CLOSE (R141). -/
def State.doorClose (s : State) (fields : List Byte) : State × Reply :=
  match sideOfCode (field fields 0 1) with
  | none => (s, .refused .badField)
  | some x =>
    let t := (doorsOf x).foldl State.orderClose (s.withDoors (s.doors.setReleased x false))
    (t, .done (t.doors.releasedByte :: t.doorStateBytes))

/-- DOOR_ISOLATE (R149). -/
def State.doorIsolate (s : State) (fields : List Byte) : State × Reply :=
  match doorOfCode (field fields 0 1) with
  | none => (s, .refused .badField)
  | some d =>
    if s.odo.standstill = false then (s, .refused .notStandstill)
    else if (s.doorAt d).state ≠ .locked then (s, .refused .doorState)
    else
      let t := s.stepDoor d .isolated
      (t, .done t.doorStateBytes)

/-- DOOR_UNISOLATE (R150). -/
def State.doorUnisolate (s : State) (fields : List Byte) : State × Reply :=
  match doorOfCode (field fields 0 1) with
  | none => (s, .refused .badField)
  | some d =>
    if s.odo.standstill = false then (s, .refused .notStandstill)
    else if (s.doorAt d).state ≠ .isolated then (s, .refused .doorState)
    else
      let x : DoorState := if (s.doorAt d).pins.closedMade then .locked else .fault
      let t := (s.withCloseOrdered d false).stepDoor d x
      (t, .done t.doorStateBytes)

end Sys2Proof.Machine
end

