-- ==== Sys2Proof/Machine/Interventions.lean ====
section
/-! DEFINITION. The Intervention Set: release conditions (R84), ACK_INTERVENTION (R86), RELEASE (R90), the emergency loop (R83)
and cab silence (R88, R89). -/

namespace Sys2Proof.Machine

/-- The release condition of a cause as ACK_INTERVENTION tests it (R84, R86): AUTHORITY_OVERRUN is left, and CAB_SILENT is
tested on the mark as it stood before the request (R89). -/
def State.releasable (s : State) (heardBefore : Bool) : Cause → Bool
  | .overspeedService => s.belowService
  | .overspeedEmergency => s.odo.standstill
  | .authorityOverrun => false
  | .rollback => s.odo.standstill
  | .doorUnlockedMoving => !s.doors.anyUnlocked && s.odo.standstill
  | .cabSilent => heardBefore
  | .emergencyLoop => !s.set.loopOpen && s.odo.standstill
  | .brakeFeedback => s.odo.standstill

/-- ACK_INTERVENTION: each entry present, in set order, is removed when its condition holds (R81, R86). A raising that an evaluation
of the step hands is not taken inside it (R87, R91). -/
def State.acknowledge (s : State) (heardBefore : Bool) : State × Reply :=
  let t := (s.set.entries.map Entry.cause).foldl (fun s c => if s.releasable heardBefore c then s.removeAside c else s) s
  (t, .done (t.set.entries.flatMap Entry.bytes))

/-- The cab heard mark of the CAB_SILENT entry, if one is present (R89). -/
def InterventionSet.heard (i : InterventionSet) : Bool := i.entries.any (fun e => e.cause == .cabSilent && e.heard)

/-- A valid cab request sets the mark (R89). -/
def InterventionSet.hear (i : InterventionSet) : InterventionSet :=
  { i with entries := i.entries.map (fun e => if e.cause = .cabSilent then { e with heard := true } else e) }

/-- The raisings that the evaluations of a step have handed are taken once it has ended, if an entry has left the set in it: without a
removal there was no evaluation (R87, R91, log 33). -/
def State.afterRemovals (t before after : State) : State :=
  if after.set.entries.length < before.set.entries.length then t.raiseOverspeeds after else t

/-- The RELEASE frame's effect (R90). -/
def State.takeRelease (s : State) (fields : List Byte) : State :=
  if causeOfCode (field fields 0 1) = some .authorityOverrun ∧ s.odo.standstill = true then
    let t := s.removeAside .authorityOverrun
    t.afterRemovals s t
  else s

/-- EMERGENCY_LOOP is raised with the set's own capture (R83). -/
def State.raiseLoop (s : State) : State := s.raise .emergencyLoop s.capture

/-- The loop input changes from closed to open (R83). -/
def State.loopOpens (s : State) : State :=
  if s.set.loopOpen then s else (s.withSet { s.set with loopOpen := true }).raiseLoop

/-- The loop input changes from open to closed: the level alone (R83). -/
def State.loopCloses (s : State) : State := s.withSet { s.set with loopOpen := false }

/-- The cab supervision timer expires: it stops, and CAB_SILENT is raised (R88, R193); nothing when it is stopped, or a request has
just restarted it. -/
def State.cabExpiry (s : State) : State :=
  if s.line.cabTimer.expires s.clock (s.cfg.cabTimeout * 1000) then
    let t := s.withLine { s.line with cabTimer := none }
    t.raise .cabSilent t.capture
  else s

end Sys2Proof.Machine
end

