-- ==== Sys2Proof/Machine/Odometry.lean ====
section
/-! DEFINITION. The Odometry Unit (chapter 1): phase changes and tooth events, markers, standstill, LOCATE and DIRECTION, and
what the Door Controller and the Proving Unit do on a tooth notice (R152, R128). -/

namespace Sys2Proof.Machine

/-! ### Tooth events (1.1) -/

/-- The phase position of a pair of levels (1.1). -/
def phasePosition : Bool → Bool → Nat
  | false, false => 0
  | true, false => 1
  | true, true => 2
  | false, true => 3

/-- How a change of the phase pair is classified (R1). -/
inductive PhaseStep where
  | none
  | up
  | invalid
  | down
deriving DecidableEq, Repr

/-- The step from one phase position to another (R1). -/
def phaseStep (old new : Nat) : PhaseStep :=
  match (new + 4 - old) % 4 with
  | 1 => .up
  | 2 => .invalid
  | 3 => .down
  | _ => .none

/-- p after a tooth, saturating (R2). -/
def movedPosition (p : Nat) : Vertical → Nat
  | .up => min Config.maxPosition (p + 1)
  | .down => p - 1

/-- u grown by one, saturating at 255 (R4, R5). -/
def grown (u : Nat) : Nat := min 255 (u + 1)

/-- The track that contains a position lets the pinion slip: ADHESION, or no record of the window (R5). -/
def Window.slipsAt (w : Window) (p : Nat) : Bool :=
  match w.containing p with
  | none => true
  | some g => g.kind == .adhesion

/-- The slip tally and u after a tooth, p already moved (R5). -/
def slipAfter (slips : Bool) (slip u : Nat) : Nat × Nat :=
  if slips then (if Config.slipTeeth ≤ slip + 1 then (0, grown u) else (slip + 1, u)) else (slip, u)

/-- The interval of a tooth event, 1 to 4,194,303 µs (R10). -/
def Odometry.interval (o : Odometry) (now : Nat) : Nat :=
  match o.lastToothAt with
  | none => Config.maxInterval
  | some m => max 1 (min Config.maxInterval (now - m))

/-- v and the last interval after a tooth event (R10). -/
def Odometry.measured (o : Odometry) (d : Vertical) (now : Nat) : Nat × Nat :=
  if o.standstill || o.lastDir != some d then (50, 2000000)
  else (min Config.maxSpeed (100000000 / o.interval now), o.interval now)

/-- The tooth moves against the selected direction, or in NEUTRAL (R14). -/
def against (x : Direction) (d : Vertical) : Bool := x.travel != some d

/-- The rollback tally after a tooth event (R14). -/
def rollbackAfter (x : Direction) (d : Vertical) (tally : Nat) : Nat :=
  if against x d then min 255 (tally + 1) else tally - 1

/-- The odometry state after a tooth event; everything of R2's list together. -/
def Odometry.tooth (o : Odometry) (d : Vertical) (slips : Bool) (now : Nat) : Odometry :=
  { o with
    p := movedPosition o.p d
    u := (slipAfter slips o.slip o.u).2
    slip := (slipAfter slips o.slip o.u).1
    v := (o.measured d now).1
    lastInterval := some (o.measured d now).2
    lastDir := some d
    lastToothAt := some now
    standstill := false
    standstillTimer := some (now + Config.standstillTime)
    rollback := rollbackAfter o.direction d o.rollback
    stepCount := 0 }

/-- The end of standstill withdraws the release: no side is released, and RELEASED doors are locked (R152). -/
def State.withdrawRelease (s : State) : State :=
  allDoors.foldl (fun s d => if (s.doorAt d).state = .released then s.stepDoor d .locked else s)
    (s.withDoors { s.doors with releasedLeft := false, releasedRight := false })

/-- The Door Controller takes a tooth notice (R152). -/
def State.doorsTooth (s : State) (endedStandstill : Bool) : State :=
  let s := if endedStandstill then s.withdrawRelease else s
  if allDoors.any (fun d => (s.doorAt d).state.ajar) then s.raiseDoorMoving else s

/-- A tooth event and its notices: ROLLBACK if the tally asks for it (R15), then the blocks in the order of R3's table. -/
def State.toothEvent (s : State) (d : Vertical) : State :=
  let ended := s.odo.standstill
  let t := s.withOdo (s.odo.tooth d (s.win.slipsAt (movedPosition s.odo.p d)) s.clock)
  let t :=
    if against s.odo.direction d && decide (s.cfg.rollbackLimit ≤ t.odo.rollback) then t.raise .rollback t.capture else t
  let t := t.evaluateTooth
  let t := t.recomputeWindow false
  let t := t.recomputeInsideTooth
  let t := t.doorsTooth ended
  t.abandonProof.emptyTried

/-- PHASE_CHANGE (R1, R4). -/
def State.phaseChange (s : State) (a b : Bool) : State :=
  let t := s.withOdo { s.odo with phaseA := a, phaseB := b }
  match phaseStep (phasePosition s.odo.phaseA s.odo.phaseB) (phasePosition a b) with
  | .none => t
  | .invalid => (t.withOdo { t.odo with u := grown t.odo.u }).recomputeWindow false
  | .up =>
    if t.odo.stepCount + 1 = 4 then t.toothEvent .up
    else t.withOdo { t.odo with stepCount := t.odo.stepCount + 1 }
  | .down =>
    if t.odo.stepCount - 1 = -4 then t.toothEvent .down
    else t.withOdo { t.odo with stepCount := t.odo.stepCount - 1 }

/-! ### Markers (1.3) -/

/-- |m − p|. -/
def gap (m p : Nat) : Nat := (m - p) + (p - m)

/-- The positions of the window's markers, in ascending order. -/
def Window.markers (w : Window) : List Nat := w.records.filterMap Segment.markerAt

/-- Of two candidates at one distance the one below p is preferred in direction DOWN, else the one above (R7). -/
def preferLower (x : Direction) : Bool := x == .down

/-- The better of two candidates (R7). -/
def betterMarker (x : Direction) (p m n : Nat) : Nat :=
  if gap m p < gap n p then m
  else if gap n p < gap m p then n
  else if preferLower x then min m n else max m n

/-- The marker a pulse is taken for, if any candidate lies within u + MARKER_TOLERANCE (R7). -/
def State.chosenMarker (s : State) : Option Nat :=
  match s.win.markers.filter (fun m => decide (gap m s.odo.p ≤ s.odo.u + Config.markerTolerance)) with
  | [] => none
  | m :: rest => some (rest.foldl (betterMarker s.odo.direction s.odo.p) m)

/-- MARKER_PULSE: the correction with its notices (R8), or MARKER_UNKNOWN (R9). -/
def State.markerPulse (s : State) : State :=
  match s.chosenMarker with
  | none => s.report (.markerUnknown s.odo.p s.odo.u)
  | some m => ((s.withOdo { s.odo with p := m, u := 0, slip := 0 }).evaluate.recomputeWindow false).recomputeInside

/-! ### Standstill (R12) -/

/-- STANDSTILL_TIMER_EXPIRY with the notices in the order of R12's list; nothing when the timer is stopped, or a tooth has just
restarted it (R13). -/
def State.standstillExpiry (s : State) : State :=
  if s.odo.standstillTimer.expires s.clock Config.standstillTime then
    (((s.withOdo { s.odo with v := 0, standstill := true, standstillTimer := none }).evaluate.testProof).testDoorRelease).testQuiesced
  else s

/-! ### Requests (1.6) -/

/-- LOCATE (R16, R38). -/
def State.locate (s : State) (fields : List Byte) : State × Reply :=
  let position := field fields 0 3
  let u := field fields 3 1
  let number := field fields 4 2
  if Config.maxPosition < position then (s, .refused .badField)
  else if s.odo.standstill = false then (s, .refused .notStandstill)
  else
    let held := !s.win.records.isEmpty
    let t := s.withOdo { s.odo with p := position, u := u, located := true, slip := 0, rollback := 0 }
    let t := t.withWin
      { t.win with records := [], endUp := false, endDown := false, located := some { number := number, position := position } }
    (((t.recomputeWindow held).recomputeInside).evaluate, .done (bytesOf 3 position ++ bytesOf 1 u))

/-- DIRECTION and its notice, to the window first (R17, R29). -/
def State.turn (s : State) (x : Direction) : State :=
  ((s.withOdo { s.odo with direction := x, rollback := 0 }).recomputeWindow false).evaluate

/-- DIRECTION (R17). -/
def State.selectDirection (s : State) (fields : List Byte) : State × Reply :=
  match directionOfCode (field fields 0 1) with
  | none => (s, .refused .badField)
  | some x =>
    if s.odo.standstill = false then (s, .refused .notStandstill)
    else (if s.odo.direction = x then s else s.turn x, .done (bytesOf 1 (directionCode x)))

end Sys2Proof.Machine
end

