-- ==== Sys2Proof/Machine/Authority.lean ====
section
/-! DEFINITION. The Authority Table's downlinks AUTHORITY (R46, R47), RESTRICTION_SET (R50, R51), RESTRICTION_CLEAR (R52) and
its request READ_AUTHORITY (R54). -/

namespace Sys2Proof.Machine

/-- The AUTHORITY frame's effect once it is accepted by address (R46, R47). -/
def State.takeAuthority (s : State) (fields : List Byte) : State :=
  let a : Range := { low := field fields 1 3, high := field fields 4 3 }
  let b : Range := { low := field fields 7 3, high := field fields 10 3 }
  if a.low ≤ Config.maxPosition ∧ a.high ≤ Config.maxPosition ∧ b.low ≤ Config.maxPosition ∧ b.high ≤ Config.maxPosition
  then
    let t := (s.withAuth { s.auth with a := a, b := b, id := field fields 0 1 }).reflag
    (t.report (.authorityTaken t.auth.id t.auth.inside)).evaluate
  else s

/-- The restriction of a RESTRICTION_SET's fields; none where R50's first case refuses it. A speed above 20,000 is clamped. -/
def restrictionOf (fields : List Byte) : Option Restriction :=
  match appliesOfCode (field fields 9 1) with
  | none => none
  | some x =>
    if field fields 0 1 = 0 ∨ Config.maxPosition < field fields 1 3 ∨ Config.maxPosition < field fields 4 3 then none
    else
      some
        { id := field fields 0 1, low := field fields 1 3, high := field fields 4 3
          speed := min Config.maxSpeed (field fields 7 2), direction := x }

/-- The table with a restriction laid: replaced in place, or appended while there is room (R49, R50). -/
def layRestriction (rs : List Restriction) (r : Restriction) : Option (List Restriction) :=
  if rs.any (fun x => x.id == r.id) then some (rs.map (fun x => if x.id = r.id then r else x))
  else if rs.length < Config.restrictionCapacity then some (rs ++ [r])
  else none

/-- The RESTRICTION_SET frame's effect (R50, R51). -/
def State.takeRestrictionSet (s : State) (fields : List Byte) : State :=
  match (restrictionOf fields).bind (layRestriction s.auth.restrictions) with
  | none => s.report (.restrictionRefused (field fields 0 1))
  | some rs => (s.withAuth { s.auth with restrictions := rs }).evaluate

/-- The RESTRICTION_CLEAR frame's effect (R52). -/
def State.takeRestrictionClear (s : State) (fields : List Byte) : State :=
  let id := field fields 0 1
  let rest := if id = 0 then [] else s.auth.restrictions.filter (fun r => r.id != id)
  if rest = s.auth.restrictions then s else (s.withAuth { s.auth with restrictions := rest }).evaluate

/-- READ_AUTHORITY (R54, 11.3). -/
def State.readAuthority (s : State) : State × Reply :=
  let x := s.auth
  (s, .done (bytesOf 3 x.a.low ++ bytesOf 3 x.a.high ++ bytesOf 3 x.b.low ++ bytesOf 3 x.b.high ++ bytesOf 1 x.id
    ++ [byteOf (bit x.inside + 2 * bit x.inA + 4 * bit x.inB)] ++ bytesOf 1 x.restrictions.length
    ++ x.restrictions.flatMap Restriction.bytes))

end Sys2Proof.Machine
end

