-- ==== Sys2Proof/Machine/Flags.lean ====
section
/-! DEFINITION. The eight summary flags of a burst header (R176), masked by SUMMARY_MASK. -/

namespace Sys2Proof.Machine

/-- Some channel has the rating (R131, R176). -/
def Proving.anyRated (p : Proving) (h : Health) : Bool := channels.any (fun c => p.health.get c == h)

/-- The summary flags as the owners stand, bit 0 first (11.1, R176). -/
def State.summaryFlags (s : State) : List Bool :=
  [ !s.set.entries.isEmpty
  , s.set.hasLevel .emergency
  , s.doors.anyUnlocked
  , s.prov.anyRated .degraded
  , s.prov.anyRated .failed
  , decide (s.win.ahead < s.cfg.aheadLow)
  , s.radio.wasLost
  , decide (20 < s.odo.u) ]

/-- Flags as bits, the first flag bit 0. -/
def bitsOf : List Bool → Nat
  | [] => 0
  | b :: rest => bit b + 2 * bitsOf rest

/-- The summary byte as sent: each flag AND its bit of SUMMARY_MASK (R176). -/
def State.summaryByte (s : State) : Byte := byteOf (bitsOf s.summaryFlags) &&& s.cfg.summaryMask

end Sys2Proof.Machine
end

