-- ==== Sys2Proof/Machine/Radio.lean ====
section
/-! DEFINITION. The Radio Unit (chapter 9): link supervision, the timers, bursts, acknowledgement, and the acceptance and
dispatch of downlinks. -/

namespace Sys2Proof.Machine

/-! ### Link supervision (9.3) -/

/-- The moment at which a radio timer started now expires (R164). -/
def State.radioDeadline (s : State) : Nat := s.after (s.cfg.radioTimeout * 1000)

/-- A good frame on the radio line: UP, the timer started or restarted, and a link notice when the state changed (R164). -/
def State.linkUp (s : State) : State :=
  let t := s.withRadio { s.radio with link := .up, timer := some s.radioDeadline }
  if s.radio.link = .up then t else t.evaluate

/-- RADIO_TIMER_EXPIRY (R164, R177); nothing when the timer is stopped, or a good frame has just restarted it (R165). -/
def State.radioExpiry (s : State) : State :=
  if s.radio.timer.expires s.clock (s.cfg.radioTimeout * 1000) then
    let t := s.withRadio { s.radio with link := .lost, timer := none, wasLost := true, carriedLost := false }
    if s.radio.link = .lost then t else t.evaluate
  else s

/-- POSITION_TIMER_EXPIRY (R169); nothing when the timer is stopped or has just restarted. -/
def State.positionExpiry (s : State) : State :=
  if s.radio.positionTimer.expires s.clock (s.cfg.positionInterval * 1000) then
    let t := s.withRadio { s.radio with positionTimer := some (s.after (s.cfg.positionInterval * 1000)) }
    if s.odo.located then t.reportPosition else t
  else s

/-! ### Bursts (9.5) -/

/-- How many records at the head of the queue fit under a cap, after `used` bytes (R172). -/
def fitting (cap : Nat) : Nat → List Report → Nat
  | _, [] => 0
  | used, r :: rest => if used + r.size ≤ cap then 1 + fitting cap (used + r.size) rest else 0

/-- How many records a burst takes: the first always, then those that fit (R172). -/
def burstCount (cap : Nat) : List Report → Nat
  | [] => 0
  | r :: rest => 1 + fitting cap r.size rest

/-- The 6-byte header of a burst built now (R172, 11.1). -/
def State.burstHeader (s : State) (count : Nat) : List Byte :=
  bytesOf 2 s.cfg.carAddress.toNat ++ [byteOf s.radio.number, s.summaryByte, byteOf s.radio.lost, byteOf count]

/-- The body of a burst built now with the first `count` records of the queue (R172). -/
def State.burstBody (s : State) (count : Nat) : List Byte :=
  s.burstHeader count ++ (s.radio.queue.take count).flatMap Report.bytes

/-- The header of a burst built now carries RADIO_WAS_LOST (R172, R177). -/
def State.carriesLost (s : State) : Bool := s.radio.wasLost && s.cfg.summaryMask.toNat.testBit 6

/-- A frame begins on the radio line (R161, R171). -/
def State.transmit (s : State) (body : List Byte) : State :=
  s.withRadio
    { s.radio with
      transmitter := some { frame := frameOf body, ends := s.after (lineTime .radio (frameOf body).length) } }

/-- A new burst is built and sent (R172). -/
def State.buildBurst (s : State) : State :=
  let n := burstCount s.cfg.burstCap s.radio.queue
  (s.withRadio
    { s.radio with
      inFlight := some { number := s.radio.number, body := s.burstBody n, count := n }
      carriedTally := s.radio.lost
      carriedLost := s.carriesLost
      resend := 0 }).transmit (s.burstBody n)

/-- The burst in flight is sent again (R173). -/
def State.resendBurst (s : State) (b : Burst) : State :=
  (s.withRadio { s.radio with resend := min 255 (s.radio.resend + 1) }).transmit b.body

/-- POLL, once accepted (R171). -/
def State.takePoll (s : State) : State :=
  if s.cfg.listenOnly then s
  else if s.radio.transmitter.isSome then s
  else
    match s.radio.inFlight with
    | some b => s.resendBurst b
    | none =>
      if s.radio.queue.isEmpty then (if s.cfg.answerEmpty then s.transmit (s.burstBody 0) else s) else s.buildBurst

/-- The radio state after the in-flight burst is acknowledged (R174). -/
def RadioUnit.retire (r : RadioUnit) (b : Burst) : RadioUnit :=
  { r with
    queue := r.queue.drop b.count
    lost := r.lost - r.carriedTally
    wasLost := r.wasLost && !r.carriedLost
    number := (b.number + 1) % 8
    inFlight := none
    carriedTally := 0
    carriedLost := false
    resend := 0 }

/-- ACK, once accepted: ignored unless it names the burst in flight (R174). -/
def State.takeAck (s : State) (fields : List Byte) : State :=
  match s.radio.inFlight with
  | none => s
  | some b => if field fields 0 1 = b.number then s.withRadio (s.radio.retire b) else s

/-- TRANSMIT_COMPLETE: the transmitter is idle (R161). -/
def State.transmitComplete (s : State) : State := s.withRadio { s.radio with transmitter := none }

/-! ### Downlinks (9.2) -/

/-- The six downlink kinds (R163). -/
inductive DownlinkKind where
  | poll
  | ack
  | authority
  | release
  | restrictionSet
  | restrictionClear
deriving DecidableEq, Repr

/-- The code of a kind (11.1). -/
def DownlinkKind.code : DownlinkKind → Byte
  | .poll => 0x01#8
  | .ack => 0x02#8
  | .authority => 0x03#8
  | .release => 0x04#8
  | .restrictionSet => 0x05#8
  | .restrictionClear => 0x06#8

/-- The kind of a code (11.1). -/
def downlinkOfCode (b : Byte) : Option DownlinkKind :=
  [DownlinkKind.poll, .ack, .authority, .release, .restrictionSet, .restrictionClear].find? (fun k => k.code == b)

/-- The body length of a kind, less the destination and the kind (11.1). -/
def DownlinkKind.size : DownlinkKind → Nat
  | .poll => 0
  | .ack => 1
  | .authority => 13
  | .release => 1
  | .restrictionSet => 10
  | .restrictionClear => 1

/-- The kind is accepted by the group mask, and not by the exact address (R163). -/
def DownlinkKind.isGrouped : DownlinkKind → Bool
  | .restrictionSet => true
  | .restrictionClear => true
  | _ => false

/-- A destination is accepted for a kind (R162). -/
def Settings.accepts (g : Settings) (k : DownlinkKind) (destination : BitVec 16) : Bool :=
  if k.isGrouped then (destination ^^^ g.carAddress) &&& g.groupMask == 0#16 else destination == g.carAddress

/-- An accepted downlink is handed to its owner (R163). -/
def State.dispatchDownlink (s : State) (k : DownlinkKind) (fields : List Byte) : State :=
  match k with
  | .poll => s.takePoll
  | .ack => s.takeAck fields
  | .authority => s.takeAuthority fields
  | .release => s.takeRelease fields
  | .restrictionSet => s.takeRestrictionSet fields
  | .restrictionClear => s.takeRestrictionClear fields

/-- A good frame on the radio line: link supervision first (R164), then the checks of R162 and the dispatch. The supervisor takes
a link notice before the dispatch: DESIGN CHOICE (log 6). -/
def State.takeDownlink (s : State) (body : List Byte) : State :=
  let s := s.linkUp
  match body with
  | hi :: lo :: code :: fields =>
    match downlinkOfCode code with
    | none => s
    | some k =>
      if fields.length = k.size ∧ s.cfg.accepts k (hi ++ lo) = true then s.dispatchDownlink k fields else s
  | _ => s

end Sys2Proof.Machine
end

