-- ==== Sys2Proof/Machine/Settings.lean ====
section
/-! DEFINITION. The configuration items (10.4): their codes (11.4), ranges, clamping, and what each change is handed on to
(R190). -/

namespace Sys2Proof.Machine

/-- The 47 items of 10.4. -/
inductive ConfigItem where
  | carAddress
  | groupMask
  | carLength
  | trainLength
  | maxSpeed
  | nominal (k : TrackKind)
  | react (k : TrackKind)
  | barredCreep
  | rbShare (k : TrackKind)
  | abShare (k : TrackKind)
  | holdLevel
  | valvePeriod
  | motorPeriod
  | gangRack
  | fullPressure (c : Channel)
  | feedbackTol
  | proofPeriod
  | owedDegrade
  | openDir (d : Door)
  | doorDuty
  | compGain
  | obstructLimit
  | aheadLow
  | behindHigh
  | rollbackLimit
  | radioTimeout
  | radioLossSpeed
  | positionInterval
  | burstCap
  | answerEmpty
  | listenOnly
  | summaryMask
  | cabTimeout
deriving DecidableEq, Repr

/-- The items in the order of their codes, 0x01 first (11.4). -/
def configItems : List ConfigItem :=
  [ .carAddress, .groupMask, .carLength, .trainLength, .maxSpeed
  , .nominal .rack, .nominal .entry, .nominal .adhesion
  , .react .rack, .react .entry, .react .adhesion
  , .barredCreep
  , .rbShare .rack, .abShare .rack, .rbShare .entry, .abShare .entry, .rbShare .adhesion, .abShare .adhesion
  , .holdLevel, .valvePeriod, .motorPeriod, .gangRack
  , .fullPressure .rb1, .fullPressure .rb2, .fullPressure .ab1, .fullPressure .ab2
  , .feedbackTol, .proofPeriod, .owedDegrade
  , .openDir .d1, .openDir .d2, .openDir .d3, .openDir .d4
  , .doorDuty, .compGain, .obstructLimit
  , .aheadLow, .behindHigh, .rollbackLimit
  , .radioTimeout, .radioLossSpeed, .positionInterval
  , .burstCap, .answerEmpty, .listenOnly, .summaryMask, .cabTimeout ]

/-- The item of a code, 0x01 to 0x2F. -/
def itemOfCode (n : Nat) : Option ConfigItem :=
  match n with
  | 0 => none
  | n + 1 => configItems[n]?

/-- Lowest and highest value of an item (10.4). -/
def ConfigItem.range : ConfigItem → Nat × Nat
  | .carAddress => (1, 65534)
  | .groupMask => (0, 65535)
  | .carLength => (40, 250)
  | .trainLength => (40, 600)
  | .maxSpeed => (1000, 20000)
  | .nominal .rack => (500, 6000)
  | .nominal .entry => (300, 6000)
  | .nominal .adhesion => (300, 3000)
  | .react _ => (100, 3000)
  | .barredCreep => (300, 3000)
  | .rbShare _ => (0, 100)
  | .abShare _ => (0, 100)
  | .holdLevel => (30, 100)
  | .valvePeriod => (500, 10000)
  | .motorPeriod => (20, 1000)
  | .gangRack => (0, 1)
  | .fullPressure _ => (100, 1000)
  | .feedbackTol => (10, 200)
  | .proofPeriod => (60, 14400)
  | .owedDegrade => (1, 15)
  | .openDir _ => (1, 2)
  | .doorDuty => (10, 90)
  | .compGain => (0, 20)
  | .obstructLimit => (500, 4000)
  | .aheadLow => (1, 27)
  | .behindHigh => (1, 27)
  | .rollbackLimit => (1, 20)
  | .radioTimeout => (2000, 60000)
  | .radioLossSpeed => (500, 10000)
  | .positionInterval => (1000, 60000)
  | .burstCap => (8, 112)
  | .answerEmpty => (0, 1)
  | .listenOnly => (0, 1)
  | .summaryMask => (0, 255)
  | .cabTimeout => (200, 5000)

/-- The items whose values are codes or bits: a value outside the range is refused and not clamped (R190, third check). -/
def ConfigItem.isCoded : ConfigItem → Bool
  | .gangRack => true
  | .answerEmpty => true
  | .listenOnly => true
  | .openDir _ => true
  | .summaryMask => true
  | _ => false

/-- The third check of R190. -/
def ConfigItem.admits (i : ConfigItem) (v : Nat) : Bool :=
  !i.isCoded || (decide (i.range.1 ≤ v) && decide (v ≤ i.range.2))

/-- The value an item takes: the given one, or the nearest of its range (R190). -/
def ConfigItem.clamp (i : ConfigItem) (v : Nat) : Nat := max i.range.1 (min i.range.2 v)

/-- The value an item holds, as CONFIGURE codes it. -/
def Settings.get (g : Settings) : ConfigItem → Nat
  | .carAddress => g.carAddress.toNat
  | .groupMask => g.groupMask.toNat
  | .carLength => g.carLength
  | .trainLength => g.trainLength
  | .maxSpeed => g.maxSpeed
  | .nominal k => g.nominal.get k
  | .react k => g.react.get k
  | .barredCreep => g.barredCreep
  | .rbShare k => g.rbShare.get k
  | .abShare k => g.abShare.get k
  | .holdLevel => g.holdLevel
  | .valvePeriod => g.valvePeriod
  | .motorPeriod => g.motorPeriod
  | .gangRack => bit g.gangRack
  | .fullPressure c => g.fullPressure.get c
  | .feedbackTol => g.feedbackTol
  | .proofPeriod => g.proofPeriod
  | .owedDegrade => g.owedDegrade
  | .openDir d => verticalCode (g.openDir.get d)
  | .doorDuty => g.doorDuty
  | .compGain => g.compGain
  | .obstructLimit => g.obstructLimit
  | .aheadLow => g.aheadLow
  | .behindHigh => g.behindHigh
  | .rollbackLimit => g.rollbackLimit
  | .radioTimeout => g.radioTimeout
  | .radioLossSpeed => g.radioLossSpeed
  | .positionInterval => g.positionInterval
  | .burstCap => g.burstCap
  | .answerEmpty => bit g.answerEmpty
  | .listenOnly => bit g.listenOnly
  | .summaryMask => g.summaryMask.toNat
  | .cabTimeout => g.cabTimeout

/-- The items with one value replaced. -/
def Settings.put (g : Settings) (i : ConfigItem) (v : Nat) : Settings :=
  match i with
  | .carAddress => { g with carAddress := BitVec.ofNat 16 v }
  | .groupMask => { g with groupMask := BitVec.ofNat 16 v }
  | .carLength => { g with carLength := v }
  | .trainLength => { g with trainLength := v }
  | .maxSpeed => { g with maxSpeed := v }
  | .nominal k => { g with nominal := g.nominal.put k v }
  | .react k => { g with react := g.react.put k v }
  | .barredCreep => { g with barredCreep := v }
  | .rbShare k => { g with rbShare := g.rbShare.put k v }
  | .abShare k => { g with abShare := g.abShare.put k v }
  | .holdLevel => { g with holdLevel := v }
  | .valvePeriod => { g with valvePeriod := v }
  | .motorPeriod => { g with motorPeriod := v }
  | .gangRack => { g with gangRack := v == 1 }
  | .fullPressure c => { g with fullPressure := g.fullPressure.put c v }
  | .feedbackTol => { g with feedbackTol := v }
  | .proofPeriod => { g with proofPeriod := v }
  | .owedDegrade => { g with owedDegrade := v }
  | .openDir d => { g with openDir := g.openDir.put d (if v = 2 then .down else .up) }
  | .doorDuty => { g with doorDuty := v }
  | .compGain => { g with compGain := v }
  | .obstructLimit => { g with obstructLimit := v }
  | .aheadLow => { g with aheadLow := v }
  | .behindHigh => { g with behindHigh := v }
  | .rollbackLimit => { g with rollbackLimit := v }
  | .radioTimeout => { g with radioTimeout := v }
  | .radioLossSpeed => { g with radioLossSpeed := v }
  | .positionInterval => { g with positionInterval := v }
  | .burstCap => { g with burstCap := v }
  | .answerEmpty => { g with answerEmpty := v == 1 }
  | .listenOnly => { g with listenOnly := v == 1 }
  | .summaryMask => { g with summaryMask := BitVec.ofNat 8 v }
  | .cabTimeout => { g with cabTimeout := v }

/-- The configuration with one value replaced. -/
def State.withItem (s : State) (i : ConfigItem) (v : Nat) : State :=
  s.withLine { s.line with settings := s.line.settings.put i v }

/-- What an item's change is handed on to at the step of the CONFIGURE; an item read at its next use hands nothing (R190,
10.4). -/
def State.takeUp (s : State) (i : ConfigItem) : State :=
  match i with
  | .carLength => s.recomputeWindow false
  | .trainLength => (s.recomputeWindow false).evaluate
  | .maxSpeed => s.evaluate
  | .barredCreep => s.evaluate
  | .radioLossSpeed => s.evaluate
  | .react _ => s.evaluate
  | .nominal _ => s.recap.noticeCapability s
  | .rbShare _ => s.recompute
  | .abShare _ => s.recompute
  | .holdLevel => s.recompute
  | .valvePeriod => s.recompute
  | .motorPeriod => s.recompute
  | .gangRack => s.recompute
  | .fullPressure c => (s.resettle c).recompute
  | .feedbackTol => ((((s.resettle .rb1).resettle .rb2).resettle .ab1).resettle .ab2).recompute
  | .proofPeriod => s.withProv { s.prov with timer := some (s.after (s.cfg.proofPeriod * 1000000)) }
  | .owedDegrade => s.degradeOwing
  | .aheadLow => s.recomputeWindow false
  | .behindHigh => s.recomputeWindow false
  | .radioTimeout =>
    match s.radio.timer with
    | none => s
    | some _ => s.withRadio { s.radio with timer := some (s.after (s.cfg.radioTimeout * 1000)) }
  | .positionInterval => s.withRadio { s.radio with positionTimer := some (s.after (s.cfg.positionInterval * 1000)) }
  | .carAddress => s
  | .groupMask => s
  | .openDir _ => s
  | .doorDuty => s
  | .compGain => s
  | .obstructLimit => s
  | .rollbackLimit => s
  | .burstCap => s
  | .answerEmpty => s
  | .listenOnly => s
  | .summaryMask => s
  | .cabTimeout => s

/-- CONFIGURE (R190): the item takes the value, and a change is handed on. -/
def State.configure (s : State) (fields : List Byte) : State × Reply :=
  if s.line.opState ≠ .config then (s, .refused .badState)
  else
    match itemOfCode (field fields 0 1) with
    | none => (s, .refused .badField)
    | some i =>
      let v := field fields 1 2
      if i.admits v then
        let x := i.clamp v
        let t := if s.cfg.get i = x then s else (s.withItem i x).takeUp i
        (t, .done (bytesOf 1 (field fields 0 1) ++ bytesOf 2 x))
      else (s, .refused .badField)

end Sys2Proof.Machine
end

