-- ==== Sys2Proof/Machine/Window.lean ====
section
/-! DEFINITION. The requests of the Profile Window: SEGMENT (R30, R31), END_OF_LINE (R32), READ_WINDOW (R37). -/

namespace Sys2Proof.Machine

/-- The number a request carries, while it may be served: by position or by number (R30, first check). -/
def Wanted.served : Wanted → Option Nat
  | .none => Option.none
  | .byPosition n _ => some n
  | .byNumber n _ => some n
  | .pinned _ _ => Option.none

/-- The third check of R30, on start and length as delivered. -/
def Window.placed (w : Window) (d : Delivery) : Bool :=
  match w.wanted with
  | .byPosition _ x => decide (d.start ≤ x) && decide (x < d.start + d.length)
  | .byNumber _ .up => some (d.start : Int) == w.last?.map (· + 1)
  | .byNumber _ .down => some ((d.start : Int) + d.length) == w.first?
  | _ => false

/-- The marker of a record lies 20 teeth or more from every marker of the window (R30, last check). -/
def Window.spaced (w : Window) (g : Segment) : Bool :=
  match g.markerAt with
  | none => true
  | some m => (w.records.filterMap Segment.markerAt).all (fun n => decide (Config.markerSpacing ≤ (m - n) + (n - m)))

/-- A record joins the window: alone for a by-position request, else at the request's edge (R31). -/
def Window.join (w : Window) (g : Segment) : Window :=
  match w.wanted with
  | .byNumber _ .up => { w with records := w.records ++ [g] }
  | .byNumber _ .down => { w with records := g :: w.records }
  | _ => { w with records := [g] }

/-- SEGMENT (R30, R31). -/
def State.deliver (s : State) (fields : List Byte) : State × Reply :=
  let d := deliveryOf fields
  match s.win.wanted.served with
  | none => (s, .refused .notWanted)
  | some n =>
    if d.number ≠ n then (s, .refused .notWanted)
    else if s.win.placed d = false then (s, .refused .notWanted)
    else
      match d.record with
      | none => (s, .refused .badField)
      | some g =>
        if s.win.spaced g then
          let g := g.withBarring s.prov.capability
          let t := (s.withWin (s.win.join g)).recomputeWindow true
          (t, .done (bytesOf 1 (bit g.barredUp) ++ bytesOf 1 (bit g.barredDown) ++ bytesOf 1 t.win.records.length))
        else (s, .refused .badField)

/-- An edge's end-flag is set. -/
def Window.endAt (w : Window) : Vertical → Window
  | .up => { w with endUp := true }
  | .down => { w with endDown := true }

/-- END_OF_LINE (R32). -/
def State.endOfLine (s : State) (fields : List Byte) : State × Reply :=
  match s.win.wanted with
  | .byNumber n e =>
    if field fields 0 2 ≠ n then (s, .refused .notWanted)
    else
      match verticalOfCode (field fields 2 1) with
      | none => (s, .refused .badField)
      | some x =>
        if x ≠ e then (s, .refused .notWanted)
        else ((s.withWin (s.win.endAt e)).recomputeWindow true, .done [])
  | _ => (s, .refused .notWanted)

/-- READ_WINDOW (R37, 11.3). -/
def State.readWindow (s : State) (fields : List Byte) : State × Reply :=
  let i := field fields 0 1
  if 31 < i then (s, .refused .badField)
  else
    let slot :=
      match s.win.records[i]? with
      | none => 0#8 :: List.replicate 19 0#8
      | some g => 1#8 :: g.bytes
    (s, .done (slot ++ bytesOf 1 s.win.records.length ++ bytesOf 1 s.win.ahead ++ bytesOf 1 s.win.behind
      ++ [byteOf (bit s.win.endUp + 2 * bit s.win.endDown)]))

end Sys2Proof.Machine
end

