-- ==== Sys2Proof/Machine/Lines.lean ====
section
/-! DEFINITION. The Line Unit (chapter 10): request kinds and their checks, responses and their order on a line, the operating
states, RESTART, STATUS, power-on reset, and the framers of the three lines. -/

namespace Sys2Proof.Machine

/-! ### Ports -/

/-- A request line as a serial line. -/
def serialOf : RequestLine → SerialLine
  | .cab => .cab
  | .crew => .crew

/-- One line's port. -/
def LineUnit.port (u : LineUnit) : RequestLine → Port
  | .cab => u.cab
  | .crew => u.crew

/-- One line's port is replaced. -/
def LineUnit.withPort (u : LineUnit) (x : RequestLine) (p : Port) : LineUnit :=
  match x with
  | .cab => { u with cab := p }
  | .crew => { u with crew := p }

/-- One line's port is replaced. -/
def State.withPort (s : State) (x : RequestLine) (p : Port) : State := s.withLine (s.line.withPort x p)

/-- A frame begins on a request line (R161). -/
def State.beginResponse (s : State) (x : RequestLine) (frame : List Byte) : Transmission where
  frame := frame
  ends := s.after (lineTime (serialOf x) frame.length)

/-- A response's frame begins at once on a line that sends nothing, or waits (R184). -/
def State.respond (s : State) (x : RequestLine) (frame : List Byte) : State :=
  let p := s.line.port x
  match p.sending with
  | none => s.withPort x { p with sending := some (s.beginResponse x frame) }
  | some _ => s.withPort x { p with waiting := p.waiting ++ [frame] }

/-- RESPONSE_SENT: the oldest waiting response begins; nothing while the line sends nothing (R184). -/
def State.responseSent (s : State) (x : RequestLine) : State :=
  let p := s.line.port x
  match p.sending, p.waiting with
  | none, _ => s
  | some _, [] => s.withPort x { p with sending := none }
  | some _, f :: rest => s.withPort x { p with sending := some (s.beginResponse x f), waiting := rest }

/-- The header of every response (R183, 11.3). -/
def State.responseHeader (s : State) (kind : Byte) (r : Reply) : List Byte :=
  let w := s.win.wanted.parts
  [kind, r.resultByte, byteOf (w.1 + 4 * w.2.1 + 128 * bit s.sup.permit)] ++ bytesOf 2 w.2.2
    ++ [byteOf s.set.entries.length]

/-- The whole body of a response (R183). -/
def State.responseBody (s : State) (kind : Byte) (r : Reply) : List Byte := s.responseHeader kind r ++ r.fields

/-! ### Operating states (10.3) -/

/-- The cross-check of RESUME (R187). -/
def Settings.consistent (g : Settings) : Bool :=
  decide (g.aheadLow + g.behindHigh ≤ 28) && decide (g.carLength ≤ g.trainLength)

/-- The operating state as RESUME and QUIESCE answer it: one byte that holds its code, DEDUCED (log 12), since 11.3 sizes the
field only as two bits of a shared byte of STATUS. -/
def State.opStateReply (s : State) : Reply := .done [byteOf s.line.opState.code]

/-- RESUME (R187). -/
def State.resume (s : State) : State × Reply :=
  match s.line.opState with
  | .run => (s, .refused .badState)
  | .quiescing => (s.changeOpState .run, (s.changeOpState .run).opStateReply)
  | .config =>
    if s.cfg.consistent then (s.changeOpState .run, (s.changeOpState .run).opStateReply)
    else (s, .refused .configConflict)

/-- QUIESCE (R188). -/
def State.quiesce (s : State) : State × Reply :=
  match s.line.opState with
  | .config => (s, .refused .badState)
  | .quiescing => (s, s.opStateReply)
  | .run =>
    let t := (s.changeOpState .quiescing).testQuiesced
    (t, t.opStateReply)

/-! ### RESTART (10.5), block by block in the order of log 18 -/

/-- The Radio Unit's step (R181). The supervisor takes its link notice at once, before the other blocks' steps, so the record of an
overspeed that this evaluation finds is in the new queue: DESIGN CHOICE (log 18), since R57 and R192 leave the order open. -/
def State.restartRadio (s : State) : State :=
  let t := s.withRadio
    { RadioUnit.atReset with
      transmitter := s.radio.transmitter
      positionTimer := some (s.after (s.cfg.positionInterval * 1000)) }
  if s.radio.link = .silent then t else t.evaluate

/-- The Odometry Unit's step; the window and the supervisor take its direction notice at once (R19, R40; log 18). -/
def State.restartOdometry (s : State) : State :=
  if s.odo.direction = .neutral then s.withOdo { s.odo with rollback := 0 } else s.turn .neutral

/-- The Authority Table's step (R56). -/
def State.restartAuthority (s : State) : State :=
  let t := (s.withAuth { s.auth with a := { low := 1, high := 0 }, b := { low := 1, high := 0 }, id := 0 }).reflag
  if s.auth.inside then t.evaluate else t

/-- EMERGENCY_LOOP is raised when the loop reads open (R83, R93, R94). -/
def State.testLoop (s : State) : State := if s.set.loopOpen then s.raiseLoop else s

/-- The Intervention Set's step: emptied, one set notice if it held an entry, then the loop input (R94). -/
def State.restartSet (s : State) : State :=
  let t := s.withSet { s.set with entries := [], breakOpen := false }
  let t := if s.set.entries.isEmpty then t else t.evaluate.recompute.testProof
  t.testLoop

/-- The Brake Combiner's step (R116). -/
def State.restartCombiner (s : State) : State := (s.withComb { s.comb with driver := 0 }).recompute

/-- The door's record as RESTART clears it (R156). -/
def DoorRecord.cleared (r : DoorRecord) : DoorRecord :=
  { r with reopen := 0, closeFailed := false, closeOrdered := false, motion := none, obstruction := none }

/-- One door's step: ISOLATED is kept, any other door is set from its closed-and-locked switch (R156). The close-failed flag is
cleared before the step, so its DOOR_EVENT carries it clear: DESIGN CHOICE (log 32). -/
def State.restartDoor (s : State) (d : Door) : State :=
  let r := s.doorAt d
  let x : DoorState := if r.pins.closedMade then .locked else .fault
  if r.state = .isolated then s
  else if r.state = x then s.withDoor d r.cleared
  else (s.withDoor d r.cleared).stepDoor d x

/-- The Door Controller's step (R156). -/
def State.restartDoors (s : State) : State :=
  allDoors.foldl State.restartDoor (s.withDoors { s.doors with releasedLeft := false, releasedRight := false })

/-- RESTART (R192): every block's step, the Radio Unit's first, and the Proving Unit's test at the end (R133). The order of the
steps after the Radio Unit's, each with its own notices: DESIGN CHOICE (log 18). -/
def State.restart (s : State) : State × Reply :=
  if s.line.opState ≠ .config then (s, .refused .badState)
  else
    let t := s.restartRadio.restartOdometry.restartAuthority.restartSet.restartCombiner
    let t := t.restartDoors.abandonProof.emptyTried.testProof
    (t, .done [])

/-! ### Power-on reset (R18, R39, R55, R76, R93, R111, R115, R132, R155, R180, R195) -/

/-- The part while it is held in power-on reset: every block at its reset table, and the loop-break output open (R82, R93). -/
def State.heldInReset (pins : PinLevels) : State :=
  (State.atReset pins).withSet { (State.atReset pins).set with breakOpen := true }

/-- Reset ends: the loop-break output takes the value that the set gives it (R82, R93). -/
def State.endReset (s : State) : State := s.withSet { s.set with breakOpen := s.set.hasLevel .emergency }

/-- POWER_ON_RESET: the part is held in reset and let go; then the combiner's first step, the loop input, the test for a proof
(log 5). The commands that wait are the world's and stay. -/
def State.powerOn (s : State) (pins : PinLevels) : State :=
  (((((State.heldInReset pins).endReset).withPending s.pending).recompute).testLoop).testProof

/-! ### STATUS (10.7) -/

/-- The state byte of STATUS: operating state, direction, located, standstill, supervision state. -/
def State.statusByte (s : State) : Byte :=
  byteOf (s.line.opState.code + 4 * directionCode s.odo.direction + 16 * bit s.odo.located + 32 * bit s.odo.standstill
    + 64 * s.sup.state.code)

/-- A door's byte: state, reopen count, close-failed flag. -/
def DoorRecord.statusByte (r : DoorRecord) : Byte := byteOf (r.state.code + 8 * r.reopen + 32 * bit r.closeFailed)

/-- The part of STATUS from offset 6 to 47. -/
def State.statusFixed (s : State) (x : RequestLine) : List Byte :=
  [s.statusByte, byteOf (s.line.port x).overflow]
    ++ bytesOf 3 s.odo.p ++ bytesOf 1 s.odo.u ++ bytesOf 2 s.odo.v
    ++ bytesOf 2 s.sup.staticLimit ++ bytesOf 2 s.sup.permitted ++ bytesOf 2 s.sup.warning
    ++ bytesOf 2 s.sup.serviceSpeed ++ bytesOf 2 s.sup.emergencySpeed
    ++ [byteOf s.win.records.length, byteOf s.win.ahead, byteOf s.win.behind, byteOf s.comb.driver
       , byteOf (bit (s.comb.park == .release) + 2 * bit (!s.comb.springApplied))]
    ++ channels.map (fun c => byteOf (s.comb.demand.get c)) ++ channels.map s.prov.channelByte ++ [s.prov.proofByte]
    ++ allDoors.map (fun d => (s.doorAt d).statusByte)
    ++ [s.doors.releasedByte, byteOf (s.radio.link.code + 16 * s.radio.number), byteOf s.radio.queue.length
       , byteOf s.radio.flying, byteOf s.radio.resend, byteOf s.radio.lost]

/-- STATUS: it changes no state; the oldest six entries follow the fixed part (R194, R197). -/
def State.statusReply (s : State) (x : RequestLine) : State × Reply :=
  (s, .done (s.statusFixed x ++ (s.set.entries.take 6).flatMap Entry.bytes))

/-! ### Requests (10.1, 10.9) -/

/-- The twenty request kinds. -/
inductive RequestKind where
  | status
  | locate
  | direction
  | segment
  | endOfLine
  | readWindow
  | readAuthority
  | ackIntervention
  | driverBrake
  | park
  | configure
  | resume
  | quiesce
  | restart
  | doorRelease
  | doorOpenReleased
  | doorClose
  | doorIsolate
  | doorUnisolate
  | proveNow
deriving DecidableEq, Repr

/-- The code of a kind (11.3). -/
def RequestKind.code : RequestKind → Byte
  | .status => 0x01#8
  | .locate => 0x02#8
  | .direction => 0x03#8
  | .segment => 0x04#8
  | .endOfLine => 0x05#8
  | .readWindow => 0x06#8
  | .readAuthority => 0x07#8
  | .ackIntervention => 0x08#8
  | .driverBrake => 0x09#8
  | .park => 0x0A#8
  | .configure => 0x0B#8
  | .resume => 0x0C#8
  | .quiesce => 0x0D#8
  | .restart => 0x0E#8
  | .doorRelease => 0x21#8
  | .doorOpenReleased => 0x22#8
  | .doorClose => 0x23#8
  | .doorIsolate => 0x24#8
  | .doorUnisolate => 0x25#8
  | .proveNow => 0x26#8

/-- The twenty kinds, in the order of their codes. -/
def requestKinds : List RequestKind :=
  [ .status, .locate, .direction, .segment, .endOfLine, .readWindow, .readAuthority, .ackIntervention, .driverBrake, .park
  , .configure, .resume, .quiesce, .restart, .doorRelease, .doorOpenReleased, .doorClose, .doorIsolate, .doorUnisolate
  , .proveNow ]

/-- The kind of a code (11.3). -/
def requestOfCode (b : Byte) : Option RequestKind := requestKinds.find? (fun k => k.code == b)

/-- The bytes of a request after its kind (11.3). -/
def RequestKind.size : RequestKind → Nat
  | .status => 0
  | .locate => 6
  | .direction => 1
  | .segment => 19
  | .endOfLine => 3
  | .readWindow => 1
  | .readAuthority => 0
  | .ackIntervention => 0
  | .driverBrake => 1
  | .park => 1
  | .configure => 3
  | .resume => 0
  | .quiesce => 0
  | .restart => 0
  | .doorRelease => 1
  | .doorOpenReleased => 0
  | .doorClose => 1
  | .doorIsolate => 1
  | .doorUnisolate => 1
  | .proveNow => 0

/-- The kind is served on the crew line and not on the cab line (10.9). -/
def RequestKind.isCrew : RequestKind → Bool
  | .doorRelease => true
  | .doorOpenReleased => true
  | .doorClose => true
  | .doorIsolate => true
  | .doorUnisolate => true
  | .proveNow => true
  | _ => false

/-- The kind is served on the line (10.9). -/
def RequestKind.servedOn (k : RequestKind) : RequestLine → Bool
  | .cab => !k.isCrew
  | .crew => k.isCrew || k == .status

/-- A request that has passed the checks of R182 is handed to its owner. -/
def State.serve (s : State) (x : RequestLine) (heardBefore : Bool) (k : RequestKind) (fields : List Byte) :
    State × Reply :=
  match k with
  | .status => s.statusReply x
  | .locate => s.locate fields
  | .direction => s.selectDirection fields
  | .segment => s.deliver fields
  | .endOfLine => s.endOfLine fields
  | .readWindow => s.readWindow fields
  | .readAuthority => s.readAuthority
  | .ackIntervention => s.acknowledge heardBefore
  | .driverBrake => s.driverBrake fields
  | .park => s.setPark fields
  | .configure => s.configure fields
  | .resume => s.resume
  | .quiesce => s.quiesce
  | .restart => s.restart
  | .doorRelease => s.doorRelease fields
  | .doorOpenReleased => s.openReleased
  | .doorClose => s.doorClose fields
  | .doorIsolate => s.doorIsolate fields
  | .doorUnisolate => s.doorUnisolate fields
  | .proveNow => s.proveNow

/-- What every valid cab request does: the cab timer in RUN and the cab heard mark (R182, R193, R89). -/
def State.hearCab (s : State) : State :=
  let t := if s.line.opState = .run then
      s.withLine { s.line with cabTimer := some (s.after (s.cfg.cabTimeout * 1000)) } else s
  t.withSet t.set.hear

/-- The three checks of R182, and the owner's step for a request that passes them. -/
def State.answer (s : State) (x : RequestLine) (heardBefore : Bool) (code : Byte) (fields : List Byte) : State × Reply :=
  match requestOfCode code with
  | none => (s, .refused .badKind)
  | some k =>
    if k.servedOn x = false then (s, .refused .badKind)
    else if fields.length ≠ k.size then (s, .refused .badField)
    else s.serve x heardBefore k fields

/-- The part of a request's step before the checks: on the cab line the request is heard. -/
def State.heardOn (s : State) : RequestLine → State
  | .cab => s.hearCab
  | .crew => s

/-- A request is taken and answered (R182, R183). The raisings that the step of an ACK_INTERVENTION has brought join the set after
its response is built (R87, R91). -/
def State.takeRequest (s : State) (x : RequestLine) (code : Byte) (fields : List Byte) : State :=
  let a := s.heardOn x
  let r := a.answer x s.set.heard code fields
  let t := r.1.respond x (frameOf (r.1.responseBody code r.2))
  if requestOfCode code = some .ackIntervention then t.afterRemovals a r.1 else t

/-- The line's response list is full (R184). -/
def State.isFull (s : State) (x : RequestLine) : Bool :=
  decide (Config.responseCapacity ≤ (s.line.port x).waiting.length)

/-- A good frame is dropped at a full response list (R184). -/
def State.dropRequest (s : State) (x : RequestLine) : State :=
  s.withPort x { s.line.port x with overflow := min 255 ((s.line.port x).overflow + 1) }

/-- A good frame handed by a request line's framer (R182, R184). No frame has an empty body (R158). -/
def State.takeFrame (s : State) (x : RequestLine) (body : List Byte) : State :=
  match body with
  | [] => s
  | code :: fields => if s.isFull x then s.dropRequest x else s.takeRequest x code fields

/-! ### Framers (9.1) -/

/-- The bytes a line's framer keeps. -/
def State.framer (s : State) : SerialLine → List Byte
  | .cab => s.line.cab.framer
  | .crew => s.line.crew.framer
  | .radio => s.radio.framer

/-- The bytes a line's framer keeps are replaced. -/
def State.withFramer (s : State) (x : SerialLine) (kept : List Byte) : State :=
  match x with
  | .cab => s.withPort .cab { s.line.cab with framer := kept }
  | .crew => s.withPort .crew { s.line.crew with framer := kept }
  | .radio => s.withRadio { s.radio with framer := kept }

/-- A good frame goes to its line's owner (R158). -/
def State.hand (s : State) (x : SerialLine) (body : List Byte) : State :=
  match x with
  | .cab => s.takeFrame .cab body
  | .crew => s.takeFrame .crew body
  | .radio => s.takeDownlink body

/-- The framer keeps what a reception leaves, and the good frames found are handed on in order. -/
def State.received (s : State) (x : SerialLine) (r : List (List Byte) × List Byte) : State :=
  r.1.foldl (fun s body => s.hand x body) (s.withFramer x r.2)

/-- A byte arrives on a line (R158). -/
def State.feed (s : State) (x : SerialLine) (b : Byte) : State := s.received x (frameByte (s.framer x) b)

/-- A character error on a line (R157, R160). -/
def State.characterError (s : State) (x : SerialLine) : State := s.received x (frameError (s.framer x))

/-- A good frame given whole: its line's framer hunts again, and the frame goes to its owner (log 9). -/
def State.frame (s : State) (x : SerialLine) (body : List Byte) : State := (s.withFramer x []).hand x body

/-- A request given whole, by its line, its kind and the bytes after the kind. -/
def State.request (s : State) (x : RequestLine) (k : RequestKind) (fields : List Byte) : State :=
  s.frame (serialOf x) (k.code :: fields)

/-- A downlink given whole, by its kind, its destination and the bytes after the kind. -/
def State.downlink (s : State) (k : DownlinkKind) (destination : BitVec 16) (fields : List Byte) : State :=
  s.frame .radio (bytesOf 2 destination.toNat ++ k.code :: fields)

/-! ### The evaluation timer (R58) -/

/-- EVALUATION_TIMER_EXPIRY: the supervisor evaluates and the timer restarts; nothing when it is stopped or has just restarted. -/
def State.evaluationExpiry (s : State) : State :=
  if s.sup.timer.expires s.clock Config.evaluationTime then
    (s.withSup { s.sup with timer := some (s.after Config.evaluationTime) }).evaluate
  else s

end Sys2Proof.Machine
end

