-- ==== Sys2Proof/Machine/PinCommands.lean ====
section
/-! DEFINITION. The commands of the pins: one meaning for each row whose event comes from the sensors, the loop, the doors or the converters. -/

namespace Sys2Proof.Machine

/-- PHASE_CHANGE: R2 to R5, R10, R13 to R15 and the tooth notices inside it (R1). -/
def execPhaseChange (a b : Bool) (s : State) : Host.Outcome State Fault Refusal := .next (s.phaseChange a b)

/-- MARKER_PULSE (R7 to R9). -/
def execMarkerPulse (s : State) : Host.Outcome State Fault Refusal := .next s.markerPulse

/-- POWER_ON_RESET (R195). -/
def execPowerOnReset (pins : PinLevels) (s : State) : Host.Outcome State Fault Refusal := .next (s.powerOn pins)

/-- LOOP_OPENS (R83). -/
def execLoopOpens (s : State) : Host.Outcome State Fault Refusal := .next s.loopOpens

/-- LOOP_CLOSES (R83). -/
def execLoopCloses (s : State) : Host.Outcome State Fault Refusal := .next s.loopCloses

/-- SCAN_COMPLETE (R110, R113, R114, R125, R144 to R146). -/
def execScanComplete (words : ScanWords) (s : State) : Host.Outcome State Fault Refusal := .next (s.scanComplete words)

/-- BUTTON_PRESS (R138). -/
def execButtonPress (door : Door) (s : State) : Host.Outcome State Fault Refusal := .next (s.buttonPress door)

/-- BUTTON_RELEASE (R134). -/
def execButtonRelease (door : Door) (s : State) : Host.Outcome State Fault Refusal := .next (s.buttonRelease door)

/-- OPEN_SWITCH_MAKES (R140). -/
def execOpenSwitchMakes (door : Door) (s : State) : Host.Outcome State Fault Refusal := .next (s.openSwitchMakes door)

/-- OPEN_SWITCH_BREAKS (R140). -/
def execOpenSwitchBreaks (door : Door) (s : State) : Host.Outcome State Fault Refusal := .next (s.openSwitchBreaks door)

/-- CLOSED_SWITCH_MAKES (R142, R148). -/
def execClosedSwitchMakes (door : Door) (s : State) : Host.Outcome State Fault Refusal :=
  .next (s.closedSwitchMakes door)

/-- CLOSED_SWITCH_BREAKS (R148). -/
def execClosedSwitchBreaks (door : Door) (s : State) : Host.Outcome State Fault Refusal :=
  .next (s.closedSwitchBreaks door)

end Sys2Proof.Machine
end

