-- ==== Sys2Proof/Machine/RadioCommands.lean ====
section
/-! DEFINITION. The downlinks, each one good frame on the radio line with the checks of R162, and the bytes that arrive on the three lines. -/

namespace Sys2Proof.Machine

/-- POLL (R171 to R173). -/
def execPoll (destination : BitVec 16) (fields : List Byte) (s : State) : Host.Outcome State Fault Refusal :=
  .next (s.downlink .poll destination fields)

/-- ACK (R174). -/
def execAck (destination : BitVec 16) (fields : List Byte) (s : State) : Host.Outcome State Fault Refusal :=
  .next (s.downlink .ack destination fields)

/-- AUTHORITY (R46, R47). -/
def execAuthority (destination : BitVec 16) (fields : List Byte) (s : State) : Host.Outcome State Fault Refusal :=
  .next (s.downlink .authority destination fields)

/-- RELEASE (R90). -/
def execRelease (destination : BitVec 16) (fields : List Byte) (s : State) : Host.Outcome State Fault Refusal :=
  .next (s.downlink .release destination fields)

/-- RESTRICTION_SET (R50, R51). -/
def execRestrictionSet (destination : BitVec 16) (fields : List Byte) (s : State) : Host.Outcome State Fault Refusal :=
  .next (s.downlink .restrictionSet destination fields)

/-- RESTRICTION_CLEAR (R52). -/
def execRestrictionClear (destination : BitVec 16) (fields : List Byte) (s : State) : Host.Outcome State Fault Refusal :=
  .next (s.downlink .restrictionClear destination fields)

/-- DOWNLINK_DISCARDED: a good frame; the checks of R162 decide (log 9) (R162). -/
def execDownlinkDiscarded (body : List Byte) (s : State) : Host.Outcome State Fault Refusal :=
  .next (s.frame .radio body)

/-- BYTE_RECEIVED (R158). -/
def execByteReceived (line : SerialLine) (byte : Byte) (s : State) : Host.Outcome State Fault Refusal :=
  .next (s.feed line byte)

/-- FRAME_REJECTED: the byte by which the frame is rejected, or a character error (R157, R160). -/
def execFrameRejected (line : SerialLine) (last : Option Byte) (s : State) : Host.Outcome State Fault Refusal :=
  match last with
  | some byte => .next (s.feed line byte)
  | none => .next (s.characterError line)

end Sys2Proof.Machine
end

