-- ==== Sys2Proof/Machine/RequestCommands.lean ====
section
/-! DEFINITION. The requests: each is one good frame on its line, taken whole with the checks of R182 and the owner's step, and answered (R183). -/

namespace Sys2Proof.Machine

/-- STATUS (R194). -/
def execStatus (line : RequestLine) (fields : List Byte) (s : State) : Host.Outcome State Fault Refusal :=
  .next (s.request line .status fields)

/-- LOCATE (R16). -/
def execLocate (line : RequestLine) (fields : List Byte) (s : State) : Host.Outcome State Fault Refusal :=
  .next (s.request line .locate fields)

/-- DIRECTION (R17). -/
def execDirection (line : RequestLine) (fields : List Byte) (s : State) : Host.Outcome State Fault Refusal :=
  .next (s.request line .direction fields)

/-- SEGMENT (R30, R31). -/
def execSegment (line : RequestLine) (fields : List Byte) (s : State) : Host.Outcome State Fault Refusal :=
  .next (s.request line .segment fields)

/-- END_OF_LINE (R32). -/
def execEndOfLine (line : RequestLine) (fields : List Byte) (s : State) : Host.Outcome State Fault Refusal :=
  .next (s.request line .endOfLine fields)

/-- READ_WINDOW (R37). -/
def execReadWindow (line : RequestLine) (fields : List Byte) (s : State) : Host.Outcome State Fault Refusal :=
  .next (s.request line .readWindow fields)

/-- READ_AUTHORITY (R54). -/
def execReadAuthority (line : RequestLine) (fields : List Byte) (s : State) : Host.Outcome State Fault Refusal :=
  .next (s.request line .readAuthority fields)

/-- ACK_INTERVENTION (R86). -/
def execAckIntervention (line : RequestLine) (fields : List Byte) (s : State) : Host.Outcome State Fault Refusal :=
  .next (s.request line .ackIntervention fields)

/-- DRIVER_BRAKE (R102). -/
def execDriverBrake (line : RequestLine) (fields : List Byte) (s : State) : Host.Outcome State Fault Refusal :=
  .next (s.request line .driverBrake fields)

/-- PARK (R104). -/
def execPark (line : RequestLine) (fields : List Byte) (s : State) : Host.Outcome State Fault Refusal :=
  .next (s.request line .park fields)

/-- CONFIGURE (R190). -/
def execConfigure (line : RequestLine) (fields : List Byte) (s : State) : Host.Outcome State Fault Refusal :=
  .next (s.request line .configure fields)

/-- RESUME (R187). -/
def execResume (line : RequestLine) (fields : List Byte) (s : State) : Host.Outcome State Fault Refusal :=
  .next (s.request line .resume fields)

/-- QUIESCE (R188). -/
def execQuiesce (line : RequestLine) (fields : List Byte) (s : State) : Host.Outcome State Fault Refusal :=
  .next (s.request line .quiesce fields)

/-- RESTART (R192). -/
def execRestart (line : RequestLine) (fields : List Byte) (s : State) : Host.Outcome State Fault Refusal :=
  .next (s.request line .restart fields)

/-- DOOR_RELEASE (R137). -/
def execDoorRelease (line : RequestLine) (fields : List Byte) (s : State) : Host.Outcome State Fault Refusal :=
  .next (s.request line .doorRelease fields)

/-- DOOR_OPEN_RELEASED (R139). -/
def execDoorOpenReleased (line : RequestLine) (fields : List Byte) (s : State) : Host.Outcome State Fault Refusal :=
  .next (s.request line .doorOpenReleased fields)

/-- DOOR_CLOSE (R141). -/
def execDoorClose (line : RequestLine) (fields : List Byte) (s : State) : Host.Outcome State Fault Refusal :=
  .next (s.request line .doorClose fields)

/-- DOOR_ISOLATE (R149). -/
def execDoorIsolate (line : RequestLine) (fields : List Byte) (s : State) : Host.Outcome State Fault Refusal :=
  .next (s.request line .doorIsolate fields)

/-- DOOR_UNISOLATE (R150). -/
def execDoorUnisolate (line : RequestLine) (fields : List Byte) (s : State) : Host.Outcome State Fault Refusal :=
  .next (s.request line .doorUnisolate fields)

/-- PROVE_NOW (R130). -/
def execProveNow (line : RequestLine) (fields : List Byte) (s : State) : Host.Outcome State Fault Refusal :=
  .next (s.request line .proveNow fields)

/-- UNKNOWN_REQUEST: a good frame whose kind is none of the index; the checks of R182 decide (log 9) (R182). -/
def execUnknownRequest (line : RequestLine) (kind : Byte) (fields : List Byte) (s : State) : Host.Outcome State Fault Refusal :=
  .next (s.frame (serialOf line) (kind :: fields))

/-- REQUEST_DROPPED: a good frame; the length of the response list decides (log 9) (R184). -/
def execRequestDropped (line : RequestLine) (body : List Byte) (s : State) : Host.Outcome State Fault Refusal :=
  .next (s.frame (serialOf line) body)

end Sys2Proof.Machine
end

