-- ==== Sys2Proof/Machine/TimerCommands.lean ====
section
/-! DEFINITION. The commands of the part's own timers, output periods and transmitters. An expiry of a timer takes effect when the timer runs and was not (re)started at this very moment, and does nothing otherwise (log 3). -/

namespace Sys2Proof.Machine

/-- STANDSTILL_TIMER_EXPIRY (R12). -/
def execStandstillTimerExpiry (s : State) : Host.Outcome State Fault Refusal := .next s.standstillExpiry

/-- EVALUATION_TIMER_EXPIRY (R58). -/
def execEvaluationTimerExpiry (s : State) : Host.Outcome State Fault Refusal := .next s.evaluationExpiry

/-- CAB_TIMER_EXPIRY (R88, R193). -/
def execCabTimerExpiry (s : State) : Host.Outcome State Fault Refusal := .next s.cabExpiry

/-- SCAN_TIMER_EXPIRY (R110). -/
def execScanTimerExpiry (s : State) : Host.Outcome State Fault Refusal := .next s.scanExpiry

/-- PROOF_TIMER_EXPIRY (R118). -/
def execProofTimerExpiry (s : State) : Host.Outcome State Fault Refusal := .next s.proofExpiry

/-- DWELL_TIMER_EXPIRY (R125 to R127). -/
def execDwellTimerExpiry (s : State) : Host.Outcome State Fault Refusal := .next s.dwellExpiry

/-- MOTION_TIMER_EXPIRY (R140, R142). -/
def execMotionTimerExpiry (timer : MotionTimer) (s : State) : Host.Outcome State Fault Refusal :=
  .next (s.motionExpiry timer.door timer.limit)

/-- RADIO_TIMER_EXPIRY (R164). -/
def execRadioTimerExpiry (s : State) : Host.Outcome State Fault Refusal := .next s.radioExpiry

/-- POSITION_TIMER_EXPIRY (R169). -/
def execPositionTimerExpiry (s : State) : Host.Outcome State Fault Refusal := .next s.positionExpiry

/-- PERIOD_END (R106, R108, R109). -/
def execPeriodEnd (output : OutputId) (s : State) : Host.Outcome State Fault Refusal := .next (s.outputEnds output)

/-- TRANSMIT_COMPLETE (R161). -/
def execTransmitComplete (s : State) : Host.Outcome State Fault Refusal := .next s.transmitComplete

/-- RESPONSE_SENT (R184). -/
def execResponseSent (line : RequestLine) (s : State) : Host.Outcome State Fault Refusal := .next (s.responseSent line)

end Sys2Proof.Machine
end

