-- ==== Sys2Proof/Machine/Dispatch.lean ====
section
/-! DEFINITION. The command dispatcher: one direct call of a meaning for each constructor of `Instr`. -/

namespace Sys2Proof.Machine

/-- A command's effect on everything but the queue. -/
def exec (i : Instr) (s : State) : Host.Outcome State Fault Refusal :=
  match i with
  | .phaseChange a b => Sys2Proof.Machine.execPhaseChange a b s
  | .markerPulse => Sys2Proof.Machine.execMarkerPulse s
  | .standstillTimerExpiry => Sys2Proof.Machine.execStandstillTimerExpiry s
  | .locate line fields => Sys2Proof.Machine.execLocate line fields s
  | .direction line fields => Sys2Proof.Machine.execDirection line fields s
  | .powerOnReset pins => Sys2Proof.Machine.execPowerOnReset pins s
  | .restart line fields => Sys2Proof.Machine.execRestart line fields s
  | .segment line fields => Sys2Proof.Machine.execSegment line fields s
  | .endOfLine line fields => Sys2Proof.Machine.execEndOfLine line fields s
  | .readWindow line fields => Sys2Proof.Machine.execReadWindow line fields s
  | .authority destination fields => Sys2Proof.Machine.execAuthority destination fields s
  | .restrictionSet destination fields => Sys2Proof.Machine.execRestrictionSet destination fields s
  | .restrictionClear destination fields => Sys2Proof.Machine.execRestrictionClear destination fields s
  | .readAuthority line fields => Sys2Proof.Machine.execReadAuthority line fields s
  | .evaluationTimerExpiry => Sys2Proof.Machine.execEvaluationTimerExpiry s
  | .loopOpens => Sys2Proof.Machine.execLoopOpens s
  | .loopCloses => Sys2Proof.Machine.execLoopCloses s
  | .ackIntervention line fields => Sys2Proof.Machine.execAckIntervention line fields s
  | .release destination fields => Sys2Proof.Machine.execRelease destination fields s
  | .cabTimerExpiry => Sys2Proof.Machine.execCabTimerExpiry s
  | .driverBrake line fields => Sys2Proof.Machine.execDriverBrake line fields s
  | .park line fields => Sys2Proof.Machine.execPark line fields s
  | .periodEnd output => Sys2Proof.Machine.execPeriodEnd output s
  | .scanTimerExpiry => Sys2Proof.Machine.execScanTimerExpiry s
  | .scanComplete words => Sys2Proof.Machine.execScanComplete words s
  | .proofTimerExpiry => Sys2Proof.Machine.execProofTimerExpiry s
  | .dwellTimerExpiry => Sys2Proof.Machine.execDwellTimerExpiry s
  | .proveNow line fields => Sys2Proof.Machine.execProveNow line fields s
  | .doorRelease line fields => Sys2Proof.Machine.execDoorRelease line fields s
  | .buttonPress door => Sys2Proof.Machine.execButtonPress door s
  | .doorOpenReleased line fields => Sys2Proof.Machine.execDoorOpenReleased line fields s
  | .openSwitchMakes door => Sys2Proof.Machine.execOpenSwitchMakes door s
  | .openSwitchBreaks door => Sys2Proof.Machine.execOpenSwitchBreaks door s
  | .motionTimerExpiry timer => Sys2Proof.Machine.execMotionTimerExpiry timer s
  | .doorClose line fields => Sys2Proof.Machine.execDoorClose line fields s
  | .closedSwitchMakes door => Sys2Proof.Machine.execClosedSwitchMakes door s
  | .closedSwitchBreaks door => Sys2Proof.Machine.execClosedSwitchBreaks door s
  | .doorIsolate line fields => Sys2Proof.Machine.execDoorIsolate line fields s
  | .doorUnisolate line fields => Sys2Proof.Machine.execDoorUnisolate line fields s
  | .frameRejected line last => Sys2Proof.Machine.execFrameRejected line last s
  | .downlinkDiscarded body => Sys2Proof.Machine.execDownlinkDiscarded body s
  | .radioTimerExpiry => Sys2Proof.Machine.execRadioTimerExpiry s
  | .positionTimerExpiry => Sys2Proof.Machine.execPositionTimerExpiry s
  | .poll destination fields => Sys2Proof.Machine.execPoll destination fields s
  | .ack destination fields => Sys2Proof.Machine.execAck destination fields s
  | .transmitComplete => Sys2Proof.Machine.execTransmitComplete s
  | .responseSent line => Sys2Proof.Machine.execResponseSent line s
  | .requestDropped line body => Sys2Proof.Machine.execRequestDropped line body s
  | .unknownRequest line kind fields => Sys2Proof.Machine.execUnknownRequest line kind fields s
  | .status line fields => Sys2Proof.Machine.execStatus line fields s
  | .configure line fields => Sys2Proof.Machine.execConfigure line fields s
  | .resume line fields => Sys2Proof.Machine.execResume line fields s
  | .quiesce line fields => Sys2Proof.Machine.execQuiesce line fields s
  | .buttonRelease door => Sys2Proof.Machine.execButtonRelease door s
  | .byteReceived line byte => Sys2Proof.Machine.execByteReceived line byte s

end Sys2Proof.Machine
end

