-- ==== Sys2Proof/Machine/Due.lean ====
section
/-! DEFINITION. Which of the part's own events is due as the clock stands, in the order in which an idle step takes them
(log 2). Each event is a row of the table, so the idle step runs that row's meaning. -/

namespace Sys2Proof.Machine

/-- The event, when its timer's moment has come. -/
def dueAt (now : Nat) (t : Timer) (i : Instr) : Option Instr := if t.due now then some i else none

/-- V2 has no period end of its own while it follows V1 (R109, log 22). -/
def State.valveBoundary (s : State) (c : Channel) : Timer :=
  match c with
  | .rb2 => if s.drive.ganged then none else s.drive.valve.rb2.boundary
  | c => (s.drive.valve.get c).boundary

/-- A door's running motion timer and its expiry: that of the time limit of the motion the door makes (R140, R142). -/
def State.motionEvent (s : State) (d : Door) : Timer × Instr :=
  ((s.doors.door.get d).motion,
    .motionTimerExpiry { door := d, limit := ((s.doors.door.get d).state.timeLimit).getD .opening })

/-- Every timer, period and transmission of the part with the event at its end, in the order of log 2. -/
def State.events (s : State) : List (Timer × Instr) :=
  [ (s.odo.standstillTimer, .standstillTimerExpiry), (s.sup.timer, .evaluationTimerExpiry)
  , (s.line.cabTimer, .cabTimerExpiry), (s.radio.timer, .radioTimerExpiry), (s.radio.positionTimer, .positionTimerExpiry)
  , (s.prov.timer, .proofTimerExpiry), (s.prov.dwell, .dwellTimerExpiry)
  , s.motionEvent .d1, s.motionEvent .d2, s.motionEvent .d3, s.motionEvent .d4
  , (s.scan.timer, .scanTimerExpiry)
  , (s.valveBoundary .rb1, .periodEnd (.valve .rb1)), (s.valveBoundary .rb2, .periodEnd (.valve .rb2))
  , (s.valveBoundary .ab1, .periodEnd (.valve .ab1)), (s.valveBoundary .ab2, .periodEnd (.valve .ab2))
  , (s.drive.motor.d1.boundary, .periodEnd (.motor .d1)), (s.drive.motor.d2.boundary, .periodEnd (.motor .d2))
  , (s.drive.motor.d3.boundary, .periodEnd (.motor .d3)), (s.drive.motor.d4.boundary, .periodEnd (.motor .d4))
  , (s.radio.transmitter.map Transmission.ends, .transmitComplete)
  , (s.line.cab.sending.map Transmission.ends, .responseSent .cab)
  , (s.line.crew.sending.map Transmission.ends, .responseSent .crew) ]

/-- The first of the events that is due. -/
def State.dueEvent (s : State) : Option Instr := s.events.findSome? (fun e => dueAt s.clock e.1 e.2)

end Sys2Proof.Machine
end

