-- ==== Sys2Proof/Machine/Step.lean ====
section
/-! DEFINITION. One step: the command at the front of the queue, or, on an empty queue, one event of the part's own timers that
is due, or else one µs of the clock (log 2). -/

namespace Sys2Proof.Machine

/-- The step on an empty queue (log 2). -/
def idle (s : State) : Host.Outcome State Fault Refusal :=
  match s.dueEvent with
  | some i => exec i s
  | none => .next (s.withClock (s.clock + 1))

/-- One step of the part. -/
def step (s : State) : Host.Outcome State Fault Refusal :=
  match s.pending with
  | [] => idle s
  | i :: rest => exec i (s.withPending rest)

/-- The command that a word spells is put at the front of the queue; no word spells one, so the state stays. -/
def State.withFetchWord (s : State) (nbits w : Nat) : State :=
  match decodeTableWord nbits w with
  | none => s
  | some i => s.withPending (i :: s.pending)

end Sys2Proof.Machine
end

