-- ==== Sys2Proof/Safety.lean ====
section
/-! DEFINITION. What claims about the part are stated in: what a command leaves unchanged (`Frame`), the laws that every step
keeps (`State.Sound`), and how a request is answered (`Answered`). A safe run is one whose every state is `Sound`; no command
faults (log 23). -/

namespace Sys2Proof.Machine

/-! ### Frames -/

/-- What a command may change besides what an evaluation of the supervisor or a recomputation of the combiner changes. -/
inductive Block where
  /-- `odo` -/
  | odometry
  /-- `win` -/
  | window
  /-- `auth` -/
  | authority
  /-- the evaluation timer -/
  | evaluationTimer
  /-- the loop input level -/
  | loop
  /-- the entries of the set, past the causes listed -/
  | entries
  /-- the driver demand -/
  | driver
  /-- the PARK setting -/
  | park
  /-- M1 to M4 -/
  | motors
  /-- `scan`, and the deviation starts -/
  | scan
  /-- owed counts, health and capability -/
  | ratings
  /-- the proof timer -/
  | proofTimer
  /-- `doors` -/
  | doors
  /-- `radio` -/
  | radio
  /-- the report queue: records may leave it -/
  | queue
  /-- the operating state -/
  | opState
  /-- the cab supervision timer -/
  | cabTimer
  /-- the configuration items -/
  | settings
  /-- the port of the cab line -/
  | cabPort
  /-- the port of the crew line -/
  | crewPort
deriving DecidableEq, Repr

/-- The event records of a queue (R166): every record but a POSITION. -/
def RadioUnit.eventRecords (q : RadioUnit) : List Report := q.queue.filter fun x => !x.isPosition

/-- The unsent POSITION records of a queue (R167): those not in flight. -/
def RadioUnit.unsentPositions (q : RadioUnit) : List Report := (q.queue.drop q.flying).filter Report.isPosition

/-- What records that join the queue make of it (R166 to R168, R170): the burst in flight stays, with its records at the head;
every event record stays, in order, and new ones follow; a second unsent POSITION record is never added; the lost tally does
not fall, and changes only where the queue is full. The burst number and the carried tally stay; the carried lost mark is not set
and RADIO_WAS_LOST not cleared (R174, R177). -/
structure RadioUnit.Queues (q r : RadioUnit) : Prop where
  inFlight : r.inFlight = q.inFlight
  head : q.flying ≤ q.queue.length → r.queue.take q.flying = q.queue.take q.flying
  events : q.eventRecords <+: r.eventRecords
  positions : r.unsentPositions.length ≤ max 1 q.unsentPositions.length
  longer : q.queue.length ≤ r.queue.length
  tally : min 255 q.lost ≤ r.lost
  counted : r.lost = q.lost ∨ 32 ≤ r.queue.length
  number : r.number = q.number
  carriedTally : r.carriedTally = q.carriedTally
  carriedLost : r.carriedLost = true → q.carriedLost = true
  wasLost : q.wasLost = true → r.wasLost = true

/-- What a step from `s` to `t` leaves unchanged, but for the blocks listed; it raises no cause outside `raised` and removes none
outside `removed`. An evaluation may always lower v between teeth (R11) and set the supervisor's figures, state and permit; a
recomputation may always set the combiner's figures and the valve outputs, a channel's feedback settling afresh, its deviation
start cleared, where its demand changes, and otherwise only then (R99, R113); a proof may always begin, end or be abandoned;
records may always join the queue or be counted lost, as `RadioUnit.Queues` says; and the part may always go from QUIESCING to
CONFIG (R189). -/
structure Frame (free : List Block) (raised removed : List Cause) (s t : State) : Prop where
  clock : t.clock = s.clock
  pending : t.pending = s.pending
  odometry : Block.odometry ∉ free → t.odo = { s.odo with v := t.odo.v }
  slower : Block.odometry ∉ free → t.odo.v ≤ s.odo.v
  still : Block.odometry ∉ free → s.odo.standstill = true → t.odo.v = s.odo.v
  window : Block.window ∉ free → t.win = s.win
  authority : Block.authority ∉ free → t.auth = s.auth
  evaluationTimer : Block.evaluationTimer ∉ free → t.sup.timer = s.sup.timer
  loop : Block.loop ∉ free → t.set.loopOpen = s.set.loopOpen
  driver : Block.driver ∉ free → t.comb.driver = s.comb.driver
  park : Block.park ∉ free → t.comb.park = s.comb.park ∨ (s.line.opState = .quiescing ∧ t.line.opState = .config)
  motors : Block.motors ∉ free → t.drive.motor = s.drive.motor
  scan : Block.scan ∉ free → t.scan = s.scan
  settling : Block.scan ∉ free → ∀ c,
    t.comb.feedback.get c = { lastChange := t.clock, deviationStart := none }
      ∨ t.comb.demand.get c = s.comb.demand.get c ∧ t.comb.feedback.get c = s.comb.feedback.get c
  owed : Block.ratings ∉ free → t.prov.owed = s.prov.owed
  health : Block.ratings ∉ free → t.prov.health = s.prov.health
  capability : Block.ratings ∉ free → t.prov.capability = s.prov.capability
  proofTimer : Block.proofTimer ∉ free → t.prov.timer = s.prov.timer
  doors : Block.doors ∉ free → t.doors = s.doors
  radio : Block.radio ∉ free → t.radio = { s.radio with queue := t.radio.queue, lost := t.radio.lost }
  records : Block.queue ∉ free → s.radio.Queues t.radio
  listening : Block.radio ∉ free → Block.settings ∉ free → s.cfg.listenOnly = true → t.radio = s.radio
  opState : Block.opState ∉ free →
    t.line.opState = s.line.opState ∨ (s.line.opState = .quiescing ∧ t.line.opState = .config)
  cabTimer : Block.cabTimer ∉ free → Block.opState ∉ free →
    t.line.cabTimer = s.line.cabTimer ∨ (s.line.opState = .quiescing ∧ t.line.cabTimer = none)
  settings : Block.settings ∉ free → t.cfg = s.cfg
  cabPort : Block.cabPort ∉ free → t.line.cab = s.line.cab
  crewPort : Block.crewPort ∉ free → t.line.crew = s.line.crew
  kept : Block.entries ∉ free → ∀ e ∈ s.set.entries, e.cause ∉ removed → e ∈ t.set.entries
  added : Block.entries ∉ free → ∀ e ∈ t.set.entries, e ∈ s.set.entries ∨ e.cause ∈ raised

/-- The causes that an evaluation raises (R70). -/
def overspeeds : List Cause := [.overspeedService, .overspeedEmergency]

/-- The frame of an evaluation or a recomputation alone (R59, R70, R71, R99). -/
def NoticesOnly (s t : State) : Prop := Frame [] overspeeds [.overspeedService] s t

/-- The frame of what changes nothing but the blocks listed and what evaluations and recomputations change. -/
def ChangesOnly (free : List Block) (s t : State) : Prop := Frame free overspeeds [.overspeedService] s t

/-! ### The laws every step keeps -/

/-- At most one entry of a cause (R79), and the loop-break output open exactly while an EMERGENCY-level entry is present
(R82). -/
def State.InterventionLaw (s : State) : Prop :=
  (s.set.entries.map Entry.cause).Nodup ∧ s.set.breakOpen = s.set.hasLevel .emergency

/-- A valve output that runs wholly on: active and pending on-time both equal to its period (R107). -/
def Output.IsFull (o : Output) : Prop :=
  o.boundary.isSome = true ∧ o.pendingDuty = some 100 ∧ o.activeOn = o.period ∧ o.pendingOn = o.period

/-- A valve output carries a duty: it runs with that duty pending and its pending on-time, floor(duty × period / 100), or has
never run and the duty is 0. A valve has no sense (R106). -/
def Output.Carries (o : Output) (duty : Nat) : Prop :=
  (o.boundary.isSome = true ∧ o.pendingDuty = some duty ∧ o.pendingOn = duty * o.period / 100
      ∨ o.boundary = none ∧ o.pendingDuty = none ∧ duty = 0)
    ∧ o.activeSense = none ∧ o.pendingSense = none

/-- Each valve output carries the drive value of its channel, but V2 while it follows V1: it is then V1's equal in everything
(R99 step 5, R106, R109). -/
def State.ValveLaw (s : State) : Prop :=
  (∀ c, c ≠ .rb2 → (s.drive.valve.get c).Carries (s.comb.drive.get c))
    ∧ (s.drive.ganged = false → s.drive.valve.rb2.Carries s.comb.drive.rb2)
    ∧ (s.drive.ganged = true → s.drive.valve.rb2 = s.drive.valve.rb1)

/-- The drive value of each channel: 100 in an emergency, else 100 in RISE and 0 in FALL while the proof in progress holds the
channel, else its demand (R101). -/
def State.DriveLaw (s : State) : Prop :=
  ∀ c, s.comb.drive.get c
    = if s.set.hasLevel .emergency then 100
      else
        match s.prov.proof with
        | none => s.comb.demand.get c
        | some x => if x.channel = c then (match x.step with | .rise => 100 | .fall => 0) else s.comb.demand.get c

/-- The combiner agrees with the set, the doors, the operating state and the proof in progress: the holding request (R96), the
spring (R103), the drive values (R101), and the valve outputs with them (R99), V2 following V1 only with GANG_RACK on and no proof
in progress (R109); in an emergency every demand and drive
value is 100 with V1 to V4 wholly on (R100, R101, R107). -/
def State.BrakeLaw (s : State) : Prop :=
  s.comb.holding = s.holdingRequest ∧ s.comb.springApplied = s.springLaw s.comb.park
    ∧ s.comb.emergency = s.set.hasLevel .emergency
    ∧ (s.set.hasLevel .emergency = true →
        ∀ c, s.comb.demand.get c = 100 ∧ s.comb.drive.get c = 100 ∧ (s.drive.valve.get c).IsFull)
    ∧ s.DriveLaw ∧ s.ValveLaw ∧ (s.drive.ganged = true → s.cfg.gangRack = true ∧ s.prov.proof = none)

/-- The permit is on exactly while every condition of R73 holds. -/
def State.PermitLaw (s : State) : Prop := s.sup.permit = s.permitHolds s.sup.state

/-- The door hold is asserted exactly while some door is neither LOCKED nor ISOLATED (R151), and a motion timer runs exactly
while its door moves (R135). -/
def State.DoorLaw (s : State) : Prop :=
  s.doors.hold = s.doors.anyUnlocked
    ∧ ∀ d, (s.doorAt d).motion.isSome = (s.doorAt d).state.moving ∧ (s.doorAt d).reopen ≤ 3

/-- Which timers run: the standstill timer exactly while the car is not at standstill, where v is 0 (R12, R13); the radio
timer exactly while the link is UP (R164); the cab timer in RUN alone (R193); the dwell timer exactly while a proof is in
progress (R124). -/
def State.TimerLaw (s : State) : Prop :=
  s.odo.standstillTimer.isNone = s.odo.standstill ∧ (s.odo.standstill = true → s.odo.v = 0)
    ∧ s.radio.timer.isSome = (s.radio.link == .up)
    ∧ (s.line.cabTimer.isSome = true → s.line.opState = .run)
    ∧ s.prov.dwell.isSome = s.prov.proof.isSome

/-- The counts of 00_scope.md and the chapters' state tables: the window (R21), the restrictions (R49), the report queue with
its records in flight (R166), the response lists (R184), the tallies and counts of their widths. -/
def State.CapacityLaw (s : State) : Prop :=
  s.win.records.length ≤ Config.windowCapacity
    ∧ (∀ n e, s.win.wanted = .byNumber n e → s.win.records.length < Config.windowCapacity)
    ∧ s.auth.restrictions.length ≤ Config.restrictionCapacity
    ∧ s.radio.queue.length ≤ Config.queueCapacity ∧ s.radio.flying ≤ s.radio.queue.length
    ∧ s.radio.lost ≤ 255 ∧ s.radio.resend ≤ 255 ∧ s.radio.number < 8
    ∧ s.line.cab.waiting.length ≤ Config.responseCapacity ∧ s.line.cab.overflow ≤ 255
    ∧ s.line.crew.waiting.length ≤ Config.responseCapacity ∧ s.line.crew.overflow ≤ 255
    ∧ (∀ c, s.prov.owed.get c ≤ 15)

/-- A record of the window lies on the line (R20). -/
def Segment.OnLine (g : Segment) : Prop :=
  1 ≤ g.length ∧ g.start + g.length ≤ Config.maxPosition + 1 ∧ ∀ o ∈ g.marker, o < g.length

/-- Every record lies on the line; p, u, v, the tallies and the step count keep their ranges (R1, R2, R4, R5, R10, R14); every
item keeps its range (R190); the driver demand, the channel demands and the drive values are percentages (R97, R98, R101). -/
def State.RangeLaw (s : State) : Prop :=
  (∀ g ∈ s.win.records, g.OnLine)
    ∧ s.odo.p ≤ Config.maxPosition ∧ s.odo.u ≤ 255 ∧ s.odo.v ≤ Config.maxSpeed ∧ s.odo.slip < Config.slipTeeth
    ∧ s.odo.rollback ≤ 255 ∧ -3 ≤ s.odo.stepCount ∧ s.odo.stepCount ≤ 3
    ∧ (∀ i : ConfigItem, i.range.1 ≤ s.cfg.get i ∧ s.cfg.get i ≤ i.range.2)
    ∧ s.comb.driver ≤ 100 ∧ ∀ c, s.comb.demand.get c ≤ 100 ∧ s.comb.drive.get c ≤ 100

/-- Every law. -/
structure State.Sound (s : State) : Prop where
  interventions : s.InterventionLaw
  brakes : s.BrakeLaw
  permit : s.PermitLaw
  doors : s.DoorLaw
  timers : s.TimerLaw
  capacity : s.CapacityLaw
  ranges : s.RangeLaw

/-! ### Further laws, kept by every step of a sound state -/

/-- While the car is not at standstill no side is released, no door is RELEASED, and with a door OPENING, OPEN or CLOSING
DOOR_UNLOCKED_MOVING is in the set (R152). -/
def State.MovingLaw (s : State) : Prop :=
  s.odo.standstill = false →
    s.doors.releasedLeft = false ∧ s.doors.releasedRight = false ∧ (∀ d, (s.doorAt d).state ≠ .released)
      ∧ ∀ d, (s.doorAt d).state ∈ [.opening, .open, .closing] → s.set.has .doorUnlockedMoving = true

/-- A record lies just above another, and its number is one greater (R21). -/
def Segment.Follows (g h : Segment) : Prop := h.start = g.start + g.length ∧ h.number = g.number + 1

/-- The window is one run of line (R21) with its markers 20 teeth apart (R30), and a by-number request asks for the number next
to its edge (R24). -/
def State.WindowLaw (s : State) : Prop :=
  s.win.records.IsChain Segment.Follows
    ∧ s.win.markers.Pairwise (fun m n => 20 ≤ gap m n)
    ∧ (∀ n, s.win.wanted = .byNumber n .up → ∀ g, s.win.records.getLast? = some g → n = g.number + 1)
    ∧ ∀ n, s.win.wanted = .byNumber n .down → ∀ g, s.win.records.head? = some g → g.number = n + 1

/-- A channel is never HEALTHY while it owes OWED_DEGRADE proofs or more (R117). -/
def State.RatingLaw (s : State) : Prop := ∀ c, s.prov.health.get c = .healthy → s.prov.owed.get c < s.cfg.owedDegrade

/-- A proof is in progress only at standstill, with the spring applied and no EMERGENCY-level entry present (R123, R128). -/
def State.ProofLaw (s : State) : Prop :=
  s.prov.proof.isSome = true → s.odo.standstill = true ∧ s.comb.springApplied = true ∧ s.set.hasLevel .emergency = false

/-- At most one POSITION record is unsent (R166), and the burst in flight carries the records at the head of the queue behind its
header, under the present number, with the carried tally, at most the lost tally, and RADIO_WAS_LOST where the carried lost mark
is set (R172, R174, R177). -/
def State.QueueLaw (s : State) : Prop :=
  s.radio.unsentPositions.length ≤ 1
    ∧ (s.radio.carriedLost = true → s.radio.wasLost = true)
    ∧ s.radio.carriedTally ≤ s.radio.lost
    ∧ ∀ b, s.radio.inFlight = some b →
        1 ≤ b.count ∧ b.number = s.radio.number
          ∧ ∃ high low flags, (s.radio.carriedLost = true → flags.getLsbD 6 = true)
              ∧ b.body = [high, low, byteOf b.number, flags, byteOf s.radio.carriedTally, byteOf b.count]
                  ++ (s.radio.queue.take b.count).flatMap Report.bytes

/-- The commands that may take records from the queue or lower the lost tally: the two resets, ACK, and the frames and bytes that
may carry one. -/
def mayRetire : Instr → Bool
  | .powerOnReset _ => true
  | .restart _ _ => true
  | .ack _ _ => true
  | .downlinkDiscarded _ => true
  | .requestDropped _ _ => true
  | .unknownRequest _ _ _ => true
  | .byteReceived _ _ => true
  | .frameRejected _ _ => true
  | _ => false

/-- Every one of these laws. -/
structure State.Ordered (s : State) : Prop where
  moving : s.MovingLaw
  window : s.WindowLaw
  ratings : s.RatingLaw
  proof : s.ProofLaw
  queue : s.QueueLaw

/-! ### What single rules ask of a state -/

/-- The change of the phase pair to these levels completes a tooth event (R1): from three net steps of a direction, one more. -/
def State.CompletesTooth (s : State) (a b : Bool) : Vertical → Prop
  | .up => phasePosition a b = (phasePosition s.odo.phaseA s.odo.phaseB + 1) % 4 ∧ s.odo.stepCount = 3
  | .down => phasePosition a b = (phasePosition s.odo.phaseA s.odo.phaseB + 3) % 4 ∧ s.odo.stepCount = -3

/-- The ahead and behind counts are those of the footprint and the direction as they stand (R23). -/
def State.Counted (s : State) : Prop :=
  s.win.ahead = s.aheadRecords.length ∧ s.win.behind = s.behindRecords.length

/-- The line goes on beyond an edge of the window with this number (R24 case 3). -/
def State.GoesOn (s : State) (e : Vertical) (n : Nat) : Prop :=
  match e with
  | .up => ∃ g, s.win.records.getLast? = some g ∧ g.number ≠ 65535 ∧ g.start + g.length ≠ 1048576 ∧ n = g.number + 1
  | .down => ∃ g, s.win.records.head? = some g ∧ g.number ≠ 0 ∧ g.start ≠ 0 ∧ g.number = n + 1

/-- The extended train footprint reaches beyond an edge of the window (R6, R24 case 2). -/
def State.Overhangs (s : State) (e : Vertical) : Prop :=
  match e with
  | .up => ∃ g, s.win.records.getLast? = some g ∧ (g.start : Int) + g.length - 1 < (s.odo.p : Int) + s.odo.u
  | .down => ∃ g, s.win.records.head? = some g ∧ (s.odo.p : Int) - s.cfg.trainLength - s.odo.u < g.start

/-- Case 2 of R24 calls for this number: the footprint reaches beyond the trailing edge of this way of travel, its end-flag is
clear, and the line goes on there. -/
def State.NeedsBehind (s : State) (t : Vertical) (n : Nat) : Prop :=
  s.Overhangs t.opposite ∧ (match t with | .up => s.win.endDown | .down => s.win.endUp) = false ∧ s.GoesOn t.opposite n

/-- Case 3 of R24 calls for this number: fewer than AHEAD_LOW records lie ahead, the travel edge's end-flag is clear, and the line
goes on there. -/
def State.NeedsAhead (s : State) (t : Vertical) (n : Nat) : Prop :=
  s.win.ahead < s.cfg.aheadLow ∧ (match t with | .up => s.win.endUp | .down => s.win.endDown) = false ∧ s.GoesOn t n

/-- A request for the next number at an edge: by number while fewer than 32 records are held, pinned at 32 (R24, R27). -/
def Window.Requests (w : Window) (n : Nat) (e : Vertical) : Prop :=
  w.wanted = if w.records.length < 32 then .byNumber n e else .pinned n e

/-- The wanted request is the one that R24 derives, the first case that applies deciding: with an empty window, by position from
the last LOCATE of a located car; else, for a way of travel, case 2 at the trailing edge, then case 3 at the travel edge; and none
in every other case, so in NEUTRAL. -/
def State.Asked (s : State) : Prop :=
  (s.win.records = [] →
    s.win.wanted =
      match s.odo.located, s.win.located with
      | true, some l => .byPosition l.number l.position
      | _, _ => .none)
    ∧ (s.win.records ≠ [] → s.odo.direction = .neutral → s.win.wanted = .none)
    ∧ ∀ t : Vertical, s.win.records ≠ [] → s.odo.direction = (match t with | .up => .up | .down => .down) →
        (∀ n, s.NeedsBehind t n → s.win.Requests n t.opposite)
          ∧ ((∀ m, ¬s.NeedsBehind t m) →
              (∀ n, s.NeedsAhead t n → s.win.Requests n t) ∧ ((∀ n, ¬s.NeedsAhead t n) → s.win.wanted = .none))

/-- The capability is that of the ratings and the NOMINAL items (R121), and every record's barred flags are those of the
capability (R34). -/
def State.Rated (s : State) : Prop :=
  s.prov.capability = capabilityOf s.cfg.nominal s.prov.health
    ∧ ∀ g ∈ s.win.records, g.barredUp = g.isBarred s.prov.capability .up ∧ g.barredDown = g.isBarred s.prov.capability .down

/-- The 19 bytes of a SEGMENT deliver this record, every field in its range (R20, 11.3). The barred flags are the window's. -/
structure Delivers (f : List Byte) (g : Segment) : Prop where
  number : g.number = field f 0 2
  start : g.start = field f 2 3
  length : g.length = field f 5 2
  kind : g.kind.code = field f 7 1
  gradient : g.gradient = signed16 (field f 8 2)
  limitUp : g.limitUp = field f 10 2
  limitDown : g.limitDown = field f 12 2
  platform : (field f 14 1).testBit 0 = g.platform.isSome
  station : ∀ x, g.platform = some x → x.id = field f 15 1 ∧ x.side.code = field f 16 1 ∧ 1 ≤ x.id
  marker : (field f 14 1).testBit 1 = g.marker.isSome
  offset : ∀ o, g.marker = some o → o = field f 17 2 ∧ o < g.length
  lengths : 10 ≤ g.length ∧ g.length ≤ 4095
  ends : g.start + g.length ≤ 1048576
  gradients : -500 ≤ g.gradient ∧ g.gradient ≤ 500
  limits : g.limitUp ≤ 20000 ∧ g.limitDown ≤ 20000

/-- A segment of this number, start and length answers the wanted request: its number, and its place at the position held from
LOCATE or at the request's edge (R30, first three checks). -/
def State.Asks (s : State) (number start length : Nat) : Prop :=
  match s.win.wanted with
  | .byPosition n x => number = n ∧ start ≤ x ∧ x < start + length
  | .byNumber n .up => number = n ∧ s.win.last? = some ((start : Int) - 1)
  | .byNumber n .down => number = n ∧ s.win.first? = some ((start : Int) + length)
  | _ => False

/-- The record answers the wanted request. -/
def State.Wants (s : State) (g : Segment) : Prop := s.Asks g.number g.start g.length

/-- How many of these records lie behind the extended train footprint (R6, R23): below it for UP travel, above it for DOWN. -/
def State.behindAmong (s : State) (records : List Segment) : Nat :=
  match s.odo.direction with
  | .up => (records.filter fun g => decide ((g.start : Int) + g.length - 1 < (s.odo.p : Int) - s.cfg.trainLength - s.odo.u)).length
  | .down => (records.filter fun g => decide ((s.odo.p : Int) + s.odo.u < g.start)).length
  | .neutral => 0

/-- The records without the `k` farthest at the trailing edge. -/
def State.without (s : State) (k : Nat) (records : List Segment) : List Segment :=
  match s.odo.direction with
  | .up => records.drop k
  | .down => records.take (records.length - k)
  | .neutral => records

/-- A window is what a recomputation of `s` makes of these records and end-flags: the records behind beyond BEHIND_HIGH leave at
the trailing edge (R26), and of 32 that remain one more, where one is behind and a by-number request needs its room (R27); a
record that leaves clears the end-flag of its edge (R28). A request is pinned only where 32 remain and none is behind (R27). -/
def State.Retains (s : State) (records : List Segment) (endUp endDown : Bool) (w : Window) : Prop :=
  ∃ k, w.records = s.without k records
    ∧ (let excess := s.behindAmong records - s.cfg.behindHigh
       k = excess
        ∨ k = excess + 1 ∧ 32 ≤ (s.without excess records).length ∧ 1 ≤ s.behindAmong (s.without excess records)
            ∧ ∃ n e, w.wanted = .byNumber n e)
    ∧ w.endUp = (endUp && !decide (s.odo.direction = .down ∧ k ≠ 0))
    ∧ w.endDown = (endDown && !decide (s.odo.direction = .up ∧ k ≠ 0))
    ∧ ∀ n e, w.wanted = .pinned n e → 32 ≤ w.records.length ∧ s.behindAmong w.records = 0

/-- The combiner's figures are those that R96 to R98 and R100 ask for on the state as it stands: the holding request; D, the
greatest of the driver demand, 100 while a SERVICE-level entry is present, and HOLD_LEVEL while the request is asserted; the kind
of the record that contains the car middle; and each channel's demand, its share of D, or 100 in an emergency. -/
def State.Blended (s : State) : Prop :=
  (s.comb.holding = true ↔ s.doors.hold = true ∨ s.line.opState = .config)
    ∧ s.comb.service
        = max (max s.comb.driver (if s.set.entries.any (fun e => e.cause.level == .service) then 100 else 0))
            (if s.comb.holding then s.cfg.holdLevel else 0)
    ∧ s.comb.blend
        = (s.win.records.find? (fun g =>
            decide ((g.start : Int) ≤ (s.odo.p : Int) - (s.cfg.carLength / 2 : Nat)
              ∧ (s.odo.p : Int) - (s.cfg.carLength / 2 : Nat) ≤ (g.start : Int) + g.length - 1))).map Segment.kind
    ∧ ∀ c, s.comb.demand.get c
        = if s.set.entries.any (fun e => e.cause.level == .emergency) then 100
          else
            s.comb.service
              * (match s.comb.blend with
                | none => 100
                | some k => if c = .rb1 ∨ c = .rb2 then s.cfg.rbShare.get k else s.cfg.abShare.get k) / 100

/-- The conditions of R123 that do not ask for a channel: the car stands with the spring applied, no EMERGENCY-level entry is
present, and no proof is in progress. -/
def State.MayProve (s : State) : Prop :=
  s.odo.standstill = true ∧ s.comb.springApplied = true ∧ (∀ e ∈ s.set.entries, e.cause.level ≠ .emergency)
    ∧ s.prov.proof = none

/-- The channel that R124 takes: the first, in channel order, that owes a proof and is not on the tried list. -/
def firstOwing (owed : PerChannel Nat) (tried : List Channel) : Option Channel :=
  [Channel.rb1, .rb2, .ab1, .ab2].find? fun c => decide (1 ≤ owed.get c ∧ c ∉ tried)

/-- Where R124 takes a channel, its RISE has begun: the channel has joined the tried list, its present pressure sample is the step
sample, the dwell timer runs for 300 ms and its feedback settles afresh (R113). Where it takes none, no proof is in progress and
the list is as it was. -/
def State.Round (t : State) (owed : PerChannel Nat) (tried : List Channel) : Prop :=
  match firstOwing owed tried with
  | none => t.prov.proof = none ∧ t.prov.dwell = none ∧ t.prov.tried = tried
  | some c =>
    t.prov.proof = some { channel := c, step := .rise, sample := t.scan.pressure.get c }
      ∧ t.prov.dwell = some (t.clock + 300000) ∧ t.prov.tried = tried ++ [c]
      ∧ t.comb.feedback.get c = { lastChange := t.clock, deviationStart := none }

/-- The feedback check looks at a channel at a scan (R113): it is not FAILED, no proof holds it, and 400 ms have passed since its
last demand change. -/
def State.Watches (s : State) (c : Channel) : Prop :=
  s.prov.health.get c ≠ .failed ∧ (∀ x, s.prov.proof = some x → x.channel ≠ c)
    ∧ (s.comb.feedback.get c).lastChange + 400000 ≤ s.clock

/-- The sample that a read leaves a channel is off its expected pressure by more than FEEDBACK_TOL (R110, R112, R113). -/
def State.Strays (s : State) (w : ScanWords) (c : Channel) : Prop :=
  let sample := if w.pressure.get c = 0xFFFF#16 then s.scan.pressure.get c else min 1000 (w.pressure.get c).toNat
  let expected := s.comb.demand.get c * s.cfg.fullPressure.get c / 100
  sample + s.cfg.feedbackTol < expected ∨ expected + s.cfg.feedbackTol < sample

/-- The inside flag and the containing ranges are those of the ranges and the footprint as they stand (R42). -/
def State.Flagged (s : State) : Prop :=
  s.auth.inA = (s.odo.located && s.auth.a.holds s.lo s.hi) ∧ s.auth.inB = (s.odo.located && s.auth.b.holds s.lo s.hi)
    ∧ s.auth.inside = (s.auth.inA || s.auth.inB)

/-- A record overlaps the extended train footprint (R6, R22). -/
def State.Under (s : State) (g : Segment) : Prop :=
  (g.start : Int) ≤ s.odo.p + s.odo.u ∧ (s.odo.p : Int) - s.cfg.trainLength - s.odo.u ≤ (g.start : Int) + g.length - 1

/-- The window covers a range of positions (R22). -/
def State.Covers (s : State) (low high : Int) : Prop :=
  ∃ a b, s.win.records.head? = some a ∧ s.win.records.getLast? = some b ∧ (a.start : Int) ≤ low
    ∧ high ≤ (b.start : Int) + b.length - 1

/-- None of the conditions of R60 holds, and the car travels this way. -/
def State.Supervised (s : State) (t : Vertical) : Prop :=
  s.odo.located = true ∧ s.odo.direction = (match t with | .up => .up | .down => .down) ∧ s.auth.inside = true
    ∧ s.Covers ((s.odo.p : Int) - s.cfg.trainLength - s.odo.u) (s.odo.p + s.odo.u)

/-- A restriction applies to a way of travel and is not empty (R53). -/
def Restriction.IsApplicable (r : Restriction) (t : Vertical) : Prop :=
  r.low ≤ r.high ∧ (match t with | .up => r.direction ≠ .down | .down => r.direction ≠ .up)

/-- The terms of which L is the least (R61). -/
inductive LimitTerm (s : State) (t : Vertical) : Nat → Prop where
  | maxSpeed : LimitTerm s t s.cfg.maxSpeed
  | record (g : Segment) : g ∈ s.win.records → s.Under g →
      LimitTerm s t (match t with | .up => g.limitUp | .down => g.limitDown)
  | restriction (r : Restriction) : r ∈ s.auth.restrictions → r.IsApplicable t → (r.low : Int) ≤ s.odo.p + s.odo.u →
      (s.odo.p : Int) - s.cfg.trainLength - s.odo.u ≤ r.high → LimitTerm s t r.speed
  | barred (g : Segment) : g ∈ s.win.records → s.Under g →
      (match t with | .up => g.barredUp | .down => g.barredDown) = true → LimitTerm s t s.cfg.barredCreep
  | radioLost : s.radio.link = .lost → LimitTerm s t s.cfg.radioLossSpeed

/-- A range is a containing range of the last recomputation (R42). -/
def AuthorityTable.Contains (a : AuthorityTable) (x : Range) : Prop := x = a.a ∧ a.inA = true ∨ x = a.b ∧ a.inB = true

/-- The targets (R48, R53, R62). -/
inductive IsTarget (s : State) : Vertical → Target → Prop where
  | recordUp (g : Segment) : g ∈ s.win.records → (s.odo.p + s.odo.u : Int) < g.start →
      IsTarget s .up { position := g.start, speed := if g.barredUp then 0 else g.limitUp }
  | recordDown (g : Segment) : g ∈ s.win.records →
      (g.start : Int) + g.length - 1 < (s.odo.p : Int) - s.cfg.trainLength - s.odo.u →
      IsTarget s .down { position := (g.start : Int) + g.length - 1, speed := if g.barredDown then 0 else g.limitDown }
  | restrictionUp (r : Restriction) : r ∈ s.auth.restrictions → r.IsApplicable .up → (s.odo.p + s.odo.u : Int) < r.low →
      s.Covers r.low r.low → IsTarget s .up { position := r.low, speed := r.speed }
  | restrictionDown (r : Restriction) : r ∈ s.auth.restrictions → r.IsApplicable .down →
      (r.high : Int) < (s.odo.p : Int) - s.cfg.trainLength - s.odo.u → s.Covers r.high r.high →
      IsTarget s .down { position := r.high, speed := r.speed }
  | authorityUp (x : Range) : s.auth.inside = true → s.auth.Contains x → (∀ y, s.auth.Contains y → y.high ≤ x.high) →
      IsTarget s .up { position := (x.high : Int) + 1, speed := 0 }
  | authorityDown (x : Range) : s.auth.inside = true → s.auth.Contains x → (∀ y, s.auth.Contains y → x.low ≤ y.low) →
      IsTarget s .down { position := (x.low : Int) - 1, speed := 0 }
  | edgeUp (g : Segment) : s.win.records.getLast? = some g →
      IsTarget s .up { position := (g.start : Int) + g.length, speed := 0 }
  | edgeDown (g : Segment) : s.win.records.head? = some g →
      IsTarget s .down { position := (g.start : Int) - 1, speed := 0 }

/-- A number is the least of those with a property. -/
def Least (p : Nat → Prop) (n : Nat) : Prop := p n ∧ ∀ m, p m → n ≤ m

/-- The supervisor's figures are those of R60 to R68 on the state as it stands: L is 0 under R60 and else the least of its terms,
P is 0 with it and else the least of L and the curves of the targets, and W, I_s and I_e follow from P. The curve of one target
is that of `Obligations.CurvesTakeTheExactRoot`. -/
def State.Fresh (s : State) : Prop :=
  ((∀ t, ¬s.Supervised t) → s.sup.staticLimit = 0 ∧ s.sup.permitted = 0)
    ∧ (∀ t, s.Supervised t →
        Least (LimitTerm s t) s.sup.staticLimit
          ∧ Least (fun n => n = s.sup.staticLimit ∨ ∃ x, IsTarget s t x ∧ n = s.curve t x) s.sup.permitted)
    ∧ s.sup.warning = s.sup.permitted
    ∧ s.sup.serviceSpeed = s.sup.permitted + s.sup.permitted / 16 + 150
    ∧ s.sup.emergencySpeed = s.sup.permitted + s.sup.permitted / 8 + 400

/-- The front of the train for a way of travel (R6). -/
def State.frontAt (s : State) : Vertical → Int
  | .up => s.odo.p + s.odo.u
  | .down => (s.odo.p : Int) - s.cfg.trainLength - s.odo.u

/-- The record that contains the front is this one (R22). -/
def State.FrontIn (s : State) (t : Vertical) (g : Segment) : Prop :=
  s.win.records.find? (fun h =>
    decide ((h.start : Int) ≤ s.frontAt t ∧ s.frontAt t ≤ (h.start : Int) + h.length - 1)) = some g

/-- The front crosses a record on its way to a position (R65): the record overlaps hi to x − 1, or x + 1 to lo. -/
def State.Crosses (s : State) (t : Vertical) (x : Int) (g : Segment) : Prop :=
  g ∈ s.win.records ∧
    match t with
    | .up => s.frontAt t < x ∧ (g.start : Int) ≤ x - 1 ∧ s.frontAt t ≤ (g.start : Int) + g.length - 1
    | .down => x < s.frontAt t ∧ (g.start : Int) ≤ s.frontAt t ∧ x + 1 ≤ (g.start : Int) + g.length - 1

/-- a_seg of a record (R64): a_cap of its kind less gc, the gravity component of the descending grade rounded up, and at least
100. -/
def State.braking (s : State) (t : Vertical) (g : Segment) : Nat :=
  let grade : Int := match t with | .up => -g.gradient | .down => g.gradient
  max 100 (s.prov.capability.get g.kind - (grade.toNat * 9807 + 999) / 1000)

/-- The platform check of R136 for a side: the window covers the extended car footprint, and every record overlapping it is
platform of one station on that side or on both. -/
def State.AtPlatform (s : State) (side : PlatformSide) : Prop :=
  s.win.covers s.carLo s.hi = true
    ∧ ∃ id, ∀ g ∈ s.win.overlapping s.carLo s.hi, ∃ x, g.platform = some x ∧ x.id = id ∧ (x.side = side ∨ x.side = .both)

/-- The gradient at a door (R143). -/
def State.slopeAt (s : State) (d : Door) : Int := ((s.win.containing (s.doorPosition d)).map Segment.gradient).getD 0

/-- The duty of R144 for a door whose leaf moves this way on the line: DOOR_DUTY with COMP_GAIN added uphill, up to 100, and
taken off otherwise, down to 10. -/
def State.dutyOnSlope (s : State) (d : Door) (leaf : Vertical) : Nat :=
  if (leaf = .up ∧ 0 < s.slopeAt d) ∨ (leaf = .down ∧ s.slopeAt d < 0) then
    min 100 (s.cfg.doorDuty + (s.slopeAt d).natAbs * s.cfg.compGain / 100)
  else max 10 (s.cfg.doorDuty - (s.slopeAt d).natAbs * s.cfg.compGain / 100)

/-- The obstruction limit of R144 for a door whose leaf moves this way on the line. -/
def State.limitOnSlope (s : State) (d : Door) (leaf : Vertical) : Nat :=
  if (leaf = .up ∧ 0 < s.slopeAt d) ∨ (leaf = .down ∧ s.slopeAt d < 0) then
    s.cfg.obstructLimit + 2 * (s.slopeAt d).natAbs
  else s.cfg.obstructLimit

/-- The sample that a read leaves a closing door is above its limit, computed afresh for the scan (R110, R144, R145). -/
def State.Blocks (s : State) (w : ScanWords) (d : Door) : Prop :=
  s.limitOnSlope d (s.cfg.openDir.get d).opposite
    < if w.current.get d = 0xFFFF#16 then s.scan.current.get d else min 4000 (w.current.get d).toNat

/-- The motor of a door is driven at a duty toward a sense from its next period on (R106, R144). -/
def State.Drives (s : State) (d : Door) (duty : Nat) (x : Sense) : Prop :=
  (s.drive.motor.get d).pendingDuty = some duty ∧ (s.drive.motor.get d).pendingSense = some x

/-- The blocks that take up a change of an item, besides the supervisor and the combiner (R190, 10.4). -/
def ConfigItem.blocks : ConfigItem → List Block
  | .carLength => [.window]
  | .trainLength => [.window]
  | .aheadLow => [.window]
  | .behindHigh => [.window]
  | .nominal _ => [.window, .ratings]
  | .owedDegrade => [.window, .ratings]
  | .proofPeriod => [.proofTimer]
  | .radioTimeout => [.radio]
  | .positionInterval => [.radio]
  | _ => []

/-- Every brake is on: all channel demands and drive values 100, V1 to V4 wholly on, the spring applied and the emergency loop
opened (R82, R100, R101, R103, R107). -/
def State.FullBrake (s : State) : Prop :=
  s.set.breakOpen = true ∧ s.comb.springApplied = true
    ∧ ∀ c, s.comb.demand.get c = 100 ∧ s.comb.drive.get c = 100 ∧ (s.drive.valve.get c).IsFull

/-! ### Timers -/

/-- The timer runs, and some of the `length` µs for which it is (re)started has passed. -/
def Timer.Elapsing (t : Timer) (now length : Nat) : Prop := ∃ m, t = some m ∧ m < now + length

/-- The timer is stopped, or an event has (re)started it at this very moment: its expiry cannot come. -/
def Timer.Resting (t : Timer) (now length : Nat) : Prop := ∀ m, t = some m → now < m ∧ now + length ≤ m

/-! ### Answers -/

/-- The line's port after a frame was given to it: begun at once on a line that sends nothing, else at the end of the list
(R184). -/
def Port.Given (p q : Port) (x : RequestLine) (now : Nat) (frame : List Byte) : Prop :=
  match p.sending with
  | none =>
    q = { p with sending := some { frame := frame, ends := now + lineTime (serialOf x) frame.length }, framer := q.framer }
  | some _ => q = { p with waiting := p.waiting ++ [frame], framer := q.framer }

/-- The step from `s` to `t` answers a request of a kind on a line with one response (R183). Its header is read from `t`, after
the whole cascade of the request's step: DEDUCED (log 13), since R183 leaves open whether handed notices have been taken. -/
def Answered (s t : State) (x : RequestLine) (kind : Byte) (r : Reply) : Prop :=
  (s.line.port x).Given (t.line.port x) x s.clock (frameOf (t.responseBody kind r))

/-- The block of a line's port. -/
abbrev portBlock : RequestLine → Block
  | .cab => .cabPort
  | .crew => .crewPort

/-- The command of a request kind. -/
def RequestKind.command (k : RequestKind) (x : RequestLine) (f : List Byte) : Instr :=
  match k with
  | .status => .status x f
  | .locate => .locate x f
  | .direction => .direction x f
  | .segment => .segment x f
  | .endOfLine => .endOfLine x f
  | .readWindow => .readWindow x f
  | .readAuthority => .readAuthority x f
  | .ackIntervention => .ackIntervention x f
  | .driverBrake => .driverBrake x f
  | .park => .park x f
  | .configure => .configure x f
  | .resume => .resume x f
  | .quiesce => .quiesce x f
  | .restart => .restart x f
  | .doorRelease => .doorRelease x f
  | .doorOpenReleased => .doorOpenReleased x f
  | .doorClose => .doorClose x f
  | .doorIsolate => .doorIsolate x f
  | .doorUnisolate => .doorUnisolate x f
  | .proveNow => .proveNow x f

/-- What the owner's step of a good request starts from: the line's framer hunts again (log 9), and a request on the cab line
has been heard: the cab timer and the cab heard mark (R182, R193, R89). -/
def State.heardAt (s : State) (x : RequestLine) : State := (s.withFramer (serialOf x) []).heardOn x

/-- The step from `s` to `t` serves a request of a kind on a line: one response with the reply `r`, and nothing else changes
after the hearing but the blocks listed. -/
structure Served (s t : State) (x : RequestLine) (kind : Byte) (r : Reply) (free : List Block) (raised removed : List Cause) :
    Prop where
  answered : Answered s t x kind r
  frame : Frame (portBlock x :: free) raised removed (s.heardAt x) t

/-- The step from `s` to `t` answers a request of a kind on a line with the reply `r` and changes nothing after the hearing: a
reading, or a refusal. -/
structure AnsweredOnly (s t : State) (x : RequestLine) (kind : Byte) (r : Reply) : Prop where
  answered : Answered s t x kind r
  kept : ∃ p, t = (s.heardAt x).withPort x p

/-- The step answers a request with a refusal and changes nothing after the hearing. -/
def State.Refuses (s : State) (i : Instr) (x : RequestLine) (kind : Byte) (e : Reason) : Prop :=
  ∃ t, exec i s = .next t ∧ AnsweredOnly s t x kind (.refused e)

/-- What a good frame on the radio line leaves before its destination and kind are looked at: the framer hunts again (log 9),
and link supervision has taken the frame (R162, R164). -/
def State.linkedAt (s : State) : State := (s.withFramer .radio []).linkUp

/-- The line can take a request: its response list is not full (R184). -/
def State.CanTake (s : State) (x : RequestLine) : Prop := (s.line.port x).waiting.length < Config.responseCapacity

end Sys2Proof.Machine
end

