-- ==== Sys2Proof/WellFormed.lean ====
section
/-! DEFINITION. Which terms of `Instr` are commands a line can bring: the body of a frame is 1 to 120 bytes long (R158), and an
UNKNOWN_REQUEST names no request kind (R182). A request or downlink of the wrong length is still a command: the part answers
or discards it. -/

namespace Sys2Proof

/-- The codes of the twenty request kinds (11.3). -/
def requestCodes : List Byte :=
  [ 0x01#8, 0x02#8, 0x03#8, 0x04#8, 0x05#8, 0x06#8, 0x07#8, 0x08#8, 0x09#8, 0x0A#8, 0x0B#8, 0x0C#8, 0x0D#8, 0x0E#8
  , 0x21#8, 0x22#8, 0x23#8, 0x24#8, 0x25#8, 0x26#8 ]

/-- A frame can carry a body of this many bytes (R158). -/
def bodyFits (n : Nat) : Bool := decide (1 ≤ n) && decide (n ≤ Config.maxBody)

/-- The command is one that its line can bring. -/
def Instr.wellFormed : Instr → Bool
  | .phaseChange _ _ => true
  | .markerPulse => true
  | .standstillTimerExpiry => true
  | .locate _ fields => bodyFits (1 + fields.length)
  | .direction _ fields => bodyFits (1 + fields.length)
  | .powerOnReset _ => true
  | .restart _ fields => bodyFits (1 + fields.length)
  | .segment _ fields => bodyFits (1 + fields.length)
  | .endOfLine _ fields => bodyFits (1 + fields.length)
  | .readWindow _ fields => bodyFits (1 + fields.length)
  | .authority _ fields => bodyFits (3 + fields.length)
  | .restrictionSet _ fields => bodyFits (3 + fields.length)
  | .restrictionClear _ fields => bodyFits (3 + fields.length)
  | .readAuthority _ fields => bodyFits (1 + fields.length)
  | .evaluationTimerExpiry => true
  | .loopOpens => true
  | .loopCloses => true
  | .ackIntervention _ fields => bodyFits (1 + fields.length)
  | .release _ fields => bodyFits (3 + fields.length)
  | .cabTimerExpiry => true
  | .driverBrake _ fields => bodyFits (1 + fields.length)
  | .park _ fields => bodyFits (1 + fields.length)
  | .periodEnd _ => true
  | .scanTimerExpiry => true
  | .scanComplete _ => true
  | .proofTimerExpiry => true
  | .dwellTimerExpiry => true
  | .proveNow _ fields => bodyFits (1 + fields.length)
  | .doorRelease _ fields => bodyFits (1 + fields.length)
  | .buttonPress _ => true
  | .doorOpenReleased _ fields => bodyFits (1 + fields.length)
  | .openSwitchMakes _ => true
  | .openSwitchBreaks _ => true
  | .motionTimerExpiry _ => true
  | .doorClose _ fields => bodyFits (1 + fields.length)
  | .closedSwitchMakes _ => true
  | .closedSwitchBreaks _ => true
  | .doorIsolate _ fields => bodyFits (1 + fields.length)
  | .doorUnisolate _ fields => bodyFits (1 + fields.length)
  | .frameRejected _ _ => true
  | .downlinkDiscarded body => bodyFits body.length
  | .radioTimerExpiry => true
  | .positionTimerExpiry => true
  | .poll _ fields => bodyFits (3 + fields.length)
  | .ack _ fields => bodyFits (3 + fields.length)
  | .transmitComplete => true
  | .responseSent _ => true
  | .requestDropped _ body => bodyFits body.length
  | .unknownRequest _ kind fields => bodyFits (1 + fields.length) && !requestCodes.contains kind
  | .status _ fields => bodyFits (1 + fields.length)
  | .configure _ fields => bodyFits (1 + fields.length)
  | .resume _ fields => bodyFits (1 + fields.length)
  | .quiesce _ fields => bodyFits (1 + fields.length)
  | .buttonRelease _ => true
  | .byteReceived _ _ => true

end Sys2Proof
end

