-- ==== Sys2Proof/Certificates/Slice0/Obligations.lean ====
section
/-! DEFINITION. The statements for the provers. -/

open Sys2Proof Sys2Proof.Machine

/-! ### The machine -/

/-- One step takes the command at the front of the queue and runs it on the state with the rest of the queue. -/
def Obligations.StepTakesTheFrontCommand : Prop :=
  ∀ (i : Instr) (rest : List Instr) (s : State), step (s.withPending (i :: rest)) = exec i (s.withPending rest)

/-- The model's choice (log 2): on an empty queue the first event whose moment has come is taken; when none is due, the clock
moves on by one µs. -/
def Obligations.IdleStepRunsTheClock : Prop :=
  ∀ s : State, s.pending = [] →
    ((∀ e ∈ s.events, ∀ m, e.1 = some m → s.clock < m) → step s = .next (s.withClock (s.clock + 1)))
      ∧ ∀ before e after m, s.events = before ++ e :: after → (∀ x ∈ before, ∀ n, x.1 = some n → s.clock < n) → e.1 = some m →
          m ≤ s.clock → step s = exec e.2 s

/-- POWER_ON_RESET leaves every block at its reset table, reads its inputs, keeps the waiting commands, and lets the combiner
take its first step in CONFIG, the set test the loop and the Proving Unit begin; the loop-break output is open while reset is
held. The model's choice: what an output that has never run and a door's limit hold (log 20), the order at the end of reset
(log 5) and RB1's drive in its first period (log 5). -/
def Obligations.PowerOnResetSetsEveryBlock : Prop :=
  ∀ (pins : PinLevels) (s : State),
    ((State.heldInReset pins).set.breakOpen = true ∧ (State.heldInReset pins).endReset.set.breakOpen = false)
    ∧ ∃ t, exec (.powerOnReset pins) s = .next t ∧ t.pending = s.pending ∧ t.clock = 0
    ∧ t.odo = { p := 0, u := 255, located := false, v := 0, standstill := true, standstillTimer := none, lastDir := none
                lastInterval := none, lastToothAt := none, direction := .neutral, rollback := 0, slip := 0
                phaseA := pins.phaseA, phaseB := pins.phaseB, stepCount := 0 }
    ∧ t.win = { records := [], endUp := false, endDown := false, located := none, wanted := .none, ahead := 0, behind := 0 }
    ∧ t.auth = { a := { low := 1, high := 0 }, b := { low := 1, high := 0 }, id := 0, inside := false, inA := false, inB := false
                 restrictions := [] }
    ∧ t.sup = { staticLimit := 0, permitted := 0, warning := 0, serviceSpeed := 150, emergencySpeed := 400, state := .normal
                permit := false, timer := some 100000 }
    ∧ t.set = { entries :=
                  if pins.loopOpen then
                    [{ cause := .emergencyLoop, capture := { position := 0, speed := 0, permitted := 0 }, time := 0
                       heard := false }]
                  else []
                loopOpen := pins.loopOpen, breakOpen := pins.loopOpen }
    ∧ (let demand : Nat := if pins.loopOpen then 100 else 60
       t.comb = { driver := 0, park := .apply, holding := true, service := 60, blend := none, emergency := pins.loopOpen
                  demand := { rb1 := demand, rb2 := demand, ab1 := demand, ab2 := demand }
                  drive := { rb1 := 100, rb2 := demand, ab1 := demand, ab2 := demand }, springApplied := true
                  feedback :=
                    { rb1 := { lastChange := 0, deviationStart := none }, rb2 := { lastChange := 0, deviationStart := none }
                      ab1 := { lastChange := 0, deviationStart := none }, ab2 := { lastChange := 0, deviationStart := none } } })
    ∧ (let output := fun active duty : Nat =>
         ({ period := 2000, boundary := some 2000, activeOn := active, pendingDuty := some duty, pendingOn := duty * 2000 / 100
            activeSense := none, pendingSense := none } : Output)
       t.drive.valve = (if pins.loopOpen then
           { rb1 := output 2000 100, rb2 := output 2000 100, ab1 := output 2000 100, ab2 := output 2000 100 }
         else { rb1 := output 1200 100, rb2 := output 1200 60, ab1 := output 1200 60, ab2 := output 1200 60 }))
    ∧ t.drive.motor = { d1 := Output.off, d2 := Output.off, d3 := Output.off, d4 := Output.off } ∧ t.drive.ganged = false
    ∧ t.scan = { pressure := { rb1 := 0, rb2 := 0, ab1 := 0, ab2 := 0 }, current := { d1 := 0, d2 := 0, d3 := 0, d4 := 0 }
                 timer := some 10000, reading := false }
    ∧ t.prov = { owed := { rb1 := 2, rb2 := 2, ab1 := 2, ab2 := 2 }
                 health := { rb1 := .degraded, rb2 := .degraded, ab1 := .degraded, ab2 := .degraded }
                 capability := { rack := 2000, adhesion := 550, entry := 1100 }, timer := some 1800000000
                 tried := if pins.loopOpen then [] else [.rb1]
                 proof := if pins.loopOpen then none else some { channel := .rb1, step := .rise, sample := 0 }
                 dwell := if pins.loopOpen then none else some 300000 }
    ∧ (∀ d, t.doorAt d = DoorRecord.fromPins (pins.door.get d))
    ∧ t.doors.releasedLeft = false ∧ t.doors.releasedRight = false
    ∧ (t.doors.hold = true ↔ ∃ d, (pins.door.get d).closedMade = false)
    ∧ t.radio =
        { link := .silent, timer := none
          queue :=
            if pins.loopOpen then
              [ { time := 0, body := .raised .emergencyLoop { position := 0, speed := 0, permitted := 0 } }
              , { time := 0, body := .position 0 255 0 0 .neutral true false } ]
            else []
          inFlight := none, number := 0, carriedTally := 0, carriedLost := false, resend := 0, lost := 0, wasLost := false
          positionTimer := some 5000000, transmitter := none, framer := [] }
    ∧ t.line = { opState := .config, settings := Settings.default, cabTimer := none, cab := Port.idle, crew := Port.idle }

/-- Every law of `State.Sound` and of `State.Ordered` holds of the state after reset, and so do those of the counts, of the wanted
request and of the ratings. -/
def Obligations.ResetKeepsEveryLaw : Prop :=
  State.reset.Sound ∧ State.reset.Ordered ∧ State.reset.Counted ∧ State.reset.Asked ∧ State.reset.Rated

/-- Every law of `State.Sound` is kept by every step, and every law of `State.Ordered` by every step of a sound state: among them
that each drive value is 100 in an emergency, else the proof step's, else the channel's demand, and that its valve carries it, V2
that of V1 while it follows V1 (R99, R101, R106, R109). A command
other than those that discard records or acknowledge a burst keeps every event record queued, in order, and lets the lost tally
rise only at a full queue (R167, R170). -/
def Obligations.EveryStepKeepsTheLaws : Prop :=
  (∀ s t : State, s.Sound → step s = .next t → t.Sound ∧ (s.Ordered → t.Ordered))
    ∧ ∀ (i : Instr) (s t : State), mayRetire i = false → exec i s = .next t →
        s.radio.eventRecords <+: t.radio.eventRecords ∧ min 255 s.radio.lost ≤ t.radio.lost
          ∧ (t.radio.lost = s.radio.lost ∨ 32 ≤ t.radio.queue.length)

/-- No command faults or is refused; every command leaves the commands behind it as they are, and no command but
POWER_ON_RESET turns the clock. -/
def Obligations.EveryCommandCompletes : Prop :=
  ∀ (i : Instr) (s : State), ∃ t, exec i s = .next t ∧ t.pending = s.pending
    ∧ ((∃ pins, i = .powerOnReset pins) ∨ t.clock = s.clock)

/-! ### Odometry -/

/-- A change of the phase pair by a step that completes no tooth event counts the quarter step and nothing else; an invalid
transition raises u by 1, saturating at 255, leaves p, the step count and both tallies as they are, and brings the window a new
count but no recomputation of the inside flag (R1, R4). That a change to the levels the pair has already changes nothing is the
model's (log 15). -/
def Obligations.PhaseChangesAreClassified : Prop :=
  ∀ (s : State) (a b : Bool),
    (phasePosition a b = phasePosition s.odo.phaseA s.odo.phaseB →
      exec (.phaseChange a b) s = .next (s.withOdo { s.odo with phaseA := a, phaseB := b }))
    ∧ (phasePosition a b = (phasePosition s.odo.phaseA s.odo.phaseB + 1) % 4 → s.odo.stepCount ≠ 3 →
        exec (.phaseChange a b) s
          = .next (s.withOdo { s.odo with phaseA := a, phaseB := b, stepCount := s.odo.stepCount + 1 }))
    ∧ (phasePosition a b = (phasePosition s.odo.phaseA s.odo.phaseB + 3) % 4 → s.odo.stepCount ≠ -3 →
        exec (.phaseChange a b) s
          = .next (s.withOdo { s.odo with phaseA := a, phaseB := b, stepCount := s.odo.stepCount - 1 }))
    ∧ (phasePosition a b = (phasePosition s.odo.phaseA s.odo.phaseB + 2) % 4 →
        ∃ t, exec (.phaseChange a b) s = .next t
          ∧ t.odo = { s.odo with phaseA := a, phaseB := b, u := min 255 (s.odo.u + 1), v := t.odo.v } ∧ t.odo.v ≤ s.odo.v
          ∧ t.Counted ∧ Frame [.odometry, .window] overspeeds [.overspeedService] s t)

/-- What a tooth event makes of the odometry state (R2, R5, R10, R13, R14): position, slip and uncertainty, speed and
interval, standstill, rollback. The tooth that ends standstill withdraws both released sides and locks the RELEASED doors; no
tooth changes another door or drives a leaf, and a door not shut finds DOOR_UNLOCKED_MOVING in the set afterwards (R152). A proof in
progress is abandoned and the tried list emptied (R123, R128). No other block changes but those its notices reach. -/
def Obligations.ToothEventsMoveTheCar : Prop :=
  ∀ (s : State) (a b : Bool) (d : Vertical), s.CompletesTooth a b d →
    ∃ t, exec (.phaseChange a b) s = .next t
      ∧ t.odo = { s.odo with phaseA := a, phaseB := b, stepCount := 0, lastDir := some d, lastToothAt := some s.clock
                             standstill := false, standstillTimer := some (s.clock + 2000000)
                             p := t.odo.p, u := t.odo.u, slip := t.odo.slip, v := t.odo.v
                             lastInterval := t.odo.lastInterval, rollback := t.odo.rollback }
      ∧ t.odo.p = (match d with | .up => min 1048575 (s.odo.p + 1) | .down => s.odo.p - 1)
      ∧ (let slips := match s.win.containing t.odo.p with | none => true | some g => g.kind == .adhesion
         (slips = true ∧ 31 ≤ s.odo.slip → t.odo.slip = 0 ∧ t.odo.u = min 255 (s.odo.u + 1))
          ∧ (slips = true ∧ s.odo.slip < 31 → t.odo.slip = s.odo.slip + 1 ∧ t.odo.u = s.odo.u)
          ∧ (slips = false → t.odo.slip = s.odo.slip ∧ t.odo.u = s.odo.u))
      ∧ (s.odo.standstill = true ∨ s.odo.lastDir ≠ some d → t.odo.v = 50 ∧ t.odo.lastInterval = some 2000000)
      ∧ (s.odo.standstill = false → s.odo.lastDir = some d → ∀ m, s.odo.lastToothAt = some m →
          t.odo.v = min 20000 (100000000 / max 1 (min 4194303 (s.clock - m)))
            ∧ t.odo.lastInterval = some (max 1 (min 4194303 (s.clock - m))))
      ∧ (s.odo.direction.travel = some d → t.odo.rollback = s.odo.rollback - 1)
      ∧ (s.odo.direction.travel ≠ some d → t.odo.rollback = min 255 (s.odo.rollback + 1))
      ∧ t.Counted ∧ t.Flagged
      ∧ (s.odo.standstill = false → t.doors = s.doors)
      ∧ (s.odo.standstill = true → t.doors.releasedLeft = false ∧ t.doors.releasedRight = false
          ∧ ∀ d, t.doorAt d =
              if (s.doorAt d).state = .released then { s.doorAt d with state := .locked, motion := none } else s.doorAt d)
      ∧ (∀ d, (t.doorAt d).state ∈ [.opening, .open, .closing, .fault] → t.set.has .doorUnlockedMoving = true)
      ∧ t.prov.proof = none ∧ t.prov.tried = []
      ∧ Frame [.odometry, .window, .authority, .doors] (.rollback :: .authorityOverrun :: .doorUnlockedMoving :: overspeeds)
          [.doorUnlockedMoving, .overspeedService] s t

/-- A tooth against the selected direction, or in NEUTRAL, that leaves the tally at ROLLBACK_LIMIT or above finds ROLLBACK in
the set afterwards, and one that turns the inside flag from true to false finds AUTHORITY_OVERRUN there; each with the position
and speed after the event, and every brake on (R15, R43, R44). -/
def Obligations.TeethRaiseRollbackAndOverrun : Prop :=
  ∀ (s : State) (a b : Bool) (d : Vertical), s.Sound → s.CompletesTooth a b d →
    ∃ t, exec (.phaseChange a b) s = .next t
      ∧ (s.odo.direction.travel ≠ some d → s.cfg.rollbackLimit ≤ min 255 (s.odo.rollback + 1) →
          t.set.has .rollback = true ∧ t.FullBrake
            ∧ (s.set.has .rollback = false →
                ∃ e ∈ t.set.entries, e.cause = .rollback ∧ e.capture.position = t.odo.p ∧ e.capture.speed = t.odo.v
                  ∧ e.time = s.partTime))
      ∧ (s.auth.inside = true → t.auth.inside = false →
          t.set.has .authorityOverrun = true ∧ t.FullBrake
            ∧ (s.set.has .authorityOverrun = false →
                ∃ e ∈ t.set.entries, e.cause = .authorityOverrun ∧ e.capture.position = t.odo.p
                  ∧ e.capture.speed = t.odo.v ∧ e.time = s.partTime))

/-- A marker pulse is taken for the nearest candidate within u + 2 teeth, of two at one distance the lower in DOWN and the
higher otherwise; it sets p, u and the slip tally, recomputes the inside flag and never raises an overrun (R7, R8). -/
def Obligations.MarkersCorrectThePosition : Prop :=
  ∀ (s : State) (m : Nat), m ∈ s.win.markers → gap m s.odo.p ≤ s.odo.u + 2 →
    (∀ n ∈ s.win.markers, n ≠ m → gap n s.odo.p ≤ s.odo.u + 2 →
      gap m s.odo.p < gap n s.odo.p
        ∨ gap m s.odo.p = gap n s.odo.p ∧ (s.odo.direction = .down → m < n) ∧ (s.odo.direction ≠ .down → n < m)) →
    ∃ t, exec .markerPulse s = .next t ∧ t.odo = { s.odo with p := m, u := 0, slip := 0, v := t.odo.v } ∧ t.odo.v ≤ s.odo.v
      ∧ t.Counted ∧ t.Flagged ∧ Frame [.odometry, .window, .authority] overspeeds [.overspeedService] s t

/-- A marker pulse with no candidate changes no odometry state and gives one MARKER_UNKNOWN record, which joins the queue, at a
full queue in the place of the unsent POSITION record, or is counted lost; none is made in LISTEN_ONLY (R9, R167). -/
def Obligations.StrayMarkersAreReported : Prop :=
  ∀ s : State, (∀ m ∈ s.win.markers, s.odo.u + 2 < gap m s.odo.p) →
    let record : Report := { time := s.recordTime, body := .markerUnknown s.odo.p s.odo.u }
    (s.cfg.listenOnly = true → exec .markerPulse s = .next s)
    ∧ (s.cfg.listenOnly = false →
        (s.radio.queue.length < 32 →
          exec .markerPulse s = .next (s.withRadio { s.radio with queue := s.radio.queue ++ [record] }))
        ∧ (32 ≤ s.radio.queue.length →
          (∀ before r after, s.radio.queue = before ++ r :: after → s.radio.flying ≤ before.length →
              r.isPosition = true → (∀ y ∈ before.drop s.radio.flying, y.isPosition = false) →
            exec .markerPulse s = .next (s.withRadio { s.radio with queue := before ++ after ++ [record] }))
          ∧ ((∀ y ∈ s.radio.queue.drop s.radio.flying, y.isPosition = false) →
            exec .markerPulse s = .next (s.withRadio { s.radio with lost := min 255 (s.radio.lost + 1) }))))

/-- The standstill timer's expiry sets v to 0 and the flag, stops the timer, removes OVERSPEED_SERVICE and, with no door
unlocked, DOOR_UNLOCKED_MOVING, and ends QUIESCING with the spring applied (R12, R71, R85, R189). With the spring applied and no
EMERGENCY-level entry present the first channel that owes a proof and is not on the tried list begins its proof (R123, R124). An
expiry behind the tooth event that has restarted the timer enters no standstill (R13), nor does one of a stopped timer (log 3). -/
def Obligations.StandstillIsEntered : Prop :=
  ∀ s : State, (s.odo.standstillTimer.Resting s.clock 2000000 → exec .standstillTimerExpiry s = .next s)
  ∧ (s.odo.standstillTimer.Elapsing s.clock 2000000 →
    ∃ t, exec .standstillTimerExpiry s = .next t
      ∧ t.odo = { s.odo with v := 0, standstill := true, standstillTimer := none }
      ∧ t.set.has .overspeedService = false
      ∧ (s.doors.anyUnlocked = false → t.set.has .doorUnlockedMoving = false)
      ∧ (s.Sound → s.line.opState = .quiescing → s.comb.springApplied = true → t.line.opState = .config)
      ∧ (s.Sound → s.comb.springApplied = true → (∀ e ∈ s.set.entries, e.cause.level ≠ .emergency) → s.prov.proof = none →
          t.Round s.prov.owed s.prov.tried)
      ∧ Frame [.odometry] overspeeds [.doorUnlockedMoving, .overspeedService] s t)

/-- LOCATE sets p, u and located, clears both tallies, empties the window and asks for the segment it names; the inside flag
is recomputed and no overrun raised (R16, R38, R45). -/
def Obligations.LocateSetsThePosition : Prop :=
  ∀ (s : State) (f : List Byte), s.CanTake .cab → f.length = 6 → field f 0 3 ≤ 1048575 → s.odo.standstill = true →
    ∃ t, exec (.locate .cab f) s = .next t
      ∧ t.odo = { s.odo with p := field f 0 3, u := field f 3 1, located := true, slip := 0, rollback := 0 }
      ∧ t.win = { records := [], endUp := false, endDown := false
                  located := some { number := field f 4 2, position := field f 0 3 }
                  wanted := .byPosition (field f 4 2) (field f 0 3), ahead := 0, behind := 0 }
      ∧ t.Flagged
      ∧ Served s t .cab 0x02#8 (.done (bytesOf 3 (field f 0 3) ++ bytesOf 1 (field f 3 1)))
          [.odometry, .window, .authority] overspeeds [.overspeedService]

/-- DIRECTION takes UP, DOWN or NEUTRAL at standstill: the rollback tally becomes 0, the window is counted anew, and L and P
are 0 in NEUTRAL; the direction already selected changes nothing (R17, R29, R60). -/
def Obligations.DirectionTurnsTheCar : Prop :=
  ∀ (s : State) (f : List Byte) (x : Direction), s.CanTake .cab → f.length = 1 → field f 0 1 = directionCode x →
    s.odo.standstill = true →
    ∃ t, exec (.direction .cab f) s = .next t
      ∧ (s.odo.direction = x → AnsweredOnly s t .cab 0x03#8 (.done (bytesOf 1 (directionCode x))))
      ∧ (s.odo.direction ≠ x →
          t.odo = { s.odo with direction := x, rollback := 0 } ∧ t.Counted
            ∧ (x = .neutral → t.sup.staticLimit = 0 ∧ t.sup.permitted = 0)
            ∧ Served s t .cab 0x03#8 (.done (bytesOf 1 (directionCode x))) [.odometry, .window] overspeeds [.overspeedService])

/-! ### The window -/

/-- The ahead and behind counts are kept those of the footprint by every command (R23, R25), and the wanted request the one that
R24 derives from them: by position with an empty window, else case 2 at the trailing edge, else case 3 at the travel edge, by
number under 32 records and pinned at 32 (R24, R27). -/
def Obligations.CountsFollowTheFootprint : Prop :=
  (∀ (i : Instr) (s t : State), s.Counted → exec i s = .next t → t.Counted)
    ∧ ∀ (i : Instr) (s t : State), s.Sound → s.Ordered → s.Counted → s.Asked → exec i s = .next t → t.Asked

/-- SEGMENT in answer to the wanted request, every field in range and its marker 20 teeth from every other: the record joins
the window at the request's edge with its barred flags; only behind records beyond BEHIND_HIGH, and of 32 the one that makes
room, leave at the trailing edge (R20, R26, R27, R28, R30, R31). The response carries the flags and the number of records, a
byte each: DEDUCED (log 12). -/
def Obligations.DeliveredSegmentsJoinTheWindow : Prop :=
  ∀ (s : State) (f : List Byte) (g : Segment), s.CanTake .cab → f.length = 19 → Delivers f g → s.Wants g →
    (∀ o ∈ g.marker, ∀ m ∈ s.win.markers, 20 ≤ gap (g.start + o) m) →
    let h : Segment :=
      { g with barredUp := g.isBarred s.prov.capability .up, barredDown := g.isBarred s.prov.capability .down }
    let joined :=
      match s.win.wanted with
      | .byNumber _ .up => s.win.records ++ [h]
      | .byNumber _ .down => h :: s.win.records
      | _ => [h]
    ∃ t, exec (.segment .cab f) s = .next t
      ∧ s.Retains joined s.win.endUp s.win.endDown t.win ∧ t.win.located = s.win.located ∧ t.Counted
      ∧ Served s t .cab 0x04#8
          (.done ([byteOf (bit h.barredUp), byteOf (bit h.barredDown), byteOf t.win.records.length])) [.window] overspeeds
          [.overspeedService]

/-- The 19 bytes of a record that READ_WINDOW returns are a SEGMENT that delivers the same record (R20, R37, 11.3). -/
def Obligations.RecordsReadAsTheyAreDelivered : Prop :=
  ∀ g : Segment, g.number ≤ 65535 → 10 ≤ g.length → g.length ≤ 4095 → g.start + g.length ≤ 1048576 → -500 ≤ g.gradient →
    g.gradient ≤ 500 → g.limitUp ≤ 20000 → g.limitDown ≤ 20000 → (∀ x ∈ g.platform, 1 ≤ x.id ∧ x.id ≤ 255) →
    (∀ o ∈ g.marker, o < g.length) → g.bytes.length = 19 ∧ Delivers g.bytes g

/-- END_OF_LINE in answer to a by-number request sets the end-flag of its edge, and the window recomputes: the records that leave
are those of R26 and R27, and one that leaves at the edge clears the flag again (R28). While the flag is set nothing is asked
for at that edge (R24, R32). -/
def Obligations.EndOfLineClosesTheEdge : Prop :=
  ∀ (s : State) (f : List Byte) (n : Nat) (e : Vertical), s.CanTake .cab → f.length = 3 → s.win.wanted = .byNumber n e →
    field f 0 2 = n → field f 2 1 = verticalCode e →
    ∃ t, exec (.endOfLine .cab f) s = .next t
      ∧ s.Retains s.win.records (s.win.endUp || decide (e = .up)) (s.win.endDown || decide (e = .down)) t.win
      ∧ (t.win.endFlag e = true → ∀ m, t.win.wanted ≠ .byNumber m e ∧ t.win.wanted ≠ .pinned m e)
      ∧ t.win.located = s.win.located ∧ t.Counted ∧ Served s t .cab 0x05#8 (.done []) [.window] overspeeds [.overspeedService]

/-! ### Authority and restrictions -/

/-- An AUTHORITY frame to the car's own address replaces both ranges and the id, recomputes the inside flag, raises no overrun
and queues AUTHORITY_TAKEN; one with a position above 1,048,575 is heard by link supervision and otherwise discarded whole
(R46, R47). -/
def Obligations.AuthorityIsTaken : Prop :=
  ∀ (s : State) (f : List Byte), f.length = 13 →
    ((∀ o ∈ [1, 4, 7, 10], field f o 3 ≤ 1048575) →
      ∃ t, exec (.authority s.cfg.carAddress f) s = .next t
        ∧ t.auth.a = { low := field f 1 3, high := field f 4 3 } ∧ t.auth.b = { low := field f 7 3, high := field f 10 3 }
        ∧ t.auth.id = field f 0 1 ∧ t.auth.restrictions = s.auth.restrictions ∧ t.Flagged ∧ t.Fresh
        ∧ (s.radio.link = .up → s.cfg.listenOnly = false → s.radio.queue.length < 32 →
            { time := s.recordTime, body := .authorityTaken (field f 0 1) t.auth.inside } ∈ t.radio.queue)
        ∧ t.radio.link = .up ∧ t.radio.timer = some (s.clock + s.cfg.radioTimeout * 1000)
        ∧ Frame [.radio, .authority] overspeeds [.overspeedService] s t)
    ∧ ((∃ o ∈ [1, 4, 7, 10], 1048575 < field f o 3) →
      exec (.authority s.cfg.carAddress f) s = .next s.linkedAt)

/-- RESTRICTION_SET replaces the entry of its id in place, or appends a new entry while fewer than 8 are held, its speed clamped
to 20,000; otherwise it is refused: the table stays and RESTRICTION_REFUSED is queued (R49, R50, R51). With the link not UP the
refusal's record stands behind any record of the evaluation on the link notice: that order is the model's choice (log 6). -/
def Obligations.RestrictionsAreLaid : Prop :=
  ∀ (s : State) (dest : BitVec 16) (f : List Byte), f.length = 10 →
    (dest ^^^ s.cfg.carAddress) &&& s.cfg.groupMask = 0#16 →
      (∀ x : Applies, field f 0 1 ≠ 0 → field f 1 3 ≤ 1048575 → field f 4 3 ≤ 1048575 → field f 9 1 = x.code →
        let r : Restriction :=
          { id := field f 0 1, low := field f 1 3, high := field f 4 3, speed := min 20000 (field f 7 2), direction := x }
        ((∃ y ∈ s.auth.restrictions, y.id = r.id) →
          ∃ t, exec (.restrictionSet dest f) s = .next t
            ∧ t.auth = { s.auth with restrictions := s.auth.restrictions.map (fun y => if y.id = r.id then r else y) }
            ∧ t.Fresh ∧ Frame [.radio, .authority] overspeeds [.overspeedService] s t)
        ∧ ((∀ y ∈ s.auth.restrictions, y.id ≠ r.id) → s.auth.restrictions.length < 8 →
          ∃ t, exec (.restrictionSet dest f) s = .next t
            ∧ t.auth = { s.auth with restrictions := s.auth.restrictions ++ [r] }
            ∧ t.Fresh ∧ Frame [.radio, .authority] overspeeds [.overspeedService] s t)
        ∧ ((∀ y ∈ s.auth.restrictions, y.id ≠ r.id) → 8 ≤ s.auth.restrictions.length →
          exec (.restrictionSet dest f) s = .next (s.linkedAt.report (.restrictionRefused (field f 0 1)))))
      ∧ (field f 0 1 = 0 ∨ 1048575 < field f 1 3 ∨ 1048575 < field f 4 3 ∨ (∀ x : Applies, field f 9 1 ≠ x.code) →
          exec (.restrictionSet dest f) s = .next (s.linkedAt.report (.restrictionRefused (field f 0 1))))

/-- RESTRICTION_CLEAR removes every entry for id 0 and the entry of its id otherwise; one that removes nothing has no further
effect (R52). -/
def Obligations.RestrictionsAreLifted : Prop :=
  ∀ (s : State) (dest : BitVec 16) (f : List Byte), f.length = 1 →
    (dest ^^^ s.cfg.carAddress) &&& s.cfg.groupMask = 0#16 →
      (∃ t, exec (.restrictionClear dest f) s = .next t
        ∧ t.auth = { s.auth with
            restrictions := s.auth.restrictions.filter (fun r => field f 0 1 != 0 && r.id != field f 0 1) }
        ∧ (t.auth ≠ s.auth → t.Fresh) ∧ Frame [.radio, .authority] overspeeds [.overspeedService] s t)
      ∧ ((∀ r ∈ s.auth.restrictions, field f 0 1 ≠ 0 ∧ r.id ≠ field f 0 1) →
          exec (.restrictionClear dest f) s = .next s.linkedAt)

/-- A RELEASE to the car's own address that names AUTHORITY_OVERRUN, with the entry present and at standstill, removes that
entry, leaves the ranges and the flag and queues INTERVENTION_CLEARED; every other RELEASE has no further effect (R90). -/
def Obligations.ReleaseLiftsTheOverrun : Prop :=
  ∀ (s : State) (dest : BitVec 16) (f : List Byte), f.length = 1 →
    (dest = s.cfg.carAddress → field f 0 1 = 3 → s.odo.standstill = true → s.set.has .authorityOverrun = true →
      ∃ t, exec (.release dest f) s = .next t ∧ t.set.has .authorityOverrun = false
        ∧ (s.cfg.listenOnly = false → s.linkedAt.radio.queue.length < 32 →
            { time := s.recordTime, body := .cleared .authorityOverrun } ∈ t.radio.queue)
        ∧ Frame [.radio] overspeeds [.authorityOverrun, .overspeedService] s t)
      ∧ (dest ≠ s.cfg.carAddress ∨ field f 0 1 ≠ 3 ∨ s.odo.standstill = false ∨ s.set.has .authorityOverrun = false →
          exec (.release dest f) s = .next s.linkedAt)

/-! ### The supervisor -/

/-- At the expiry of the evaluation timer v decays as the time since the last tooth asks, the figures are those of the state,
the overspeed causes are raised and removed by them, and the state and the permit follow; the timer restarts for 100 ms
(R11, R58, R59, R60 to R73). At the moment of the restart, or with the timer stopped, no expiry comes (log 3). -/
def Obligations.EvaluationsFollowTheLine : Prop :=
  ∀ s : State, (s.sup.timer.Resting s.clock 100000 → exec .evaluationTimerExpiry s = .next s)
  ∧ (s.Sound → s.sup.timer.Elapsing s.clock 100000 →
    ∃ t, exec .evaluationTimerExpiry s = .next t ∧ t.sup.timer = some (s.clock + 100000) ∧ t.Fresh
      ∧ (s.odo.standstill = true ∨ s.odo.lastToothAt = none ∨ s.odo.lastInterval = none → t.odo = s.odo)
      ∧ (∀ m i, s.odo.standstill = false → s.odo.lastToothAt = some m → s.odo.lastInterval = some i →
          t.odo = { s.odo with
            v := if i < min (s.clock - m) 4194303 then min s.odo.v (100000000 / min (s.clock - m) 4194303) else s.odo.v })
      ∧ (t.sup.permitted + t.sup.permitted / 16 + 150 < t.odo.v → t.set.has .overspeedService = true)
      ∧ (t.sup.permitted + t.sup.permitted / 8 + 400 < t.odo.v → t.set.has .overspeedEmergency = true ∧ t.FullBrake)
      ∧ (t.odo.v + t.sup.permitted / 16 ≤ t.sup.permitted ∨ t.odo.standstill = true → t.set.has .overspeedService = false)
      ∧ t.sup.state = (if t.set.has .overspeedService || t.set.has .overspeedEmergency then .intervening
          else if t.sup.permitted < t.odo.v then .warning else .normal)
      ∧ (t.sup.permit = true ↔ t.line.opState = .run ∧ t.odo.located = true ∧ t.odo.direction ≠ .neutral
          ∧ t.set.entries = [] ∧ (∀ d, (t.doorAt d).state = .locked ∨ (t.doorAt d).state = .isolated)
          ∧ t.comb.springApplied = false ∧ t.sup.state ≠ .intervening)
      ∧ Frame [.evaluationTimer] overspeeds [.overspeedService] s t)

/-- The curve speed of a target is the square root, rounded down, of S = vt² + 2 × a_eff × d_eff, 20,000 from S = 400,000,000
on, and vt itself where d_eff is not above 0; no curve of a target taken lies below P (R67). d runs from the front to the target
(R63); a_eff is the least a_seg of the records crossed, or that of the record that contains the front where none is (R64, R65);
the reaction distance is v × t_r / 1,000 rounded up, by the kind of the record that contains the front (R66). -/
def Obligations.CurvesTakeTheExactRoot : Prop :=
  ∀ (s : State) (t : Vertical) (x : Target),
    let dEff : Int := s.distance t x.position * 100 - (s.reactionDistance t : Int)
    let sq := x.speed * x.speed + (if dEff ≤ 0 then 0 else 2 * s.effectiveDeceleration t x.position * dEff.toNat)
    (400000000 ≤ sq → s.curve t x = 20000)
      ∧ (sq < 400000000 → s.curve t x * s.curve t x ≤ sq ∧ sq < (s.curve t x + 1) * (s.curve t x + 1))
      ∧ (dEff ≤ 0 → x.speed ≤ 20000 → s.curve t x = x.speed)
      ∧ (s.odo.direction.travel = some t → x ∈ s.targets t → s.newPermitted ≤ s.curve t x)
      ∧ s.distance t x.position = (match t with | .up => x.position - s.frontAt .up | .down => s.frontAt .down - x.position)
      ∧ ((∃ g, s.Crosses t x.position g) →
          Least (fun n => ∃ g, s.Crosses t x.position g ∧ n = s.braking t g) (s.effectiveDeceleration t x.position))
      ∧ (∀ g, s.FrontIn t g →
          ((∀ h, ¬s.Crosses t x.position h) → s.effectiveDeceleration t x.position = s.braking t g)
            ∧ s.odo.v * s.cfg.react.get g.kind ≤ 1000 * s.reactionDistance t
            ∧ 1000 * s.reactionDistance t < s.odo.v * s.cfg.react.get g.kind + 1000)

/-! ### Interventions -/

/-- The loop input that opens raises EMERGENCY_LOOP with the set's own capture, puts every brake on, queues the record, and
abandons a proof in progress with the tried list emptied (R123, R128); one that opens with the entry already present changes its
level alone (R79, R80, R82, R83). That one that is open already changes nothing is the model's (log 15). -/
def Obligations.OpenLoopRaisesTheEmergency : Prop :=
  ∀ s : State, s.Sound →
    (s.set.loopOpen = true → exec .loopOpens s = .next s)
      ∧ (s.set.loopOpen = false → s.set.has .emergencyLoop = true →
          exec .loopOpens s = .next (s.withSet { s.set with loopOpen := true }))
      ∧ (s.set.loopOpen = false → s.set.has .emergencyLoop = false →
          ∃ t, exec .loopOpens s = .next t ∧ t.set.loopOpen = true ∧ t.FullBrake ∧ t.prov.proof = none
            ∧ (s.prov.proof ≠ none → t.prov.tried = [])
            ∧ { cause := .emergencyLoop, capture := { position := s.odo.p, speed := s.odo.v, permitted := s.sup.permitted }
                time := s.partTime, heard := false } ∈ t.set.entries
            ∧ (s.cfg.listenOnly = false → s.radio.queue.length < 32 →
                { time := s.recordTime
                  body := .raised .emergencyLoop
                    { position := s.odo.p, speed := s.odo.v, permitted := s.sup.permitted } } ∈ t.radio.queue)
            ∧ Frame [.loop] (.emergencyLoop :: overspeeds) [.overspeedService] s t)

/-- A loop that closes, a button that is let go and a fully-open switch that breaks change the level of their input and nothing
else (R83, R134, R140). -/
def Obligations.ReleasedInputsKeepTheirLevel : Prop :=
  ∀ (s : State) (d : Door),
    exec .loopCloses s = .next (s.withSet { s.set with loopOpen := false })
      ∧ exec (.buttonRelease d) s
          = .next (s.withDoor d { s.doorAt d with pins := { (s.doorAt d).pins with pressed := false } })
      ∧ exec (.openSwitchBreaks d) s
          = .next (s.withDoor d { s.doorAt d with pins := { (s.doorAt d).pins with openMade := false } })

/-- Which entries an ACK_INTERVENTION removes, the mark of CAB_SILENT as it stood before the request (R84, R86, R89). In the state
`u` in which its own step ends no cause has been raised, and the response carries the entries of `u`; the overspeeds that an
evaluation of the step found join behind them only then, and are in no response until the next (R87, R91; that they join right after
the response is the model's inference, log 33). A removal after which the car may prove begins the round (R123, R124). -/
def Obligations.AcknowledgementClearsWhatIsPutRight : Prop :=
  ∀ s : State, s.Sound → s.CanTake .cab →
    ∃ u t : State, exec (.ackIntervention .cab []) s = .next t
      ∧ u.set.entries.Sublist (s.heardAt .cab).set.entries
      ∧ (u.set.entries.length < s.set.entries.length → u.Fresh)
      ∧ (s.line.port .cab).Given (t.line.port .cab) .cab s.clock
          (frameOf (u.responseBody 0x08#8 (.done (u.set.entries.flatMap Entry.bytes))))
      ∧ (let joins := fun (c : Cause) (limit : Nat) =>
          if u.set.entries.length < s.set.entries.length ∧ limit < u.odo.v ∧ u.set.has c = false then
            [{ cause := c, capture := { position := u.odo.p, speed := u.odo.v, permitted := u.sup.permitted }
               time := u.partTime, heard := false : Entry }]
          else []
        t.set.entries = u.set.entries ++ joins .overspeedService u.sup.serviceSpeed
          ++ joins .overspeedEmergency u.sup.emergencySpeed)
      ∧ (t.set.entries = u.set.entries → t = u.withPort .cab (t.line.port .cab))
      ∧ (t.set.has .overspeedEmergency = true → t.FullBrake)
      ∧ (s.odo.standstill = true →
          t.set.entries = (s.set.entries.filter (fun e =>
            match e.cause with
            | .authorityOverrun => true
            | .cabSilent => !e.heard
            | .emergencyLoop => s.set.loopOpen
            | .doorUnlockedMoving => s.doors.anyUnlocked
            | _ => false)).map (fun e => if e.cause = .cabSilent then { e with heard := true } else e))
      ∧ (s.odo.standstill = true → s.prov.proof = none → t.comb.springApplied = true →
          (∀ e ∈ t.set.entries, e.cause.level ≠ .emergency) → t.set.entries.length < s.set.entries.length →
          t.Round s.prov.owed s.prov.tried)
      ∧ (s.odo.standstill = false →
          (∀ e ∈ s.set.entries, e.cause ≠ .overspeedService → e.cause ≠ .cabSilent → e ∈ t.set.entries)
            ∧ (∀ e ∈ s.set.entries, e.cause = .cabSilent →
                (e.heard = true → t.set.has .cabSilent = false)
                  ∧ (e.heard = false → { e with heard := true } ∈ t.set.entries)))
      ∧ Frame [.cabPort] overspeeds
          [.overspeedService, .overspeedEmergency, .rollback, .doorUnlockedMoving, .cabSilent, .emergencyLoop, .brakeFeedback]
          (s.heardAt .cab) t

/-- The cab timer's expiry stops it and raises CAB_SILENT, with a clear heard mark, which asks for a demand of 100 (R88, R97,
R193). An expiry behind the request that has restarted the timer raises nothing (R193), nor does one of a stopped timer (log 3). -/
def Obligations.CabSilenceBrakesTheCar : Prop :=
  ∀ s : State, (s.line.cabTimer.Resting s.clock (s.cfg.cabTimeout * 1000) → exec .cabTimerExpiry s = .next s)
  ∧ (s.Sound → s.line.cabTimer.Elapsing s.clock (s.cfg.cabTimeout * 1000) →
    ∃ t, exec .cabTimerExpiry s = .next t ∧ t.line.cabTimer = none ∧ t.set.has .cabSilent = true
      ∧ (s.set.has .cabSilent = false →
          t.comb.service = 100
            ∧ { cause := .cabSilent, capture := { position := s.odo.p, speed := s.odo.v, permitted := s.sup.permitted }
                time := s.partTime, heard := false } ∈ t.set.entries)
      ∧ Frame [.cabTimer] (.cabSilent :: overspeeds) [.overspeedService] s t)

/-! ### Brakes -/

/-- While an EMERGENCY-level intervention is present after a step, every channel's demand is 100, the spring is applied and the
loop-break output is open; the output is closed while none is (R82). -/
def Obligations.EmergenciesPutEveryBrakeOn : Prop :=
  ∀ s t : State, s.Sound → step s = .next t →
    (t.set.breakOpen = true ↔ ∃ e ∈ t.set.entries, e.cause.level = .emergency)
      ∧ ((∃ e ∈ t.set.entries, e.cause.level = .emergency) →
          (∀ c, t.comb.demand.get c = 100) ∧ t.comb.springApplied = true ∧ t.set.breakOpen = true)

/-- DRIVER_BRAKE sets the driver demand, clamped to 100, and every channel's demand is then that of R97, R98 and R100 (R102), its
drive value that of R101, carried by its valve (R99, R106, R109). The response's byte for the spring is 1 for released: DEDUCED
(log 12). -/
def Obligations.DriverBrakeSetsTheDemand : Prop :=
  ∀ (s : State) (f : List Byte), s.CanTake .cab → f.length = 1 →
    ∃ t, exec (.driverBrake .cab f) s = .next t ∧ t.comb.driver = min 100 (field f 0 1) ∧ t.Blended
      ∧ (s.Sound → t.DriveLaw ∧ t.ValveLaw)
      ∧ Served s t .cab 0x09#8
          (.done ([byteOf t.comb.driver, byteOf t.comb.park.code, byteOf (bit (!t.comb.springApplied))]
            ++ channels.map (fun c => byteOf (t.comb.demand.get c)))) [.driver] overspeeds [.overspeedService]

/-- PARK takes APPLY in every state and RELEASE outside CONFIG; the spring is then released exactly outside CONFIG, with the
setting at RELEASE and no EMERGENCY-level entry present (R103, R104). A spring released abandons a proof and empties the tried list;
one applied to a car that may prove begins the round (R123, R124, R128). The response's byte for the spring is 1 for released:
DEDUCED (log 12). -/
def Obligations.ParkWorksTheSpring : Prop :=
  ∀ (s : State) (f : List Byte) (x : ParkSetting), s.CanTake .cab → f.length = 1 → field f 0 1 = x.code →
    (x = .release → s.line.opState ≠ .config) →
    ∃ t, exec (.park .cab f) s = .next t
      ∧ (t.comb.park = x ∨ s.line.opState = .quiescing ∧ t.line.opState = .config)
      ∧ (t.comb.springApplied = false ↔
          t.line.opState ≠ .config ∧ t.comb.park = .release ∧ ∀ e ∈ t.set.entries, e.cause.level ≠ .emergency)
      ∧ (s.Sound → s.comb.springApplied = true → t.comb.springApplied = false → t.prov.proof = none ∧ t.prov.tried = [])
      ∧ (s.Sound → s.comb.springApplied = false → x = .apply → s.odo.standstill = true → s.prov.proof = none →
          t.Round s.prov.owed s.prov.tried)
      ∧ Served s t .cab 0x0A#8
          (.done ([byteOf t.comb.driver, byteOf t.comb.park.code, byteOf (bit (!t.comb.springApplied))]
            ++ channels.map (fun c => byteOf (t.comb.demand.get c)))) [.park] overspeeds [.overspeedService]

/-- At the end of a running output's period the next begins with the configured period, its active and pending on-time both the
pending duty's, and the pending sense becomes the active one; a duty of 0 then keeps the output off and a duty of 100 keeps it on, at
every moment up to the next period's start and at that moment itself; with GANG_RACK on and no proof in progress V2 takes V1's (R106,
R108, R109). That the end of an output that does not run changes nothing is the model's choice (log 3). -/
def Obligations.PeriodsTakeThePendingDuty : Prop :=
  ∀ (s : State) (duty : Nat),
    let next := fun (o : Output) (period : Nat) =>
      { o with period := period, boundary := some (s.clock + period), activeOn := duty * period / 100
               pendingOn := duty * period / 100, activeSense := o.pendingSense }
    (∀ d, (s.drive.motor.get d).boundary.isSome = true → (s.drive.motor.get d).pendingDuty = some duty →
      exec (.periodEnd (.motor d)) s
        = .next (s.withDrive { s.drive with motor := s.drive.motor.put d (next (s.drive.motor.get d) s.cfg.motorPeriod) }))
    ∧ (∀ c, (s.drive.valve.get c).boundary.isSome = true → (s.drive.valve.get c).pendingDuty = some duty →
        (c = .rb1 → s.cfg.gangRack = false ∨ s.prov.proof ≠ none) → (c = .rb2 → s.drive.ganged = false) →
      exec (.periodEnd (.valve c)) s
        = .next (s.withDrive { s.drive with valve := s.drive.valve.put c (next (s.drive.valve.get c) s.cfg.valvePeriod) }))
    ∧ (s.drive.valve.rb1.boundary.isSome = true → s.drive.valve.rb1.pendingDuty = some duty → s.cfg.gangRack = true →
        s.prov.proof = none →
      exec (.periodEnd (.valve .rb1)) s
        = .next (s.withDrive
            { s.drive with
              valve :=
                { s.drive.valve with
                  rb1 := next s.drive.valve.rb1 s.cfg.valvePeriod, rb2 := next s.drive.valve.rb1 s.cfg.valvePeriod }
              ganged := true }))
    ∧ (∀ d, (s.drive.motor.get d).boundary = none → exec (.periodEnd (.motor d)) s = .next s)
    ∧ (∀ o period, 0 < period →
        (duty = 0 → ∀ now, (next o period).isOn now = false) ∧ (duty = 100 → ∀ now, (next o period).isOn now = true))

/-! ### Scans and proofs -/

/-- The scan timer's expiry starts a read of the converters and restarts the timer for 10 ms; the position timer's expiry
restarts it and makes a POSITION record of a located car, over the unsent one in its place, or at the end, or not at all at a
full queue (R110, R168, R169). At the moment of the restart, or with the timer stopped, no expiry comes (log 3). -/
def Obligations.TimersRunOn : Prop :=
  ∀ s : State,
    (s.scan.timer.Resting s.clock 10000 → exec .scanTimerExpiry s = .next s)
    ∧ (s.radio.positionTimer.Resting s.clock (s.cfg.positionInterval * 1000) → exec .positionTimerExpiry s = .next s)
    ∧ (s.scan.timer.Elapsing s.clock 10000 →
      exec .scanTimerExpiry s
        = .next (s.withScan { s.scan with timer := some (s.clock + 10000), reading := true }))
    ∧ (s.radio.positionTimer.Elapsing s.clock (s.cfg.positionInterval * 1000) →
        let now := some (s.clock + s.cfg.positionInterval * 1000)
        let record : Report :=
          { time := s.recordTime
            body := .position s.odo.p s.odo.u s.odo.v s.sup.permitted s.odo.direction s.odo.standstill s.odo.located }
        (s.odo.located = false ∨ s.cfg.listenOnly = true →
          exec .positionTimerExpiry s = .next (s.withRadio { s.radio with positionTimer := now }))
        ∧ (s.odo.located = true → s.cfg.listenOnly = false →
            (∀ before r after, s.radio.queue = before ++ r :: after → s.radio.flying ≤ before.length →
                r.isPosition = true → (∀ y ∈ before.drop s.radio.flying ++ after, y.isPosition = false) →
              exec .positionTimerExpiry s
                = .next (s.withRadio { s.radio with positionTimer := now, queue := before ++ record :: after }))
            ∧ ((∀ r ∈ s.radio.queue.drop s.radio.flying, r.isPosition = false) → s.radio.queue.length < 32 →
              exec .positionTimerExpiry s
                = .next (s.withRadio { s.radio with positionTimer := now, queue := s.radio.queue ++ [record] }))
            ∧ ((∀ r ∈ s.radio.queue.drop s.radio.flying, r.isPosition = false) → 32 ≤ s.radio.queue.length →
              exec .positionTimerExpiry s = .next (s.withRadio { s.radio with positionTimer := now }))))

/-- A completed scan gives every sample its new value together, a no-data word leaving it and a reading clamped to 1,000 kPa or
4,000 mA; the combiner recomputes, and a proof's step sample is taken (R99, R110, R125). A demand that it changes restarts the
channel's settling and clears its deviation start (R99, R113). A scan that fails no channel and finds no obstruction keeps the
records of R113 and R145 by the rows of their tables, writes each moving door its fresh duty and limit (R144), and changes nothing
else. -/
def Obligations.ScansTakeTheSamples : Prop :=
  ∀ (s : State) (w : ScanWords),
    ∃ t, exec (.scanComplete w) s = .next t ∧ t.scan.timer = s.scan.timer ∧ t.scan.reading = false
      ∧ (∀ c, (w.pressure.get c = 0xFFFF#16 → t.scan.pressure.get c = s.scan.pressure.get c)
          ∧ (w.pressure.get c ≠ 0xFFFF#16 → t.scan.pressure.get c = min 1000 (w.pressure.get c).toNat))
      ∧ (∀ d, (w.current.get d = 0xFFFF#16 → t.scan.current.get d = s.scan.current.get d)
          ∧ (w.current.get d ≠ 0xFFFF#16 → t.scan.current.get d = min 4000 (w.current.get d).toNat))
      ∧ t.Blended ∧ (s.Sound → t.DriveLaw ∧ t.ValveLaw)
      ∧ (∀ x, t.prov.proof = some x → x.sample = t.scan.pressure.get x.channel)
      ∧ (∀ c, t.comb.demand.get c ≠ s.comb.demand.get c →
          t.comb.feedback.get c = { lastChange := s.clock, deviationStart := none })
      ∧ Frame [.scan, .ratings, .window, .doors, .motors] (.brakeFeedback :: .doorUnlockedMoving :: overspeeds)
          [.doorUnlockedMoving, .overspeedService] s t
      ∧ (s.Sound → s.Blended →
          (∀ c m, s.Watches c → s.Strays w c → (s.comb.feedback.get c).deviationStart = some m → s.clock < m + 200000) →
          (∀ d m, (s.doorAt d).state = .closing → s.Blocks w d → (s.doorAt d).obstruction = some m → s.clock < m + 150000) →
          (∀ c, (s.Watches c → ¬s.Strays w c →
                t.comb.feedback.get c = { s.comb.feedback.get c with deviationStart := none })
              ∧ (s.Watches c → s.Strays w c → (s.comb.feedback.get c).deviationStart = none →
                t.comb.feedback.get c = { s.comb.feedback.get c with deviationStart := some s.clock })
              ∧ (∀ m, s.Watches c → s.Strays w c → (s.comb.feedback.get c).deviationStart = some m →
                t.comb.feedback.get c = s.comb.feedback.get c)
              ∧ (¬s.Watches c → t.comb.feedback.get c = s.comb.feedback.get c))
          ∧ (∀ d, (s.doorAt d).state = .opening →
              t.doorAt d = { s.doorAt d with limit := s.limitOnSlope d (s.cfg.openDir.get d) }
                ∧ t.Drives d (s.dutyOnSlope d (s.cfg.openDir.get d)) .open)
          ∧ (∀ d, (s.doorAt d).state = .closing →
              (let limit := s.limitOnSlope d (s.cfg.openDir.get d).opposite
               (¬s.Blocks w d → t.doorAt d = { s.doorAt d with limit := limit, obstruction := none })
                ∧ (s.Blocks w d → (s.doorAt d).obstruction = none →
                    t.doorAt d = { s.doorAt d with limit := limit, obstruction := some s.clock })
                ∧ ∀ m, s.Blocks w d → (s.doorAt d).obstruction = some m → t.doorAt d = { s.doorAt d with limit := limit })
                ∧ t.Drives d (s.dutyOnSlope d (s.cfg.openDir.get d).opposite) .close)
          ∧ (∀ d, (s.doorAt d).state ∉ [.opening, .closing] →
              t.doorAt d = s.doorAt d ∧ t.drive.motor.get d = s.drive.motor.get d)
          ∧ t.doors.releasedLeft = s.doors.releasedLeft ∧ t.doors.releasedRight = s.doors.releasedRight
          ∧ t.doors.hold = s.doors.hold ∧ Frame [.scan, .doors, .motors] [] [] s t)

/-- A channel past its settling time whose pressure stays off its expected pressure by more than FEEDBACK_TOL for 200 ms is
FAILED at the next scan, owes a proof, its deviation start is cleared and BRAKE_FEEDBACK is in the set; a car that may prove begins
the round (R112, R113, R114, R120, R123). -/
def Obligations.FeedbackFailsTheChannel : Prop :=
  ∀ (s : State) (w : ScanWords) (c : Channel) (m : Nat), s.Sound → s.Blended →
    (∀ x, sampleAfter (s.scan.pressure.get x) 1000 (w.pressure.get x)
        ≤ s.comb.demand.get x * s.cfg.fullPressure.get x / 100 + s.cfg.feedbackTol
      ∧ s.comb.demand.get x * s.cfg.fullPressure.get x / 100
        ≤ sampleAfter (s.scan.pressure.get x) 1000 (w.pressure.get x) + s.cfg.feedbackTol ↔ x ≠ c) →
    s.prov.health.get c ≠ .failed → (∀ x, s.prov.proof = some x → x.channel ≠ c) →
    (s.comb.feedback.get c).lastChange + 400000 ≤ s.clock → (s.comb.feedback.get c).deviationStart = some m →
    m + 200000 ≤ s.clock →
    ∃ t, exec (.scanComplete w) s = .next t ∧ t.prov.health = s.prov.health.put c .failed
      ∧ t.prov.owed = s.prov.owed.put c (max 1 (s.prov.owed.get c)) ∧ t.set.has .brakeFeedback = true
      ∧ (t.comb.feedback.get c).deviationStart = none ∧ (s.MayProve → t.Round t.prov.owed s.prov.tried)

/-- The proof timer's expiry adds one to every owed count, up to 15, lowers every HEALTHY channel that then owes OWED_DEGRADE
or more to DEGRADED, restarts the timer, empties the tried list, and at standstill with the spring applied begins a proof of RB1,
the first that then owes one; a proof in progress runs on, and elsewhere none begins (R118, R123, R124). At the moment of the
restart, or with the timer stopped, no expiry comes (log 3). -/
def Obligations.ProofPeriodsAddToWhatIsOwed : Prop :=
  ∀ s : State, (s.prov.timer.Resting s.clock (s.cfg.proofPeriod * 1000000) → exec .proofTimerExpiry s = .next s)
  ∧ (s.prov.timer.Elapsing s.clock (s.cfg.proofPeriod * 1000000) →
    ∃ t, exec .proofTimerExpiry s = .next t ∧ t.prov.timer = some (s.clock + s.cfg.proofPeriod * 1000000)
      ∧ (∀ c, t.prov.owed.get c = min 15 (s.prov.owed.get c + 1))
      ∧ (∀ c, t.prov.health.get c =
          if s.prov.health.get c = .healthy ∧ s.cfg.owedDegrade ≤ min 15 (s.prov.owed.get c + 1) then .degraded
          else s.prov.health.get c)
      ∧ (s.Sound → s.odo.standstill = true → s.comb.springApplied = true → s.set.hasLevel .emergency = false →
          s.set.has .overspeedService = false → s.prov.proof = none →
          t.prov.proof = some { channel := .rb1, step := .rise, sample := s.scan.pressure.rb1 } ∧ t.comb.drive.rb1 = 100
            ∧ t.Round t.prov.owed [])
      ∧ (s.Sound → s.Ordered → s.odo.standstill = true → s.set.has .overspeedService = false → s.prov.proof ≠ none →
          t.prov.proof = s.prov.proof ∧ t.prov.dwell = s.prov.dwell ∧ t.prov.tried = [])
      ∧ (s.Sound → s.Ordered →
          s.odo.standstill = false ∨ s.comb.springApplied = false ∨ s.set.hasLevel .emergency = true →
          t.prov.proof = none ∧ t.prov.tried = [])
      ∧ Frame [.ratings, .window, .proofTimer] overspeeds [.overspeedService] s t)

/-- The dwell timer judges the step: a channel that has risen to nine tenths of its full pressure goes on to FALL with its drive
at 0; one that then falls to a tenth passes, owes nothing and is HEALTHY; one that fails its rise or its fall is FAILED and owes
at least one; PROOF_RESULT is queued for each outcome, the channel's feedback settles afresh, and the first channel that owes a proof
and is not on the tried list begins the next (R113, R123 to R127). At the moment at which a step starts the timer, or with the
timer stopped, no expiry comes (log 3). -/
def Obligations.DwellTimersJudgeTheStep : Prop :=
  ∀ (s : State), (s.prov.dwell.Resting s.clock 300000 → exec .dwellTimerExpiry s = .next s)
  ∧ ∀ x : Proof, s.prov.dwell.Elapsing s.clock 300000 → s.prov.proof = some x →
    (x.step = .rise → 9 * s.cfg.fullPressure.get x.channel ≤ 10 * x.sample →
      ∃ t, exec .dwellTimerExpiry s = .next t
        ∧ t.prov = { s.prov with proof := some { x with step := .fall }, dwell := some (s.clock + 300000) }
        ∧ (s.set.hasLevel .emergency = false → t.comb.drive.get x.channel = 0)
        ∧ Frame [] [] [] s t)
    ∧ (∀ o : ProofOutcome,
        (x.step = .rise ∧ 10 * x.sample < 9 * s.cfg.fullPressure.get x.channel ∧ o = .failRise
          ∨ x.step = .fall ∧ 10 * x.sample ≤ s.cfg.fullPressure.get x.channel ∧ o = .pass
          ∨ x.step = .fall ∧ s.cfg.fullPressure.get x.channel < 10 * x.sample ∧ o = .failFall) →
      ∃ t, exec .dwellTimerExpiry s = .next t
        ∧ t.prov.health = s.prov.health.put x.channel (if o = .pass then .healthy else .failed)
        ∧ t.prov.owed = s.prov.owed.put x.channel (if o = .pass then 0 else max 1 (s.prov.owed.get x.channel))
        ∧ (s.cfg.listenOnly = false → s.radio.queue.length < 32 →
            { time := s.recordTime
              body := .proofResult x.channel o (if o = .pass then 0 else max 1 (s.prov.owed.get x.channel)) } ∈ t.radio.queue)
        ∧ t.comb.feedback.get x.channel = { lastChange := s.clock, deviationStart := none }
        ∧ (s.Sound → s.Ordered → t.Round t.prov.owed s.prov.tried)
        ∧ Frame [.ratings, .window] overspeeds [.overspeedService] s t)

/-- PROVE_NOW makes every channel owe at least one proof, lowers HEALTHY channels that then owe OWED_DEGRADE, empties the tried
list, begins a round where a proof can begin, lets a proof in progress run on, and answers with the ratings, the counts and the
proof in progress (R123, R124, R130). -/
def Obligations.ProveNowMakesEveryChannelOwe : Prop :=
  ∀ s : State, s.CanTake .crew →
    ∃ t, exec (.proveNow .crew []) s = .next t
      ∧ (∀ c, t.prov.owed.get c = max 1 (s.prov.owed.get c))
      ∧ (∀ c, t.prov.health.get c =
          if s.prov.health.get c = .healthy ∧ s.cfg.owedDegrade ≤ max 1 (s.prov.owed.get c) then .degraded
          else s.prov.health.get c)
      ∧ (s.Sound → s.MayProve → s.set.has .overspeedService = false → t.Round t.prov.owed [])
      ∧ (s.Sound → s.Ordered → s.set.has .overspeedService = false → ¬s.MayProve →
          t.prov.proof = s.prov.proof ∧ t.prov.dwell = s.prov.dwell ∧ t.prov.tried = [])
      ∧ Served s t .crew 0x26#8 (.done (channels.map t.prov.channelByte ++ [t.prov.proofByte])) [.ratings, .window]
          overspeeds [.overspeedService]

/-- The capability is at all times floor(NOMINAL × quarters / 4) of the ratings, a HEALTHY channel worth 2 quarters, a DEGRADED
one 1, a FAILED one 0, an entry zone the fewer of the two pairs; and a record is barred for a direction exactly where a_cap less
the gravity component against braking there is below 100 (R34, R121). -/
def Obligations.CapabilityFollowsTheRatings : Prop :=
  (∀ (i : Instr) (s t : State), s.Rated → exec i s = .next t → t.Rated)
    ∧ ∀ s : State, s.Rated →
        let q : Channel → Nat := fun c => match s.prov.health.get c with | .healthy => 2 | .degraded => 1 | .failed => 0
        s.prov.capability.rack = s.cfg.nominal.rack * (q .rb1 + q .rb2) / 4
          ∧ s.prov.capability.adhesion = s.cfg.nominal.adhesion * (q .ab1 + q .ab2) / 4
          ∧ s.prov.capability.entry = s.cfg.nominal.entry * min (q .rb1 + q .rb2) (q .ab1 + q .ab2) / 4
          ∧ ∀ g ∈ s.win.records,
              let barred : Int → Prop := fun grade =>
                (s.prov.capability.get g.kind : Int) - ((max 0 grade * 9807 + 999) / 1000) < 100
              (g.barredUp = true ↔ barred (-g.gradient)) ∧ (g.barredDown = true ↔ barred g.gradient)

/-! ### Doors -/

/-- DOOR_RELEASE of a side, located, at standstill and at a platform of that side, adds the side to the released sides and makes
its LOCKED doors RELEASED; every other door stays (R136, R137, R154). The response's bytes for the sides and the doors: DEDUCED
(log 12). -/
def Obligations.DoorReleaseReleasesTheSide : Prop :=
  ∀ (s : State) (f : List Byte) (x : PlatformSide), s.CanTake .crew → f.length = 1 → field f 0 1 = x.code → x ≠ .both →
    s.odo.located = true → s.odo.standstill = true → s.AtPlatform x →
    ∃ t, exec (.doorRelease .crew f) s = .next t
      ∧ t.doors.releasedLeft = (s.doors.releasedLeft || x == .left)
      ∧ t.doors.releasedRight = (s.doors.releasedRight || x == .right)
      ∧ (∀ d, (isLeft d = true ↔ x = .left) → (s.doorAt d).state = .locked →
          t.doorAt d = { s.doorAt d with state := .released, motion := none })
      ∧ (∀ d, ¬((isLeft d = true ↔ x = .left) ∧ (s.doorAt d).state = .locked) → t.doorAt d = s.doorAt d)
      ∧ t.drive.motor = s.drive.motor
      ∧ Served s t .crew 0x21#8 (.done (t.doors.releasedByte :: allDoors.map (fun d => byteOf (t.doorAt d).state.code)))
          [.doors] overspeeds [.doorUnlockedMoving, .overspeedService]

/-- A press of the button of a RELEASED door starts its opening, driven as the slope asks, for at most 6,000 ms, and gives a
DOOR_EVENT; a press in any other state changes the level alone (R135, R138, R143, R144). -/
def Obligations.ButtonsOpenReleasedDoors : Prop :=
  ∀ (s : State) (d : Door), s.Sound →
    ((s.doorAt d).pins.pressed = false → (s.doorAt d).state = .released → (s.doorAt d).pins.openMade = false →
      ∃ t, exec (.buttonPress d) s = .next t
        ∧ t.doorAt d = { s.doorAt d with
            state := .opening, motion := some (s.clock + 6000000), limit := s.limitOnSlope d (s.cfg.openDir.get d)
            pins := { (s.doorAt d).pins with pressed := true } }
        ∧ (∀ e, e ≠ d → t.doorAt e = s.doorAt e) ∧ t.Drives d (s.dutyOnSlope d (s.cfg.openDir.get d)) .open
        ∧ (s.cfg.listenOnly = false → s.radio.queue.length < 32 →
            { time := s.recordTime, body := .doorEvent d .opening (s.doorAt d).closeFailed } ∈ t.radio.queue)
        ∧ (s.odo.standstill = false → t.set.has .doorUnlockedMoving = true)
        ∧ Frame [.doors, .motors] (.doorUnlockedMoving :: overspeeds) [.doorUnlockedMoving, .overspeedService] s t)
      ∧ ((s.doorAt d).pins.pressed = false → (s.doorAt d).state ≠ .released →
          exec (.buttonPress d) s
            = .next (s.withDoor d { s.doorAt d with pins := { (s.doorAt d).pins with pressed := true } }))

/-- DOOR_OPEN_RELEASED starts the opening of every RELEASED door and touches no other (R139). One whose open switch reads made is
OPEN at once, or CLOSING at once under a close order, and then shut at once where its closed switch reads made too (R140, R142).
The response's byte for a door: DEDUCED (log 12). -/
def Obligations.OpenReleasedOpensEveryReleasedDoor : Prop :=
  ∀ s : State, s.Sound → s.CanTake .crew →
    ∃ t, exec (.doorOpenReleased .crew []) s = .next t
      ∧ (∀ d, (s.doorAt d).state = .released → (s.doorAt d).pins.openMade = false →
          (t.doorAt d).state = .opening ∧ (t.doorAt d).motion = some (s.clock + 6000000)
            ∧ t.Drives d (s.dutyOnSlope d (s.cfg.openDir.get d)) .open)
      ∧ (∀ d, (s.doorAt d).state = .released → (s.doorAt d).pins.openMade = true → (s.doorAt d).closeOrdered = false →
          (t.doorAt d).state = .open ∧ (t.doorAt d).motion = none)
      ∧ (∀ d, (s.doorAt d).state = .released → (s.doorAt d).pins.openMade = true → (s.doorAt d).closeOrdered = true →
          ((s.doorAt d).pins.closedMade = false →
            (t.doorAt d).state = .closing ∧ (t.doorAt d).motion = some (s.clock + 8000000)
              ∧ (t.doorAt d).closeOrdered = true ∧ t.Drives d (s.dutyOnSlope d (s.cfg.openDir.get d).opposite) .close)
          ∧ ((s.doorAt d).pins.closedMade = true →
            (t.doorAt d).state
                = (if (if isLeft d then s.doors.releasedLeft else s.doors.releasedRight) then .released else .locked)
              ∧ (t.doorAt d).motion = none ∧ (t.doorAt d).closeOrdered = false
              ∧ (t.drive.motor.get d).pendingDuty = some 0))
      ∧ (∀ d, (s.doorAt d).state ≠ .released → t.doorAt d = s.doorAt d)
      ∧ Served s t .crew 0x22#8 (.done (allDoors.map (fun d => byteOf (t.doorAt d).state.code))) [.doors, .motors]
          (.doorUnlockedMoving :: overspeeds) [.doorUnlockedMoving, .overspeedService]

/-- The fully-open switch that makes ends an opening: OPEN with the motor at 0, or CLOSING again at once under a close order;
in any other state it changes the level alone (R140). -/
def Obligations.OpenSwitchesEndTheOpening : Prop :=
  ∀ (s : State) (d : Door), s.Sound → (s.doorAt d).pins.openMade = false →
    ((s.doorAt d).state = .opening → (s.doorAt d).closeOrdered = false →
      ∃ t, exec (.openSwitchMakes d) s = .next t
        ∧ t.doorAt d = { s.doorAt d with
            state := .open, motion := none, pins := { (s.doorAt d).pins with openMade := true } }
        ∧ (t.drive.motor.get d).pendingDuty = some 0 ∧ (∀ e, e ≠ d → t.doorAt e = s.doorAt e)
        ∧ Frame [.doors, .motors] (.doorUnlockedMoving :: overspeeds) [.doorUnlockedMoving, .overspeedService] s t)
    ∧ ((s.doorAt d).state = .opening → (s.doorAt d).closeOrdered = true → (s.doorAt d).pins.closedMade = false →
      ∃ t, exec (.openSwitchMakes d) s = .next t
        ∧ t.doorAt d = { s.doorAt d with
            state := .closing, motion := some (s.clock + 8000000), obstruction := none
            limit := s.limitOnSlope d (s.cfg.openDir.get d).opposite
            pins := { (s.doorAt d).pins with openMade := true } }
        ∧ t.Drives d (s.dutyOnSlope d (s.cfg.openDir.get d).opposite) .close ∧ (∀ e, e ≠ d → t.doorAt e = s.doorAt e)
        ∧ Frame [.doors, .motors] (.doorUnlockedMoving :: overspeeds) [.doorUnlockedMoving, .overspeedService] s t)
    ∧ ((s.doorAt d).state ≠ .opening →
      exec (.openSwitchMakes d) s
        = .next (s.withDoor d { s.doorAt d with pins := { (s.doorAt d).pins with openMade := true } }))

/-- DOOR_CLOSE takes the sides named out of the released sides; of their doors a RELEASED one is LOCKED, an OPENING, OPEN or
FAULT one is closed afresh, a CLOSING one begins its time limit and count again, a LOCKED or ISOLATED one stays (R141). The
response's bytes for the sides and the doors: DEDUCED (log 12). -/
def Obligations.DoorCloseOrdersTheSide : Prop :=
  ∀ (s : State) (f : List Byte) (x : PlatformSide), s.Sound → s.CanTake .crew → f.length = 1 → field f 0 1 = x.code →
    ∃ t, exec (.doorClose .crew f) s = .next t
      ∧ t.doors.releasedLeft = (s.doors.releasedLeft && x == .right)
      ∧ t.doors.releasedRight = (s.doors.releasedRight && x == .left)
      ∧ (∀ d, (x = .both ∨ (isLeft d = true ↔ x = .left)) →
          ((s.doorAt d).state = .released → t.doorAt d = { s.doorAt d with state := .locked, motion := none })
          ∧ ((s.doorAt d).state ∈ [.opening, .open, .fault] → (s.doorAt d).pins.closedMade = false →
              t.doorAt d = { s.doorAt d with
                state := .closing, motion := some (s.clock + 8000000), obstruction := none, reopen := 0
                closeFailed := false, closeOrdered := true, limit := s.limitOnSlope d (s.cfg.openDir.get d).opposite }
              ∧ t.Drives d (s.dutyOnSlope d (s.cfg.openDir.get d).opposite) .close)
          ∧ ((s.doorAt d).state ∈ [.opening, .open, .fault] → (s.doorAt d).pins.closedMade = true →
              (t.doorAt d).state = .locked ∧ (t.doorAt d).closeOrdered = false ∧ (t.doorAt d).motion = none)
          ∧ ((s.doorAt d).state = .closing →
              t.doorAt d = { s.doorAt d with
                motion := some (s.clock + 8000000), obstruction := none, reopen := 0, closeFailed := false
                closeOrdered := true })
          ∧ ((s.doorAt d).state ∈ [.locked, .isolated] → t.doorAt d = s.doorAt d))
      ∧ (∀ d, ¬(x = .both ∨ (isLeft d = true ↔ x = .left)) → t.doorAt d = s.doorAt d)
      ∧ Served s t .crew 0x23#8 (.done (t.doors.releasedByte :: allDoors.map (fun d => byteOf (t.doorAt d).state.code)))
          [.doors, .motors] (.doorUnlockedMoving :: overspeeds) [.doorUnlockedMoving, .overspeedService]

/-- The closed-and-locked switch that makes shuts a CLOSING, OPEN or FAULT door, RELEASED on a released side and LOCKED
otherwise; one that breaks takes a LOCKED or RELEASED door to FAULT; in the other states the level alone changes (R142, R148). -/
def Obligations.ClosedSwitchesShutTheDoor : Prop :=
  ∀ (s : State) (d : Door),
    ((s.doorAt d).pins.closedMade = false → (s.doorAt d).state ∈ [.closing, .open, .fault] →
      ∃ t, exec (.closedSwitchMakes d) s = .next t
        ∧ t.doorAt d = { s.doorAt d with
            state := if (if isLeft d then s.doors.releasedLeft else s.doors.releasedRight) then .released else .locked
            motion := none, closeOrdered := false, pins := { (s.doorAt d).pins with closedMade := true } }
        ∧ ((s.doorAt d).state = .closing → (t.drive.motor.get d).pendingDuty = some 0)
        ∧ (∀ e, e ≠ d → t.doorAt e = s.doorAt e)
        ∧ Frame [.doors, .motors] (.doorUnlockedMoving :: overspeeds) [.doorUnlockedMoving, .overspeedService] s t)
    ∧ ((s.doorAt d).pins.closedMade = false → (s.doorAt d).state ∉ [.closing, .open, .fault] →
      exec (.closedSwitchMakes d) s
        = .next (s.withDoor d { s.doorAt d with pins := { (s.doorAt d).pins with closedMade := true } }))
    ∧ ((s.doorAt d).pins.closedMade = true → (s.doorAt d).state ∈ [.locked, .released] →
      ∃ t, exec (.closedSwitchBreaks d) s = .next t
        ∧ t.doorAt d = { s.doorAt d with
            state := .fault, motion := none, pins := { (s.doorAt d).pins with closedMade := false } }
        ∧ (s.odo.standstill = false → t.set.has .doorUnlockedMoving = true) ∧ t.doors.hold = true
        ∧ t.drive.motor = s.drive.motor ∧ (∀ e, e ≠ d → t.doorAt e = s.doorAt e)
        ∧ Frame [.doors] (.doorUnlockedMoving :: overspeeds) [.doorUnlockedMoving, .overspeedService] s t)
    ∧ ((s.doorAt d).pins.closedMade = true → (s.doorAt d).state ∉ [.locked, .released] →
      exec (.closedSwitchBreaks d) s
        = .next (s.withDoor d { s.doorAt d with pins := { (s.doorAt d).pins with closedMade := false } }))

/-- A motion timer that expires takes an OPENING or CLOSING door to FAULT, its motor to 0 and its close order away (R140, R142).
An expiry that finds the timer of its motion gone, or just (re)started, does nothing: one behind the scan that has reopened the
door, or behind the DOOR_CLOSE that has restarted it (R147, log 3). -/
def Obligations.MotionLimitsEndInFault : Prop :=
  ∀ (s : State) (d : Door) (x : MotionLimit),
    ((s.doorAt d).motion.Elapsing s.clock (match x with | .opening => 6000000 | .closing => 8000000) →
      (s.doorAt d).state = (match x with | .opening => .opening | .closing => .closing) →
      ∃ t, exec (.motionTimerExpiry { door := d, limit := x }) s = .next t
        ∧ t.doorAt d = { s.doorAt d with state := .fault, motion := none, closeOrdered := false }
        ∧ (t.drive.motor.get d).pendingDuty = some 0 ∧ (∀ e, e ≠ d → t.doorAt e = s.doorAt e) ∧ t.doors.hold = true
        ∧ (s.odo.standstill = false → t.set.has .doorUnlockedMoving = true)
        ∧ Frame [.doors, .motors] (.doorUnlockedMoving :: overspeeds) [.doorUnlockedMoving, .overspeedService] s t)
    ∧ ((s.doorAt d).motion.Resting s.clock (match x with | .opening => 6000000 | .closing => 8000000)
        ∨ (s.doorAt d).state ≠ (match x with | .opening => .opening | .closing => .closing) →
      exec (.motionTimerExpiry { door := d, limit := x }) s = .next s)

/-- DOOR_ISOLATE takes a LOCKED door out of service at standstill; DOOR_UNISOLATE returns an ISOLATED one, LOCKED or FAULT as its
switch reads; no other door changes (R149, R150). The response's byte for a door: DEDUCED (log 12). -/
def Obligations.DoorsAreIsolatedAndReturned : Prop :=
  ∀ (s : State) (f : List Byte) (d : Door), s.CanTake .crew → f.length = 1 → field f 0 1 = doorCode d →
    s.odo.standstill = true →
    ((s.doorAt d).state = .locked →
      ∃ t, exec (.doorIsolate .crew f) s = .next t
        ∧ t.doorAt d = { s.doorAt d with state := .isolated, motion := none } ∧ (∀ e, e ≠ d → t.doorAt e = s.doorAt e)
        ∧ t.drive.motor = s.drive.motor
        ∧ Served s t .crew 0x24#8 (.done (allDoors.map (fun d => byteOf (t.doorAt d).state.code))) [.doors] overspeeds
            [.doorUnlockedMoving, .overspeedService])
    ∧ ((s.doorAt d).state = .isolated →
      ∃ t, exec (.doorUnisolate .crew f) s = .next t
        ∧ t.doorAt d = { s.doorAt d with
            state := if (s.doorAt d).pins.closedMade then .locked else .fault, motion := none, closeOrdered := false }
        ∧ (∀ e, e ≠ d → t.doorAt e = s.doorAt e) ∧ t.drive.motor = s.drive.motor
        ∧ Served s t .crew 0x25#8 (.done (allDoors.map (fun d => byteOf (t.doorAt d).state.code))) [.doors] overspeeds
            [.doorUnlockedMoving, .overspeedService])

/-- A CLOSING door whose current stays above its limit for 150 ms is obstructed at that scan: it opens again, or stops OPEN with
its close-failed flag at the third obstruction of its order (R144, R145, R146). -/
def Obligations.ObstructedDoorsReopen : Prop :=
  ∀ (s : State) (w : ScanWords) (d : Door) (m : Nat), s.Sound → (s.doorAt d).state = .closing →
    s.limitOnSlope d (s.cfg.openDir.get d).opposite < sampleAfter (s.scan.current.get d) 4000 (w.current.get d) →
    (s.doorAt d).obstruction = some m → m + 150000 ≤ s.clock →
    ∃ t, exec (.scanComplete w) s = .next t
      ∧ (t.doorAt d).reopen = min 3 ((s.doorAt d).reopen + 1)
      ∧ ((s.doorAt d).reopen < 2 → (s.doorAt d).pins.openMade = false →
          (t.doorAt d).state = .opening ∧ (t.doorAt d).motion = some (s.clock + 6000000)
            ∧ (t.doorAt d).closeOrdered = (s.doorAt d).closeOrdered
            ∧ t.Drives d (s.dutyOnSlope d (s.cfg.openDir.get d)) .open)
      ∧ (2 ≤ (s.doorAt d).reopen →
          (t.doorAt d).state = .open ∧ (t.doorAt d).closeFailed = true ∧ (t.doorAt d).closeOrdered = false
            ∧ (t.doorAt d).motion = none ∧ (t.drive.motor.get d).pendingDuty = some 0)

/-! ### Radio -/

/-- Any good frame on the radio line takes the link UP and starts the timer again, though a body that is too short, of no
kind, of a wrong length or for another car does nothing more; the timer's expiry takes the link to LOST and marks the loss; the
supervisor evaluates when the state changes (R162, R164, R177). An expiry behind the good frame that has restarted the timer does
nothing (R165), nor does one of a stopped timer (log 3). -/
def Obligations.LinkFollowsTheFrames : Prop :=
  ∀ (s : State),
    (∀ body : List Byte,
      (body.length < 3
        ∨ ∃ hi lo code fields, body = hi :: lo :: code :: fields
            ∧ ∀ k : DownlinkKind, k.code = code → fields.length = k.size → s.cfg.accepts k (hi ++ lo) = false) →
      ∃ t, exec (.downlinkDiscarded body) s = .next t
        ∧ t.radio = { s.radio with
            framer := [], link := .up, timer := some (s.clock + s.cfg.radioTimeout * 1000)
            queue := t.radio.queue, lost := t.radio.lost }
        ∧ (s.radio.link = .up → t = s.withRadio t.radio ∧ t.radio.queue = s.radio.queue ∧ t.radio.lost = s.radio.lost)
        ∧ (s.radio.link ≠ .up → t.Fresh) ∧ Frame [.radio] overspeeds [.overspeedService] s t)
    ∧ (s.radio.timer.Resting s.clock (s.cfg.radioTimeout * 1000) → exec .radioTimerExpiry s = .next s)
    ∧ (s.radio.timer.Elapsing s.clock (s.cfg.radioTimeout * 1000) →
      ∃ t, exec .radioTimerExpiry s = .next t
        ∧ t.radio = { s.radio with
            link := .lost, timer := none, wasLost := true, carriedLost := false
            queue := t.radio.queue, lost := t.radio.lost }
        ∧ (s.radio.link ≠ .lost → t.Fresh) ∧ Frame [.radio] overspeeds [.overspeedService] s t)

/-- POLL, with `u` the state its link supervision leaves: silent in LISTEN_ONLY and while the transmitter sends; the burst in
flight again; with an empty queue a header alone if ANSWER_EMPTY is on; else a new burst of the first record and as many of the
next as fit BURST_CAP (R171, R172, R173). Its header holds CAR_ADDRESS, the burst number, the eight summary flags of R176 masked
by SUMMARY_MASK, the lost tally and the number of records. With the link not UP, `u` holds the supervisor's evaluation on the
link notice, so its records and flags are in the burst: that it comes before the build is the model's choice (log 6). -/
def Obligations.PollsAreAnsweredWithABurst : Prop :=
  ∀ (s u : State), u = s.linkedAt →
    (∀ n, ∃ flags : Byte,
      u.burstHeader n
          = [u.cfg.carAddress.extractLsb' 8 8, u.cfg.carAddress.extractLsb' 0 8, BitVec.ofNat 8 u.radio.number, flags
            , BitVec.ofNat 8 u.radio.lost, BitVec.ofNat 8 n]
        ∧ (flags.getLsbD 0 = true ↔ u.set.entries ≠ [] ∧ u.cfg.summaryMask.getLsbD 0 = true)
        ∧ (flags.getLsbD 1 = true ↔ (∃ e ∈ u.set.entries, e.cause.level = .emergency) ∧ u.cfg.summaryMask.getLsbD 1 = true)
        ∧ (flags.getLsbD 2 = true ↔
            (∃ d, (u.doorAt d).state ≠ .locked ∧ (u.doorAt d).state ≠ .isolated) ∧ u.cfg.summaryMask.getLsbD 2 = true)
        ∧ (flags.getLsbD 3 = true ↔ (∃ c, u.prov.health.get c = .degraded) ∧ u.cfg.summaryMask.getLsbD 3 = true)
        ∧ (flags.getLsbD 4 = true ↔ (∃ c, u.prov.health.get c = .failed) ∧ u.cfg.summaryMask.getLsbD 4 = true)
        ∧ (flags.getLsbD 5 = true ↔ u.win.ahead < u.cfg.aheadLow ∧ u.cfg.summaryMask.getLsbD 5 = true)
        ∧ (flags.getLsbD 6 = true ↔ u.radio.wasLost = true ∧ u.cfg.summaryMask.getLsbD 6 = true)
        ∧ (flags.getLsbD 7 = true ↔ 20 < u.odo.u ∧ u.cfg.summaryMask.getLsbD 7 = true))
    ∧ (u.cfg.listenOnly = true ∨ u.radio.transmitter.isSome = true → exec (.poll s.cfg.carAddress []) s = .next u)
    ∧ (u.cfg.listenOnly = false → u.radio.transmitter = none →
      (∀ b, u.radio.inFlight = some b →
        exec (.poll s.cfg.carAddress []) s
          = .next (u.withRadio { u.radio with
              resend := min 255 (u.radio.resend + 1)
              transmitter := some { frame := frameOf b.body
                                    ends := u.clock + lineTime .radio (frameOf b.body).length } }))
      ∧ (u.radio.inFlight = none → u.radio.queue = [] → u.cfg.answerEmpty = false →
          exec (.poll s.cfg.carAddress []) s = .next u)
      ∧ (u.radio.inFlight = none → u.radio.queue = [] → u.cfg.answerEmpty = true →
          exec (.poll s.cfg.carAddress []) s
            = .next (u.withRadio { u.radio with
                transmitter := some { frame := frameOf (u.burstHeader 0)
                                      ends := u.clock + lineTime .radio (frameOf (u.burstHeader 0)).length } }))
      ∧ (u.radio.inFlight = none → u.radio.queue ≠ [] →
          ∃ n, 1 ≤ n ∧ n ≤ u.radio.queue.length
            ∧ (n = 1 ∨ ((u.radio.queue.take n).map Report.size).sum ≤ u.cfg.burstCap)
            ∧ (n = u.radio.queue.length ∨ u.cfg.burstCap < ((u.radio.queue.take (n + 1)).map Report.size).sum)
            ∧ (let body := u.burstHeader n ++ (u.radio.queue.take n).flatMap Report.bytes
               exec (.poll s.cfg.carAddress []) s
                = .next (u.withRadio { u.radio with
                    inFlight := some { number := u.radio.number, body := body, count := n }
                    carriedTally := u.radio.lost
                    carriedLost := u.radio.wasLost && u.cfg.summaryMask.getLsbD 6
                    resend := 0
                    transmitter := some { frame := frameOf body
                                          ends := u.clock + lineTime .radio (frameOf body).length } }))))

/-- ACK of the burst in flight, with `u` the state its link supervision leaves: its records leave the queue, the lost tally falls
by the carried tally, RADIO_WAS_LOST is cleared if the burst carried it, the number moves on and nothing is in flight; any other
ACK changes nothing (R174). With the link not UP, `u` holds the supervisor's evaluation on the link notice, whose records meet the
queue before the ACK makes room: that order is the model's choice (log 6). -/
def Obligations.AcksRetireTheBurst : Prop :=
  ∀ (s u : State) (f : List Byte), f.length = 1 → u = s.linkedAt →
    (∀ b, u.radio.inFlight = some b → field f 0 1 = b.number →
      exec (.ack s.cfg.carAddress f) s
        = .next (u.withRadio { u.radio with
            queue := u.radio.queue.drop b.count
            lost := u.radio.lost - u.radio.carriedTally
            wasLost := if u.radio.carriedLost then false else u.radio.wasLost
            number := (b.number + 1) % 8
            inFlight := none
            carriedTally := 0
            carriedLost := false
            resend := 0 }))
    ∧ ((∀ b, u.radio.inFlight = some b → field f 0 1 ≠ b.number) → exec (.ack s.cfg.carAddress f) s = .next u)

/-! ### Lines -/

/-- A transmitter that has sent its frame is idle; a response that has been sent makes room for the oldest that waits; a good
frame at a full response list is dropped and counted (R161, R184). -/
def Obligations.LinesSendOneAfterTheOther : Prop :=
  ∀ (s : State) (x : RequestLine),
    exec .transmitComplete s = .next (s.withRadio { s.radio with transmitter := none })
    ∧ (∀ y, (s.line.port x).sending = some y → (s.line.port x).waiting = [] →
        exec (.responseSent x) s = .next (s.withPort x { s.line.port x with sending := none }))
    ∧ (∀ y fr rest, (s.line.port x).sending = some y → (s.line.port x).waiting = fr :: rest →
        exec (.responseSent x) s
          = .next (s.withPort x { s.line.port x with
              sending := some { frame := fr, ends := s.clock + lineTime (serialOf x) fr.length }, waiting := rest }))
    ∧ (∀ code fields, 4 ≤ (s.line.port x).waiting.length →
        exec (.requestDropped x (code :: fields)) s
          = .next (s.withPort x { s.line.port x with
              framer := [], overflow := min 255 ((s.line.port x).overflow + 1) }))

/-- A cab request, even a refused one, starts the cab timer in RUN and sets the cab heard mark; a kind unknown or not served on
its line is refused BAD_KIND, one of a wrong length BAD_FIELD, and nothing else changes (R182, R183, R89, R193). -/
def Obligations.BadRequestsAreRefused : Prop :=
  ∀ (s : State) (x : RequestLine) (f : List Byte), s.CanTake x →
    (∀ kind, kind ∉ requestCodes →
      ∃ t, exec (.unknownRequest x kind f) s = .next t ∧ AnsweredOnly s t x kind (.refused .badKind)
        ∧ t.line.cabTimer
            = (if x = .cab ∧ s.line.opState = .run then some (s.clock + s.cfg.cabTimeout * 1000) else s.line.cabTimer)
        ∧ t.set = { s.set with
            entries := s.set.entries.map (fun e => if x = .cab ∧ e.cause = .cabSilent then { e with heard := true } else e) })
    ∧ (∀ k : RequestKind, k.servedOn x = false →
      ∃ t, exec (k.command x f) s = .next t ∧ AnsweredOnly s t x k.code (.refused .badKind))
    ∧ (∀ k : RequestKind, k.servedOn x = true → f.length ≠ k.size →
      ∃ t, exec (k.command x f) s = .next t ∧ AnsweredOnly s t x k.code (.refused .badField))

/-- The first check that fails decides an owner's refusal, and a refused request changes nothing (R16, R17, R30, R32, R37, R104,
R137, R141, R149, R150, R187, R188, R190, R192). -/
def Obligations.OwnersRefuseWhatTheyMust : Prop :=
  ∀ (s : State) (f : List Byte),
    (s.CanTake .cab →
      (f.length = 6 →
        (1048575 < field f 0 3 → s.Refuses (.locate .cab f) .cab 0x02#8 .badField)
        ∧ (field f 0 3 ≤ 1048575 → s.odo.standstill = false → s.Refuses (.locate .cab f) .cab 0x02#8 .notStandstill))
      ∧ (f.length = 19 →
        (¬s.Asks (field f 0 2) (field f 2 3) (field f 5 2) → s.Refuses (.segment .cab f) .cab 0x04#8 .notWanted)
        ∧ (s.Asks (field f 0 2) (field f 2 3) (field f 5 2) → (∀ g, ¬Delivers f g) →
            s.Refuses (.segment .cab f) .cab 0x04#8 .badField)
        ∧ (∀ g o m, Delivers f g → s.Wants g → g.marker = some o → m ∈ s.win.markers → gap (g.start + o) m < 20 →
            s.Refuses (.segment .cab f) .cab 0x04#8 .badField))
      ∧ (f.length = 3 →
        ((∀ e, s.win.wanted ≠ .byNumber (field f 0 2) e) → s.Refuses (.endOfLine .cab f) .cab 0x05#8 .notWanted)
        ∧ (∀ e, s.win.wanted = .byNumber (field f 0 2) e →
            (field f 2 1 ≠ 1 ∧ field f 2 1 ≠ 2 → s.Refuses (.endOfLine .cab f) .cab 0x05#8 .badField)
            ∧ (field f 2 1 = verticalCode e.opposite → s.Refuses (.endOfLine .cab f) .cab 0x05#8 .notWanted))
        ∧ (s.line.opState ≠ .config → s.Refuses (.configure .cab f) .cab 0x0B#8 .badState)
        ∧ (s.line.opState = .config → field f 0 1 = 0 ∨ 47 < field f 0 1 →
            s.Refuses (.configure .cab f) .cab 0x0B#8 .badField))
      ∧ (f.length = 1 →
        (2 < field f 0 1 → s.Refuses (.direction .cab f) .cab 0x03#8 .badField)
        ∧ (field f 0 1 ≤ 2 → s.odo.standstill = false → s.Refuses (.direction .cab f) .cab 0x03#8 .notStandstill)
        ∧ (31 < field f 0 1 → s.Refuses (.readWindow .cab f) .cab 0x06#8 .badField)
        ∧ (field f 0 1 ≠ 1 ∧ field f 0 1 ≠ 2 → s.Refuses (.park .cab f) .cab 0x0A#8 .badField)
        ∧ (field f 0 1 = 2 → s.line.opState = .config → s.Refuses (.park .cab f) .cab 0x0A#8 .badState))
      ∧ (f = [] →
        (s.line.opState = .run → s.Refuses (.resume .cab f) .cab 0x0C#8 .badState)
        ∧ (s.line.opState = .config → 28 < s.cfg.aheadLow + s.cfg.behindHigh ∨ s.cfg.trainLength < s.cfg.carLength →
            s.Refuses (.resume .cab f) .cab 0x0C#8 .configConflict)
        ∧ (s.line.opState = .config → s.Refuses (.quiesce .cab f) .cab 0x0D#8 .badState)
        ∧ (s.line.opState ≠ .config → s.Refuses (.restart .cab f) .cab 0x0E#8 .badState)))
    ∧ (s.CanTake .crew → f.length = 1 →
      (field f 0 1 ≠ 1 ∧ field f 0 1 ≠ 2 → s.Refuses (.doorRelease .crew f) .crew 0x21#8 .badField)
      ∧ (∀ x : PlatformSide, x ≠ .both → field f 0 1 = x.code →
        (s.odo.located = false → s.Refuses (.doorRelease .crew f) .crew 0x21#8 .notLocated)
        ∧ (s.odo.located = true → s.odo.standstill = false → s.Refuses (.doorRelease .crew f) .crew 0x21#8 .notStandstill)
        ∧ (s.odo.located = true → s.odo.standstill = true → ¬s.AtPlatform x →
            s.Refuses (.doorRelease .crew f) .crew 0x21#8 .notPlatform))
      ∧ ((∀ x : PlatformSide, field f 0 1 ≠ x.code) → s.Refuses (.doorClose .crew f) .crew 0x23#8 .badField)
      ∧ ((∀ d, field f 0 1 ≠ doorCode d) →
          s.Refuses (.doorIsolate .crew f) .crew 0x24#8 .badField ∧ s.Refuses (.doorUnisolate .crew f) .crew 0x25#8 .badField)
      ∧ (∀ d, field f 0 1 = doorCode d →
        (s.odo.standstill = false →
          s.Refuses (.doorIsolate .crew f) .crew 0x24#8 .notStandstill
            ∧ s.Refuses (.doorUnisolate .crew f) .crew 0x25#8 .notStandstill)
        ∧ (s.odo.standstill = true → (s.doorAt d).state ≠ .locked → s.Refuses (.doorIsolate .crew f) .crew 0x24#8 .doorState)
        ∧ (s.odo.standstill = true → (s.doorAt d).state ≠ .isolated →
            s.Refuses (.doorUnisolate .crew f) .crew 0x25#8 .doorState)))

/-- STATUS on either line, READ_WINDOW and READ_AUTHORITY answer with what their entries name and change nothing (R37, R54, R194,
R197). Behind the header of STATUS stand the 42 bytes of offsets 6 to 47 and the oldest six entries, 12 bytes each. The zero bytes
of a slot without a record: DEDUCED (log 12). -/
def Obligations.ReadingsChangeNothing : Prop :=
  ∀ (s : State) (f : List Byte),
    (∀ x, s.CanTake x →
      ∃ t, exec (.status x []) s = .next t
        ∧ (let channel := fun c => byteOf ((t.prov.health.get c).code + 16 * t.prov.owed.get c)
           let door := fun d =>
             byteOf ((t.doorAt d).state.code + 8 * (t.doorAt d).reopen + 32 * bit (t.doorAt d).closeFailed)
           let entry := fun e : Entry =>
             byteOf (e.cause.code + (match e.cause.level with | .service => 0 | .emergency => 16) + 32 * bit e.heard)
               :: (bytesOf 3 e.capture.position ++ bytesOf 2 e.capture.speed ++ bytesOf 2 e.capture.permitted ++ bytesOf 4 e.time)
           let fields :=
             [ byteOf (t.line.opState.code + 4 * directionCode t.odo.direction + 16 * bit t.odo.located
                 + 32 * bit t.odo.standstill + 64 * t.sup.state.code)
             , byteOf (t.line.port x).overflow ]
               ++ bytesOf 3 t.odo.p ++ bytesOf 1 t.odo.u ++ bytesOf 2 t.odo.v
               ++ bytesOf 2 t.sup.staticLimit ++ bytesOf 2 t.sup.permitted ++ bytesOf 2 t.sup.warning
               ++ bytesOf 2 t.sup.serviceSpeed ++ bytesOf 2 t.sup.emergencySpeed
               ++ [ byteOf t.win.records.length, byteOf t.win.ahead, byteOf t.win.behind, byteOf t.comb.driver
                  , byteOf ((match t.comb.park with | .apply => 0 | .release => 1) + 2 * bit (!t.comb.springApplied))
                  , byteOf t.comb.demand.rb1, byteOf t.comb.demand.rb2, byteOf t.comb.demand.ab1, byteOf t.comb.demand.ab2
                  , channel .rb1, channel .rb2, channel .ab1, channel .ab2
                  , (match t.prov.proof with | none => 0#8 | some y => byteOf (channelCode y.channel + 16 * y.step.code))
                  , door .d1, door .d2, door .d3, door .d4
                  , byteOf (bit t.doors.releasedLeft + 2 * bit t.doors.releasedRight)
                  , byteOf (t.radio.link.code + 16 * t.radio.number)
                  , byteOf t.radio.queue.length, byteOf t.radio.flying, byteOf t.radio.resend, byteOf t.radio.lost ]
           fields.length = 42
             ∧ AnsweredOnly s t x 0x01#8 (.done (fields ++ (t.set.entries.take 6).flatMap entry))
             ∧ (t.responseBody 0x01#8 (.done (fields ++ (t.set.entries.take 6).flatMap entry))).length
                = 48 + 12 * min s.set.entries.length 6))
    ∧ (s.CanTake .cab → f.length = 1 → field f 0 1 ≤ 31 →
      ∃ t slot, exec (.readWindow .cab f) s = .next t
        ∧ (∀ g, s.win.records[field f 0 1]? = some g → slot = 1#8 :: g.bytes)
        ∧ (s.win.records.length ≤ field f 0 1 → slot = List.replicate 20 0#8)
        ∧ AnsweredOnly s t .cab 0x06#8
            (.done (slot ++ [byteOf s.win.records.length, byteOf s.win.ahead, byteOf s.win.behind
                            , byteOf (bit s.win.endUp + 2 * bit s.win.endDown)])))
    ∧ (s.CanTake .cab →
      ∃ t, exec (.readAuthority .cab []) s = .next t
        ∧ AnsweredOnly s t .cab 0x07#8
            (.done (bytesOf 3 s.auth.a.low ++ bytesOf 3 s.auth.a.high ++ bytesOf 3 s.auth.b.low ++ bytesOf 3 s.auth.b.high
              ++ [byteOf s.auth.id, byteOf (bit s.auth.inside + 2 * bit s.auth.inA + 4 * bit s.auth.inB)
                 , byteOf s.auth.restrictions.length]
              ++ s.auth.restrictions.flatMap (fun r =>
                  byteOf r.id :: bytesOf 3 r.low ++ bytesOf 3 r.high ++ bytesOf 2 r.speed ++ [byteOf r.direction.code]))))

/-- CONFIGURE in CONFIG gives its item the value, or the nearest of its range for a number, keeps every other item, and answers
with the value taken; a switch, an OPEN_DIR or a SUMMARY_MASK out of range is refused (R190). An item that keeps its value hands
nothing on. A change is taken up at once by the item's own blocks and no other: it restarts the proof timer (R119), a running radio
timer (R165) or the position timer (R169), degrades the HEALTHY channels that owe the new OWED_DEGRADE (R119), settles the
feedback of the channels concerned afresh (R113), recomputes the window, the capability and the brakes, and evaluates (R57, R99,
R190). -/
def Obligations.ConfigureTakesTheValue : Prop :=
  ∀ (s : State) (f : List Byte) (i : ConfigItem), s.CanTake .cab → f.length = 3 → s.line.opState = .config →
    itemOfCode (field f 0 1) = some i →
    (i.isCoded = false ∨ i.range.1 ≤ field f 1 2 ∧ field f 1 2 ≤ i.range.2 →
      ∃ t v, exec (.configure .cab f) s = .next t ∧ v = max i.range.1 (min i.range.2 (field f 1 2)) ∧ t.cfg.get i = v
        ∧ (∀ j, j ≠ i → t.cfg.get j = s.cfg.get j)
        ∧ Served s t .cab 0x0B#8 (.done (byteOf (field f 0 1) :: bytesOf 2 v)) (.settings :: i.blocks) overspeeds
            [.overspeedService]
        ∧ (s.cfg.get i = v → AnsweredOnly s t .cab 0x0B#8 (.done (byteOf (field f 0 1) :: bytesOf 2 v)))
        ∧ (s.cfg.get i ≠ v →
            (i = .proofPeriod → t.prov.timer = some (s.clock + v * 1000000))
            ∧ (i = .radioTimeout → t.radio =
                { s.radio with timer := s.radio.timer.map fun _ => s.clock + v * 1000 })
            ∧ (i = .positionInterval → t.radio = { s.radio with positionTimer := some (s.clock + v * 1000) })
            ∧ t.prov.owed = s.prov.owed
            ∧ (∀ c, t.prov.health.get c =
                if i = .owedDegrade ∧ s.prov.health.get c = .healthy ∧ v ≤ s.prov.owed.get c then .degraded
                else s.prov.health.get c)
            ∧ (∀ c, i = .fullPressure c ∨ i = .feedbackTol →
                t.comb.feedback.get c = { lastChange := s.clock, deviationStart := none })
            ∧ (i ∈ [.carLength, .trainLength, .aheadLow, .behindHigh] → t.Counted)
            ∧ ((∃ k, i = .nominal k) → t.prov.capability = capabilityOf t.cfg.nominal t.prov.health)
            ∧ ((∃ k, i = .rbShare k ∨ i = .abShare k) ∨ i = .holdLevel → t.Blended)
            ∧ ((∃ k, i = .react k ∨ i = .nominal k) ∨ i ∈ [.trainLength, .maxSpeed, .barredCreep, .radioLossSpeed] → t.Fresh)))
    ∧ (i.isCoded = true → field f 1 2 < i.range.1 ∨ i.range.2 < field f 1 2 →
      ∃ t, exec (.configure .cab f) s = .next t ∧ AnsweredOnly s t .cab 0x0B#8 (.refused .badField))

/-- RESUME takes the part into RUN from QUIESCING, and from CONFIG when the cross-check holds, with the cab timer started;
QUIESCE takes it out of RUN with the cab timer stopped, into CONFIG at once when the car stands with its spring applied, and
changes nothing in QUIESCING (R186, R187, R188, R189, R193). The response's byte for the operating state: DEDUCED (log 12). -/
def Obligations.ServiceIsEnteredAndLeft : Prop :=
  ∀ s : State, s.CanTake .cab →
    (s.line.opState = .quiescing
        ∨ s.line.opState = .config ∧ s.cfg.aheadLow + s.cfg.behindHigh ≤ 28 ∧ s.cfg.carLength ≤ s.cfg.trainLength →
      ∃ t, exec (.resume .cab []) s = .next t ∧ t.line.opState = .run
        ∧ t.line.cabTimer = some (s.clock + s.cfg.cabTimeout * 1000) ∧ t.comb.park = s.comb.park
        ∧ Served s t .cab 0x0C#8 (.done [0x01#8]) [.opState, .cabTimer] overspeeds [.overspeedService])
    ∧ (s.line.opState = .run →
      ∃ t, exec (.quiesce .cab []) s = .next t
        ∧ t.line.opState = (if s.odo.standstill && t.comb.springApplied then .config else .quiescing)
        ∧ t.line.cabTimer = none ∧ t.sup.permit = false
        ∧ Served s t .cab 0x0D#8 (.done [byteOf t.line.opState.code]) [.opState, .cabTimer, .park] overspeeds
            [.overspeedService])
    ∧ (s.line.opState = .quiescing →
      ∃ t, exec (.quiesce .cab []) s = .next t ∧ AnsweredOnly s t .cab 0x0D#8 (.done [0x02#8]))

/-- RESTART in CONFIG: the position, the window's records and flags, the restrictions, the ratings and the configuration are kept;
the direction, the authority, the set, the driver demand, the radio and the doors go to their known start (R19, R40, R56, R94,
R116, R133, R156, R181, R192). Of the Radio Unit nothing but the link state and the transmitter matters: the old queue and the
lost tally are gone, and what the queue holds was made at this step; of the set, every entry was raised at this step, and at
standstill there is none but EMERGENCY_LOOP, present exactly where the loop reads open. A proof is abandoned and the tried list
emptied; a car that stands with its loop closed begins a round at once (R123, R133). -/
def Obligations.RestartKeepsThePosition : Prop :=
  ∀ s : State, s.CanTake .cab → s.line.opState = .config →
    ∃ t, exec (.restart .cab []) s = .next t
      ∧ t.odo = { s.odo with direction := .neutral, rollback := 0, v := t.odo.v } ∧ t.odo.v ≤ s.odo.v
      ∧ t.win.records = s.win.records ∧ t.win.endUp = s.win.endUp ∧ t.win.endDown = s.win.endDown
      ∧ t.win.located = s.win.located
      ∧ t.auth = { s.auth with a := { low := 1, high := 0 }, b := { low := 1, high := 0 }, id := 0, inside := false
                               inA := false, inB := false }
      ∧ t.set.loopOpen = s.set.loopOpen ∧ (t.set.has .emergencyLoop = true ↔ s.set.loopOpen = true)
      ∧ (∀ e ∈ t.set.entries, e.time = s.partTime ∧ e.heard = false)
      ∧ (s.Sound → s.odo.standstill = true →
          t.set.entries.map Entry.cause = if s.set.loopOpen then [.emergencyLoop] else [])
      ∧ (∀ e ∈ t.set.entries, e.cause ∈ [.emergencyLoop, .overspeedService, .overspeedEmergency, .doorUnlockedMoving])
      ∧ t.comb.driver = 0 ∧ t.prov.owed = s.prov.owed ∧ t.prov.health = s.prov.health
      ∧ (s.Sound → s.odo.standstill = true → s.set.loopOpen = false → t.Round s.prov.owed [])
      ∧ (s.odo.standstill = false ∨ s.set.loopOpen = true → t.prov.proof = none ∧ t.prov.tried = [])
      ∧ t.radio.link = .silent ∧ t.radio.timer = none ∧ t.radio.inFlight = none ∧ t.radio.number = 0
      ∧ t.radio.carriedTally = 0 ∧ t.radio.carriedLost = false
      ∧ (∀ x ∈ t.radio.queue, x.time = s.recordTime) ∧ (t.radio.lost = 0 ∨ 32 ≤ t.radio.queue.length)
      ∧ (∀ r : RadioUnit, r.link = s.radio.link → r.transmitter = s.radio.transmitter →
          exec (.restart .cab []) (s.withRadio r) = .next t)
      ∧ t.radio.resend = 0 ∧ t.radio.wasLost = false ∧ t.radio.framer = [] ∧ t.radio.transmitter = s.radio.transmitter
      ∧ t.radio.positionTimer = some (s.clock + s.cfg.positionInterval * 1000)
      ∧ t.doors.releasedLeft = false ∧ t.doors.releasedRight = false
      ∧ (∀ d, (s.doorAt d).state = .isolated → t.doorAt d = s.doorAt d)
      ∧ (∀ d, (s.doorAt d).state ≠ .isolated →
          t.doorAt d = { s.doorAt d with
            state := if (s.doorAt d).pins.closedMade then .locked else .fault
            reopen := 0, closeFailed := false, closeOrdered := false, motion := none, obstruction := none })
      ∧ Served s t .cab 0x0E#8 (.done [])
          [.radio, .queue, .odometry, .window, .authority, .entries, .driver, .doors, .motors]
          (.emergencyLoop :: .doorUnlockedMoving :: overspeeds) [.doorUnlockedMoving, .overspeedService]

/-! ### Frames on a line -/

/-- The bytes of a good frame of 1 to 120 body bytes, arriving one by one at a hunting framer, come to what the frame given
whole comes to (R158, R159, R161). -/
def Obligations.FramesAreReceivedAsTheyAreSent : Prop :=
  ∀ (s : State) (x : SerialLine) (body : List Byte) (rest : List Instr), s.framer x = [] → 1 ≤ body.length →
    body.length ≤ 120 →
    Host.Core.run Sys2Proof.core (frameOf body).length (s.withPending ((frameOf body).map (Instr.byteReceived x) ++ rest))
      = .next ((s.withPending rest).frame x body)

/-- A hunting framer drops every byte but the sync. A frame rejected by its length or its CRC, or by a character error, changes
nothing else, and the bytes kept after its sync are scanned again: bytes without a sync are dropped, and a good frame among them
is handed on as one given whole (R157, R158, R160). -/
def Obligations.RejectedFramesAreScannedAgain : Prop :=
  ∀ (s : State) (x : SerialLine) (noise : List Byte), Config.sync ∉ noise →
    (∀ b, s.framer x = [] → b ≠ Config.sync → exec (.byteReceived x b) s = .next s)
    ∧ (s.framer x = Config.sync :: noise → exec (.frameRejected x none) s = .next (s.withFramer x []))
    ∧ (∀ kept b len bytes, s.framer x = Config.sync :: kept → kept ++ [b] = len :: bytes →
        (bytes = [] ∧ (len.toNat = 0 ∨ 120 < len.toNat)
          ∨ 1 ≤ len.toNat ∧ len.toNat ≤ 120 ∧ bytes.length = len.toNat + 2
            ∧ crc (len :: bytes.take len.toNat) ≠ BitVec.ofNat 16 (valueOf (bytes.drop len.toNat))) →
        (kept ++ [b] = noise → exec (.frameRejected x (some b)) s = .next (s.withFramer x []))
          ∧ (∀ body, 1 ≤ body.length → body.length ≤ 120 → kept ++ [b] = noise ++ frameOf body →
              exec (.frameRejected x (some b)) s = .next (s.frame x body)))
end

