-- ==== Sys2Proof/Laws/State.lean ====
section
/-! SUPPORT. One lemma for each field of the state under each update of one block, and the same for the items of a channel, a
door or a kind of track. -/

namespace Sys2Proof

set_option Elab.async false

@[simp] theorem PerChannel.get_put_same {α : Type} (t : PerChannel α) (c : Channel) (x : α) : (t.put c x).get c = x := by
  cases c <;> rfl

theorem PerChannel.get_put {α : Type} (t : PerChannel α) (c e : Channel) (x : α) :
    (t.put c x).get e = if e = c then x else t.get e := by
  cases c <;> cases e <;> rfl

@[simp] theorem PerChannel.get_of {α : Type} (f : Channel → α) (c : Channel) : (PerChannel.of f).get c = f c := by
  cases c <;> rfl

theorem PerChannel.ext_get {α : Type} {a b : PerChannel α} (h : ∀ c, a.get c = b.get c) : a = b := by
  have h1 := h .rb1
  have h2 := h .rb2
  have h3 := h .ab1
  have h4 := h .ab2
  cases a
  cases b
  simp_all [PerChannel.get]

@[simp] theorem PerDoor.get_put_same {α : Type} (t : PerDoor α) (d : Door) (x : α) : (t.put d x).get d = x := by
  cases d <;> rfl

theorem PerDoor.get_put {α : Type} (t : PerDoor α) (d e : Door) (x : α) :
    (t.put d x).get e = if e = d then x else t.get e := by
  cases d <;> cases e <;> rfl

@[simp] theorem PerDoor.get_of {α : Type} (f : Door → α) (d : Door) : (PerDoor.of f).get d = f d := by
  cases d <;> rfl

theorem PerDoor.ext_get {α : Type} {a b : PerDoor α} (h : ∀ d, a.get d = b.get d) : a = b := by
  have h1 := h .d1
  have h2 := h .d2
  have h3 := h .d3
  have h4 := h .d4
  cases a
  cases b
  simp_all [PerDoor.get]

namespace Machine

theorem PerKind.get_put {α : Type} (t : PerKind α) (k l : TrackKind) (x : α) :
    (t.put k x).get l = if l = k then x else t.get l := by
  cases k <;> cases l <;> rfl

/-! ### withClock -/

@[simp] theorem State.withClock_clock (s : State) (x : Nat) : (s.withClock x).clock = x := rfl
@[simp] theorem State.withClock_odo (s : State) (x : Nat) : (s.withClock x).odo = s.odo := rfl
@[simp] theorem State.withClock_win (s : State) (x : Nat) : (s.withClock x).win = s.win := rfl
@[simp] theorem State.withClock_auth (s : State) (x : Nat) : (s.withClock x).auth = s.auth := rfl
@[simp] theorem State.withClock_sup (s : State) (x : Nat) : (s.withClock x).sup = s.sup := rfl
@[simp] theorem State.withClock_set (s : State) (x : Nat) : (s.withClock x).set = s.set := rfl
@[simp] theorem State.withClock_comb (s : State) (x : Nat) : (s.withClock x).comb = s.comb := rfl
@[simp] theorem State.withClock_drive (s : State) (x : Nat) : (s.withClock x).drive = s.drive := rfl
@[simp] theorem State.withClock_scan (s : State) (x : Nat) : (s.withClock x).scan = s.scan := rfl
@[simp] theorem State.withClock_prov (s : State) (x : Nat) : (s.withClock x).prov = s.prov := rfl
@[simp] theorem State.withClock_doors (s : State) (x : Nat) : (s.withClock x).doors = s.doors := rfl
@[simp] theorem State.withClock_radio (s : State) (x : Nat) : (s.withClock x).radio = s.radio := rfl
@[simp] theorem State.withClock_line (s : State) (x : Nat) : (s.withClock x).line = s.line := rfl
@[simp] theorem State.withClock_pending (s : State) (x : Nat) : (s.withClock x).pending = s.pending := rfl

/-! ### withOdo -/

@[simp] theorem State.withOdo_clock (s : State) (x : Odometry) : (s.withOdo x).clock = s.clock := rfl
@[simp] theorem State.withOdo_odo (s : State) (x : Odometry) : (s.withOdo x).odo = x := rfl
@[simp] theorem State.withOdo_win (s : State) (x : Odometry) : (s.withOdo x).win = s.win := rfl
@[simp] theorem State.withOdo_auth (s : State) (x : Odometry) : (s.withOdo x).auth = s.auth := rfl
@[simp] theorem State.withOdo_sup (s : State) (x : Odometry) : (s.withOdo x).sup = s.sup := rfl
@[simp] theorem State.withOdo_set (s : State) (x : Odometry) : (s.withOdo x).set = s.set := rfl
@[simp] theorem State.withOdo_comb (s : State) (x : Odometry) : (s.withOdo x).comb = s.comb := rfl
@[simp] theorem State.withOdo_drive (s : State) (x : Odometry) : (s.withOdo x).drive = s.drive := rfl
@[simp] theorem State.withOdo_scan (s : State) (x : Odometry) : (s.withOdo x).scan = s.scan := rfl
@[simp] theorem State.withOdo_prov (s : State) (x : Odometry) : (s.withOdo x).prov = s.prov := rfl
@[simp] theorem State.withOdo_doors (s : State) (x : Odometry) : (s.withOdo x).doors = s.doors := rfl
@[simp] theorem State.withOdo_radio (s : State) (x : Odometry) : (s.withOdo x).radio = s.radio := rfl
@[simp] theorem State.withOdo_line (s : State) (x : Odometry) : (s.withOdo x).line = s.line := rfl
@[simp] theorem State.withOdo_pending (s : State) (x : Odometry) : (s.withOdo x).pending = s.pending := rfl

/-! ### withWin -/

@[simp] theorem State.withWin_clock (s : State) (x : Window) : (s.withWin x).clock = s.clock := rfl
@[simp] theorem State.withWin_odo (s : State) (x : Window) : (s.withWin x).odo = s.odo := rfl
@[simp] theorem State.withWin_win (s : State) (x : Window) : (s.withWin x).win = x := rfl
@[simp] theorem State.withWin_auth (s : State) (x : Window) : (s.withWin x).auth = s.auth := rfl
@[simp] theorem State.withWin_sup (s : State) (x : Window) : (s.withWin x).sup = s.sup := rfl
@[simp] theorem State.withWin_set (s : State) (x : Window) : (s.withWin x).set = s.set := rfl
@[simp] theorem State.withWin_comb (s : State) (x : Window) : (s.withWin x).comb = s.comb := rfl
@[simp] theorem State.withWin_drive (s : State) (x : Window) : (s.withWin x).drive = s.drive := rfl
@[simp] theorem State.withWin_scan (s : State) (x : Window) : (s.withWin x).scan = s.scan := rfl
@[simp] theorem State.withWin_prov (s : State) (x : Window) : (s.withWin x).prov = s.prov := rfl
@[simp] theorem State.withWin_doors (s : State) (x : Window) : (s.withWin x).doors = s.doors := rfl
@[simp] theorem State.withWin_radio (s : State) (x : Window) : (s.withWin x).radio = s.radio := rfl
@[simp] theorem State.withWin_line (s : State) (x : Window) : (s.withWin x).line = s.line := rfl
@[simp] theorem State.withWin_pending (s : State) (x : Window) : (s.withWin x).pending = s.pending := rfl

/-! ### withAuth -/

@[simp] theorem State.withAuth_clock (s : State) (x : AuthorityTable) : (s.withAuth x).clock = s.clock := rfl
@[simp] theorem State.withAuth_odo (s : State) (x : AuthorityTable) : (s.withAuth x).odo = s.odo := rfl
@[simp] theorem State.withAuth_win (s : State) (x : AuthorityTable) : (s.withAuth x).win = s.win := rfl
@[simp] theorem State.withAuth_auth (s : State) (x : AuthorityTable) : (s.withAuth x).auth = x := rfl
@[simp] theorem State.withAuth_sup (s : State) (x : AuthorityTable) : (s.withAuth x).sup = s.sup := rfl
@[simp] theorem State.withAuth_set (s : State) (x : AuthorityTable) : (s.withAuth x).set = s.set := rfl
@[simp] theorem State.withAuth_comb (s : State) (x : AuthorityTable) : (s.withAuth x).comb = s.comb := rfl
@[simp] theorem State.withAuth_drive (s : State) (x : AuthorityTable) : (s.withAuth x).drive = s.drive := rfl
@[simp] theorem State.withAuth_scan (s : State) (x : AuthorityTable) : (s.withAuth x).scan = s.scan := rfl
@[simp] theorem State.withAuth_prov (s : State) (x : AuthorityTable) : (s.withAuth x).prov = s.prov := rfl
@[simp] theorem State.withAuth_doors (s : State) (x : AuthorityTable) : (s.withAuth x).doors = s.doors := rfl
@[simp] theorem State.withAuth_radio (s : State) (x : AuthorityTable) : (s.withAuth x).radio = s.radio := rfl
@[simp] theorem State.withAuth_line (s : State) (x : AuthorityTable) : (s.withAuth x).line = s.line := rfl
@[simp] theorem State.withAuth_pending (s : State) (x : AuthorityTable) : (s.withAuth x).pending = s.pending := rfl

/-! ### withSup -/

@[simp] theorem State.withSup_clock (s : State) (x : Supervisor) : (s.withSup x).clock = s.clock := rfl
@[simp] theorem State.withSup_odo (s : State) (x : Supervisor) : (s.withSup x).odo = s.odo := rfl
@[simp] theorem State.withSup_win (s : State) (x : Supervisor) : (s.withSup x).win = s.win := rfl
@[simp] theorem State.withSup_auth (s : State) (x : Supervisor) : (s.withSup x).auth = s.auth := rfl
@[simp] theorem State.withSup_sup (s : State) (x : Supervisor) : (s.withSup x).sup = x := rfl
@[simp] theorem State.withSup_set (s : State) (x : Supervisor) : (s.withSup x).set = s.set := rfl
@[simp] theorem State.withSup_comb (s : State) (x : Supervisor) : (s.withSup x).comb = s.comb := rfl
@[simp] theorem State.withSup_drive (s : State) (x : Supervisor) : (s.withSup x).drive = s.drive := rfl
@[simp] theorem State.withSup_scan (s : State) (x : Supervisor) : (s.withSup x).scan = s.scan := rfl
@[simp] theorem State.withSup_prov (s : State) (x : Supervisor) : (s.withSup x).prov = s.prov := rfl
@[simp] theorem State.withSup_doors (s : State) (x : Supervisor) : (s.withSup x).doors = s.doors := rfl
@[simp] theorem State.withSup_radio (s : State) (x : Supervisor) : (s.withSup x).radio = s.radio := rfl
@[simp] theorem State.withSup_line (s : State) (x : Supervisor) : (s.withSup x).line = s.line := rfl
@[simp] theorem State.withSup_pending (s : State) (x : Supervisor) : (s.withSup x).pending = s.pending := rfl

/-! ### withSet -/

@[simp] theorem State.withSet_clock (s : State) (x : InterventionSet) : (s.withSet x).clock = s.clock := rfl
@[simp] theorem State.withSet_odo (s : State) (x : InterventionSet) : (s.withSet x).odo = s.odo := rfl
@[simp] theorem State.withSet_win (s : State) (x : InterventionSet) : (s.withSet x).win = s.win := rfl
@[simp] theorem State.withSet_auth (s : State) (x : InterventionSet) : (s.withSet x).auth = s.auth := rfl
@[simp] theorem State.withSet_sup (s : State) (x : InterventionSet) : (s.withSet x).sup = s.sup := rfl
@[simp] theorem State.withSet_set (s : State) (x : InterventionSet) : (s.withSet x).set = x := rfl
@[simp] theorem State.withSet_comb (s : State) (x : InterventionSet) : (s.withSet x).comb = s.comb := rfl
@[simp] theorem State.withSet_drive (s : State) (x : InterventionSet) : (s.withSet x).drive = s.drive := rfl
@[simp] theorem State.withSet_scan (s : State) (x : InterventionSet) : (s.withSet x).scan = s.scan := rfl
@[simp] theorem State.withSet_prov (s : State) (x : InterventionSet) : (s.withSet x).prov = s.prov := rfl
@[simp] theorem State.withSet_doors (s : State) (x : InterventionSet) : (s.withSet x).doors = s.doors := rfl
@[simp] theorem State.withSet_radio (s : State) (x : InterventionSet) : (s.withSet x).radio = s.radio := rfl
@[simp] theorem State.withSet_line (s : State) (x : InterventionSet) : (s.withSet x).line = s.line := rfl
@[simp] theorem State.withSet_pending (s : State) (x : InterventionSet) : (s.withSet x).pending = s.pending := rfl

/-! ### withComb -/

@[simp] theorem State.withComb_clock (s : State) (x : Combiner) : (s.withComb x).clock = s.clock := rfl
@[simp] theorem State.withComb_odo (s : State) (x : Combiner) : (s.withComb x).odo = s.odo := rfl
@[simp] theorem State.withComb_win (s : State) (x : Combiner) : (s.withComb x).win = s.win := rfl
@[simp] theorem State.withComb_auth (s : State) (x : Combiner) : (s.withComb x).auth = s.auth := rfl
@[simp] theorem State.withComb_sup (s : State) (x : Combiner) : (s.withComb x).sup = s.sup := rfl
@[simp] theorem State.withComb_set (s : State) (x : Combiner) : (s.withComb x).set = s.set := rfl
@[simp] theorem State.withComb_comb (s : State) (x : Combiner) : (s.withComb x).comb = x := rfl
@[simp] theorem State.withComb_drive (s : State) (x : Combiner) : (s.withComb x).drive = s.drive := rfl
@[simp] theorem State.withComb_scan (s : State) (x : Combiner) : (s.withComb x).scan = s.scan := rfl
@[simp] theorem State.withComb_prov (s : State) (x : Combiner) : (s.withComb x).prov = s.prov := rfl
@[simp] theorem State.withComb_doors (s : State) (x : Combiner) : (s.withComb x).doors = s.doors := rfl
@[simp] theorem State.withComb_radio (s : State) (x : Combiner) : (s.withComb x).radio = s.radio := rfl
@[simp] theorem State.withComb_line (s : State) (x : Combiner) : (s.withComb x).line = s.line := rfl
@[simp] theorem State.withComb_pending (s : State) (x : Combiner) : (s.withComb x).pending = s.pending := rfl

/-! ### withDrive -/

@[simp] theorem State.withDrive_clock (s : State) (x : DriveEngine) : (s.withDrive x).clock = s.clock := rfl
@[simp] theorem State.withDrive_odo (s : State) (x : DriveEngine) : (s.withDrive x).odo = s.odo := rfl
@[simp] theorem State.withDrive_win (s : State) (x : DriveEngine) : (s.withDrive x).win = s.win := rfl
@[simp] theorem State.withDrive_auth (s : State) (x : DriveEngine) : (s.withDrive x).auth = s.auth := rfl
@[simp] theorem State.withDrive_sup (s : State) (x : DriveEngine) : (s.withDrive x).sup = s.sup := rfl
@[simp] theorem State.withDrive_set (s : State) (x : DriveEngine) : (s.withDrive x).set = s.set := rfl
@[simp] theorem State.withDrive_comb (s : State) (x : DriveEngine) : (s.withDrive x).comb = s.comb := rfl
@[simp] theorem State.withDrive_drive (s : State) (x : DriveEngine) : (s.withDrive x).drive = x := rfl
@[simp] theorem State.withDrive_scan (s : State) (x : DriveEngine) : (s.withDrive x).scan = s.scan := rfl
@[simp] theorem State.withDrive_prov (s : State) (x : DriveEngine) : (s.withDrive x).prov = s.prov := rfl
@[simp] theorem State.withDrive_doors (s : State) (x : DriveEngine) : (s.withDrive x).doors = s.doors := rfl
@[simp] theorem State.withDrive_radio (s : State) (x : DriveEngine) : (s.withDrive x).radio = s.radio := rfl
@[simp] theorem State.withDrive_line (s : State) (x : DriveEngine) : (s.withDrive x).line = s.line := rfl
@[simp] theorem State.withDrive_pending (s : State) (x : DriveEngine) : (s.withDrive x).pending = s.pending := rfl

/-! ### withScan -/

@[simp] theorem State.withScan_clock (s : State) (x : SensorScan) : (s.withScan x).clock = s.clock := rfl
@[simp] theorem State.withScan_odo (s : State) (x : SensorScan) : (s.withScan x).odo = s.odo := rfl
@[simp] theorem State.withScan_win (s : State) (x : SensorScan) : (s.withScan x).win = s.win := rfl
@[simp] theorem State.withScan_auth (s : State) (x : SensorScan) : (s.withScan x).auth = s.auth := rfl
@[simp] theorem State.withScan_sup (s : State) (x : SensorScan) : (s.withScan x).sup = s.sup := rfl
@[simp] theorem State.withScan_set (s : State) (x : SensorScan) : (s.withScan x).set = s.set := rfl
@[simp] theorem State.withScan_comb (s : State) (x : SensorScan) : (s.withScan x).comb = s.comb := rfl
@[simp] theorem State.withScan_drive (s : State) (x : SensorScan) : (s.withScan x).drive = s.drive := rfl
@[simp] theorem State.withScan_scan (s : State) (x : SensorScan) : (s.withScan x).scan = x := rfl
@[simp] theorem State.withScan_prov (s : State) (x : SensorScan) : (s.withScan x).prov = s.prov := rfl
@[simp] theorem State.withScan_doors (s : State) (x : SensorScan) : (s.withScan x).doors = s.doors := rfl
@[simp] theorem State.withScan_radio (s : State) (x : SensorScan) : (s.withScan x).radio = s.radio := rfl
@[simp] theorem State.withScan_line (s : State) (x : SensorScan) : (s.withScan x).line = s.line := rfl
@[simp] theorem State.withScan_pending (s : State) (x : SensorScan) : (s.withScan x).pending = s.pending := rfl

/-! ### withProv -/

@[simp] theorem State.withProv_clock (s : State) (x : Proving) : (s.withProv x).clock = s.clock := rfl
@[simp] theorem State.withProv_odo (s : State) (x : Proving) : (s.withProv x).odo = s.odo := rfl
@[simp] theorem State.withProv_win (s : State) (x : Proving) : (s.withProv x).win = s.win := rfl
@[simp] theorem State.withProv_auth (s : State) (x : Proving) : (s.withProv x).auth = s.auth := rfl
@[simp] theorem State.withProv_sup (s : State) (x : Proving) : (s.withProv x).sup = s.sup := rfl
@[simp] theorem State.withProv_set (s : State) (x : Proving) : (s.withProv x).set = s.set := rfl
@[simp] theorem State.withProv_comb (s : State) (x : Proving) : (s.withProv x).comb = s.comb := rfl
@[simp] theorem State.withProv_drive (s : State) (x : Proving) : (s.withProv x).drive = s.drive := rfl
@[simp] theorem State.withProv_scan (s : State) (x : Proving) : (s.withProv x).scan = s.scan := rfl
@[simp] theorem State.withProv_prov (s : State) (x : Proving) : (s.withProv x).prov = x := rfl
@[simp] theorem State.withProv_doors (s : State) (x : Proving) : (s.withProv x).doors = s.doors := rfl
@[simp] theorem State.withProv_radio (s : State) (x : Proving) : (s.withProv x).radio = s.radio := rfl
@[simp] theorem State.withProv_line (s : State) (x : Proving) : (s.withProv x).line = s.line := rfl
@[simp] theorem State.withProv_pending (s : State) (x : Proving) : (s.withProv x).pending = s.pending := rfl

/-! ### withDoors -/

@[simp] theorem State.withDoors_clock (s : State) (x : DoorController) : (s.withDoors x).clock = s.clock := rfl
@[simp] theorem State.withDoors_odo (s : State) (x : DoorController) : (s.withDoors x).odo = s.odo := rfl
@[simp] theorem State.withDoors_win (s : State) (x : DoorController) : (s.withDoors x).win = s.win := rfl
@[simp] theorem State.withDoors_auth (s : State) (x : DoorController) : (s.withDoors x).auth = s.auth := rfl
@[simp] theorem State.withDoors_sup (s : State) (x : DoorController) : (s.withDoors x).sup = s.sup := rfl
@[simp] theorem State.withDoors_set (s : State) (x : DoorController) : (s.withDoors x).set = s.set := rfl
@[simp] theorem State.withDoors_comb (s : State) (x : DoorController) : (s.withDoors x).comb = s.comb := rfl
@[simp] theorem State.withDoors_drive (s : State) (x : DoorController) : (s.withDoors x).drive = s.drive := rfl
@[simp] theorem State.withDoors_scan (s : State) (x : DoorController) : (s.withDoors x).scan = s.scan := rfl
@[simp] theorem State.withDoors_prov (s : State) (x : DoorController) : (s.withDoors x).prov = s.prov := rfl
@[simp] theorem State.withDoors_doors (s : State) (x : DoorController) : (s.withDoors x).doors = x := rfl
@[simp] theorem State.withDoors_radio (s : State) (x : DoorController) : (s.withDoors x).radio = s.radio := rfl
@[simp] theorem State.withDoors_line (s : State) (x : DoorController) : (s.withDoors x).line = s.line := rfl
@[simp] theorem State.withDoors_pending (s : State) (x : DoorController) : (s.withDoors x).pending = s.pending := rfl

/-! ### withRadio -/

@[simp] theorem State.withRadio_clock (s : State) (x : RadioUnit) : (s.withRadio x).clock = s.clock := rfl
@[simp] theorem State.withRadio_odo (s : State) (x : RadioUnit) : (s.withRadio x).odo = s.odo := rfl
@[simp] theorem State.withRadio_win (s : State) (x : RadioUnit) : (s.withRadio x).win = s.win := rfl
@[simp] theorem State.withRadio_auth (s : State) (x : RadioUnit) : (s.withRadio x).auth = s.auth := rfl
@[simp] theorem State.withRadio_sup (s : State) (x : RadioUnit) : (s.withRadio x).sup = s.sup := rfl
@[simp] theorem State.withRadio_set (s : State) (x : RadioUnit) : (s.withRadio x).set = s.set := rfl
@[simp] theorem State.withRadio_comb (s : State) (x : RadioUnit) : (s.withRadio x).comb = s.comb := rfl
@[simp] theorem State.withRadio_drive (s : State) (x : RadioUnit) : (s.withRadio x).drive = s.drive := rfl
@[simp] theorem State.withRadio_scan (s : State) (x : RadioUnit) : (s.withRadio x).scan = s.scan := rfl
@[simp] theorem State.withRadio_prov (s : State) (x : RadioUnit) : (s.withRadio x).prov = s.prov := rfl
@[simp] theorem State.withRadio_doors (s : State) (x : RadioUnit) : (s.withRadio x).doors = s.doors := rfl
@[simp] theorem State.withRadio_radio (s : State) (x : RadioUnit) : (s.withRadio x).radio = x := rfl
@[simp] theorem State.withRadio_line (s : State) (x : RadioUnit) : (s.withRadio x).line = s.line := rfl
@[simp] theorem State.withRadio_pending (s : State) (x : RadioUnit) : (s.withRadio x).pending = s.pending := rfl

/-! ### withLine -/

@[simp] theorem State.withLine_clock (s : State) (x : LineUnit) : (s.withLine x).clock = s.clock := rfl
@[simp] theorem State.withLine_odo (s : State) (x : LineUnit) : (s.withLine x).odo = s.odo := rfl
@[simp] theorem State.withLine_win (s : State) (x : LineUnit) : (s.withLine x).win = s.win := rfl
@[simp] theorem State.withLine_auth (s : State) (x : LineUnit) : (s.withLine x).auth = s.auth := rfl
@[simp] theorem State.withLine_sup (s : State) (x : LineUnit) : (s.withLine x).sup = s.sup := rfl
@[simp] theorem State.withLine_set (s : State) (x : LineUnit) : (s.withLine x).set = s.set := rfl
@[simp] theorem State.withLine_comb (s : State) (x : LineUnit) : (s.withLine x).comb = s.comb := rfl
@[simp] theorem State.withLine_drive (s : State) (x : LineUnit) : (s.withLine x).drive = s.drive := rfl
@[simp] theorem State.withLine_scan (s : State) (x : LineUnit) : (s.withLine x).scan = s.scan := rfl
@[simp] theorem State.withLine_prov (s : State) (x : LineUnit) : (s.withLine x).prov = s.prov := rfl
@[simp] theorem State.withLine_doors (s : State) (x : LineUnit) : (s.withLine x).doors = s.doors := rfl
@[simp] theorem State.withLine_radio (s : State) (x : LineUnit) : (s.withLine x).radio = s.radio := rfl
@[simp] theorem State.withLine_line (s : State) (x : LineUnit) : (s.withLine x).line = x := rfl
@[simp] theorem State.withLine_pending (s : State) (x : LineUnit) : (s.withLine x).pending = s.pending := rfl

/-! ### withPending -/

@[simp] theorem State.withPending_clock (s : State) (x : List Instr) : (s.withPending x).clock = s.clock := rfl
@[simp] theorem State.withPending_odo (s : State) (x : List Instr) : (s.withPending x).odo = s.odo := rfl
@[simp] theorem State.withPending_win (s : State) (x : List Instr) : (s.withPending x).win = s.win := rfl
@[simp] theorem State.withPending_auth (s : State) (x : List Instr) : (s.withPending x).auth = s.auth := rfl
@[simp] theorem State.withPending_sup (s : State) (x : List Instr) : (s.withPending x).sup = s.sup := rfl
@[simp] theorem State.withPending_set (s : State) (x : List Instr) : (s.withPending x).set = s.set := rfl
@[simp] theorem State.withPending_comb (s : State) (x : List Instr) : (s.withPending x).comb = s.comb := rfl
@[simp] theorem State.withPending_drive (s : State) (x : List Instr) : (s.withPending x).drive = s.drive := rfl
@[simp] theorem State.withPending_scan (s : State) (x : List Instr) : (s.withPending x).scan = s.scan := rfl
@[simp] theorem State.withPending_prov (s : State) (x : List Instr) : (s.withPending x).prov = s.prov := rfl
@[simp] theorem State.withPending_doors (s : State) (x : List Instr) : (s.withPending x).doors = s.doors := rfl
@[simp] theorem State.withPending_radio (s : State) (x : List Instr) : (s.withPending x).radio = s.radio := rfl
@[simp] theorem State.withPending_line (s : State) (x : List Instr) : (s.withPending x).line = s.line := rfl
@[simp] theorem State.withPending_pending (s : State) (x : List Instr) : (s.withPending x).pending = x := rfl

end Machine

end Sys2Proof
end

