-- ==== Sys2Proof/Laws/Records.lean ====
section
/-! SUPPORT. What a record that joins the report queue makes of it (R166 to R168, R170). -/

namespace Sys2Proof.Machine

set_option Elab.async false

variable {q r u : RadioUnit} {x : Report}

/-! ### The relation -/

theorem RadioUnit.Queues.refl (q : RadioUnit) : q.Queues q where
  inFlight := rfl
  head _ := rfl
  events := List.prefix_refl _
  positions := le_max_right _ _
  longer := le_refl _
  tally := min_le_right _ _
  counted := .inl rfl
  number := rfl
  carriedTally := rfl
  carriedLost := id
  wasLost := id

theorem RadioUnit.flying_congr (h : r.inFlight = q.inFlight) : r.flying = q.flying := by
  unfold RadioUnit.flying
  rw [h]

theorem RadioUnit.Queues.flying (h : q.Queues r) : r.flying = q.flying := RadioUnit.flying_congr h.inFlight

theorem RadioUnit.Queues.trans (h : q.Queues r) (k : r.Queues u) : q.Queues u where
  inFlight := k.inFlight.trans h.inFlight
  head a := by
    have b := k.head (by rw [h.flying]; exact a.trans h.longer)
    rw [h.flying] at b
    exact b.trans (h.head a)
  events := h.events.trans k.events
  positions := by
    have a := h.positions
    have b := k.positions
    omega
  longer := h.longer.trans k.longer
  tally := by
    have a := h.tally
    have b := k.tally
    omega
  counted := by
    rcases k.counted with b | b
    · rcases h.counted with a | a
      · exact .inl (b.trans a)
      · exact .inr (a.trans k.longer)
    · exact .inr b
  number := k.number.trans h.number
  carriedTally := k.carriedTally.trans h.carriedTally
  carriedLost a := h.carriedLost (k.carriedLost a)
  wasLost a := k.wasLost (h.wasLost a)

/-- Radio units that agree in the burst in flight, the queue and the tally queue alike. -/
theorem RadioUnit.Queues.of_same (hi : r.inFlight = q.inFlight) (hq : r.queue = q.queue) (hl : r.lost = q.lost)
    (hn : r.number = q.number) (ht : r.carriedTally = q.carriedTally) (hc : r.carriedLost = true → q.carriedLost = true)
    (hw : q.wasLost = true → r.wasLost = true) : q.Queues r := by
  have f := RadioUnit.flying_congr hi
  refine ⟨hi, fun _ => by rw [hq], ?_, ?_, by rw [hq], by rw [hl]; exact min_le_right _ _, .inl hl, hn, ht,
    hc, hw⟩
  · unfold RadioUnit.eventRecords
    rw [hq]
  · unfold RadioUnit.unsentPositions
    rw [hq, f]
    exact le_max_right _ _

/-! ### The two ways to queue -/

theorem filter_eraseP_not {α : Type} (p : α → Bool) (l : List α) :
    (l.eraseP p).filter (fun y => !p y) = l.filter (fun y => !p y) := by
  induction l with
  | nil => rfl
  | cons a l ih =>
    by_cases h : p a = true
    · simp [h]
    · simp [h, ih]

theorem filter_eraseP_length {α : Type} (p : α → Bool) (l : List α) :
    ((l.eraseP p).filter p).length ≤ (l.filter p).length :=
  (List.eraseP_sublist.filter p).length_le

theorem filter_map_not {α : Type} (p : α → Bool) (y : α) (hy : p y = true) (l : List α) :
    (l.map (fun z => if p z then y else z)).filter (fun z => !p z) = l.filter (fun z => !p z) := by
  induction l with
  | nil => rfl
  | cons a l ih =>
    rw [List.map_cons, List.filter_cons, List.filter_cons, ih]
    by_cases h : p a = true
    · simp [h, hy]
    · simp [h]

theorem filter_map_length {α : Type} (p : α → Bool) (y : α) (l : List α) :
    ((l.map (fun z => if p z then y else z)).filter p).length ≤ (l.filter p).length := by
  induction l with
  | nil => exact le_refl _
  | cons a l ih =>
    rw [List.map_cons, List.filter_cons, List.filter_cons]
    by_cases h : p a = true
    · simp only [h, if_true]
      split
      · simp only [List.length_cons]
        omega
      · simp only [List.length_cons]
        omega
    · simp only [h, Bool.false_eq_true, if_false]
      exact ih

theorem drop_head_append {α : Type} (n : Nat) (l m : List α) (h : n ≤ l.length) : (l.take n ++ m).drop n = m := by
  have e : (l.take n).length = n := by simpa using h
  rw [List.drop_append, e, Nat.sub_self, List.drop_eq_nil_of_le (le_of_eq e)]
  rfl

/-- An event record that joins the queue (R167). -/
theorem RadioUnit.queueEvent_queues (q : RadioUnit) (h : x.isPosition = false) : q.Queues (q.queueEvent x) := by
  unfold RadioUnit.queueEvent
  split
  · refine ⟨rfl, fun a => ?_, ?_, ?_, by simp, min_le_right _ _, .inl rfl, rfl, rfl, id, id⟩
    · exact List.take_append_of_le_length a
    · unfold RadioUnit.eventRecords
      rw [List.filter_append]
      exact List.prefix_append _ _
    · show ((List.drop q.flying (q.queue ++ [x])).filter _).length ≤ _
      rw [List.drop_append, List.filter_append, List.length_append]
      have : ((List.drop (q.flying - q.queue.length) [x]).filter Report.isPosition).length = 0 := by
        rw [List.length_eq_zero_iff, List.filter_eq_nil_iff]
        intro a m
        have := List.mem_of_mem_drop m
        simp_all
      rw [this]
      exact le_max_right _ _
  · split
    · rename_i full hp
      obtain ⟨a, ha, pa⟩ := List.any_eq_true.1 hp
      have fl : q.flying ≤ q.queue.length := by
        by_contra c
        rw [List.drop_eq_nil_of_le (by omega)] at ha
        simp at ha
      have len := List.length_eraseP_of_mem ha pa
      have pos := List.length_pos_of_mem ha
      refine ⟨rfl, fun _ => ?_, ?_, ?_, ?_, min_le_right _ _, .inl rfl, rfl, rfl, id, id⟩
      · show List.take q.flying (q.queue.take q.flying ++ _ ++ [x]) = _
        rw [List.append_assoc, List.take_append_of_le_length (by simpa using fl), List.take_take, Nat.min_self]
      · unfold RadioUnit.eventRecords
        rw [List.filter_append, List.filter_append, filter_eraseP_not, ← List.filter_append, List.take_append_drop]
        exact List.prefix_append _ _
      · show ((List.drop q.flying (q.queue.take q.flying ++ _ ++ [x])).filter _).length ≤ _
        rw [List.append_assoc, drop_head_append _ _ _ fl, List.filter_append, List.length_append]
        have e := filter_eraseP_length Report.isPosition (q.queue.drop q.flying)
        have z : ([x].filter Report.isPosition).length = 0 := by simp [h]
        rw [z]
        exact e.trans (le_max_right _ _)
      · simp only [List.length_append, List.length_take, List.length_singleton, len, List.length_drop] at *
        omega
    · rename_i full _
      refine ⟨rfl, fun _ => rfl, List.prefix_refl _, le_max_right _ _, le_refl _, ?_, .inr ?_, rfl, rfl, id, id⟩
      · show min 255 q.lost ≤ min 255 (q.lost + 1)
        omega
      · simp only [not_lt] at full
        exact full

/-- A POSITION record that joins the queue (R168). -/
theorem RadioUnit.queuePosition_queues (q : RadioUnit) (h : x.isPosition = true) : q.Queues (q.queuePosition x) := by
  unfold RadioUnit.queuePosition
  split
  · rename_i hp
    obtain ⟨a, ha, pa⟩ := List.any_eq_true.1 hp
    have fl : q.flying ≤ q.queue.length := by
      by_contra c
      rw [List.drop_eq_nil_of_le (by omega)] at ha
      simp at ha
    refine ⟨rfl, fun _ => ?_, ?_, ?_, ?_, min_le_right _ _, .inl rfl, rfl, rfl, id, id⟩
    · show List.take q.flying (q.queue.take q.flying ++ _) = _
      rw [List.take_append_of_le_length (by simpa using fl), List.take_take, Nat.min_self]
    · unfold RadioUnit.eventRecords
      rw [List.filter_append, filter_map_not _ _ h, ← List.filter_append, List.take_append_drop]
    · show ((List.drop q.flying (q.queue.take q.flying ++ _)).filter _).length ≤ _
      rw [drop_head_append _ _ _ fl]
      exact (filter_map_length _ _ _).trans (le_max_right _ _)
    · simp only [List.length_append, List.length_map, List.length_take, List.length_drop]
      omega
  · rename_i hp
    split
    · refine ⟨rfl, fun a => List.take_append_of_le_length a, ?_, ?_, by simp, min_le_right _ _, .inl rfl, rfl, rfl, id, id⟩
      · unfold RadioUnit.eventRecords
        rw [List.filter_append]
        exact List.prefix_append _ _
      · show ((List.drop q.flying (q.queue ++ [x])).filter _).length ≤ _
        have none : (q.queue.drop q.flying).filter Report.isPosition = [] := by
          rw [List.filter_eq_nil_iff]
          intro a m p
          exact hp (List.any_eq_true.2 ⟨a, m, p⟩)
        rw [List.drop_append, List.filter_append, none, List.nil_append]
        refine (List.length_filter_le _ _).trans (le_trans ?_ (le_max_left _ _))
        simp
    · exact RadioUnit.Queues.refl q

end Sys2Proof.Machine
end

