-- ==== Sys2Proof/Laws/Frame.lean ====
section
/-! SUPPORT. Frames compose: reflexive, transitive, and weaker with more blocks or causes listed. The frames of the updates
of one block. -/

namespace Sys2Proof.Machine

set_option Elab.async false

variable {free : List Block} {raised removed : List Cause} {s t u : State}

theorem Frame.refl : Frame free raised removed s s where
  clock := rfl
  pending := rfl
  odometry _ := rfl
  slower _ := le_refl _
  still _ _ := rfl
  window _ := rfl
  authority _ := rfl
  evaluationTimer _ := rfl
  loop _ := rfl
  driver _ := rfl
  park _ := .inl rfl
  motors _ := rfl
  scan _ := rfl
  settling _ _ := .inr ⟨rfl, rfl⟩
  owed _ := rfl
  health _ := rfl
  capability _ := rfl
  proofTimer _ := rfl
  doors _ := rfl
  radio _ := rfl
  records _ := RadioUnit.Queues.refl _
  listening _ _ _ := rfl
  opState _ := .inl rfl
  cabTimer _ _ := .inl rfl
  settings _ := rfl
  cabPort _ := rfl
  crewPort _ := rfl
  kept _ _ h _ := h
  added _ _ h := .inl h

theorem Frame.standstill (f : Frame free raised removed s t) (h : Block.odometry ∉ free) :
    t.odo.standstill = s.odo.standstill := by rw [f.odometry h]

theorem Frame.trans (f : Frame free raised removed s t) (g : Frame free raised removed t u)
    (nq : Block.opState ∈ free → Block.park ∈ free ∧ Block.cabTimer ∈ free := by decide) :
    Frame free raised removed s u where
  clock := g.clock.trans f.clock
  pending := g.pending.trans f.pending
  odometry h := by
    have hg := g.odometry h
    rw [f.odometry h] at hg
    exact hg
  slower h := (g.slower h).trans (f.slower h)
  still h k := (g.still h (by rw [f.standstill h, k])).trans (f.still h k)
  window h := (g.window h).trans (f.window h)
  authority h := (g.authority h).trans (f.authority h)
  evaluationTimer h := (g.evaluationTimer h).trans (f.evaluationTimer h)
  loop h := (g.loop h).trans (f.loop h)
  driver h := (g.driver h).trans (f.driver h)
  park h := by
    have ho : Block.opState ∉ free := fun k => h (nq k).1
    rcases f.park h with a | ⟨a, b⟩ <;> rcases g.park h with c | ⟨c, d⟩
    · exact .inl (c.trans a)
    · rcases f.opState ho with k | ⟨k, _⟩
      · exact .inr ⟨k ▸ c, d⟩
      · exact .inr ⟨k, d⟩
    · rcases g.opState ho with k | ⟨k, k'⟩
      · exact .inr ⟨a, k.trans b⟩
      · exact .inr ⟨a, k'⟩
    · exact .inr ⟨a, d⟩
  motors h := (g.motors h).trans (f.motors h)
  scan h := (g.scan h).trans (f.scan h)
  settling h c := by
    rcases g.settling h c with b | ⟨b1, b2⟩
    · exact .inl b
    · rcases f.settling h c with a | ⟨a1, a2⟩
      · exact .inl (by rw [b2, a, g.clock])
      · exact .inr ⟨b1.trans a1, b2.trans a2⟩
  owed h := (g.owed h).trans (f.owed h)
  health h := (g.health h).trans (f.health h)
  capability h := (g.capability h).trans (f.capability h)
  proofTimer h := (g.proofTimer h).trans (f.proofTimer h)
  doors h := (g.doors h).trans (f.doors h)
  radio h := by
    have hg := g.radio h
    rw [f.radio h] at hg
    exact hg
  records h := (f.records h).trans (g.records h)
  listening h k l := (g.listening h k (by rw [f.settings k]; exact l)).trans (f.listening h k l)
  opState h := by
    rcases f.opState h with a | ⟨a, b⟩ <;> rcases g.opState h with c | ⟨c, d⟩
    · exact .inl (c.trans a)
    · exact .inr ⟨a ▸ c, d⟩
    · exact .inr ⟨a, c.trans b⟩
    · exact .inr ⟨a, d⟩
  cabTimer h k := by
    rcases f.cabTimer h k with a | ⟨a, b⟩ <;> rcases g.cabTimer h k with c | ⟨c, d⟩
    · exact .inl (c.trans a)
    · rcases f.opState k with e | ⟨e, _⟩
      · exact .inr ⟨e ▸ c, d⟩
      · exact .inr ⟨e, d⟩
    · exact .inr ⟨a, c.trans b⟩
    · exact .inr ⟨a, d⟩
  settings h := (g.settings h).trans (f.settings h)
  cabPort h := (g.cabPort h).trans (f.cabPort h)
  crewPort h := (g.crewPort h).trans (f.crewPort h)
  kept h e k l := g.kept h e (f.kept h e k l) l
  added h e k := by
    rcases g.added h e k with a | a
    · exact f.added h e a
    · exact .inr a

theorem Frame.mono {free' : List Block} {raised' removed' : List Cause} (f : Frame free raised removed s t)
    (hb : ∀ b ∈ free, b ∈ free') (hr : ∀ c ∈ raised, c ∈ raised') (hm : ∀ c ∈ removed, c ∈ removed')  :
    Frame free' raised' removed' s t where
  clock := f.clock
  pending := f.pending
  odometry h := f.odometry fun k => h (hb _ k)
  slower h := f.slower fun k => h (hb _ k)
  still h := f.still fun k => h (hb _ k)
  window h := f.window fun k => h (hb _ k)
  authority h := f.authority fun k => h (hb _ k)
  evaluationTimer h := f.evaluationTimer fun k => h (hb _ k)
  loop h := f.loop fun k => h (hb _ k)
  driver h := f.driver fun k => h (hb _ k)
  park h := f.park fun k => h (hb _ k)
  motors h := f.motors fun k => h (hb _ k)
  scan h := f.scan fun k => h (hb _ k)
  settling h := f.settling fun k => h (hb _ k)
  owed h := f.owed fun k => h (hb _ k)
  health h := f.health fun k => h (hb _ k)
  capability h := f.capability fun k => h (hb _ k)
  proofTimer h := f.proofTimer fun k => h (hb _ k)
  doors h := f.doors fun k => h (hb _ k)
  radio h := f.radio fun k => h (hb _ k)
  records h := f.records fun k => h (hb _ k)
  listening h k := f.listening (fun l => h (hb _ l)) (fun l => k (hb _ l))
  opState h := f.opState fun k => h (hb _ k)
  cabTimer h k := f.cabTimer (fun l => h (hb _ l)) (fun l => k (hb _ l))
  settings h := f.settings fun k => h (hb _ k)
  cabPort h := f.cabPort fun k => h (hb _ k)
  crewPort h := f.crewPort fun k => h (hb _ k)
  kept h e k l := f.kept (fun l => h (hb _ l)) e k fun m => l (hm _ m)
  added h e k := (f.added (fun l => h (hb _ l)) e k).imp_right (hr _)

/-! ### Updates of one block -/

theorem Frame.withOdo (x : Odometry) : Frame [.odometry] raised removed s (s.withOdo x) := by
  constructor <;> intros <;>
    first
    | rfl | exact RadioUnit.Queues.refl _ | exact le_refl _ | exact .inl rfl | assumption | exact .inl ‹_› | exact .inr ⟨rfl, rfl⟩
    | simp at *

theorem Frame.withWin (x : Window) : Frame [.window] raised removed s (s.withWin x) := by
  constructor <;> intros <;>
    first
    | rfl | exact RadioUnit.Queues.refl _ | exact le_refl _ | exact .inl rfl | assumption | exact .inl ‹_› | exact .inr ⟨rfl, rfl⟩
    | simp at *

theorem Frame.withAuth (x : AuthorityTable) : Frame [.authority] raised removed s (s.withAuth x) := by
  constructor <;> intros <;>
    first
    | rfl | exact RadioUnit.Queues.refl _ | exact le_refl _ | exact .inl rfl | assumption | exact .inl ‹_› | exact .inr ⟨rfl, rfl⟩
    | simp at *

theorem Frame.withSup (x : Supervisor) : Frame [.evaluationTimer] raised removed s (s.withSup x) := by
  constructor <;> intros <;>
    first
    | rfl | exact RadioUnit.Queues.refl _ | exact le_refl _ | exact .inl rfl | assumption | exact .inl ‹_› | exact .inr ⟨rfl, rfl⟩
    | simp at *

theorem Frame.withSet (x : InterventionSet) : Frame [.loop, .entries] raised removed s (s.withSet x) := by
  constructor <;> intros <;>
    first
    | rfl | exact RadioUnit.Queues.refl _ | exact le_refl _ | exact .inl rfl | assumption | exact .inl ‹_› | exact .inr ⟨rfl, rfl⟩
    | simp at *

/-- A change of the deviation starts alone. -/
theorem Frame.withFeedback (x : Combiner) (h : x.driver = s.comb.driver) (k : x.park = s.comb.park) :
    Frame [.scan] raised removed s (s.withComb x) := by
  constructor <;> intros <;>
    first
    | exact h | exact .inl k | rfl | exact RadioUnit.Queues.refl _ | exact le_refl _ | exact .inl rfl | assumption | exact .inl ‹_›
    | simp at *

theorem Frame.withDrive (x : DriveEngine) : Frame [.motors] raised removed s (s.withDrive x) := by
  constructor <;> intros <;>
    first
    | rfl | exact RadioUnit.Queues.refl _ | exact le_refl _ | exact .inl rfl | assumption | exact .inl ‹_› | exact .inr ⟨rfl, rfl⟩
    | simp at *

theorem Frame.withScan (x : SensorScan) : Frame [.scan] raised removed s (s.withScan x) := by
  constructor <;> intros <;>
    first
    | rfl | exact RadioUnit.Queues.refl _ | exact le_refl _ | exact .inl rfl | assumption | exact .inl ‹_› | exact .inr ⟨rfl, rfl⟩
    | simp at *

theorem Frame.withProv (x : Proving) : Frame [.ratings, .proofTimer] raised removed s (s.withProv x) := by
  constructor <;> intros <;>
    first
    | rfl | exact RadioUnit.Queues.refl _ | exact le_refl _ | exact .inl rfl | assumption | exact .inl ‹_› | exact .inr ⟨rfl, rfl⟩
    | simp at *

theorem Frame.withDoors (x : DoorController) : Frame [.doors] raised removed s (s.withDoors x) := by
  constructor <;> intros <;>
    first
    | rfl | exact RadioUnit.Queues.refl _ | exact le_refl _ | exact .inl rfl | assumption | exact .inl ‹_› | exact .inr ⟨rfl, rfl⟩
    | simp at *

theorem Frame.withRadio (x : RadioUnit) : Frame [.radio, .queue] raised removed s (s.withRadio x) := by
  constructor <;> intros <;>
    first
    | rfl | exact RadioUnit.Queues.refl _ | exact le_refl _ | exact .inl rfl | assumption | exact .inl ‹_› | exact .inr ⟨rfl, rfl⟩
    | simp at *

/-- A change of the Radio Unit that leaves the burst in flight, the queue and the lost tally. -/
theorem Frame.withRadioBeside (x : RadioUnit) (h : s.radio.Queues x) : Frame [.radio] raised removed s (s.withRadio x) := by
  constructor <;> intros <;>
    first
    | exact h | rfl | exact le_refl _ | exact .inl rfl | assumption | exact .inl ‹_› | exact .inr ⟨rfl, rfl⟩
    | simp at *

theorem Frame.withLine (x : LineUnit) :
    Frame [.opState, .park, .cabTimer, .settings, .cabPort, .crewPort] raised removed s (s.withLine x) := by
  constructor <;> intros <;>
    first
    | rfl | exact RadioUnit.Queues.refl _ | exact le_refl _ | exact .inl rfl | assumption | exact .inl ‹_› | exact .inr ⟨rfl, rfl⟩
    | simp at *

theorem Frame.withFigures_of (x : Supervisor) (h : x.timer = s.sup.timer) :
    Frame free raised removed s (s.withSup x) := by
  constructor <;> intros <;> first | exact h | rfl | exact RadioUnit.Queues.refl _ | exact le_refl _ | exact .inl rfl | assumption | exact .inl ‹_› | exact .inr ⟨rfl, rfl⟩

theorem Frame.withDemands (x : Combiner) (h : x.driver = s.comb.driver) (k : x.park = s.comb.park)
    (l : ∀ c, x.feedback.get c = { lastChange := s.clock, deviationStart := none }
      ∨ x.demand.get c = s.comb.demand.get c ∧ x.feedback.get c = s.comb.feedback.get c) :
    Frame free raised removed s (s.withComb x) := by
  constructor <;> intros <;>
    first | exact h | exact l _ | exact .inl k | rfl | exact RadioUnit.Queues.refl _ | exact le_refl _ | exact .inl rfl | assumption | exact .inl ‹_›

theorem Frame.withValves (x : DriveEngine) (h : x.motor = s.drive.motor) :
    Frame free raised removed s (s.withDrive x) := by
  constructor <;> intros <;> first | exact h | rfl | exact RadioUnit.Queues.refl _ | exact le_refl _ | exact .inl rfl | assumption | exact .inl ‹_› | exact .inr ⟨rfl, rfl⟩

theorem Frame.withProof (x : Proving) (h1 : x.owed = s.prov.owed) (h2 : x.health = s.prov.health)
    (h3 : x.capability = s.prov.capability) (h4 : x.timer = s.prov.timer) :
    Frame free raised removed s (s.withProv x) := by
  constructor <;> intros <;>
    first
    | exact h1 | exact h2 | exact h3 | exact h4 | rfl | exact RadioUnit.Queues.refl _ | exact le_refl _ | exact .inl rfl | assumption
    | exact .inl ‹_› | exact .inr ⟨rfl, rfl⟩

theorem Frame.withEntries (x : InterventionSet) (h : x.loopOpen = s.set.loopOpen)
    (k : ∀ e ∈ s.set.entries, e.cause ∉ removed → e ∈ x.entries)
    (a : ∀ e ∈ x.entries, e ∈ s.set.entries ∨ e.cause ∈ raised) : Frame free raised removed s (s.withSet x) := by
  constructor <;> intros <;>
    first
    | exact h | rfl | exact RadioUnit.Queues.refl _ | exact le_refl _ | exact .inl rfl | exact .inr ⟨rfl, rfl⟩ | exact k _ ‹_› ‹_› | exact a _ ‹_›

theorem Frame.withQueue (x : RadioUnit) (h : x = { s.radio with queue := x.queue, lost := x.lost })
    (k : s.cfg.listenOnly = true → x = s.radio) (l : s.radio.Queues x) : Frame free raised removed s (s.withRadio x) := by
  constructor <;> intros <;>
    first
    | exact h | exact k ‹_› | exact l | rfl | exact le_refl _ | exact .inl rfl | assumption | exact .inl ‹_› | exact .inr ⟨rfl, rfl⟩

theorem Frame.withSpeed (v : Nat) (h : v ≤ s.odo.v) (k : s.odo.standstill = true → v = s.odo.v) :
    Frame free raised removed s (s.withOdo { s.odo with v := v }) := by
  constructor <;> intros <;>
    first | exact h | exact k ‹_› | rfl | exact RadioUnit.Queues.refl _ | exact .inl rfl | assumption | exact .inl ‹_› | exact .inr ⟨rfl, rfl⟩

/-- A change from QUIESCING to CONFIG needs no block listed. -/
theorem Frame.ofQuiescing (f : Frame [.park, .opState, .cabTimer] raised removed s t) (h : s.line.opState = .quiescing)
    (k : t.line.opState = .config) (l : t.line.cabTimer = none) : Frame [] raised removed s t where
  clock := f.clock
  pending := f.pending
  odometry _ := f.odometry (by simp)
  slower _ := f.slower (by simp)
  still _ := f.still (by simp)
  window _ := f.window (by simp)
  authority _ := f.authority (by simp)
  evaluationTimer _ := f.evaluationTimer (by simp)
  loop _ := f.loop (by simp)
  driver _ := f.driver (by simp)
  park _ := .inr ⟨h, k⟩
  motors _ := f.motors (by simp)
  scan _ := f.scan (by simp)
  settling _ := f.settling (by simp)
  owed _ := f.owed (by simp)
  health _ := f.health (by simp)
  capability _ := f.capability (by simp)
  proofTimer _ := f.proofTimer (by simp)
  doors _ := f.doors (by simp)
  radio _ := f.radio (by simp)
  records _ := f.records (by simp)
  listening _ _ := f.listening (by simp) (by simp)
  opState _ := .inr ⟨h, k⟩
  cabTimer _ _ := .inr ⟨h, l⟩
  settings _ := f.settings (by simp)
  cabPort _ := f.cabPort (by simp)
  crewPort _ := f.crewPort (by simp)
  kept _ := f.kept (by simp)
  added _ := f.added (by simp)

end Sys2Proof.Machine
end

