-- ==== Sys2Proof/Laws/Combiner.lean ====
section
/-! SUPPORT. What a recomputation of the combiner and the beginning and end of a proof can do. -/

namespace Sys2Proof.Machine

set_option Elab.async false

variable {r m : List Cause} {s t : State}

/-- While the combiner knows of an emergency, every drive value is 100 and V1 to V4 are wholly on; and the valve outputs carry
the drive values as they were last written. -/
def State.Latch (s : State) : Prop :=
  (s.comb.emergency = true → ∀ c, s.comb.drive.get c = 100 ∧ (s.drive.valve.get c).IsFull) ∧ s.ValveLaw

/-- The part of the brake law that the doors and the operating state do not enter but through the spring. -/
def State.Braked (s : State) : Prop :=
  s.comb.springApplied = s.springLaw s.comb.park ∧ s.comb.emergency = s.set.hasLevel .emergency
    ∧ (s.set.hasLevel .emergency = true →
        ∀ c, s.comb.demand.get c = 100 ∧ s.comb.drive.get c = 100 ∧ (s.drive.valve.get c).IsFull)
    ∧ s.DriveLaw ∧ s.ValveLaw ∧ (s.drive.ganged = true → s.cfg.gangRack = true ∧ s.prov.proof = none)

theorem brakeLaw_iff : s.BrakeLaw ↔ s.comb.holding = s.holdingRequest ∧ s.Braked := Iff.rfl

/-- The laws that no notice breaks on its way. -/
structure State.Core (s : State) : Prop where
  interventions : s.InterventionLaw
  timers : s.TimerLaw
  capacity : s.CapacityLaw
  ranges : s.RangeLaw
  latch : s.Latch

theorem State.Braked.latch (h : s.Braked) : s.Latch := by
  obtain ⟨-, a, b, -, v, -⟩ := h
  exact ⟨fun e c => (b (a ▸ e) c).2, v⟩

theorem State.Sound.core (h : s.Sound) : s.Core :=
  ⟨h.interventions, h.timers, h.capacity, h.ranges, (brakeLaw_iff.1 h.brakes).2.latch⟩

/-! ### Outputs -/

theorem onTime_full (period : Nat) : onTime 100 period = period := by simp [onTime]

theorem Output.IsFull.endPeriod {o : Output} (h : o.IsFull) (p now : Nat) : (o.endPeriod p now).IsFull := by
  obtain ⟨h1, h2, -, -⟩ := h
  unfold Output.endPeriod
  split
  · simp_all
  · simp [IsFull, h2, onTime_full]

theorem Output.restartFull_isFull (o : Output) (p now : Nat) : (o.restartFull p now).IsFull := by
  simp [Output.restartFull, Output.IsFull]

theorem Output.IsFull.follow {o : Output} (h : o.IsFull) {old new : Nat} (e : new = old) (p now : Nat) :
    (o.follow old new p now).IsFull := by
  simpa [Output.follow, e] using h

theorem Output.IsFull.write {o : Output} (h : o.IsFull) (x : Option Sense) (p now : Nat) :
    (o.write 100 x p now).IsFull := by
  obtain ⟨h1, h2, h3, h4⟩ := h
  unfold Output.write
  split
  · simp_all
  · simp [IsFull, h1, h3, onTime_full]

theorem DriveEngine.writeValves_full {e : DriveEngine} {old new : PerChannel Nat} {g : Bool} {p now : Nat}
    (h : ∀ c, (e.valve.get c).IsFull) (ho : ∀ c, old.get c = 100) (hn : ∀ c, new.get c = 100) (c : Channel) :
    ((e.writeValves old new g p now).valve.get c).IsFull := by
  have eq : ∀ c, new.get c = old.get c := fun c => (hn c).trans (ho c).symm
  have f1 := Output.IsFull.follow (h .rb1) (eq .rb1) p now
  cases c
  · exact f1
  · have n : new.rb2 = 100 := hn .rb2
    have e2 : new.rb2 = old.rb2 := eq .rb2
    simp only [DriveEngine.writeValves, PerChannel.get]
    split
    · split
      · exact f1
      · rw [n]
        exact Output.IsFull.write (h .rb2) none p now
    · exact Output.IsFull.follow (h .rb2) e2 p now
  · exact Output.IsFull.follow (h .ab1) (eq .ab1) p now
  · exact Output.IsFull.follow (h .ab2) (eq .ab2) p now

/-! ### What a valve carries -/

theorem Output.Carries.write {o : Output} {n : Nat} (h : o.Carries n) (duty p now : Nat) :
    (o.write duty none p now).Carries duty := by
  obtain ⟨-, h2, h3⟩ := h
  unfold Output.write Output.Carries
  split
  · exact ⟨.inl ⟨rfl, rfl, rfl⟩, rfl, rfl⟩
  · rename_i b e
    refine ⟨.inl ⟨by simp [e], rfl, rfl⟩, h2, ?_⟩
    dsimp only
    split
    · exact h3
    · rfl

theorem Output.Carries.follow {o : Output} {old : Nat} (h : o.Carries old) (new p now : Nat) :
    (o.follow old new p now).Carries new := by
  unfold Output.follow
  split
  · rename_i e
    exact e ▸ h
  · exact h.write new p now

theorem Output.Carries.endPeriod {o : Output} {n : Nat} (h : o.Carries n) (p now : Nat) : (o.endPeriod p now).Carries n := by
  unfold Output.endPeriod
  split
  · exact h
  · rename_i b e
    obtain ⟨h1 | h1, -, h3⟩ := h
    · exact ⟨.inl ⟨rfl, h1.2.1, by simp [h1.2.1, onTime]⟩, h3, h3⟩
    · rw [h1.1] at e
      exact absurd e (by simp)

theorem Output.Carries.restartFull {o : Output} {n : Nat} (h : o.Carries n) (p now : Nat) : (o.restartFull p now).Carries 100 :=
  ⟨.inl ⟨rfl, rfl, by simp [Output.restartFull]⟩, h.2⟩

/-- Each valve output carries the value of its channel, or V2 follows V1. -/
def DriveEngine.Carries (e : DriveEngine) (x : PerChannel Nat) : Prop :=
  (∀ c, c ≠ .rb2 → (e.valve.get c).Carries (x.get c)) ∧ (e.ganged = false → e.valve.rb2.Carries x.rb2)
    ∧ (e.ganged = true → e.valve.rb2 = e.valve.rb1)

theorem State.valveLaw_iff : s.ValveLaw ↔ s.drive.Carries s.comb.drive := Iff.rfl

namespace DriveEngine.Carries

variable {e : DriveEngine} {x : PerChannel Nat}

/-- V2 carries some value, whether it follows V1 or not. -/
theorem rb2 (h : e.Carries x) : ∃ n, e.valve.rb2.Carries n := by
  cases g : e.ganged
  · exact ⟨_, h.2.1 g⟩
  · rw [h.2.2 g]
    exact ⟨_, h.1 .rb1 (by decide)⟩

theorem writeValves (h : e.Carries x) (new : PerChannel Nat) (g : Bool) (p now : Nat) :
    (e.writeValves x new g p now).Carries new := by
  obtain ⟨n, hn⟩ := h.rb2
  obtain ⟨h1, h2, h3⟩ := h
  refine ⟨fun c k => ?_, fun k => ?_, fun k => ?_⟩
  · cases c
    · exact (h1 .rb1 k).follow _ _ _
    · exact absurd rfl k
    · exact (h1 .ab1 k).follow _ _ _
    · exact (h1 .ab2 k).follow _ _ _
  · simp only [DriveEngine.writeValves] at k ⊢
    cases hg : e.ganged
    · exact (h2 hg).follow _ _ _
    · rw [hg, Bool.true_and] at k
      simp only [if_true, k, Bool.false_eq_true, if_false]
      exact hn.write _ _ _
  · simp only [DriveEngine.writeValves, Bool.and_eq_true] at k ⊢
    simp [k.1, k.2]

theorem restartValves (h : e.Carries x) (new : PerChannel Nat) (hn : ∀ c, new.get c = 100) (g : Bool) (p now : Nat) :
    (e.restartValves g p now).Carries new := by
  obtain ⟨n, k⟩ := h.rb2
  have all : ∀ c, ((e.restartValves g p now).valve.get c).Carries (new.get c) := by
    intro c
    rw [hn c]
    cases c
    · exact (h.1 .rb1 (by decide)).restartFull p now
    · exact k.restartFull p now
    · exact (h.1 .ab1 (by decide)).restartFull p now
    · exact (h.1 .ab2 (by decide)).restartFull p now
  refine ⟨fun c _ => all c, fun _ => all .rb2, fun _ => ?_⟩
  have a := (h.1 .rb1 (by decide)).2
  have b := k.2
  simp only [PerChannel.get] at a
  simp only [DriveEngine.restartValves, PerChannel.of, PerChannel.get, Output.restartFull]
  rw [a.1, a.2, b.1, b.2]

theorem valveEnds (h : e.Carries x) (c : Channel) (g : Bool) (hg : e.ganged = true → g = true) (p now : Nat) : (e.valveEnds c g p now).Carries x := by
  obtain ⟨h1, h2, h3⟩ := h
  have f := fun c k => (h1 c k).endPeriod p now
  cases c
  · simp only [DriveEngine.valveEnds]
    split
    · refine ⟨fun c k => ?_, fun k => absurd k (by simp), fun _ => rfl⟩
      cases c
      · exact f .rb1 k
      · exact absurd rfl k
      · exact h1 .ab1 k
      · exact h1 .ab2 k
    · rename_i k
      have n : e.ganged = false := by
        cases a : e.ganged
        · rfl
        · exact absurd (hg a) k
      refine ⟨fun c k => ?_, h2, fun k => absurd (n.symm.trans k) (by decide)⟩
      cases c
      · exact f .rb1 k
      · exact absurd rfl k
      · exact h1 .ab1 k
      · exact h1 .ab2 k
  · simp only [DriveEngine.valveEnds]
    split
    · exact ⟨h1, h2, h3⟩
    · rename_i k
      refine ⟨fun c k => ?_, fun k' => (h2 k').endPeriod p now, fun k' => absurd k' k⟩
      cases c
      · exact h1 .rb1 k
      · exact absurd rfl k
      · exact h1 .ab1 k
      · exact h1 .ab2 k
  · refine ⟨fun c k => ?_, h2, h3⟩
    cases c
    · exact h1 .rb1 k
    · exact absurd rfl k
    · exact f .ab1 k
    · exact h1 .ab2 k
  · refine ⟨fun c k => ?_, h2, h3⟩
    cases c
    · exact h1 .rb1 k
    · exact absurd rfl k
    · exact h1 .ab1 k
    · exact f .ab2 k

end DriveEngine.Carries

/-! ### A recomputation -/

@[simp] theorem State.recombine_clock (s : State) (b : Bool) : (s.recombine b).clock = s.clock := rfl
@[simp] theorem State.recombine_odo (s : State) (b : Bool) : (s.recombine b).odo = s.odo := rfl
@[simp] theorem State.recombine_win (s : State) (b : Bool) : (s.recombine b).win = s.win := rfl
@[simp] theorem State.recombine_auth (s : State) (b : Bool) : (s.recombine b).auth = s.auth := rfl
@[simp] theorem State.recombine_sup (s : State) (b : Bool) : (s.recombine b).sup = s.sup := rfl
@[simp] theorem State.recombine_set (s : State) (b : Bool) : (s.recombine b).set = s.set := rfl
@[simp] theorem State.recombine_scan (s : State) (b : Bool) : (s.recombine b).scan = s.scan := rfl
@[simp] theorem State.recombine_prov (s : State) (b : Bool) : (s.recombine b).prov = s.prov := rfl
@[simp] theorem State.recombine_doors (s : State) (b : Bool) : (s.recombine b).doors = s.doors := rfl
@[simp] theorem State.recombine_radio (s : State) (b : Bool) : (s.recombine b).radio = s.radio := rfl
@[simp] theorem State.recombine_line (s : State) (b : Bool) : (s.recombine b).line = s.line := rfl
@[simp] theorem State.recombine_pending (s : State) (b : Bool) : (s.recombine b).pending = s.pending := rfl

@[simp] theorem State.recombine_driver (s : State) (b : Bool) : (s.recombine b).comb.driver = s.comb.driver := rfl
@[simp] theorem State.recombine_park (s : State) (b : Bool) :
    (s.recombine b).comb.park = if b then .apply else s.comb.park := rfl
@[simp] theorem State.recombine_spring (s : State) (b : Bool) :
    (s.recombine b).comb.springApplied = s.springLaw (if b then .apply else s.comb.park) := rfl
@[simp] theorem State.recombine_holding (s : State) (b : Bool) : (s.recombine b).comb.holding = s.holdingRequest := rfl
@[simp] theorem State.recombine_service (s : State) (b : Bool) : (s.recombine b).comb.service = s.serviceDemand := rfl
@[simp] theorem State.recombine_blend (s : State) (b : Bool) : (s.recombine b).comb.blend = s.blendKind := rfl
@[simp] theorem State.recombine_emergency (s : State) (b : Bool) :
    (s.recombine b).comb.emergency = s.set.hasLevel .emergency := rfl
@[simp] theorem State.recombine_demand (s : State) (b : Bool) (c : Channel) :
    (s.recombine b).comb.demand.get c = s.channelDemand c := by cases c <;> rfl
@[simp] theorem State.recombine_drive (s : State) (b : Bool) (c : Channel) :
    (s.recombine b).comb.drive.get c = s.driveValue c := by cases c <;> rfl

@[simp] theorem State.recombine_motor (s : State) (b : Bool) : (s.recombine b).drive.motor = s.drive.motor := by
  simp only [State.recombine, State.withComb_drive, State.withDrive_drive]
  split <;> rfl

/-- A channel's feedback record settles afresh where its demand changes, and stays where it does not (R99, R113). -/
theorem State.recombine_settling (s : State) (b : Bool) (c : Channel) :
    (s.recombine b).comb.feedback.get c = { lastChange := s.clock, deviationStart := none }
      ∨ (s.recombine b).comb.demand.get c = s.comb.demand.get c
        ∧ (s.recombine b).comb.feedback.get c = s.comb.feedback.get c := by
  have e : (s.recombine b).comb.feedback.get c
      = if s.channelDemand c = s.comb.demand.get c then s.comb.feedback.get c
        else { lastChange := s.clock, deviationStart := none } := by cases c <;> rfl
  rw [e, State.recombine_demand]
  split
  · exact .inr ⟨‹_›, rfl⟩
  · exact .inl rfl

theorem State.recombine_frame (s : State) : Frame [] r m s (s.recombine false) := by
  constructor <;> intros <;>
    first
    | exact s.recombine_motor false | exact s.recombine_settling false _ | rfl | exact RadioUnit.Queues.refl _ | exact le_refl _
    | exact .inl rfl | assumption | exact .inl ‹_›

theorem State.recombine_frame_park (s : State) : Frame [.park] r m s (s.recombine true) := by
  constructor <;> intros <;>
    first
    | exact s.recombine_motor true | exact s.recombine_settling true _ | rfl | exact RadioUnit.Queues.refl _ | exact le_refl _
    | exact .inl rfl | assumption | exact .inl ‹_›
    | exact absurd (List.mem_singleton.2 rfl) ‹_›

theorem State.channelDemand_emergency (h : s.set.hasLevel .emergency = true) (c : Channel) : s.channelDemand c = 100 := by
  simp [State.channelDemand, h]

theorem State.driveValue_emergency (h : s.set.hasLevel .emergency = true) (c : Channel) : s.driveValue c = 100 := by
  simp [State.driveValue, h]

theorem State.wantGang_iff : s.wantGang = true ↔ s.cfg.gangRack = true ∧ s.prov.proof = none := by
  simp [State.wantGang]

/-- A recomputation ends with V1 to V4 wholly on in an emergency, with each output carrying its channel's drive value, and with
V2 following V1 only where it may. -/
theorem State.recombine_drive_law (h : s.Latch) (b : Bool) :
    (s.set.hasLevel .emergency = true → ∀ c, ((s.recombine b).drive.valve.get c).IsFull) ∧ (s.recombine b).ValveLaw
      ∧ ((s.recombine b).drive.ganged = true → s.wantGang = true) := by
  obtain ⟨h, v⟩ := h
  have v := State.valveLaw_iff.1 v
  have hd : ∀ c, s.set.hasLevel .emergency = true → (PerChannel.of s.driveValue).get c = 100 := fun c e => by
    rw [PerChannel.get_of, State.driveValue_emergency e]
  simp only [State.valveLaw_iff, State.recombine, State.withComb_drive, State.withDrive_drive, State.withComb_comb]
  split
  · rename_i k
    have e : s.set.hasLevel .emergency = true := by simp_all
    refine ⟨fun _ c => ?_, v.restartValves _ (fun c => hd c e) _ _ _, id⟩
    simp only [DriveEngine.restartValves, PerChannel.get_of]
    exact Output.restartFull_isFull _ _ _
  · rename_i k
    refine ⟨fun e c => ?_, v.writeValves _ _ _ _, fun a => ?_⟩
    · have q : s.comb.emergency = true := by simp_all
      exact DriveEngine.writeValves_full (fun c => (h q c).2) (fun c => (h q c).1) (fun c => hd c e) c
    · simp only [DriveEngine.writeValves, Bool.and_eq_true] at a
      exact a.2

theorem State.recombine_braked (h : s.Latch) (b : Bool) : (s.recombine b).Braked := by
  obtain ⟨f, v, g⟩ := State.recombine_drive_law h b
  refine ⟨rfl, rfl, fun e c => ⟨?_, ?_, f e c⟩, fun c => ?_, v, fun a => State.wantGang_iff.1 (g a)⟩
  · rw [State.recombine_demand, State.channelDemand_emergency (s := s) e]
  · rw [State.recombine_drive, State.driveValue_emergency (s := s) e]
  · rw [State.recombine_drive, State.driveValue, State.recombine_demand]
    simp only [State.recombine_set, State.recombine_prov]
    cases s.prov.proof with
    | none => rfl
    | some x => cases x.step <;> rfl

/-! ### Percentages -/

theorem Settings.share_le {g : Settings} (h : ∀ i : ConfigItem, i.range.1 ≤ g.get i ∧ g.get i ≤ i.range.2) (c : Channel)
    (k : Option TrackKind) : g.share c k ≤ 100 := by
  cases k with
  | none => simp [Settings.share]
  | some k =>
    have hr := (h (.rbShare k)).2
    have ha := (h (.abShare k)).2
    cases c <;> simpa [Settings.share, Settings.get, ConfigItem.range] using by assumption

theorem State.serviceDemand_le (h : s.RangeLaw) : s.serviceDemand ≤ 100 := by
  obtain ⟨-, -, -, -, -, -, -, -, hc, hd, -⟩ := h
  have hh := (hc .holdLevel).2
  simp only [ConfigItem.range, Settings.get] at hh
  unfold State.serviceDemand
  refine max_le (max_le hd ?_) ?_ <;> split <;> first | exact hh | omega

theorem State.channelDemand_le (h : s.RangeLaw) (c : Channel) : s.channelDemand c ≤ 100 := by
  unfold State.channelDemand
  split
  · exact le_refl _
  · have h1 := State.serviceDemand_le h
    have h2 := Settings.share_le h.2.2.2.2.2.2.2.2.1 c s.blendKind
    exact (Nat.div_le_div_right (Nat.mul_le_mul h1 h2)).trans (by norm_num)

theorem State.driveValue_le (h : s.RangeLaw) (c : Channel) : s.driveValue c ≤ 100 := by
  unfold State.driveValue
  split
  · exact le_refl _
  · split
    · exact State.channelDemand_le h c
    · split
      · rename_i x _ _
        cases x.step <;> simp [ProofStep.drive]
      · exact State.channelDemand_le h c

theorem State.recombine_ranges (h : s.RangeLaw) (b : Bool) : (s.recombine b).RangeLaw := by
  have ⟨h1, h2, h3, h4, h5, h6, h7, h8, h9, h10, _⟩ := h
  refine ⟨h1, h2, h3, h4, h5, h6, h7, h8, h9, h10, fun c => ⟨?_, ?_⟩⟩
  · rw [State.recombine_demand]
    exact State.channelDemand_le h c
  · rw [State.recombine_drive]
    exact State.driveValue_le h c

theorem State.Core.recombine (h : s.Core) (b : Bool) : (s.recombine b).Core :=
  ⟨h.interventions, h.timers, h.capacity, State.recombine_ranges h.ranges b, (State.recombine_braked h.latch b).latch⟩

/-- On a state whose brakes agree already, a recomputation leaves the spring as it is. -/
theorem State.recombine_sameSpring (h : s.Braked) : (s.recombine false).comb.springApplied = s.comb.springApplied :=
  h.1.symm

end Sys2Proof.Machine
end

