-- ==== Sys2Proof/Laws/Order.lean ====
section
/-! SUPPORT. The further laws of `State.Ordered`, one by one: what a frame keeps of them, and a queue that records join. -/

namespace Sys2Proof.Machine

set_option Elab.async false

variable {r m : List Cause} {s t : State}

/-- The further laws, by name. -/
inductive Law where
  | moving
  | window
  | ratings
  | proof
  | queue
deriving DecidableEq

/-- The law holds. -/
def Law.Holds : Law → State → Prop
  | .moving => State.MovingLaw
  | .window => State.WindowLaw
  | .ratings => State.RatingLaw
  | .proof => State.ProofLaw
  | .queue => State.QueueLaw

theorem State.ordered_iff : s.Ordered ↔ ∀ x : Law, x.Holds s := by
  constructor
  · intro h x
    cases x
    · exact h.moving
    · exact h.window
    · exact h.ratings
    · exact h.proof
    · exact h.queue
  · exact fun h => ⟨h .moving, h .window, h .ratings, h .proof, h .queue⟩

/-- Every further law is kept, but those listed. -/
def State.Keeps (s t : State) (but : List Law) : Prop := ∀ x ∉ but, x.Holds s → x.Holds t

theorem State.Keeps.trans {u : State} {but : List Law} (f : s.Keeps t but) (g : t.Keeps u but) : s.Keeps u but :=
  fun x n h => g x n (f x n h)

theorem State.Keeps.except {but but' : List Law} (f : s.Keeps t but) (h : ∀ x ∈ but, x ∈ but' := by decide) : s.Keeps t but' :=
  fun x n => f x fun k => n (h x k)

/-- The one excepted law holds in the end. -/
theorem State.Keeps.close {x : Law} (f : s.Keeps t [x]) (h : x.Holds s → x.Holds t) : s.Keeps t [] := by
  intro y _
  by_cases n : y = x
  · exact n ▸ h
  · exact f y (by simpa using n)

theorem State.Keeps.of {but : List Law} (a : Law.moving ∉ but → s.MovingLaw → t.MovingLaw)
    (b : Law.window ∉ but → s.WindowLaw → t.WindowLaw) (c : Law.ratings ∉ but → s.RatingLaw → t.RatingLaw)
    (d : Law.proof ∉ but → s.ProofLaw → t.ProofLaw) (e : Law.queue ∉ but → s.QueueLaw → t.QueueLaw) : s.Keeps t but := by
  intro x h
  cases x
  · exact a h
  · exact b h
  · exact c h
  · exact d h
  · exact e h

/-- Records that join the queue keep its law (R166, R172). -/
theorem State.queueLaw_of (f : s.radio.Queues t.radio) (l : s.radio.lost ≤ 255)
    (k : s.radio.flying ≤ s.radio.queue.length) (h : s.QueueLaw) : t.QueueLaw := by
  obtain ⟨h1, h2, h3, h4⟩ := h
  refine ⟨?_, fun a => f.wasLost (h2 (f.carriedLost a)), ?_, fun b hb => ?_⟩
  · have := f.positions
    omega
  · have a := f.tally
    rw [f.carriedTally]
    omega
  · rw [f.inFlight] at hb
    obtain ⟨c1, c2, hi, lo, fl, c3, c4⟩ := h4 b hb
    have e : s.radio.flying = b.count := by
      unfold RadioUnit.flying
      rw [hb]
    have head := f.head k
    rw [e] at head
    refine ⟨c1, c2.trans f.number.symm, hi, lo, fl, fun a => c3 (f.carriedLost a), ?_⟩
    rw [f.carriedTally, head]
    exact c4

/-- While the car keeps its standstill flag, the doors and the entries of the set but DOOR_UNLOCKED_MOVING's, R152 is kept. -/
theorem State.movingLaw_of (hs : t.odo.standstill = s.odo.standstill) (hd : t.doors = s.doors)
    (hk : s.odo.standstill = false → s.set.has .doorUnlockedMoving = true → t.set.has .doorUnlockedMoving = true)
    (h : s.MovingLaw) : t.MovingLaw := by
  intro e
  rw [hs] at e
  obtain ⟨h1, h2, h3, h4⟩ := h e
  unfold State.doorAt at *
  rw [hd]
  exact ⟨h1, h2, h3, fun d a => hk e (h4 d a)⟩

theorem InterventionSet.has_of_kept {i j : InterventionSet} {c : Cause} (h : ∀ e ∈ i.entries, e.cause = c → e ∈ j.entries)
    (k : i.has c = true) : j.has c = true := by
  unfold InterventionSet.has at *
  obtain ⟨e, he, hc⟩ := List.any_eq_true.1 k
  exact List.any_eq_true.2 ⟨e, h e he (by simpa using hc), hc⟩

/-- The blocks that the laws of the window, the ratings and the queue read. -/
abbrev plainBlocks : List Block := [.window, .ratings, .queue, .settings]

/-- What a frame keeps with none of these blocks listed, beside the laws of the doors in motion and of the proof. -/
theorem Frame.keepsBeside {free : List Block} {but : List Law} (f : Frame free r m s t)
    (q : s.radio.lost ≤ 255 ∧ s.radio.flying ≤ s.radio.queue.length)
    (hm : Law.moving ∉ but → s.MovingLaw → t.MovingLaw) (hp : Law.proof ∉ but → s.ProofLaw → t.ProofLaw)
    (hf : ∀ b ∈ plainBlocks, b ∉ free := by decide) : s.Keeps t but := by
  refine State.Keeps.of hm (fun _ h => ?_) (fun _ h => ?_) hp fun _ => State.queueLaw_of (f.records (hf _ (by decide))) q.1 q.2
  · unfold State.WindowLaw at *
    rw [f.window (hf _ (by decide))]
    exact h
  · intro c
    have e : t.cfg = s.cfg := f.settings (hf _ (by decide))
    rw [f.health (hf _ (by decide)), f.owed (hf _ (by decide)), e]
    exact h c

/-- The blocks that a further law but the proof's reads. -/
abbrev lawBlocks : List Block := [.odometry, .window, .entries, .ratings, .doors, .queue, .settings]

/-- What a frame keeps with none of these blocks listed. -/
theorem Frame.keeps {free : List Block} {but : List Law} (f : Frame free r m s t) (q : s.radio.lost ≤ 255 ∧ s.radio.flying ≤ s.radio.queue.length)
    (hm : Cause.doorUnlockedMoving ∈ m → s.odo.standstill = true)
    (hp : Law.proof ∉ but → s.ProofLaw → t.ProofLaw) (hf : ∀ b ∈ lawBlocks, b ∉ free := by decide) : s.Keeps t but := by
  refine f.keepsBeside q (fun _ => ?_) hp fun b hb => hf b ((by decide : ∀ b ∈ plainBlocks, b ∈ lawBlocks) b hb)
  refine State.movingLaw_of (f.standstill (hf _ (by decide))) (f.doors (hf _ (by decide))) fun e => ?_
  refine InterventionSet.has_of_kept fun x hx hc => f.kept (hf _ (by decide)) x hx fun k => ?_
  rw [hc] at k
  rw [hm k] at e
  exact absurd e (by decide)

end Sys2Proof.Machine
end

