-- ==== Sys2Proof/Laws/Notices.lean ====
section
/-! SUPPORT. What an evaluation, a notice, a raising, a removal and a change of operating state can do: their frames, and that
they keep or establish the laws. -/

namespace Sys2Proof.Machine

set_option Elab.async false

variable {r m : List Cause} {s t : State} {ev : State → State}

/-- The holding request is the one that the doors and the operating state ask for (R96). -/
def State.Holds (s : State) : Prop := s.comb.holding = s.holdingRequest

/-! ### Decay, figures, supervision state -/

theorem Odometry.decayedSpeed_le (o : Odometry) (now : Nat) : o.decayedSpeed now ≤ o.v := by
  unfold Odometry.decayedSpeed
  repeat' split
  all_goals first | exact le_refl _ | exact min_le_left _ _

theorem Odometry.decayedSpeed_still {o : Odometry} (h : o.standstill = true) (now : Nat) : o.decayedSpeed now = o.v := by
  simp [Odometry.decayedSpeed, h]

/-- Decay at one moment takes its whole effect at once (R11). -/
theorem Odometry.decayedSpeed_idem (o : Odometry) (now : Nat) :
    ({ o with v := o.decayedSpeed now } : Odometry).decayedSpeed now = o.decayedSpeed now := by
  unfold Odometry.decayedSpeed
  repeat' split
  all_goals simp_all

theorem State.decayed_frame (s : State) : Frame [] r m s s.decayed :=
  Frame.withSpeed _ (Odometry.decayedSpeed_le _ _) fun h => Odometry.decayedSpeed_still h _

theorem State.withFigures_frame (s : State) : Frame [] r m s s.withFigures := Frame.withFigures_of _ rfl

theorem State.withSupervision_frame (s : State) (b : Bool) : Frame [] r m s (s.withSupervision b) :=
  Frame.withFigures_of _ rfl

theorem State.Core.decayed (h : s.Core) : s.decayed.Core where
  interventions := h.interventions
  timers := by
    obtain ⟨h1, h2, h3⟩ := h.timers
    refine ⟨h1, fun k => ?_, h3⟩
    have k' : s.odo.standstill = true := k
    exact (Odometry.decayedSpeed_still k' _).trans (h2 k')
  capacity := h.capacity
  ranges := by
    obtain ⟨h1, h2, h3, h4, h5⟩ := h.ranges
    exact ⟨h1, h2, h3, (Odometry.decayedSpeed_le _ _).trans h4, h5⟩
  latch := h.latch

theorem State.Core.withFigures (h : s.Core) : s.withFigures.Core := ⟨h.1, h.2, h.3, h.4, h.5⟩

theorem State.Core.withSupervision (h : s.Core) (b : Bool) : (s.withSupervision b).Core := ⟨h.1, h.2, h.3, h.4, h.5⟩

/-- The permit agrees with its conditions once the supervision state is set (R73). -/
theorem State.withSupervision_permit (s : State) (b : Bool) : (s.withSupervision b).PermitLaw := rfl

/-! ### Records -/

theorem RadioUnit.queueEvent_shape (q : RadioUnit) (x : Report) :
    q.queueEvent x = { q with queue := (q.queueEvent x).queue, lost := (q.queueEvent x).lost } := by
  unfold RadioUnit.queueEvent
  split
  · rfl
  · split <;> rfl

theorem RadioUnit.queuePosition_shape (q : RadioUnit) (x : Report) :
    q.queuePosition x = { q with queue := (q.queuePosition x).queue, lost := q.lost } := by
  unfold RadioUnit.queuePosition
  split
  · rfl
  · split <;> rfl

/-- The record is an event's (R166): every record but a POSITION. -/
def ReportBody.IsEvent (b : ReportBody) : Prop := ∀ n, Report.isPosition { time := n, body := b } = false

theorem State.report_frame (s : State) (b : ReportBody) (h : b.IsEvent := by exact fun _ => rfl) :
    Frame [] r m s (s.report b) := by
  unfold State.report
  split
  · exact Frame.refl
  · exact Frame.withQueue _ (RadioUnit.queueEvent_shape _ _) (fun h => absurd h ‹_›) (RadioUnit.queueEvent_queues _ (h _))

theorem State.reportPosition_frame (s : State) : Frame [] r m s s.reportPosition := by
  unfold State.reportPosition
  split
  · exact Frame.refl
  · refine Frame.withQueue _ ?_ (fun h => absurd h ‹_›) (RadioUnit.queuePosition_queues _ rfl)
    have e := RadioUnit.queuePosition_shape s.radio
    rw [e]

theorem RadioUnit.queueEvent_lengths (q : RadioUnit) (x : Report) (h : q.queue.length ≤ Config.queueCapacity)
    (k : q.flying ≤ q.queue.length) (l : q.lost ≤ 255) :
    (q.queueEvent x).queue.length ≤ Config.queueCapacity ∧ q.queue.length ≤ (q.queueEvent x).queue.length
      ∧ (q.queueEvent x).lost ≤ 255 := by
  unfold RadioUnit.queueEvent
  split
  · simp only [List.length_append, List.length_singleton]
    exact ⟨by omega, by omega, l⟩
  · split
    · rename_i _ hp
      obtain ⟨a, ha, pa⟩ := List.any_eq_true.1 hp
      have := List.length_eraseP_of_mem ha pa
      have pos := List.length_pos_of_mem ha
      simp only [List.length_append, List.length_singleton, List.length_take, this, List.length_drop] at *
      exact ⟨by omega, by omega, l⟩
    · exact ⟨h, le_refl _, min_le_left _ _⟩

theorem RadioUnit.queuePosition_lengths (q : RadioUnit) (x : Report) (h : q.queue.length ≤ Config.queueCapacity)
    (k : q.flying ≤ q.queue.length) :
    (q.queuePosition x).queue.length ≤ Config.queueCapacity ∧ q.queue.length ≤ (q.queuePosition x).queue.length := by
  unfold RadioUnit.queuePosition
  split
  · simp only [List.length_append, List.length_map, List.length_take, List.length_drop]
    omega
  · split
    · simp only [List.length_append, List.length_singleton]
      omega
    · exact ⟨h, le_refl _⟩

theorem State.capacity_withQueue (h : s.CapacityLaw) (x : RadioUnit)
    (e : x = { s.radio with queue := x.queue, lost := x.lost }) (h1 : x.queue.length ≤ Config.queueCapacity)
    (h2 : s.radio.queue.length ≤ x.queue.length) (h3 : x.lost ≤ 255) : (s.withRadio x).CapacityLaw := by
  obtain ⟨a, b, c, d, f, g, i, j, k⟩ := h
  have fl : x.flying = s.radio.flying := by rw [e]; rfl
  have rs : x.resend = s.radio.resend := by rw [e]
  have nu : x.number = s.radio.number := by rw [e]
  refine ⟨a, b, c, h1, ?_, h3, ?_, ?_, k⟩
  · show x.flying ≤ x.queue.length
    omega
  · show x.resend ≤ 255
    omega
  · show x.number < 8
    omega

theorem State.timers_withQueue (h : s.TimerLaw) (x : RadioUnit)
    (e : x = { s.radio with queue := x.queue, lost := x.lost }) : (s.withRadio x).TimerLaw := by
  obtain ⟨a, b, c, d⟩ := h
  refine ⟨a, b, ?_, d⟩
  show x.timer.isSome = (x.link == .up)
  rw [e]
  exact c

theorem State.Core.report (h : s.Core) (b : ReportBody) : (s.report b).Core := by
  unfold State.report
  split
  · exact h
  · obtain ⟨-, -, -, h1, h2, h3, -⟩ := h.capacity
    obtain ⟨a, b, c⟩ := RadioUnit.queueEvent_lengths s.radio { time := s.recordTime, body := b } h1 h2 h3
    exact ⟨h.1, State.timers_withQueue h.2 _ (RadioUnit.queueEvent_shape _ _),
      State.capacity_withQueue h.3 _ (RadioUnit.queueEvent_shape _ _) a b c, h.4, h.5⟩

theorem State.Core.reportPosition (h : s.Core) : s.reportPosition.Core := by
  unfold State.reportPosition
  split
  · exact h
  · obtain ⟨-, -, -, h1, h2, h3, -⟩ := h.capacity
    obtain ⟨a, b⟩ := RadioUnit.queuePosition_lengths s.radio _ h1 h2
    have e := RadioUnit.queuePosition_shape s.radio
    have l : ∀ x, (s.radio.queuePosition x).lost ≤ 255 := fun x => by rw [e]; exact h3
    exact ⟨h.1, State.timers_withQueue h.2 _ (by rw [e]), State.capacity_withQueue h.3 _ (by rw [e]) a b (l _), h.4, h.5⟩

theorem State.report_braked (h : s.Braked) (b : ReportBody) : (s.report b).Braked := by
  unfold State.report
  split <;> exact h

theorem State.reportPosition_braked (h : s.Braked) : s.reportPosition.Braked := by
  unfold State.reportPosition
  split <;> exact h

theorem State.report_holds (h : s.Holds) (b : ReportBody) : (s.report b).Holds := by
  unfold State.report
  split <;> exact h

theorem State.reportPosition_holds (h : s.Holds) : s.reportPosition.Holds := by
  unfold State.reportPosition
  split <;> exact h

theorem State.report_permit (h : s.PermitLaw) (b : ReportBody) : (s.report b).PermitLaw := by
  unfold State.report
  split <;> exact h

/-! ### The set -/

theorem InterventionSet.append_law (i : InterventionSet) (e : Entry) :
    (i.append e).breakOpen = (i.append e).hasLevel .emergency := rfl

theorem InterventionSet.erase_law (i : InterventionSet) (c : Cause) :
    (i.erase c).breakOpen = (i.erase c).hasLevel .emergency := rfl

theorem InterventionSet.has_iff (i : InterventionSet) (c : Cause) : i.has c = true ↔ c ∈ i.entries.map Entry.cause := by
  simp [InterventionSet.has]

theorem State.interventions_append (h : s.InterventionLaw) (e : Entry) (k : s.set.has e.cause = false) :
    (s.withSet (s.set.append e)).InterventionLaw := by
  refine ⟨?_, rfl⟩
  have k' : e.cause ∉ s.set.entries.map Entry.cause := by
    rw [← InterventionSet.has_iff, k]
    simp
  simp only [State.withSet_set, InterventionSet.append, List.map_append, List.map_cons, List.map_nil]
  exact List.Nodup.append h.1 (List.nodup_singleton _) (by simpa using k')

theorem State.interventions_erase (h : s.InterventionLaw) (c : Cause) :
    (s.withSet (s.set.erase c)).InterventionLaw := by
  refine ⟨?_, rfl⟩
  exact (List.filter_sublist.map Entry.cause).nodup h.1

theorem State.Core.append (h : s.Core) (e : Entry) (k : s.set.has e.cause = false) :
    (s.withSet (s.set.append e)).Core :=
  ⟨State.interventions_append h.1 e k, h.2, h.3, h.4, h.5⟩

theorem State.Core.erase (h : s.Core) (c : Cause) : (s.withSet (s.set.erase c)).Core :=
  ⟨State.interventions_erase h.1 c, h.2, h.3, h.4, h.5⟩

theorem State.append_frame (s : State) (e : Entry) (h : e.cause ∈ r) : Frame [] r m s (s.withSet (s.set.append e)) := by
  refine Frame.withEntries _ rfl (fun x hx _ => List.mem_append_left _ hx) fun x hx => ?_
  rcases List.mem_append.1 hx with a | a
  · exact .inl a
  · exact .inr (List.mem_singleton.1 a ▸ h)

theorem State.erase_frame (s : State) (c : Cause) (h : c ∈ m) : Frame [] r m s (s.withSet (s.set.erase c)) := by
  refine Frame.withEntries _ rfl (fun x hx k => ?_) fun x hx => .inl (List.mem_of_mem_filter hx)
  refine List.mem_filter.2 ⟨hx, ?_⟩
  simp only [bne_iff_ne, ne_eq]
  exact fun e => k (e ▸ h)

/-! ### Proofs -/

theorem State.resettle_frame (s : State) (c : Channel) : Frame [] r m s (s.resettle c) :=
  Frame.withDemands _ rfl rfl fun d => by
    rw [PerChannel.get_put]
    split
    · exact .inl rfl
    · exact .inr ⟨rfl, rfl⟩

theorem State.emptyTried_frame (s : State) : Frame [] r m s s.emptyTried := Frame.withProof _ rfl rfl rfl rfl

theorem State.beginProof_frame (s : State) (c : Channel) : Frame [] r m s (s.beginProof c) :=
  ((Frame.withProof (s := s)
      { s.prov with
        tried := s.prov.tried ++ [c], proof := some { channel := c, step := .rise, sample := s.scan.pressure.get c }
        dwell := some (s.after Config.proofDwell) }
      rfl rfl rfl rfl).trans (State.resettle_frame _ c)).trans (State.recombine_frame _)

theorem State.testProof_frame (s : State) : Frame [] r m s s.testProof := by
  unfold State.testProof
  split
  · split
    · exact Frame.refl
    · exact State.beginProof_frame s _
  · exact Frame.refl

theorem State.endProof_frame (s : State) (c : Channel) : Frame [] r m s (s.endProof c) :=
  ((Frame.withProof (s := s) { s.prov with proof := none, dwell := none } rfl rfl rfl rfl).trans
    (State.resettle_frame _ c)).trans (State.recombine_frame _)

theorem State.abandonProof_frame (s : State) : Frame [] r m s s.abandonProof := by
  unfold State.abandonProof
  split
  · exact Frame.refl
  · exact (State.endProof_frame s _).trans (State.emptyTried_frame _)

theorem State.timers_withProof (h : s.TimerLaw) (x : Proving) (e : x.dwell.isSome = x.proof.isSome) :
    (s.withProv x).TimerLaw := ⟨h.1, h.2.1, h.2.2.1, h.2.2.2.1, e⟩

theorem State.Core.resettle (h : s.Core) (c : Channel) : (s.resettle c).Core := ⟨h.1, h.2, h.3, h.4, h.5⟩

theorem State.Core.withProof (h : s.Core) (x : Proving) (e : x.dwell.isSome = x.proof.isSome)
    (k : x.owed = s.prov.owed) : (s.withProv x).Core := by
  refine ⟨h.1, State.timers_withProof h.2 x e, ?_, h.4, h.5⟩
  obtain ⟨a1, a2, a3, a4, a5, a6, a7, a8, a9, b1, b2, b3, b4⟩ := h.3
  exact ⟨a1, a2, a3, a4, a5, a6, a7, a8, a9, b1, b2, b3, fun c => by rw [State.withProv_prov, k]; exact b4 c⟩

theorem State.Core.emptyTried (h : s.Core) : s.emptyTried.Core := ⟨h.1, h.2, h.3, h.4, h.5⟩

theorem State.Core.beginProof (h : s.Core) (c : Channel) : (s.beginProof c).Core :=
  ((h.withProof
    { s.prov with
      tried := s.prov.tried ++ [c], proof := some { channel := c, step := .rise, sample := s.scan.pressure.get c }
      dwell := some (s.after Config.proofDwell) } rfl rfl).resettle c).recombine false

theorem State.Core.endProof (h : s.Core) (c : Channel) : (s.endProof c).Core :=
  ((h.withProof { s.prov with proof := none, dwell := none } rfl rfl).resettle c).recombine false

theorem State.Core.testProof (h : s.Core) : s.testProof.Core := by
  unfold State.testProof
  split
  · split
    · exact h
    · exact h.beginProof _
  · exact h

theorem State.Core.abandonProof (h : s.Core) : s.abandonProof.Core := by
  unfold State.abandonProof
  split
  · exact h
  · exact (h.endProof _).emptyTried

theorem State.beginProof_braked (h : s.Latch) (c : Channel) : (s.beginProof c).Braked := by
  refine State.recombine_braked ?_ false
  exact h

theorem State.endProof_braked (h : s.Latch) (c : Channel) : (s.endProof c).Braked := by
  refine State.recombine_braked ?_ false
  exact h

theorem State.testProof_braked (h : s.Braked) : s.testProof.Braked := by
  unfold State.testProof
  split
  · split
    · exact h
    · exact State.beginProof_braked h.latch _
  · exact h

theorem State.abandonProof_braked (h : s.Braked) : s.abandonProof.Braked := by
  unfold State.abandonProof
  split
  · exact h
  · exact State.endProof_braked h.latch _

theorem State.testProof_holds (h : s.Holds) : s.testProof.Holds := by
  unfold State.testProof
  split
  · split
    · exact h
    · rfl
  · exact h

theorem State.abandonProof_holds (h : s.Holds) : s.abandonProof.Holds := by
  unfold State.abandonProof
  split
  · exact h
  · rfl

/-- A recomputation keeps the permit where it keeps the spring. -/
theorem State.recombine_permit (b : Bool) (k : (s.recombine b).comb.springApplied = s.comb.springApplied)
    (h : s.PermitLaw) : (s.recombine b).PermitLaw := by
  have e : (s.recombine b).permitHolds s.sup.state = s.permitHolds s.sup.state := by
    unfold State.permitHolds
    rw [k]
    rfl
  exact h.trans e.symm

theorem State.beginProof_permit (hb : s.Braked) (h : s.PermitLaw) (c : Channel) : (s.beginProof c).PermitLaw :=
  State.recombine_permit (s := (s.withProv _).resettle c) false hb.1.symm h

theorem State.endProof_permit (hb : s.Braked) (h : s.PermitLaw) (c : Channel) : (s.endProof c).PermitLaw :=
  State.recombine_permit (s := (s.withProv _).resettle c) false hb.1.symm h

theorem State.testProof_permit (hb : s.Braked) (h : s.PermitLaw) : s.testProof.PermitLaw := by
  unfold State.testProof
  split
  · split
    · exact h
    · exact State.beginProof_permit hb h _
  · exact h

theorem State.abandonProof_permit (hb : s.Braked) (h : s.PermitLaw) : s.abandonProof.PermitLaw := by
  unfold State.abandonProof
  split
  · exact h
  · exact State.endProof_permit hb h _

/-! ### The law of a proof in progress -/

/-- R123 and R128 are kept where the car stands as it stood, with the spring applied as it was, no EMERGENCY-level entry more,
and no proof begun. -/
theorem State.proofLaw_of (ho : t.odo.standstill = s.odo.standstill)
    (hp : t.prov.proof.isSome = true → s.prov.proof.isSome = true)
    (hc : s.comb.springApplied = true → t.comb.springApplied = true)
    (hs : s.set.hasLevel .emergency = false → t.set.hasLevel .emergency = false) (h : s.ProofLaw) : t.ProofLaw := by
  intro k
  obtain ⟨h1, h2, h3⟩ := h (hp k)
  exact ⟨ho.trans h1, hc h2, hs h3⟩

theorem State.proofLaw_none (h : s.prov.proof = none) : s.ProofLaw := by
  intro k
  rw [h] at k
  exact absurd k (by simp)

theorem State.abandonProof_none (s : State) : s.abandonProof.prov.proof = none := by
  unfold State.abandonProof
  split
  · assumption
  · rfl

theorem State.abandonProof_proof (s : State) : s.abandonProof.ProofLaw := State.proofLaw_none s.abandonProof_none

theorem State.canProve_iff :
    s.canProve = true ↔ s.odo.standstill = true ∧ s.comb.springApplied = true ∧ s.set.hasLevel .emergency = false
      ∧ s.prov.proof = none := by
  simp [State.canProve, and_assoc]

theorem State.testProof_proof (b : s.Braked) (h : s.ProofLaw) : s.testProof.ProofLaw := by
  unfold State.testProof
  split
  · rename_i c
    obtain ⟨c1, c2, c3, -⟩ := State.canProve_iff.1 c
    split
    · exact h
    · exact fun _ => ⟨c1, (b.1.symm.trans c2 : s.springLaw s.comb.park = true), c3⟩
  · exact h

theorem State.recombine_proof (b : Bool) (k : s.comb.springApplied = true → (s.recombine b).comb.springApplied = true)
    (h : s.ProofLaw) : (s.recombine b).ProofLaw := State.proofLaw_of (s := s) rfl id k id h

/-! ### Notices -/

/-- What holds of an evaluation, by whatever notice it comes. -/
structure Evaluator (ev : State → State) : Prop where
  frame : ∀ s, NoticesOnly s (ev s)
  core : ∀ {s : State}, s.Core → (ev s).Core
  braked : ∀ {s : State}, s.Core → s.Braked → (ev s).Braked
  holds : ∀ {s : State}, s.Holds → (ev s).Holds
  permit : ∀ {s : State}, s.Core → (ev s).PermitLaw
  proof : ∀ {s : State}, s.Core → s.ProofLaw → (ev s).ProofLaw

theorem State.evaluateQuiet_evaluator : Evaluator State.evaluateQuiet where
  frame s := ((s.decayed_frame).trans (State.withFigures_frame _)).trans (State.withSupervision_frame _ _)
  core h := (h.decayed.withFigures).withSupervision _
  braked _ h := h
  holds h := h
  permit _ := State.withSupervision_permit _ _
  proof _ h := h

theorem State.setOpState_frame (s : State) (x : OpState) : Frame [.opState, .cabTimer, .park] r m s (s.setOpState x) := by
  constructor <;> intros <;>
    first | rfl | exact RadioUnit.Queues.refl _ | exact le_refl _ | exact .inl rfl | assumption | exact .inl ‹_› | exact .inr ⟨rfl, rfl⟩ | simp at *

theorem State.Core.setOpState (h : s.Core) (x : OpState) : (s.setOpState x).Core := by
  refine ⟨h.1, ⟨h.2.1, h.2.2.1, h.2.2.2.1, ?_, h.2.2.2.2.2⟩, h.3, h.4, h.5⟩
  intro k
  by_contra e
  have e' : x ≠ .run := e
  simp [State.setOpState, e'] at k

/-- The entry into CONFIG on a spring notice (R189). -/
theorem State.quiesced_iff :
    s.quiesced = true ↔ s.line.opState = .quiescing ∧ s.odo.standstill = true ∧ s.comb.springApplied = true := by
  simp [State.quiesced, and_assoc]

/-- The spring part of the brake law holds after an entry into CONFIG with the spring applied. -/
theorem State.setConfig_braked (h : s.Braked) (k : s.comb.springApplied = true) : (s.setOpState .config).Braked := by
  refine ⟨?_, h.2⟩
  show s.comb.springApplied = _
  rw [k]
  rfl

theorem State.config_spring (h : t.Braked) (k : t.line.opState = .config) : t.comb.springApplied = true := by
  rw [h.1]
  simp [State.springLaw, k]

theorem Frame.config (f : Frame [] r m s t) (h : s.line.opState = .config) : t.line.opState = .config := by
  rcases f.opState (by simp) with a | ⟨-, b⟩
  · exact a.trans h
  · exact b

theorem Frame.cabStopped (f : Frame [] r m s t) (h : s.line.cabTimer = none) : t.line.cabTimer = none := by
  rcases f.cabTimer (by simp) (by simp) with a | ⟨-, b⟩
  · exact a.trans h
  · exact b

theorem overspeeds_nil_frame {free : List Block} (f : NoticesOnly s t) (hr : ∀ c ∈ overspeeds, c ∈ r)
    (hm : Cause.overspeedService ∈ m) : Frame free r m s t :=
  Frame.mono f (by simp) hr (by simpa using hm)

/-- An entry into CONFIG from QUIESCING with its state notice. -/
theorem State.enterConfig_frame (h : Evaluator ev) (k : s.line.opState = .quiescing) :
    NoticesOnly s ((ev (s.setOpState .config)).recombine true) := by
  have f1 : Frame [.park, .opState, .cabTimer] overspeeds [.overspeedService] s (s.setOpState .config) :=
    (State.setOpState_frame (r := overspeeds) (m := [.overspeedService]) s .config).mono (by simp) (fun _ h => h)
      fun _ h => h
  have f2 := h.frame (s.setOpState .config)
  have f3 : Frame [.park, .opState, .cabTimer] overspeeds [.overspeedService] (ev (s.setOpState .config))
      ((ev (s.setOpState .config)).recombine true) :=
    (State.recombine_frame_park (r := overspeeds) (m := [.overspeedService]) _).mono (by simp) (fun _ h => h) fun _ h => h
  refine ((f1.trans (f2.mono (by simp) (fun _ h => h) fun _ h => h)).trans f3).ofQuiescing k ?_ ?_
  · exact f2.config rfl
  · exact f2.cabStopped rfl

theorem State.enterConfig_core (h : Evaluator ev) (k : s.Core) : ((ev (s.setOpState .config)).recombine true).Core :=
  (h.core (k.setOpState .config)).recombine true

theorem State.enterConfig_permit (h : Evaluator ev) (k : s.Core) (b : s.Braked) (q : s.comb.springApplied = true) :
    ((ev (s.setOpState .config)).recombine true).PermitLaw := by
  refine State.recombine_permit true ?_ (h.permit (k.setOpState .config))
  have c := (h.frame (s.setOpState .config)).config rfl
  have b2 := h.braked (k.setOpState .config) (State.setConfig_braked b q)
  rw [State.config_spring b2 c]
  simp [State.springLaw, c]

theorem State.springNotice_frame (h : Evaluator ev) (a : Bool) : NoticesOnly s (s.springNotice ev a) := by
  unfold State.springNotice
  cases a
  · exact ((h.frame s).trans (State.abandonProof_frame _)).trans (State.emptyTried_frame _)
  · simp only [if_true]
    have f := (h.frame s).trans (State.testProof_frame (ev s))
    split
    · rename_i q
      exact f.trans (State.enterConfig_frame h (State.quiesced_iff.1 q).1)
    · exact f

theorem State.springNotice_core (h : Evaluator ev) (k : s.Core) (a : Bool) : (s.springNotice ev a).Core := by
  unfold State.springNotice
  cases a
  · exact (h.core k).abandonProof.emptyTried
  · simp only [if_true]
    split
    · exact State.enterConfig_core h (h.core k).testProof
    · exact (h.core k).testProof

theorem State.springNotice_braked (h : Evaluator ev) (k : s.Core) (b : s.Braked) (a : Bool) :
    (s.springNotice ev a).Braked := by
  have b1 := h.braked k b
  unfold State.springNotice
  cases a
  · exact State.abandonProof_braked b1
  · simp only [if_true]
    split
    · exact State.recombine_braked (h.core ((h.core k).testProof.setOpState .config)).latch true
    · exact State.testProof_braked b1

theorem State.springNotice_holds (h : Evaluator ev) (b : s.Holds) (a : Bool) : (s.springNotice ev a).Holds := by
  have b1 := h.holds b
  unfold State.springNotice
  cases a
  · exact State.abandonProof_holds b1
  · simp only [if_true]
    split
    · rfl
    · exact State.testProof_holds b1

theorem State.springNotice_permit (h : Evaluator ev) (k : s.Core) (b : s.Braked) (a : Bool) :
    (s.springNotice ev a).PermitLaw := by
  have b1 := h.braked k b
  have p1 := h.permit k
  unfold State.springNotice
  cases a
  · exact State.abandonProof_permit b1 p1
  · simp only [if_true]
    split
    · rename_i q
      exact State.enterConfig_permit h (h.core k).testProof (State.testProof_braked b1) (State.quiesced_iff.1 q).2.2
    · exact State.testProof_permit b1 p1

theorem State.springNotice_proof (h : Evaluator ev) (k : s.Core) (b : s.Braked) (a : Bool) (p : a = true → s.ProofLaw) :
    (s.springNotice ev a).ProofLaw := by
  unfold State.springNotice
  cases a
  · exact State.proofLaw_none (State.abandonProof_none (ev s))
  · have p1 := State.testProof_proof (h.braked k b) (h.proof k (p rfl))
    simp only [if_true]
    split
    · refine State.recombine_proof true (fun _ => ?_) (h.proof ((h.core k).testProof.setOpState .config) p1)
      simp [State.recombine, State.springLaw]
    · exact p1

/-! ### A recomputation with its notice -/

theorem State.combine_frame (h : Evaluator ev) (s : State) : NoticesOnly s (s.combine ev false) := by
  have f : NoticesOnly s (s.recombine false) := State.recombine_frame s
  unfold State.combine
  dsimp only
  split
  · exact f
  · exact f.trans (State.springNotice_frame h _)

theorem State.combine_core (h : Evaluator ev) (k : s.Core) (b : Bool) : (s.combine ev b).Core := by
  unfold State.combine
  dsimp only
  split
  · exact k.recombine b
  · exact State.springNotice_core h (k.recombine b) _

theorem State.combine_braked (h : Evaluator ev) (k : s.Core) (b : Bool) : (s.combine ev b).Braked := by
  unfold State.combine
  dsimp only
  split
  · exact State.recombine_braked k.latch b
  · exact State.springNotice_braked h (k.recombine b) (State.recombine_braked k.latch b) _

theorem State.combine_holds (h : Evaluator ev) (s : State) (b : Bool) : (s.combine ev b).Holds := by
  unfold State.combine
  dsimp only
  split
  · rfl
  · exact State.springNotice_holds h (s := s.recombine b) rfl _

theorem State.combine_permit (h : Evaluator ev) (k : s.Core) (p : s.PermitLaw) (b : Bool) :
    (s.combine ev b).PermitLaw := by
  unfold State.combine
  dsimp only
  split
  · exact State.recombine_permit b ‹_› p
  · exact State.springNotice_permit h (k.recombine b) (State.recombine_braked k.latch b) _

theorem State.combine_proof (h : Evaluator ev) (k : s.Core) (p : s.ProofLaw) (b : Bool) : (s.combine ev b).ProofLaw := by
  unfold State.combine
  dsimp only
  split
  · rename_i e
    exact State.recombine_proof b (fun a => e.trans a) p
  · rename_i e
    refine State.springNotice_proof h (k.recombine b) (State.recombine_braked k.latch b) _ fun a => ?_
    refine State.proofLaw_none (show s.prov.proof = none from ?_)
    by_contra n
    have n' := (p (Option.isSome_iff_ne_none.2 n)).2.1
    exact e (a.trans n'.symm)

/-! ### Raisings and removals -/

theorem State.raiseWith_frame (h : Evaluator ev) (s : State) (c : Cause) (x : Capture)
    (hr : ∀ d ∈ overspeeds, d ∈ r) (hc : c ∈ r) (hm : Cause.overspeedService ∈ m) :
    Frame [] r m s (s.raiseWith ev c x) := by
  unfold State.raiseWith
  dsimp only
  split
  · exact Frame.refl
  · have f1 : Frame [] r m s
        (s.withSet (s.set.append { cause := c, capture := x, time := s.partTime, heard := false })) :=
      State.append_frame s _ hc
    have f2 := (f1.trans (State.report_frame _ (.raised c x))).trans (State.reportPosition_frame _)
    have f3 := f2.trans (overspeeds_nil_frame (h.frame _) hr hm)
    have f4 := f3.trans (overspeeds_nil_frame (State.combine_frame h _) hr hm)
    split
    · exact f4.trans (State.abandonProof_frame _)
    · exact f4

theorem State.raiseWith_core (h : Evaluator ev) (k : s.Core) (c : Cause) (x : Capture) : (s.raiseWith ev c x).Core := by
  unfold State.raiseWith
  dsimp only
  split
  · exact k
  · rename_i n
    have k4 := State.combine_core h (h.core (((k.append
      { cause := c, capture := x, time := s.partTime, heard := false } (by simpa using n)).report (.raised c x)).reportPosition))
      false
    split
    · exact k4.abandonProof
    · exact k4

theorem State.raiseWith_braked (h : Evaluator ev) (k : s.Core) (b : s.Braked) (c : Cause) (x : Capture) :
    (s.raiseWith ev c x).Braked := by
  unfold State.raiseWith
  dsimp only
  split
  · exact b
  · rename_i n
    have k3 := h.core (((k.append
      { cause := c, capture := x, time := s.partTime, heard := false } (by simpa using n)).report (.raised c x)).reportPosition)
    split
    · exact State.abandonProof_braked (State.combine_braked h k3 false)
    · exact State.combine_braked h k3 false

theorem State.raiseWith_holds (h : Evaluator ev) (b : s.Holds) (c : Cause) (x : Capture) : (s.raiseWith ev c x).Holds := by
  unfold State.raiseWith
  dsimp only
  split
  · exact b
  · split
    · exact State.abandonProof_holds (State.combine_holds h _ false)
    · exact State.combine_holds h _ false

theorem State.raiseWith_permit (h : Evaluator ev) (k : s.Core) (p : s.PermitLaw) (c : Cause) (x : Capture) :
    (s.raiseWith ev c x).PermitLaw := by
  unfold State.raiseWith
  dsimp only
  split
  · exact p
  · rename_i n
    have k2 := ((k.append { cause := c, capture := x, time := s.partTime, heard := false } (by simpa using n)).report
      (.raised c x)).reportPosition
    have k3 := h.core k2
    have p4 := State.combine_permit h k3 (h.permit k2) false
    split
    · exact State.abandonProof_permit (State.combine_braked h k3 false) p4
    · exact p4

theorem InterventionSet.append_hasLevel (i : InterventionSet) (e : Entry) (l : Level) :
    (i.append e).hasLevel l = (i.hasLevel l || e.cause.level == l) := by
  simp [InterventionSet.hasLevel, InterventionSet.append]

theorem State.report_proof (h : s.ProofLaw) (b : ReportBody) : (s.report b).ProofLaw := by
  unfold State.report
  split <;> exact h

theorem State.reportPosition_proof (h : s.ProofLaw) : s.reportPosition.ProofLaw := by
  unfold State.reportPosition
  split <;> exact h

theorem State.raiseWith_proof (h : Evaluator ev) (k : s.Core) (p : s.ProofLaw) (c : Cause) (x : Capture) :
    (s.raiseWith ev c x).ProofLaw := by
  unfold State.raiseWith
  dsimp only
  split
  · exact p
  · rename_i n
    split
    · exact State.abandonProof_proof _
    · rename_i l
      have k2 := ((k.append { cause := c, capture := x, time := s.partTime, heard := false } (by simpa using n)).report
        (.raised c x)).reportPosition
      refine State.combine_proof h (h.core k2) (h.proof k2 (State.reportPosition_proof (State.report_proof ?_ _))) false
      refine State.proofLaw_of (s := s) rfl id id (fun a => ?_) p
      rw [State.withSet_set, InterventionSet.append_hasLevel, a]
      simpa using l

theorem State.removeWith_proof (h : Evaluator ev) (k : s.Core) (p : s.ProofLaw) (c : Cause) :
    (s.removeWith ev c).ProofLaw := by
  unfold State.removeWith
  dsimp only
  split
  · have k2 := (k.erase c).report (.cleared c)
    have k3 := h.core k2
    refine State.testProof_proof (State.combine_braked h k3 false) (State.combine_proof h k3 (h.proof k2
      (State.report_proof ?_ _)) false)
    refine State.proofLaw_of (s := s) rfl id id (fun a => ?_) p
    unfold InterventionSet.hasLevel at *
    rw [List.any_eq_false] at *
    exact fun e he => a e (List.mem_of_mem_filter he)
  · exact p

theorem State.removeWith_frame (h : Evaluator ev) (s : State) (c : Cause) (hr : ∀ d ∈ overspeeds, d ∈ r) (hc : c ∈ m)
    (hm : Cause.overspeedService ∈ m) : Frame [] r m s (s.removeWith ev c) := by
  unfold State.removeWith
  dsimp only
  split
  · have f1 : Frame [] r m s (s.withSet (s.set.erase c)) := State.erase_frame s c hc
    have f2 := f1.trans (State.report_frame _ (.cleared c))
    have f3 := f2.trans (overspeeds_nil_frame (h.frame _) hr hm)
    exact (f3.trans (overspeeds_nil_frame (State.combine_frame h _) hr hm)).trans (State.testProof_frame _)
  · exact Frame.refl

theorem State.removeWith_core (h : Evaluator ev) (k : s.Core) (c : Cause) : (s.removeWith ev c).Core := by
  unfold State.removeWith
  dsimp only
  split
  · exact (State.combine_core h (h.core ((k.erase c).report _)) false).testProof
  · exact k

theorem State.removeWith_braked (h : Evaluator ev) (k : s.Core) (b : s.Braked) (c : Cause) :
    (s.removeWith ev c).Braked := by
  unfold State.removeWith
  dsimp only
  split
  · exact State.testProof_braked (State.combine_braked h (h.core ((k.erase c).report _)) false)
  · exact b

theorem State.removeWith_holds (h : Evaluator ev) (b : s.Holds) (c : Cause) : (s.removeWith ev c).Holds := by
  unfold State.removeWith
  dsimp only
  split
  · exact State.testProof_holds (State.combine_holds h _ false)
  · exact b

theorem State.removeWith_permit (h : Evaluator ev) (k : s.Core) (p : s.PermitLaw) (c : Cause) :
    (s.removeWith ev c).PermitLaw := by
  unfold State.removeWith
  dsimp only
  split
  · have k3 := h.core ((k.erase c).report (.cleared c))
    exact State.testProof_permit (State.combine_braked h k3 false)
      (State.combine_permit h k3 (h.permit ((k.erase c).report (.cleared c))) false)
  · exact p

/-! ### An evaluation -/

theorem ite_keeps {P : State → Prop} {c : Bool} {a b : State} (ha : P a) (hb : P b) : P (if c then a else b) := by
  cases c
  · exact hb
  · exact ha

/-- `raising` does nothing but raisings of overspeed causes, each with the capture of `s`. -/
def State.Raising (s : State) (raising : State → State) : Prop :=
  ∀ P : State → Prop, (∀ t c, c ∈ overspeeds → P t → P (t.raiseWith State.evaluateQuiet c s.capture)) →
    ∀ t, P t → P (raising t)

theorem State.raising_id (s : State) : s.Raising id := fun _ _ _ h => h

theorem State.raiseOverspeeds_raising (s : State) : s.Raising fun t => t.raiseOverspeeds s := fun _ ra _ h =>
  have k := ite_keeps (c := s.overService) (ra _ _ (by decide) h) h
  ite_keeps (c := s.overEmergency) (ra _ _ (by decide) k) k

/-- What holds when the supervision state is set, and is kept by each raising and removal of the supervisor, holds at the end
of an evaluation. -/
theorem State.judgeWith_keeps (k : s.Raising raising) (P : State → Prop) (h : ∀ b, P (s.withSupervision b))
    (ra : ∀ t c, c ∈ overspeeds → P t → P (t.raiseWith State.evaluateQuiet c s.capture))
    (re : ∀ t, P t → P (t.removeWith State.evaluateQuiet .overspeedService)) : P (s.judgeWith raising) :=
  ite_keeps (re _ (k P ra _ (h _))) (k P ra _ (h _))

theorem State.judge_keeps (P : State → Prop) (h : ∀ b, P (s.withSupervision b))
    (ra : ∀ t c, c ∈ overspeeds → P t → P (t.raiseWith State.evaluateQuiet c s.capture))
    (re : ∀ t, P t → P (t.removeWith State.evaluateQuiet .overspeedService)) : P s.judge :=
  State.judgeWith_keeps s.raiseOverspeeds_raising P h ra re

theorem State.judgeWith_frame (k : s.Raising raising) : NoticesOnly s (s.judgeWith raising) :=
  have q := State.evaluateQuiet_evaluator
  State.judgeWith_keeps k (NoticesOnly s) (State.withSupervision_frame s)
    (fun _ _ hc f => f.trans (State.raiseWith_frame q _ _ _ (fun _ h => h) hc (by decide)))
    fun _ f => f.trans (State.removeWith_frame q _ _ (fun _ h => h) (by decide) (by decide))

theorem State.judge_frame (s : State) : NoticesOnly s s.judge := State.judgeWith_frame s.raiseOverspeeds_raising

theorem State.judgeWith_core (k : s.Raising raising) (h : s.Core) : (s.judgeWith raising).Core :=
  State.judgeWith_keeps k State.Core h.withSupervision
    (fun _ _ _ k => State.raiseWith_core State.evaluateQuiet_evaluator k _ _)
    fun _ k => State.removeWith_core State.evaluateQuiet_evaluator k _

theorem State.judgeWith_braked (k : s.Raising raising) (h : s.Core) (b : s.Braked) : (s.judgeWith raising).Braked :=
  (State.judgeWith_keeps k (fun t => t.Core ∧ t.Braked) (fun _ => ⟨h.withSupervision _, b⟩)
    (fun _ _ _ k => ⟨State.raiseWith_core State.evaluateQuiet_evaluator k.1 _ _,
      State.raiseWith_braked State.evaluateQuiet_evaluator k.1 k.2 _ _⟩)
    fun _ k => ⟨State.removeWith_core State.evaluateQuiet_evaluator k.1 _,
      State.removeWith_braked State.evaluateQuiet_evaluator k.1 k.2 _⟩).2

theorem State.judgeWith_holds (k : s.Raising raising) (h : s.Holds) : (s.judgeWith raising).Holds :=
  State.judgeWith_keeps k State.Holds (fun _ => h)
    (fun _ _ _ k => State.raiseWith_holds State.evaluateQuiet_evaluator k _ _)
    fun _ k => State.removeWith_holds State.evaluateQuiet_evaluator k _

theorem State.judgeWith_permit (k : s.Raising raising) (h : s.Core) : (s.judgeWith raising).PermitLaw :=
  (State.judgeWith_keeps k (fun t => t.Core ∧ t.PermitLaw)
    (fun _ => ⟨h.withSupervision _, State.withSupervision_permit _ _⟩)
    (fun _ _ _ k => ⟨State.raiseWith_core State.evaluateQuiet_evaluator k.1 _ _,
      State.raiseWith_permit State.evaluateQuiet_evaluator k.1 k.2 _ _⟩)
    fun _ k => ⟨State.removeWith_core State.evaluateQuiet_evaluator k.1 _,
      State.removeWith_permit State.evaluateQuiet_evaluator k.1 k.2 _⟩).2

theorem State.judgeWith_proof (k : s.Raising raising) (h : s.Core) (p : s.ProofLaw) : (s.judgeWith raising).ProofLaw :=
  (State.judgeWith_keeps k (fun t => t.Core ∧ t.ProofLaw) (fun _ => ⟨h.withSupervision _, p⟩)
    (fun _ _ _ k => ⟨State.raiseWith_core State.evaluateQuiet_evaluator k.1 _ _,
      State.raiseWith_proof State.evaluateQuiet_evaluator k.1 k.2 _ _⟩)
    fun _ k => ⟨State.removeWith_core State.evaluateQuiet_evaluator k.1 _,
      State.removeWith_proof State.evaluateQuiet_evaluator k.1 k.2 _⟩).2

/-- A judgement with any raisings of the supervisor's is an evaluation's end (R59). -/
theorem State.judging (head : State → State) (raising : State → State → State) (k : ∀ s, (head s).Raising (raising (head s)))
    (f : ∀ s, NoticesOnly s (head s)) (c : ∀ {s : State}, s.Core → (head s).Core) (b : ∀ {s : State}, s.Braked → (head s).Braked)
    (h : ∀ {s : State}, s.Holds → (head s).Holds) (p : ∀ {s : State}, s.ProofLaw → (head s).ProofLaw) :
    Evaluator fun s => (head s).judgeWith (raising (head s)) where
  frame s := (f s).trans (State.judgeWith_frame (k s))
  core g := State.judgeWith_core (k _) (c g)
  braked g w := State.judgeWith_braked (k _) (c g) (b w)
  holds g := State.judgeWith_holds (k _) (h g)
  permit g := State.judgeWith_permit (k _) (c g)
  proof g w := State.judgeWith_proof (k _) (c g) (p w)

/-- An evaluation is one (R59). -/
theorem State.evaluate_evaluator : Evaluator State.evaluate :=
  State.judging (fun s => s.decayed.withFigures) (fun s t => t.raiseOverspeeds s) (fun _ => State.raiseOverspeeds_raising _)
    (fun s => s.decayed_frame.trans (State.withFigures_frame _)) (fun h => h.decayed.withFigures) (fun h => h) (fun h => h)
    fun h => h

/-- An evaluation on a tooth notice is one (R59). -/
theorem State.evaluateTooth_evaluator : Evaluator State.evaluateTooth :=
  State.judging State.withFigures (fun s t => t.raiseOverspeeds s) (fun _ => State.raiseOverspeeds_raising _)
    State.withFigures_frame (fun h => h.withFigures) (fun h => h) (fun h => h) fun h => h

/-- An evaluation inside the step of a release is one (R59, R87). -/
theorem State.evaluateAside_evaluator : Evaluator State.evaluateAside :=
  State.judging (fun s => s.decayed.withFigures) (fun _ => id) (fun _ => State.raising_id _)
    (fun s => s.decayed_frame.trans (State.withFigures_frame _)) (fun h => h.decayed.withFigures) (fun h => h) (fun h => h)
    fun h => h

end Sys2Proof.Machine
end

