-- ==== Sys2Proof/Laws/Lawful.lean ====
section
/-! SUPPORT. Steps that keep a frame and every law, and how they compose; the shared operations of Machine/Notices.lean are
such steps. -/

namespace Sys2Proof.Machine

set_option Elab.async false

variable {free : List Block} {r m : List Cause} {but : List Law} {s t u : State} {ev : State → State}

/-- A step that leaves everything outside its frame unchanged, keeps the laws, and of a sound state the further laws but those
listed. -/
structure Lawful (free : List Block) (r m : List Cause) (s t : State) (but : List Law := []) : Prop where
  frame : Frame free r m s t
  sound : s.Sound → t.Sound
  keeps : s.Sound → s.Keeps t but := by exact fun _ x _ => by cases x <;> exact id

theorem Lawful.refl : Lawful free r m s s but := ⟨Frame.refl, id, fun _ _ _ => id⟩

theorem Lawful.trans (f : Lawful free r m s t but) (g : Lawful free r m t u but)
    (nq : Block.opState ∈ free → Block.park ∈ free ∧ Block.cabTimer ∈ free := by decide) : Lawful free r m s u but :=
  ⟨f.frame.trans g.frame nq, fun h => g.sound (f.sound h), fun h x n k => g.keeps (f.sound h) x n (f.keeps h x n k)⟩

theorem Lawful.mono {free' : List Block} {r' m' : List Cause} (f : Lawful free r m s t but)
    (hb : ∀ b ∈ free, b ∈ free' := by decide) (hr : ∀ c ∈ r, c ∈ r' := by decide) (hm : ∀ c ∈ m, c ∈ m' := by decide) :
    Lawful free' r' m' s t but := ⟨f.frame.mono hb hr hm, f.sound, f.keeps⟩

/-- More blocks listed, the same causes. -/
theorem Lawful.blocks {free' : List Block} (f : Lawful free r m s t but) (hb : ∀ b ∈ free, b ∈ free' := by decide) :
    Lawful free' r m s t but := ⟨f.frame.mono hb (fun _ h => h) fun _ h => h, f.sound, f.keeps⟩

/-- More laws excepted. -/
theorem Lawful.except (f : Lawful free r m s t) : Lawful free r m s t but :=
  ⟨f.frame, f.sound, fun h x _ => f.keeps h x (by simp)⟩

/-- The excepted laws hold in the end. -/
theorem Lawful.close (f : Lawful free r m s t but) (h : s.Sound → ∀ x ∈ but, x.Holds s → x.Holds t) : Lawful free r m s t :=
  ⟨f.frame, f.sound, fun q x _ => by
    by_cases n : x ∈ but
    · exact h q x n
    · exact f.keeps q x n⟩

theorem Lawful.ite {p : Prop} [Decidable p] (f : p → Lawful free r m s t but) (g : ¬p → Lawful free r m s u but) :
    Lawful free r m s (if p then t else u) but := by
  split
  · exact f ‹_›
  · exact g ‹_›

/-- A fold of steps is a step. -/
theorem Lawful.foldl {α : Type} (f : State → α → State) (l : List α) (h : ∀ s a, Lawful free r m s (f s a) but)
    (nq : Block.opState ∈ free → Block.park ∈ free ∧ Block.cabTimer ∈ free := by decide) (s : State) :
    Lawful free r m s (l.foldl f s) but := by
  induction l generalizing s with
  | nil => exact Lawful.refl
  | cons a l ih => exact (h s a).trans (ih _) nq

/-! ### The laws from their parts -/

theorem State.Sound.holds (h : s.Sound) : s.Holds := h.brakes.1

theorem State.Sound.braked (h : s.Sound) : s.Braked := h.brakes.2

theorem State.Core.queued (h : s.Core) : s.radio.lost ≤ 255 ∧ s.radio.flying ≤ s.radio.queue.length := by
  obtain ⟨-, -, -, -, a, b, -⟩ := h.capacity
  exact ⟨b, a⟩

theorem State.Sound.queued (h : s.Sound) : s.radio.lost ≤ 255 ∧ s.radio.flying ≤ s.radio.queue.length := h.core.queued

theorem State.Sound.of (k : s.Core) (h : s.Holds) (b : s.Braked) (p : s.PermitLaw) (d : s.DoorLaw) : s.Sound :=
  ⟨k.1, ⟨h, b⟩, p, d, k.2, k.3, k.4⟩

theorem State.doorLaw_of (h : s.DoorLaw) (e : t.doors = s.doors) : t.DoorLaw := by
  unfold State.DoorLaw State.doorAt at *
  rw [e]
  exact h

/-- Every law but the permit's, which an evaluation restores. -/
structure State.Ready (s : State) : Prop where
  core : s.Core
  holds : s.Holds
  braked : s.Braked
  doors : s.DoorLaw

theorem State.Sound.ready (h : s.Sound) : s.Ready := ⟨h.core, h.holds, h.braked, h.doors⟩

theorem State.Ready.sound (h : s.Ready) (p : s.PermitLaw) : s.Sound := State.Sound.of h.core h.holds h.braked p h.doors

/-- An evaluation restores the permit law. -/
theorem Evaluator.sound (e : Evaluator ev) (k : s.Core) (h : s.Holds) (b : s.Braked) (d : s.DoorLaw) : (ev s).Sound :=
  State.Sound.of (e.core k) (e.holds h) (e.braked k b) (e.permit k) (State.doorLaw_of d ((e.frame s).doors (by simp)))

theorem State.Ready.evaluate (h : s.Ready) : s.evaluate.Sound :=
  State.evaluate_evaluator.sound h.core h.holds h.braked h.doors

/-- An evaluation keeps the further laws, the permit law or not. -/
theorem State.evaluate_keeps (k : s.Core) : s.Keeps s.evaluate [] :=
  (State.evaluate_evaluator.frame s).keeps k.queued (fun k => absurd k (by decide)) fun _ => State.evaluate_evaluator.proof k

theorem Evaluator.lawful (e : Evaluator ev) (s : State) : Lawful [] overspeeds [.overspeedService] s (ev s) :=
  ⟨e.frame s, fun h => e.sound h.core h.holds h.braked h.doors, fun h =>
    (e.frame s).keeps h.queued (fun k => absurd k (by decide)) fun _ => e.proof h.core⟩

theorem State.evaluate_lawful (s : State) : Lawful [] overspeeds [.overspeedService] s s.evaluate :=
  State.evaluate_evaluator.lawful s

theorem State.evaluateTooth_lawful (s : State) : Lawful [] overspeeds [.overspeedService] s s.evaluateTooth :=
  State.evaluateTooth_evaluator.lawful s

/-- A recomputation restores the brake law. -/
theorem State.recompute_sound (k : s.Core) (p : s.PermitLaw) (d : s.DoorLaw) : s.recompute.Sound :=
  have e := State.evaluate_evaluator
  State.Sound.of (State.combine_core e k false) (State.combine_holds e s false) (State.combine_braked e k false)
    (State.combine_permit e k p false) (State.doorLaw_of d ((State.combine_frame e s).doors (by simp)))

/-- A recomputation keeps the further laws. -/
theorem State.recompute_keeps (k : s.Core) : s.Keeps s.recompute [] :=
  have e := State.evaluate_evaluator
  (State.combine_frame e s).keeps k.queued (fun k => absurd k (by decide)) fun _ p => State.combine_proof e k p false

theorem State.recompute_lawful (s : State) : Lawful [] overspeeds [.overspeedService] s s.recompute :=
  have e := State.evaluate_evaluator
  ⟨State.combine_frame e s, fun h => State.recompute_sound h.core h.permit h.doors, fun h => State.recompute_keeps h.core⟩

theorem State.report_lawful (s : State) (b : ReportBody) (he : b.IsEvent := by exact fun _ => rfl) :
    Lawful [] r m s (s.report b) :=
  have f : Frame [] r m s (s.report b) := State.report_frame s b he
  ⟨f, fun h => State.Sound.of (h.core.report b) (State.report_holds h.holds b) (State.report_braked h.braked b)
    (State.report_permit h.permit b) (State.doorLaw_of h.doors (f.doors (by simp))),
    fun h => (State.report_frame (r := []) (m := []) s b he).keeps h.queued (by simp) fun _ p => State.report_proof p b⟩

theorem State.reportPosition_lawful (s : State) : Lawful [] r m s s.reportPosition :=
  have f : Frame [] r m s s.reportPosition := State.reportPosition_frame s
  ⟨f, fun h => State.Sound.of h.core.reportPosition (State.reportPosition_holds h.holds)
    (State.reportPosition_braked h.braked)
    (by
      unfold State.reportPosition
      split <;> exact h.permit)
    (State.doorLaw_of h.doors (f.doors (by simp))),
    fun h => (State.reportPosition_frame (r := []) (m := []) s).keeps h.queued (by simp) fun _ => State.reportPosition_proof⟩

theorem State.raiseWith_lawful (e : Evaluator ev) (s : State) (c : Cause) (x : Capture)
    (hr : ∀ d ∈ overspeeds, d ∈ r := by decide) (hc : c ∈ r := by decide) (hm : Cause.overspeedService ∈ m := by decide) :
    Lawful [] r m s (s.raiseWith ev c x) :=
  have f : Frame [] r m s (s.raiseWith ev c x) := State.raiseWith_frame e s c x hr hc hm
  ⟨f, fun h => State.Sound.of (State.raiseWith_core e h.core c x) (State.raiseWith_holds e h.holds c x)
    (State.raiseWith_braked e h.core h.braked c x) (State.raiseWith_permit e h.core h.permit c x)
    (State.doorLaw_of h.doors (f.doors (by simp))),
    fun h => (State.raiseWith_frame (r := c :: overspeeds) (m := [.overspeedService]) e s c x (fun _ k => List.mem_cons_of_mem _ k)
      (by simp) (by simp)).keeps h.queued (fun k => absurd k (by decide)) fun _ p => State.raiseWith_proof e h.core p c x⟩

theorem State.raise_lawful (s : State) (c : Cause) (x : Capture) (hr : ∀ d ∈ overspeeds, d ∈ r := by decide)
    (hc : c ∈ r := by decide) (hm : Cause.overspeedService ∈ m := by decide) : Lawful [] r m s (s.raise c x) :=
  State.raiseWith_lawful State.evaluate_evaluator s c x hr hc hm

/-- The supervisor's raisings, as another evaluation judged them. -/
theorem State.raiseOverspeeds_lawful (s judged : State) :
    Lawful [] overspeeds [.overspeedService] s (s.raiseOverspeeds judged) :=
  judged.raiseOverspeeds_raising (Lawful [] overspeeds [.overspeedService] s)
    (fun _ _ hc f => f.trans (State.raiseWith_lawful State.evaluateQuiet_evaluator _ _ _ (fun _ h => h) hc (by decide)))
    s Lawful.refl

theorem State.removeWith_lawful (e : Evaluator ev) (s : State) (c : Cause) (hr : ∀ d ∈ overspeeds, d ∈ r := by decide)
    (hc : c ∈ m := by decide) (hm : Cause.overspeedService ∈ m := by decide)
    (hd : c = .doorUnlockedMoving → s.odo.standstill = true := by exact fun h => absurd h (by decide)) :
    Lawful [] r m s (s.removeWith ev c) :=
  have f : Frame [] r m s (s.removeWith ev c) := State.removeWith_frame e s c hr hc hm
  ⟨f, fun h => State.Sound.of (State.removeWith_core e h.core c) (State.removeWith_holds e h.holds c)
    (State.removeWith_braked e h.core h.braked c) (State.removeWith_permit e h.core h.permit c)
    (State.doorLaw_of h.doors (f.doors (by simp))),
    fun h => (State.removeWith_frame (r := overspeeds) (m := [c, .overspeedService]) e s c (fun _ k => k) (by simp)
      (by simp)).keeps h.queued (fun k => hd (by simpa [eq_comm] using k)) fun _ p => State.removeWith_proof e h.core p c⟩

theorem State.remove_lawful (s : State) (c : Cause) (hr : ∀ d ∈ overspeeds, d ∈ r := by decide)
    (hc : c ∈ m := by decide) (hm : Cause.overspeedService ∈ m := by decide)
    (hd : c = .doorUnlockedMoving → s.odo.standstill = true := by exact fun h => absurd h (by decide)) :
    Lawful [] r m s (s.remove c) :=
  State.removeWith_lawful State.evaluate_evaluator s c hr hc hm hd

/-- A removal whose raisings wait removes only. -/
theorem State.removeAside_lawful (s : State) (c : Cause) (hr : ∀ d ∈ overspeeds, d ∈ r := by decide)
    (hc : c ∈ m := by decide) (hm : Cause.overspeedService ∈ m := by decide)
    (hd : c = .doorUnlockedMoving → s.odo.standstill = true := by exact fun h => absurd h (by decide)) :
    Lawful [] r m s (s.removeAside c) :=
  State.removeWith_lawful State.evaluateAside_evaluator s c hr hc hm hd

theorem State.testProof_lawful (s : State) : Lawful [] r m s s.testProof :=
  have f : Frame [] r m s s.testProof := State.testProof_frame s
  ⟨f, fun h => State.Sound.of h.core.testProof (State.testProof_holds h.holds) (State.testProof_braked h.braked)
    (State.testProof_permit h.braked h.permit) (State.doorLaw_of h.doors (f.doors (by simp))),
    fun h => (State.testProof_frame (r := []) (m := []) s).keeps h.queued (by simp) fun _ => State.testProof_proof h.braked⟩

theorem State.abandonProof_lawful (s : State) : Lawful [] r m s s.abandonProof :=
  have f : Frame [] r m s s.abandonProof := State.abandonProof_frame s
  ⟨f, fun h => State.Sound.of h.core.abandonProof (State.abandonProof_holds h.holds)
    (State.abandonProof_braked h.braked) (State.abandonProof_permit h.braked h.permit)
    (State.doorLaw_of h.doors (f.doors (by simp))),
    fun h => (State.abandonProof_frame (r := []) (m := []) s).keeps h.queued (by simp) fun _ _ => s.abandonProof_proof⟩

theorem State.emptyTried_lawful (s : State) : Lawful [] r m s s.emptyTried :=
  .mk (State.emptyTried_frame s) fun h => State.Sound.of h.core.emptyTried h.holds h.braked h.permit h.doors

theorem State.endProof_lawful (s : State) (c : Channel) : Lawful [] r m s (s.endProof c) :=
  ⟨State.endProof_frame s c, fun h => State.Sound.of (h.core.endProof c) rfl (State.endProof_braked h.core.latch c)
    (State.endProof_permit h.braked h.permit c) h.doors,
    fun h => (State.endProof_frame (r := []) (m := []) s c).keeps h.queued (by simp) fun _ _ => State.proofLaw_none rfl⟩

theorem State.recombine_lawful (s : State) : Lawful [] r m s (s.recombine false) :=
  ⟨State.recombine_frame s, fun h => State.Sound.of (h.core.recombine false) rfl
    (State.recombine_braked h.core.latch false) (State.recombine_permit false h.braked.1.symm h.permit) h.doors,
    fun h => (State.recombine_frame (r := []) (m := []) s).keeps h.queued (by simp)
      fun _ => State.recombine_proof false fun a => (h.braked.1.symm.trans a : s.springLaw s.comb.park = true)⟩

theorem State.resettle_lawful (s : State) (c : Channel) : Lawful [] r m s (s.resettle c) :=
  .mk (State.resettle_frame s c) fun h => State.Sound.of (h.core.resettle c) h.holds h.braked h.permit h.doors

/-! ### Changes of operating state -/

theorem State.changeOpState_frame (s : State) (x : OpState) :
    Frame [.opState, .cabTimer, .park] overspeeds [.overspeedService] s (s.changeOpState x) := by
  have f1 : Frame [.opState, .cabTimer, .park] overspeeds [.overspeedService] s (s.setOpState x) :=
    State.setOpState_frame s x
  have f2 := f1.trans ((State.evaluate_evaluator.frame (s.setOpState x)).mono (by simp) (fun _ h => h) fun _ h => h)
  refine f2.trans ?_
  show Frame _ _ _ _ ((s.setOpState x).evaluate.combine State.evaluate (x == .config))
  cases x == OpState.config
  · exact (State.combine_frame State.evaluate_evaluator _).mono (by simp) (fun _ h => h) fun _ h => h
  · have f3 : ∀ u : State, Frame [.opState, .cabTimer, .park] overspeeds [.overspeedService] u (u.recombine true) :=
      fun u => (State.recombine_frame_park (r := overspeeds) (m := [.overspeedService]) u).mono (by simp) (fun _ h => h)
        fun _ h => h
    unfold State.combine
    dsimp only
    split
    · exact f3 _
    · exact (f3 _).trans ((State.springNotice_frame State.evaluate_evaluator _).mono (by simp) (fun _ h => h) fun _ h => h)

theorem State.changeOpState_sound (k : s.Core) (d : s.DoorLaw) (x : OpState) : (s.changeOpState x).Sound := by
  have e := State.evaluate_evaluator
  have k1 := k.setOpState x
  have k2 := e.core k1
  exact State.Sound.of (State.combine_core e k2 _) (State.combine_holds e _ _) (State.combine_braked e k2 _)
    (State.combine_permit e k2 (e.permit k1) _)
    (State.doorLaw_of d ((State.changeOpState_frame s x).doors (by simp)))

theorem State.changeOpState_proof (k : s.Core) (p : s.ProofLaw) (x : OpState) : (s.changeOpState x).ProofLaw := by
  have e := State.evaluate_evaluator
  have k1 := k.setOpState x
  exact State.combine_proof e (e.core k1) (e.proof k1 p) _

theorem State.changeOpState_lawful (s : State) (x : OpState) :
    Lawful [.opState, .cabTimer, .park] overspeeds [.overspeedService] s (s.changeOpState x) :=
  ⟨State.changeOpState_frame s x, fun h => State.changeOpState_sound h.core h.doors x, fun h =>
    (State.changeOpState_frame s x).keeps h.queued (fun k => absurd k (by decide)) fun _ p => State.changeOpState_proof h.core p x⟩

/-- After a change to CONFIG, or to QUIESCING or RUN, the state is the one asked for, or CONFIG where QUIESCING ended at once. -/
theorem State.changeOpState_config (s : State) : (s.changeOpState .config).line.opState = .config := by
  have e := State.evaluate_evaluator
  have h1 : (s.setOpState .config).evaluate.line.opState = .config := (e.frame _).config rfl
  show ((s.setOpState .config).evaluate.combine State.evaluate true).line.opState = .config
  unfold State.combine
  dsimp only
  split
  · exact h1
  · exact (State.springNotice_frame e _).config h1

theorem Frame.running (f : Frame [] r m s t) (h : s.line.opState = .run) : t.line.opState = .run := by
  rcases f.opState (by simp) with a | ⟨b, -⟩
  · exact a.trans h
  · rw [h] at b
    exact absurd b (by decide)

theorem State.changeOpState_run (s : State) : (s.changeOpState .run).line.opState = .run := by
  have e := State.evaluate_evaluator
  have h1 : (s.setOpState .run).evaluate.line.opState = .run := (e.frame _).running rfl
  exact (State.combine_frame e _).running h1

theorem State.testQuiesced_frame (s : State) : NoticesOnly s s.testQuiesced := by
  unfold State.testQuiesced
  split
  · rename_i q
    have q' := (State.quiesced_iff.1 q).1
    refine ((State.changeOpState_frame s .config).mono (free' := [.park, .opState, .cabTimer]) (by decide)
      (fun _ h => h) fun _ h => h).ofQuiescing q' (State.changeOpState_config s) ?_
    have e := State.evaluate_evaluator
    have h1 : (s.setOpState .config).evaluate.line.cabTimer = none := (e.frame _).cabStopped rfl
    show ((s.setOpState .config).evaluate.combine State.evaluate true).line.cabTimer = none
    unfold State.combine
    dsimp only
    split
    · exact h1
    · exact (State.springNotice_frame e _).cabStopped h1
  · exact Frame.refl

theorem State.testQuiesced_lawful (s : State) : Lawful [] overspeeds [.overspeedService] s s.testQuiesced := by
  refine ⟨State.testQuiesced_frame s, fun h => ?_, fun h =>
    (State.testQuiesced_frame s).keeps h.queued (fun k => absurd k (by decide)) fun _ p => ?_⟩
  all_goals
    unfold State.testQuiesced
    split
  · exact State.changeOpState_sound h.core h.doors _
  · exact h
  · exact State.changeOpState_proof h.core p _
  · exact p

end Sys2Proof.Machine
end

