-- ==== Sys2Proof/Laws/Run.lean ====
section
/-! SUPPORT. The window as one run of line (R21) with its markers 20 teeth apart (R30): what drops, joins and the derivation of the
request make of it. -/

namespace Sys2Proof.Machine

set_option Elab.async false

variable {s : State} {w : Window}

/-- The records are one run of line and their markers stand apart. -/
def Window.Run (w : Window) : Prop :=
  w.records.IsChain Segment.Follows ∧ w.markers.Pairwise (fun m n => 20 ≤ gap m n)

/-- The by-number request asks for the number next to its edge (R24). -/
def Window.Asks (w : Window) : Prop :=
  (∀ n, w.wanted = .byNumber n .up → ∀ g, w.records.getLast? = some g → n = g.number + 1)
    ∧ ∀ n, w.wanted = .byNumber n .down → ∀ g, w.records.head? = some g → g.number = n + 1

theorem State.windowLaw_iff : s.WindowLaw ↔ s.win.Run ∧ s.win.Asks := by
  unfold State.WindowLaw Window.Run Window.Asks
  tauto

/-- Part of a run is one. -/
theorem Window.Run.part (h : w.Run) (v : Window) (k : v.records <:+: w.records) : v.Run :=
  ⟨h.1.infix k, h.2.sublist (k.sublist.filterMap _)⟩

theorem Window.Run.of_records (h : w.Run) (v : Window) (k : v.records = w.records) : v.Run :=
  h.part v (by rw [k])

theorem Window.Run.drop (h : w.Run) (e : Vertical) (n : Nat) : (w.drop e n).Run := by
  refine h.part _ ?_
  unfold Window.drop
  split
  · exact List.infix_rfl
  · cases e
    · exact (List.take_prefix _ _).isInfix
    · exact (List.drop_suffix _ _).isInfix

theorem Window.run_nil (h : w.records = []) : w.Run := by
  unfold Window.Run Window.markers
  rw [h]
  exact ⟨List.isChain_nil, List.Pairwise.nil⟩

theorem Window.run_single {g : Segment} (h : w.records = [g]) : w.Run := by
  unfold Window.Run Window.markers
  rw [h]
  refine ⟨List.isChain_singleton g, ?_⟩
  rw [List.filterMap_cons]
  split
  · exact List.Pairwise.nil
  · exact List.pairwise_singleton _ _

/-- The barred flags are no matter of the run. -/
theorem Window.Run.rebar (h : w.Run) (c : PerKind Nat) (v : Window)
    (k : v.records = w.records.map (fun g => g.withBarring c)) : v.Run := by
  unfold Window.Run Window.markers at *
  rw [k, List.isChain_map, List.filterMap_map]
  exact h

/-- Nor of the request. -/
theorem Window.Asks.rebar (h : w.Asks) (c : PerKind Nat) (v : Window)
    (k : v.records = w.records.map (fun g => g.withBarring c)) (l : v.wanted = w.wanted) : v.Asks := by
  unfold Window.Asks at *
  rw [k, l]
  refine ⟨fun n e g hg => ?_, fun n e g hg => ?_⟩
  · rw [List.getLast?_map] at hg
    obtain ⟨x, hx, rfl⟩ := Option.map_eq_some_iff.1 hg
    exact h.1 n e x hx
  · rw [List.head?_map] at hg
    obtain ⟨x, hx, rfl⟩ := Option.map_eq_some_iff.1 hg
    exact h.2 n e x hx

/-! ### Joining -/

theorem Window.spaced_iff {g : Segment} :
    w.spaced g = true ↔ ∀ m, g.markerAt = some m → ∀ n ∈ w.markers, 20 ≤ gap m n := by
  unfold Window.spaced
  split
  · rename_i e
    simp [e]
  · rename_i m e
    simp only [List.all_eq_true, decide_eq_true_eq, e, Option.some.injEq, forall_eq']
    exact Iff.rfl

theorem gap_comm (m n : Nat) : gap m n = gap n m := Nat.add_comm _ _

/-- A record that joins at an edge lengthens the run. -/
theorem Window.Run.join (h : w.Run) (k : w.Asks) {g : Segment} (sp : w.spaced g = true)
    (up : ∀ n, w.wanted = .byNumber n .up → g.number = n ∧ w.last?.map (· + 1) = some (g.start : Int))
    (down : ∀ n, w.wanted = .byNumber n .down → g.number = n ∧ w.first? = some ((g.start : Int) + g.length)) :
    (w.join g).Run := by
  rw [Window.spaced_iff] at sp
  unfold Window.join
  split
  · rename_i n e
    obtain ⟨u1, u2⟩ := up n e
    refine ⟨List.isChain_append.2 ⟨h.1, List.isChain_singleton g, fun x hx y hy => ?_⟩, ?_⟩
    · have y' : g = y := by simpa using hy
      subst y'
      have a := k.1 n e x hx
      unfold Window.last? at u2
      rw [Option.mem_def.1 hx] at u2
      simp only [Option.map_some, Option.some.injEq, Segment.last] at u2
      exact ⟨by omega, by omega⟩
    · show (List.filterMap Segment.markerAt (w.records ++ [g])).Pairwise _
      rw [List.filterMap_append, List.pairwise_append]
      refine ⟨h.2, ?_, fun m hm n hn => ?_⟩
      · rw [List.filterMap_cons]
        split
        · exact List.Pairwise.nil
        · exact List.pairwise_singleton _ _
      · have hn' : g.markerAt = some n := by simpa [List.mem_filterMap] using hn
        rw [gap_comm]
        exact sp n hn' m hm
  · rename_i n e
    obtain ⟨u1, u2⟩ := down n e
    refine ⟨List.isChain_cons.2 ⟨fun x hx => ?_, h.1⟩, ?_⟩
    · have a := k.2 n e x (Option.mem_def.1 hx)
      unfold Window.first? at u2
      rw [Option.mem_def.1 hx] at u2
      simp only [Option.map_some, Option.some.injEq] at u2
      exact ⟨by omega, by omega⟩
    · show (List.filterMap Segment.markerAt (g :: w.records)).Pairwise _
      rw [List.filterMap_cons]
      split
      · exact h.2
      · rename_i m hm
        exact List.pairwise_cons.2 ⟨fun n hn => sp m hm n hn, h.2⟩
  · exact Window.run_single rfl

/-! ### The request -/

theorem run_start {l : List Segment} (h : l.IsChain Segment.Follows) {a g : Segment} (ha : l.head? = some a) (hg : g ∈ l) :
    a.start ≤ g.start := by
  induction l generalizing a with
  | nil => simp at hg
  | cons x l ih =>
    have ha' : x = a := by simpa using ha
    subst ha'
    rcases List.mem_cons.1 hg with rfl | hg
    · exact le_refl _
    · obtain ⟨h1, h2⟩ := List.isChain_cons.1 h
      cases l with
      | nil => simp at hg
      | cons y l =>
        have f := h1 y rfl
        have := ih h2 (a := y) rfl hg
        have := f.1
        omega

theorem run_end {l : List Segment} (h : l.IsChain Segment.Follows) {b g : Segment} (hb : l.getLast? = some b) (hg : g ∈ l) :
    g.start + g.length ≤ b.start + b.length := by
  induction l generalizing g with
  | nil => simp at hg
  | cons x l ih =>
    obtain ⟨h1, h2⟩ := List.isChain_cons.1 h
    cases l with
    | nil =>
      have e1 : x = b := by simpa using hb
      have e2 : g = x := by simpa using hg
      rw [e2, e1]
    | cons y l =>
      have hb' : (y :: l).getLast? = some b := by rwa [List.getLast?_cons_cons] at hb
      rcases List.mem_cons.1 hg with rfl | hg
      · have := ih h2 hb' (g := y) (by simp)
        have := (h1 y rfl).1
        omega
      · exact ih h2 hb' hg

theorem Window.numberBeyond_up {n : Nat} (h : w.numberBeyond .up = some n) {g : Segment} (k : w.records.getLast? = some g) :
    n = g.number + 1 := by
  unfold Window.numberBeyond at h
  simp only [k] at h
  split at h
  · simp at h
  · simpa using h.symm

theorem Window.numberBeyond_down {n : Nat} (h : w.numberBeyond .down = some n) {g : Segment} (k : w.records.head? = some g) :
    g.number = n + 1 := by
  unfold Window.numberBeyond at h
  simp only [k] at h
  split at h
  · simp at h
  · have : g.number - 1 = n := by simpa using h
    omega

/-- What a request asks for lies beyond its edge; and at the trailing edge the footprint reaches beyond the window. -/
theorem State.neededNext_some {n : Nat} {e t : Vertical} (h : s.neededNext = some (n, e)) (k : s.odo.direction.travel = some t) :
    s.win.numberBeyond e = some n ∧ (e = t ∨ e = t.opposite ∧ s.reachesBeyond t.opposite = true) := by
  unfold State.neededNext at h
  rw [k] at h
  dsimp only at h
  split at h
  · rename_i m h1 h2
    simp only [Option.some.injEq, Prod.mk.injEq] at h
    obtain ⟨rfl, rfl⟩ := h
    simp only [Bool.and_eq_true] at h2
    exact ⟨h1, .inr ⟨rfl, h2.1⟩⟩
  · split at h
    · obtain ⟨m, hm, e'⟩ := Option.map_eq_some_iff.1 h
      simp only [Prod.mk.injEq] at e'
      obtain ⟨rfl, rfl⟩ := e'
      exact ⟨hm, .inl rfl⟩
    · simp at h

/-- Where the footprint reaches beyond the trailing edge no record lies behind. -/
theorem State.behind_nil {t : Vertical} (k : s.odo.direction.travel = some t) (h : s.win.Run)
    (l : ∀ g ∈ s.win.records, 1 ≤ g.length) (r : s.reachesBeyond t.opposite = true) : s.behindRecords = [] := by
  unfold State.behindRecords
  rw [k]
  refine List.filter_eq_nil_iff.2 fun g hg => ?_
  have l1 := l g hg
  unfold State.reachesBeyond at r
  cases t with
  | up =>
    simp only [Vertical.opposite, Window.first?] at r ⊢
    rcases hh : s.win.records.head? with _ | a
    · simp [hh] at r
    · have := run_start h.1 hh hg
      simp only [hh, Option.map_some, decide_eq_true_eq] at r
      have z : ¬g.last < s.lo := by
        unfold Segment.last
        omega
      simpa [Segment.beyond] using z
  | down =>
    simp only [Vertical.opposite, Window.last?] at r ⊢
    rcases hh : s.win.records.getLast? with _ | b
    · simp [hh] at r
    · have := run_end h.1 hh hg
      simp only [hh, Option.map_some, decide_eq_true_eq, Segment.last] at r
      simp only [Segment.beyond, decide_eq_true_eq]
      omega

theorem Window.asks_of (h : ∀ n e, w.wanted = .byNumber n e → w.numberBeyond e = some n) : w.Asks :=
  ⟨fun n k _ hg => Window.numberBeyond_up (h n .up k) hg, fun n k _ hg => Window.numberBeyond_down (h n .down k) hg⟩

theorem Window.numberBeyond_congr {v : Window} (h : v.records = w.records) (e : Vertical) : v.numberBeyond e = w.numberBeyond e := by
  unfold Window.numberBeyond
  rw [h]

/-- A record that leaves at one edge does not change what lies beyond the other. -/
theorem Window.numberBeyond_drop (t : Vertical) (h : 1 < w.records.length) :
    (w.drop t.opposite 1).numberBeyond t = w.numberBeyond t := by
  unfold Window.numberBeyond Window.drop
  cases t with
  | up =>
    simp only [Vertical.opposite, Nat.one_ne_zero, if_false]
    rw [List.getLast?_drop, if_neg (by omega)]
  | down =>
    simp only [Vertical.opposite, Nat.one_ne_zero, if_false]
    rw [List.head?_take, if_neg (by omega)]

theorem State.recount_run (h : s.win.Run) : s.recount.win.Run := h.of_records _ rfl

theorem State.dropBehind_run (h : s.win.Run) : s.dropBehind.1.win.Run := by
  unfold State.dropBehind
  split
  · exact h
  · dsimp only
    split
    · exact h
    · exact State.recount_run (s := s.withWin _) (h.drop _ _)

theorem State.dropBehind_length (l : ∀ g ∈ s.win.records, 1 ≤ g.length) : ∀ g ∈ s.dropBehind.1.win.records, 1 ≤ g.length := by
  unfold State.dropBehind
  split
  · exact l
  · dsimp only
    split
    · exact l
    · intro g hg
      refine l g ?_
      have hg' : g ∈ (s.win.drop _ _).records := hg
      unfold Window.drop at hg'
      split at hg'
      · exact hg'
      · cases ‹Vertical›
        · exact List.mem_of_mem_drop hg'
        · exact List.mem_of_mem_take hg'

theorem State.dropBehind_behind (h : s.win.behind = s.behindRecords.length) :
    s.dropBehind.1.win.behind = s.dropBehind.1.behindRecords.length := by
  unfold State.dropBehind
  split
  · exact h
  · dsimp only
    split
    · exact h
    · rfl

/-- The request derived on a run asks for the number next to its edge (R24, R27). -/
theorem State.deriveWanted_law (h : s.win.Run) (l : ∀ g ∈ s.win.records, 1 ≤ g.length)
    (b : s.win.behind = s.behindRecords.length) : s.deriveWanted.1.WindowLaw := by
  rw [State.windowLaw_iff]
  have no : ∀ x : Wanted, (∀ n e, x ≠ .byNumber n e) → ({ s.win with wanted := x } : Window).Run
      ∧ ({ s.win with wanted := x } : Window).Asks := fun x hx =>
    ⟨h.of_records _ rfl, Window.asks_of fun n e k => absurd k (hx n e)⟩
  unfold State.deriveWanted
  split
  · split
    · exact no _ (by simp)
    · exact no _ (by simp)
  · split
    · rename_i n e t hn ht
      obtain ⟨h1, h2⟩ := State.neededNext_some hn ht
      split
      · refine ⟨h.of_records _ rfl, Window.asks_of fun n' e' k => ?_⟩
        have k' : Wanted.byNumber n e = .byNumber n' e' := k
        simp only [Wanted.byNumber.injEq] at k'
        obtain ⟨rfl, rfl⟩ := k'
        exact h1
      · split
        · rename_i full one
          have e' : e = t := by
            rcases h2 with h2 | ⟨-, h2⟩
            · exact h2
            · rw [b, State.behind_nil ht h l h2] at one
              exact absurd one (by simp)
          subst e'
          refine ⟨(h.drop e.opposite 1).of_records _ rfl, Window.asks_of fun n' e' k => ?_⟩
          have k' : Wanted.byNumber n e = .byNumber n' e' := k
          simp only [Wanted.byNumber.injEq] at k'
          obtain ⟨rfl, rfl⟩ := k'
          have len : 1 < s.win.records.length := by
            simp only [Config.windowCapacity] at full
            omega
          exact (Window.numberBeyond_congr (w := s.win.drop e.opposite 1) rfl e).trans
            ((Window.numberBeyond_drop e len).trans h1)
        · exact no _ (by simp)
    · exact no _ (by simp)

/-- A recomputation before its notice, on a run (R25). -/
theorem State.rederived_law (h : s.win.Run) (l : ∀ g ∈ s.win.records, 1 ≤ g.length) :
    s.recount.dropBehind.1.deriveWanted.1.WindowLaw :=
  State.deriveWanted_law (State.dropBehind_run (State.recount_run h)) (State.dropBehind_length (s := s.recount) l)
    (State.dropBehind_behind (s := s.recount) rfl)

end Sys2Proof.Machine
end

