-- ==== Sys2Proof/Laws/Window.lean ====
section
/-! SUPPORT. What a recomputation of the window, of the barred flags and of the inside flag can do. -/

namespace Sys2Proof.Machine

set_option Elab.async false

variable {r m : List Cause} {s t : State}

/-- A window change keeps the laws when it keeps the window's own. -/
theorem State.Sound.withWin (h : s.Sound) (w : Window) (hl : w.records.length ≤ Config.windowCapacity)
    (hw : ∀ n e, w.wanted = .byNumber n e → w.records.length < Config.windowCapacity)
    (hg : ∀ g ∈ w.records, g.OnLine) : (s.withWin w).Sound where
  interventions := h.interventions
  brakes := h.brakes
  permit := h.permit
  doors := h.doors
  timers := h.timers
  capacity := ⟨hl, hw, h.capacity.2.2⟩
  ranges := ⟨hg, h.ranges.2⟩

/-- A window change keeps the core laws when it keeps the window's own. -/
theorem State.Core.withWin (h : s.Core) (w : Window) (hl : w.records.length ≤ Config.windowCapacity)
    (hw : ∀ n e, w.wanted = .byNumber n e → w.records.length < Config.windowCapacity)
    (hg : ∀ g ∈ w.records, g.OnLine) : (s.withWin w).Core :=
  ⟨h.1, h.2, ⟨hl, hw, h.3.2.2⟩, ⟨hg, h.4.2⟩, h.5⟩

theorem Window.drop_wanted (w : Window) (e : Vertical) (n : Nat) : (w.drop e n).wanted = w.wanted := by
  unfold Window.drop
  split
  · rfl
  · cases e <;> rfl

theorem Window.drop_length (w : Window) (e : Vertical) (n : Nat) :
    (w.drop e n).records.length = w.records.length - n := by
  unfold Window.drop
  split
  · simp_all
  · cases e <;> simp

theorem Window.drop_mem {w : Window} {e : Vertical} {n : Nat} {g : Segment} (h : g ∈ (w.drop e n).records) :
    g ∈ w.records := by
  unfold Window.drop at h
  split at h
  · exact h
  · cases e
    · exact List.mem_of_mem_take h
    · exact List.mem_of_mem_drop h

theorem State.recount_frame (s : State) : Frame [.window] r m s s.recount := Frame.withWin _

theorem State.dropBehind_frame (s : State) : Frame [.window] r m s s.dropBehind.1 := by
  unfold State.dropBehind
  split
  · exact Frame.refl
  · dsimp only
    split
    · exact Frame.refl
    · exact (Frame.withWin _).trans (State.recount_frame _)

theorem State.deriveWanted_frame (s : State) : Frame [.window] r m s s.deriveWanted.1 := by
  unfold State.deriveWanted
  split
  · split <;> exact Frame.withWin _
  · split
    · split
      · exact Frame.withWin _
      · split
        · exact ((Frame.withWin _).trans (State.recount_frame _)).trans (Frame.withWin _)
        · exact Frame.withWin _
    · exact Frame.withWin _

theorem Segment.withBarring_onLine {g : Segment} (h : g.OnLine) (c : PerKind Nat) : (g.withBarring c).OnLine := h

theorem State.rebar_frame (s : State) : Frame [.window] r m s s.rebar := Frame.withWin _

theorem State.rebar_sound (h : s.Sound) : s.rebar.Sound := by
  refine h.withWin _ ?_ (fun n e k => ?_) fun g hg => ?_
  · simpa using h.capacity.1
  · simpa using h.capacity.2.1 n e k
  · obtain ⟨x, hx, rfl⟩ := List.mem_map.1 hg
    exact Segment.withBarring_onLine (h.ranges.1 x hx) _

theorem State.rebar_keeps (s : State) : s.Keeps s.rebar [] := by
  intro x _
  cases x
  · exact id
  · intro h
    obtain ⟨h1, h2⟩ := State.windowLaw_iff.1 h
    exact State.windowLaw_iff.2 ⟨h1.rebar s.prov.capability _ rfl, h2.rebar s.prov.capability _ rfl rfl⟩
  · exact id
  · exact id
  · exact id

/-! ### The same on a state that only an evaluation will restore -/

theorem State.Ready.withWin (h : s.Ready) (w : Window) (hl : w.records.length ≤ Config.windowCapacity)
    (hw : ∀ n e, w.wanted = .byNumber n e → w.records.length < Config.windowCapacity)
    (hg : ∀ g ∈ w.records, g.OnLine) : (s.withWin w).Ready :=
  ⟨h.core.withWin w hl hw hg, h.holds, h.braked, h.doors⟩

/-- A window's own laws. -/
def Window.Lawful (w : Window) : Prop :=
  w.records.length ≤ Config.windowCapacity
    ∧ (∀ n e, w.wanted = .byNumber n e → w.records.length < Config.windowCapacity) ∧ ∀ g ∈ w.records, g.OnLine

theorem State.Ready.window (h : s.Ready) : s.win.Lawful :=
  ⟨h.core.capacity.1, h.core.capacity.2.1, h.core.ranges.1⟩

theorem State.Ready.setWindow (h : s.Ready) (w : Window) (k : w.Lawful) : (s.withWin w).Ready :=
  h.withWin w k.1 k.2.1 k.2.2

/-- A state that is ready but for the request, which the recomputation that follows derives anew. -/
def State.Loose (s : State) : Prop := (s.withWin { s.win with wanted := .none }).Ready

theorem State.Ready.loose (h : s.Ready) : s.Loose :=
  h.withWin _ h.window.1 (fun _ _ e => absurd e (by simp)) h.window.2.2

theorem State.Loose.window (h : s.Loose) :
    s.win.records.length ≤ Config.windowCapacity ∧ ∀ g ∈ s.win.records, g.OnLine :=
  ⟨(State.Ready.window h).1, (State.Ready.window h).2.2⟩

theorem State.Loose.withWin (h : s.Loose) (w : Window) (k : w.Lawful) : (s.withWin w).Ready :=
  State.Ready.setWindow (s := s.withWin { s.win with wanted := .none }) h w k

theorem State.Loose.loosely (h : s.Loose) (w : Window) (hl : w.records.length ≤ Config.windowCapacity)
    (hg : ∀ g ∈ w.records, g.OnLine) : (s.withWin w).Loose :=
  State.Loose.withWin h { w with wanted := .none } ⟨hl, fun _ _ e => absurd e (by simp), hg⟩

theorem State.Loose.recount (h : s.Loose) : s.recount.Loose := h.loosely _ h.window.1 h.window.2

theorem State.Loose.drop (h : s.Loose) (e : Vertical) (n : Nat) : (s.withWin (s.win.drop e n)).Loose := by
  refine h.loosely _ ?_ fun g hg => h.window.2 g (Window.drop_mem hg)
  rw [Window.drop_length]
  exact (Nat.sub_le _ _).trans h.window.1

theorem State.Loose.dropBehind (h : s.Loose) : s.dropBehind.1.Loose := by
  unfold State.dropBehind
  split
  · exact h
  · dsimp only
    split
    · exact h
    · exact (h.drop _ _).recount

theorem State.Loose.deriveWanted (h : s.Loose) : s.deriveWanted.1.Ready := by
  have hl := h.window.1
  have hg := h.window.2
  unfold State.deriveWanted
  split
  · split
    · exact h.withWin _ ⟨hl, fun _ _ k => by simp at k, hg⟩
    · exact h.withWin _ ⟨hl, fun _ _ k => by simp at k, hg⟩
  · rename_i ne
    split
    · split
      · exact h.withWin _ ⟨hl, fun _ _ _ => ‹_›, hg⟩
      · split
        · rename_i t _ _ _ _
          have k := (h.drop t.opposite 1).recount
          refine k.withWin _ ⟨k.window.1, fun _ _ _ => ?_, k.window.2⟩
          show (s.win.drop t.opposite 1).records.length < _
          rw [Window.drop_length]
          have : s.win.records.length ≠ 0 := by
            intro z
            exact ne (by simp [List.length_eq_zero_iff.1 z])
          omega
        · exact h.withWin _ ⟨hl, fun _ _ k => by simp at k, hg⟩
    · exact h.withWin _ ⟨hl, fun _ _ k => by simp at k, hg⟩

/-- A recomputation derives the request anew, whatever request stood before. -/
theorem State.Loose.recomputeWindow (h : s.Loose) (b : Bool) : (s.recomputeWindow b).Ready := by
  have k := h.recount.dropBehind.deriveWanted
  unfold State.recomputeWindow
  dsimp only
  split
  · exact k.evaluate.ready
  · exact k

theorem State.Ready.recomputeWindow (h : s.Ready) (b : Bool) : (s.recomputeWindow b).Ready :=
  h.loose.recomputeWindow b

theorem State.Ready.recomputeInside (h : s.Ready) : s.recomputeInside.Ready := by
  have k : s.reflag.Ready := ⟨⟨h.1.1, h.1.2, h.1.3, h.1.4, h.1.5⟩, h.2, h.3, h.4⟩
  unfold State.recomputeInside
  split
  · exact k.evaluate.ready
  · exact k

theorem State.dropBehind_permit (h : s.PermitLaw) : s.dropBehind.1.PermitLaw := by
  unfold State.dropBehind
  split
  · exact h
  · dsimp only
    split <;> exact h

theorem State.deriveWanted_permit (h : s.PermitLaw) : s.deriveWanted.1.PermitLaw := by
  unfold State.deriveWanted
  repeat' split
  all_goals exact h

theorem State.recomputeWindow_frame (s : State) (b : Bool) :
    Frame [.window] overspeeds [.overspeedService] s (s.recomputeWindow b) := by
  have f := ((State.recount_frame s).trans (State.dropBehind_frame s.recount)).trans
    (State.deriveWanted_frame (r := overspeeds) (m := [.overspeedService]) _)
  unfold State.recomputeWindow
  dsimp only
  split
  · exact f.trans (State.evaluate_lawful _).blocks.frame
  · exact f

theorem State.recomputeWindow_permit (h : s.Loose) (p : s.PermitLaw) (b : Bool) : (s.recomputeWindow b).PermitLaw := by
  have k := h.recount.dropBehind.deriveWanted
  unfold State.recomputeWindow
  dsimp only
  split
  · exact k.evaluate.permit
  · exact State.deriveWanted_permit (State.dropBehind_permit (s := s.recount) p)

/-- A recomputation before its notice changes the window alone. -/
theorem State.rederived_eq (s : State) :
    s.recount.dropBehind.1.deriveWanted.1 = s.withWin s.recount.dropBehind.1.deriveWanted.1.win := by
  have d : ∀ u : State, u.dropBehind.1 = u.withWin u.dropBehind.1.win := fun u => by
    unfold State.dropBehind
    split
    · rfl
    · dsimp only
      split <;> rfl
  have w : ∀ u : State, u.deriveWanted.1 = u.withWin u.deriveWanted.1.win := fun u => by
    unfold State.deriveWanted
    repeat' split
    all_goals rfl
  rw [w s.recount.dropBehind.1, d s.recount]
  rfl

/-- The window is a run, and every record has a length, after the records were changed so (R21, R25). -/
theorem State.recomputeWindow_law (k : s.Loose) (h : s.win.Run) (b : Bool) : (s.recomputeWindow b).WindowLaw := by
  have l : ∀ g ∈ s.win.records, 1 ≤ g.length := fun g hg => (k.window.2 g hg).1
  have w := State.rederived_law h l
  unfold State.recomputeWindow
  dsimp only
  split
  · unfold State.WindowLaw at *
    rw [(State.evaluate_evaluator.frame _).window (by simp)]
    exact w
  · exact w

/-- What a recomputation of the window keeps, the window's own law apart. -/
theorem State.recomputeWindow_keeps (s : State) (k : s.Loose) (q : s.radio.lost ≤ 255 ∧ s.radio.flying ≤ s.radio.queue.length)
    (b : Bool) : s.Keeps (s.recomputeWindow b) [.window] := by
  have e := State.rederived_eq s
  have core : s.recount.dropBehind.1.deriveWanted.1.Core := k.recount.dropBehind.deriveWanted.core
  generalize hu : s.recount.dropBehind.1.deriveWanted.1 = u at *
  have su : s.Keeps u [.window] := by
    rw [e]
    intro x n
    cases x
    · exact id
    · exact absurd (by simp) n
    · exact id
    · exact id
    · exact id
  have qu : u.radio.lost ≤ 255 ∧ u.radio.flying ≤ u.radio.queue.length := by
    rw [e]
    exact q
  unfold State.recomputeWindow
  dsimp only
  rw [hu]
  split
  · intro x n h
    exact (State.evaluate_evaluator.frame u).keeps qu (fun k => absurd k (by decide))
      (fun _ => State.evaluate_evaluator.proof core) (by decide) x n (su x n h)
  · exact su

/-- A recomputation of the window (R25). -/
theorem State.recomputeWindow_lawful (s : State) (b : Bool) :
    Lawful [.window] overspeeds [.overspeedService] s (s.recomputeWindow b) :=
  ⟨State.recomputeWindow_frame s b, fun h => (h.ready.recomputeWindow b).sound
    (State.recomputeWindow_permit h.ready.loose h.permit b), fun h x _ p => by
      by_cases n : x = .window
      · subst n
        exact State.recomputeWindow_law h.ready.loose (State.windowLaw_iff.1 p).1 b
      · exact State.recomputeWindow_keeps s h.ready.loose h.queued b x (by simpa using n) p⟩

/-! ### The inside flag -/

theorem State.withAuth_lawful (s : State) (x : AuthorityTable)
    (h : x.restrictions.length ≤ Config.restrictionCapacity ∨ x.restrictions = s.auth.restrictions) :
    Lawful [.authority] r m s (s.withAuth x) := by
  refine .mk (Frame.withAuth x) fun k => ⟨k.1, k.2, k.3, k.4, k.5, ⟨k.6.1, k.6.2.1, ?_, k.6.2.2.2⟩, k.7⟩
  rcases h with h | h
  · exact h
  · show x.restrictions.length ≤ _
    rw [h]
    exact k.6.2.2.1

theorem State.reflag_lawful (s : State) : Lawful [.authority] r m s s.reflag := State.withAuth_lawful s _ (.inr rfl)

theorem State.recomputeInside_lawful (s : State) :
    Lawful [.authority] overspeeds [.overspeedService] s s.recomputeInside := by
  have f := State.reflag_lawful (r := overspeeds) (m := [.overspeedService]) s
  unfold State.recomputeInside
  split
  · exact f.trans ((State.evaluate_lawful _).mono)
  · exact f

theorem State.recomputeInsideTooth_lawful (s : State) :
    Lawful [.authority] (.authorityOverrun :: overspeeds) [.overspeedService] s s.recomputeInsideTooth := by
  have f := State.reflag_lawful (r := .authorityOverrun :: overspeeds) (m := [.overspeedService]) s
  have f2 : Lawful [.authority] (.authorityOverrun :: overspeeds) [.overspeedService] s
      (if s.auth.inside && !s.reflag.auth.inside then s.reflag.raise .authorityOverrun s.reflag.capture else s.reflag) :=
    Lawful.ite (fun _ => f.trans ((State.raise_lawful _ .authorityOverrun _).mono (r := .authorityOverrun :: overspeeds)
      (m := [.overspeedService]))) fun _ => f
  unfold State.recomputeInsideTooth
  exact Lawful.ite (fun _ => f2.trans ((State.evaluate_lawful _).mono)) fun _ => f2

end Sys2Proof.Machine
end

