-- ==== Sys2Proof/Laws/Degrading.lean ====
section
/-! SUPPORT. What a change of one channel's health, and the degrading of the channels that owe too much, leave of the ratings (R117,
R118, R122). -/

namespace Sys2Proof.Machine

set_option Elab.async false

theorem State.evaluate_ratings (s : State) :
    s.evaluate.prov.health = s.prov.health ∧ s.evaluate.prov.owed = s.prov.owed ∧ s.evaluate.cfg = s.cfg :=
  let f := State.evaluate_evaluator.frame s
  ⟨f.health (by simp), f.owed (by simp), f.settings (by simp)⟩

theorem State.report_ratings (s : State) (b : ReportBody) : (s.report b).prov = s.prov ∧ (s.report b).cfg = s.cfg := by
  unfold State.report
  split <;> exact ⟨rfl, rfl⟩

/-- A change of one channel's health puts that rating and leaves the counts (R122). -/
theorem State.changeHealth_ratings (s : State) (c : Channel) (x : Health) :
    (s.changeHealth c x).prov.health = s.prov.health.put c x ∧ (s.changeHealth c x).prov.owed = s.prov.owed
      ∧ (s.changeHealth c x).cfg = s.cfg := by
  have e := State.evaluate_ratings
  have r := State.report_ratings
  unfold State.changeHealth State.noticeIfCapabilityChanged State.noticeCapability
  split
  · rw [(r _ _).1, (r _ _).2]
    exact ⟨rfl, rfl, rfl⟩
  · simp only []
    split
    · rw [(e _).1, (e _).2.1, (e _).2.2, (r _ _).1, (r _ _).2]
      exact ⟨rfl, rfl, rfl⟩
    · rw [(e _).1, (e _).2.1, (e _).2.2, (e _).1, (e _).2.1, (e _).2.2, (r _ _).1, (r _ _).2]
      exact ⟨rfl, rfl, rfl⟩

/-- Of the channels listed, those that are HEALTHY and owe OWED_DEGRADE or more become DEGRADED (R117). -/
theorem State.degrading_ratings (l : List Channel) : ∀ s : State, l.Nodup →
    let t := l.foldl (fun s c => if s.degrades c then s.changeHealth c .degraded else s) s
    t.prov.owed = s.prov.owed ∧ t.cfg = s.cfg
      ∧ ∀ c, t.prov.health.get c
          = if c ∈ l ∧ s.prov.health.get c = .healthy ∧ s.cfg.owedDegrade ≤ s.prov.owed.get c then .degraded
            else s.prov.health.get c := by
  induction l with
  | nil => intro s _; exact ⟨rfl, rfl, by simp⟩
  | cons a l ih =>
    intro s nd
    obtain ⟨n1, n2⟩ := List.nodup_cons.1 nd
    simp only [List.foldl_cons]
    by_cases k : s.degrades a = true
    · simp only [k, if_true]
      obtain ⟨h1, h2, h3⟩ := State.changeHealth_ratings s a .degraded
      obtain ⟨i1, i2, i3⟩ := ih (s.changeHealth a .degraded) n2
      refine ⟨i1.trans h2, i2.trans h3, fun c => ?_⟩
      rw [i3, h1, h2, h3, PerChannel.get_put]
      simp only [State.degrades, Bool.and_eq_true, beq_iff_eq, decide_eq_true_eq] at k
      by_cases e : c = a
      · subst e; simp [n1, k]
      · simp [e]
    · simp only [k]
      obtain ⟨i1, i2, i3⟩ := ih s n2
      refine ⟨i1, i2, fun c => ?_⟩
      rw [show (if false = true then s.changeHealth a Health.degraded else s) = s from rfl, i3]
      simp only [State.degrades, Bool.and_eq_true, beq_iff_eq, decide_eq_true_eq] at k
      by_cases e : c = a
      · subst e; simp [n1, k]
      · simp [e]

/-- After the degrading no HEALTHY channel owes OWED_DEGRADE proofs or more (R117). -/
theorem State.degradeOwing_law (s : State) : s.degradeOwing.RatingLaw := by
  obtain ⟨h1, h2, h3⟩ := State.degrading_ratings channels s (by decide)
  intro c k
  have e : s.degradeOwing.prov.health.get c = _ := h3 c
  rw [k] at e
  show s.degradeOwing.prov.owed.get c < s.degradeOwing.cfg.owedDegrade
  rw [show s.degradeOwing.prov.owed = s.prov.owed from h1, show s.degradeOwing.cfg = s.cfg from h2]
  by_contra n
  split at e
  · exact absurd e (by decide)
  · rename_i a
    exact a ⟨by cases c <;> decide, e.symm, by omega⟩

end Sys2Proof.Machine
end

