-- ==== Sys2Proof/Laws/Ratings.lean ====
section
/-! SUPPORT. What a change of rating, the judgement of a proof, a feedback check, a scan and the proof requests can do. -/

namespace Sys2Proof.Machine

set_option Elab.async false

variable {r m : List Cause} {s t : State}

theorem State.withRatings_frame (x : Proving) (h : x.timer = s.prov.timer) : Frame [.ratings] r m s (s.withProv x) := by
  constructor <;> intros <;>
    first | exact h | rfl | exact RadioUnit.Queues.refl _ | exact le_refl _ | exact .inl rfl | assumption | exact .inl ‹_› | exact .inr ⟨rfl, rfl⟩ | simp at *

/-- The channel that a proof holds, and the step that drives it. -/
def Proof.hold (x : Proof) : Channel × ProofStep := (x.channel, x.step)

/-- The brake law looks at the proof in progress for the channel it holds and its step alone (R101, R109). -/
theorem State.brakeLaw_withProv (h : s.BrakeLaw) (x : Proving) (e : x.proof.map Proof.hold = s.prov.proof.map Proof.hold) :
    (s.withProv x).BrakeLaw := by
  obtain ⟨h1, h2, h3, h4, h5, h6, h7⟩ := h
  refine ⟨h1, h2, h3, h4, fun c => ?_, h6, fun k => ⟨(h7 k).1, ?_⟩⟩
  · have a := h5 c
    simp only [State.withProv_comb, State.withProv_set, State.withProv_prov]
    rw [a]
    cases p : s.prov.proof <;> cases q : x.proof <;> simp_all [Proof.hold]
    rfl
  · simpa [(h7 k).2] using e

theorem State.Sound.withProv (h : s.Sound) (x : Proving) (e : x.dwell.isSome = x.proof.isSome)
    (k : x.proof.map Proof.hold = s.prov.proof.map Proof.hold) (o : ∀ c, x.owed.get c ≤ 15) : (s.withProv x).Sound where
  interventions := h.interventions
  brakes := State.brakeLaw_withProv h.brakes x k
  permit := h.permit
  doors := h.doors
  timers := ⟨h.timers.1, h.timers.2.1, h.timers.2.2.1, h.timers.2.2.2.1, e⟩
  capacity := by
    obtain ⟨a1, a2, a3, a4, a5, a6, a7, a8, a9, b1, b2, b3, -⟩ := h.capacity
    exact ⟨a1, a2, a3, a4, a5, a6, a7, a8, a9, b1, b2, b3, o⟩
  ranges := h.ranges

theorem State.Sound.owed (h : s.Sound) (c : Channel) : s.prov.owed.get c ≤ 15 := h.capacity.2.2.2.2.2.2.2.2.2.2.2.2 c

theorem State.Sound.dwell (h : s.Sound) : s.prov.dwell.isSome = s.prov.proof.isSome := h.timers.2.2.2.2

theorem State.withRatings_lawful (x : Proving) (h : x.timer = s.prov.timer) (e1 : x.dwell = s.prov.dwell)
    (e2 : x.proof = s.prov.proof) (o : s.Sound → ∀ c, x.owed.get c ≤ 15) :
    Lawful [.ratings] r m s (s.withProv x) [.ratings] := by
  refine ⟨State.withRatings_frame x h, fun k => k.withProv x ?_ (by rw [e2]) (o k), fun _ => ?_⟩
  · rw [e1, e2]
    exact k.dwell
  · refine State.Keeps.of (fun _ => id) (fun _ => id) (fun n => absurd (by simp) n) (fun _ => ?_) fun _ => id
    exact State.proofLaw_of rfl (fun k => e2 ▸ k) id id

/-- The law of the ratings, excepted on the way, holds in the end (R117). -/
theorem Lawful.rated {free : List Block} (f : Lawful free r m s t [.ratings]) (h : s.Sound → s.RatingLaw → t.RatingLaw) :
    Lawful free r m s t :=
  f.close fun q x n => by
    have : x = .ratings := by simpa using n
    subst this
    exact h q

theorem State.recap_lawful (s : State) : Lawful [.ratings, .window] r m s s.recap := by
  have f : Lawful [.ratings, .window] r m s
      (s.withProv { s.prov with capability := capabilityOf s.cfg.nominal s.prov.health }) := by
    refine Lawful.blocks (free := [.ratings]) ?_
    have g : Lawful [.ratings] r m s
        (s.withProv { s.prov with capability := capabilityOf s.cfg.nominal s.prov.health }) [.ratings] :=
      State.withRatings_lawful _ rfl rfl rfl fun k => k.owed
    exact g.rated fun _ h => h
  refine f.trans ⟨?_, State.rebar_sound, fun _ => State.rebar_keeps _⟩
  exact (State.rebar_frame (r := r) (m := m) _).mono (by decide) (fun _ h => h) fun _ h => h

theorem State.rate_lawful (s : State) (c : Channel) (h : Health) :
    Lawful [.ratings, .window] r m s (s.rate c h) [.ratings] := by
  have f : Lawful [.ratings, .window] r m s (s.withProv { s.prov with health := s.prov.health.put c h }) [.ratings] := by
    refine Lawful.blocks (free := [.ratings]) ?_
    exact State.withRatings_lawful _ rfl rfl rfl fun k => k.owed
  exact f.trans (State.recap_lawful _).except

/-- A rating put beside a count put, with the count below OWED_DEGRADE where the rating is HEALTHY (R117). -/
theorem ratingLaw_put {c : Channel} {h : Health} {n : Nat} (k : h = .healthy → n < s.cfg.owedDegrade)
    (e1 : t.prov.health = s.prov.health.put c h) (e2 : t.prov.owed = s.prov.owed.put c n) (e3 : t.cfg = s.cfg)
    (q : s.RatingLaw) : t.RatingLaw := by
  intro d
  rw [e1, e2, e3, PerChannel.get_put, PerChannel.get_put]
  split
  · exact k
  · exact q d

theorem PerChannel.put_get {α : Type} (x : PerChannel α) (c : Channel) : x.put c (x.get c) = x := by cases c <;> rfl

theorem State.noticeCapability_lawful (s old : State) :
    Lawful [] overspeeds [.overspeedService] s (s.noticeCapability old) := by
  unfold State.noticeCapability
  dsimp only
  split
  · exact State.evaluate_lawful _
  · exact (State.evaluate_lawful _).trans (State.evaluate_lawful _)

theorem State.noticeIfCapabilityChanged_lawful (s old : State) :
    Lawful [] overspeeds [.overspeedService] s (s.noticeIfCapabilityChanged old) :=
  Lawful.ite (fun _ => Lawful.refl) fun _ => State.noticeCapability_lawful s old

/-- The blocks that a change of rating touches. -/
abbrev ratingBlocks : List Block := [.ratings, .window]

theorem State.changeHealth_lawful (s : State) (c : Channel) (h : Health) (k : h ≠ .healthy) :
    Lawful ratingBlocks overspeeds [.overspeedService] s (s.changeHealth c h) :=
  have f : Lawful ratingBlocks overspeeds [.overspeedService] s (s.rate c h) :=
    (State.rate_lawful s c h).rated fun _ =>
      ratingLaw_put (fun e => absurd e k) rfl (PerChannel.put_get _ _).symm rfl
  (f.trans ((State.report_lawful _ _).blocks)).trans ((State.noticeIfCapabilityChanged_lawful _ _).blocks)

theorem State.degradeOwing_lawful (s : State) :
    Lawful ratingBlocks overspeeds [.overspeedService] s s.degradeOwing :=
  Lawful.foldl _ _ (fun s _ => Lawful.ite (fun _ => State.changeHealth_lawful s _ _ (by decide)) fun _ => Lawful.refl) (by decide) s

theorem atLeastOne_le {n : Nat} (h : n ≤ 15) : atLeastOne n ≤ 15 := by
  unfold atLeastOne
  omega

theorem PerChannel.put_le {t : PerChannel Nat} {b x : Nat} (h : ∀ c, t.get c ≤ b) (k : x ≤ b) (c e : Channel) :
    (t.put c x).get e ≤ b := by
  rw [PerChannel.get_put]
  split
  · exact k
  · exact h e

theorem State.withOwed_lawful (s : State) (o : PerChannel Nat) (h : s.Sound → ∀ c, o.get c ≤ 15) :
    Lawful ratingBlocks r m s (s.withProv { s.prov with owed := o }) [.ratings] := by
  refine Lawful.blocks (free := [.ratings]) ?_
  exact State.withRatings_lawful _ rfl rfl rfl h

theorem State.Sound.owedDegrade (h : s.Sound) : 1 ≤ s.cfg.owedDegrade := (h.ranges.2.2.2.2.2.2.2.2.1 .owedDegrade).1

theorem State.concludeProof_lawful (s : State) (c : Channel) (o : ProofOutcome) :
    Lawful ratingBlocks overspeeds [.overspeedService] s (s.concludeProof c o) := by
  unfold State.concludeProof
  dsimp only
  generalize hh : (if (o == ProofOutcome.pass) = true then Health.healthy else Health.failed) = h
  generalize hn : (if (o == ProofOutcome.pass) = true then 0 else atLeastOne ((s.endProof c).prov.owed.get c)) = n
  have f1 : Lawful ratingBlocks overspeeds [.overspeedService] s (s.endProof c) [.ratings] :=
    (State.endProof_lawful s c).blocks.except
  have f2 := f1.trans (State.withOwed_lawful (s.endProof c) ((s.endProof c).prov.owed.put c n) fun k =>
    PerChannel.put_le k.owed (by
      rw [← hn]
      split
      · omega
      · exact atLeastOne_le (k.owed c)) c)
  have f2' := (f2.trans (State.rate_lawful _ c h)).rated fun q => ratingLaw_put (fun e => by
    have := q.owedDegrade
    subst e
    split at hh
    · rw [← hn, if_pos ‹_›]
      omega
    · exact absurd hh (by decide)) rfl rfl rfl
  have f3 := f2'.trans ((State.report_lawful _ (.proofResult c o n)).blocks)
  have f4 := f3.trans ((State.report_lawful _ (.channelState c h)).blocks)
  split
  · exact f3.trans ((State.testProof_lawful _).blocks)
  · exact (f4.trans ((State.noticeIfCapabilityChanged_lawful _ (s.endProof c)).blocks)).trans
      ((State.testProof_lawful _).blocks)

theorem State.withProof_lawful (s : State) (x : Proving) (e : s.Sound → x.dwell.isSome = x.proof.isSome)
    (h1 : x.owed = s.prov.owed) (h2 : x.health = s.prov.health) (h3 : x.capability = s.prov.capability)
    (h4 : x.timer = s.prov.timer) (h5 : x.proof.map Proof.hold = s.prov.proof.map Proof.hold) :
    Lawful [] r m s (s.withProv x) :=
  have h5' : x.proof.isSome = true → s.prov.proof.isSome = true := fun k => by
    have := congrArg Option.isSome h5
    simpa [k] using this.symm
  ⟨Frame.withProof x h1 h2 h3 h4, fun k => k.withProv x (e k) h5 (by rw [h1]; exact k.owed), fun k =>
    (Frame.withProof (free := []) (raised := []) (removed := []) x h1 h2 h3 h4).keeps k.queued (by simp) fun _ =>
      State.proofLaw_of rfl h5' id id⟩

/-- The FALL step begins: the proof takes it, and the combiner recomputes (R125). -/
theorem State.nextStep_lawful (s : State) (x : Proof) (p : s.prov.proof = some x) :
    Lawful [] r m s ((s.withProv { s.prov with
      proof := some { x with step := .fall }, dwell := some (s.after Config.proofDwell) }).recombine false) := by
  have f : ∀ r m, Frame [] r m s ((s.withProv { s.prov with
      proof := some { x with step := .fall }, dwell := some (s.after Config.proofDwell) }).recombine false) := fun r m =>
    (Frame.withProof (s := s) { s.prov with
      proof := some { x with step := .fall }, dwell := some (s.after Config.proofDwell) } rfl rfl rfl rfl).trans
        (State.recombine_frame _)
  refine ⟨f r m, fun h => ?_, fun h => (f [] []).keeps h.queued (by simp) fun _ q => ?_⟩
  · have k := h.core.withProof { s.prov with
      proof := some { x with step := .fall }, dwell := some (s.after Config.proofDwell) } rfl rfl
    exact State.Sound.of (k.recombine false) rfl (State.recombine_braked k.latch false)
      (State.recombine_permit (s := s.withProv _) false h.braked.1.symm h.permit) h.doors
  · have e : s.prov.proof.isSome = true := by rw [p]; rfl
    exact fun _ => ⟨(q e).1, h.braked.1.symm.trans (q e).2.1, (q e).2.2⟩

theorem State.judgeProof_lawful (s : State) (x : Proof) (p : s.prov.proof = some x) :
    Lawful ratingBlocks overspeeds [.overspeedService] s (s.judgeProof x) := by
  unfold State.judgeProof
  dsimp only
  split
  · split
    · exact (State.nextStep_lawful s x p).blocks
    · exact State.concludeProof_lawful s _ _
  · exact State.concludeProof_lawful s _ _

theorem State.takeStepSample_lawful (s : State) : Lawful [] r m s s.takeStepSample := by
  unfold State.takeStepSample
  split
  · exact Lawful.refl
  · rename_i e
    refine State.withProof_lawful s _ (fun h => ?_) rfl rfl rfl rfl (by rw [e]; rfl)
    have := h.dwell
    simp_all

/-! ### Feedback -/

theorem State.withDeviationStart_lawful (s : State) (c : Channel) (x : Option Nat) :
    Lawful [.scan] r m s (s.withDeviationStart c x) :=
  .mk (Frame.withFeedback _ rfl rfl) fun h => ⟨h.1, h.2, h.3, h.4, h.5, h.6, h.7⟩

/-- The causes that a scan may raise besides the doors' (R114). -/
abbrev feedbackCauses : List Cause := .brakeFeedback :: overspeeds

/-- The blocks that a feedback check touches: the deviation starts and what a change of rating touches. -/
abbrev checkBlocks : List Block := .scan :: ratingBlocks

theorem State.failChannel_lawful (s : State) (c : Channel) :
    Lawful checkBlocks feedbackCauses [.overspeedService] s (s.failChannel c) := by
  unfold State.failChannel
  dsimp only
  have f1 : Lawful checkBlocks feedbackCauses [.overspeedService] s (s.withDeviationStart c none) [.ratings] :=
    (State.withDeviationStart_lawful s c none).blocks.except
  have f2 := f1.trans (Lawful.blocks (State.withOwed_lawful (s.withDeviationStart c none)
    ((s.withDeviationStart c none).prov.owed.put c (atLeastOne ((s.withDeviationStart c none).prov.owed.get c)))
    fun k => PerChannel.put_le k.owed (atLeastOne_le (k.owed c)) c))
  have f2' := (f2.trans (State.rate_lawful _ c .failed).blocks).rated fun _ =>
    ratingLaw_put (fun e => absurd e (by decide)) rfl rfl rfl
  have f3 := f2'.trans ((State.testProof_lawful _).blocks)
  have f4 := f3.trans ((State.report_lawful _ (.channelState c .failed)).blocks)
  exact (f4.trans ((State.raise_lawful _ .brakeFeedback _).mono (r := feedbackCauses) (m := [.overspeedService]))).trans
    ((State.noticeIfCapabilityChanged_lawful _ _).mono)

theorem State.trackDeviation_lawful (s : State) (c : Channel) : Lawful [.scan] r m s (s.trackDeviation c) := by
  unfold State.trackDeviation
  split
  · split
    · split
      · exact State.withDeviationStart_lawful s c _
      · exact Lawful.refl
    · exact State.withDeviationStart_lawful s c _
  · exact Lawful.refl

theorem State.checkFeedback_lawful (s : State) :
    Lawful checkBlocks feedbackCauses [.overspeedService] s s.checkFeedback :=
  (Lawful.foldl State.trackDeviation channels (r := feedbackCauses) (m := [.overspeedService])
    (fun u c => (State.trackDeviation_lawful u c).blocks) (by decide) s).trans
    (Lawful.foldl State.failChannel (channels.filter s.failsCheck) (fun u c => State.failChannel_lawful u c) (by decide) _)

/-! ### Timers and requests of proving -/

theorem State.proofExpiry_lawful (s : State) :
    Lawful [.ratings, .window, .proofTimer] overspeeds [.overspeedService] s s.proofExpiry := by
  unfold State.proofExpiry
  refine Lawful.ite (fun _ => ?_) fun _ => Lawful.refl
  · dsimp only
    have f1 : Lawful [.ratings, .window, .proofTimer] overspeeds [.overspeedService] s (s.withProv s.prov.allOweMore)
        [.ratings] := by
      refine Lawful.blocks (free := [.ratings]) ?_
      refine State.withRatings_lawful _ rfl rfl rfl fun _ c => ?_
      cases c <;> exact min_le_left (α := Nat) _ _
    have f1' := (f1.trans (State.degradeOwing_lawful _).blocks.except).rated fun _ _ => State.degradeOwing_law _
    have f2 := f1'.trans ((State.emptyTried_lawful _).blocks)
    have f3 : ∀ u : State, ∀ x, Lawful [.ratings, .window, .proofTimer] overspeeds [.overspeedService] u
        (u.withProv { u.prov with timer := x }) := fun u x =>
      .mk ((Frame.withProv (raised := overspeeds) (removed := [.overspeedService]) _).mono (by decide) (fun _ h => h)
        fun _ h => h) fun k => k.withProv _ k.dwell rfl k.owed
    exact (f2.trans (f3 _ _)).trans ((State.testProof_lawful _).blocks)

theorem State.dwellExpiry_lawful (s : State) :
    Lawful ratingBlocks overspeeds [.overspeedService] s s.dwellExpiry := by
  unfold State.dwellExpiry
  split
  · exact Lawful.refl
  · exact Lawful.ite (fun _ => State.judgeProof_lawful s _ ‹_›) fun _ => Lawful.refl

theorem State.proveNow_lawful (s : State) :
    Lawful ratingBlocks overspeeds [.overspeedService] s s.proveNow.1 := by
  have f1 : Lawful ratingBlocks overspeeds [.overspeedService] s
      (s.withProv { s.prov with owed := PerChannel.of (fun c => atLeastOne (s.prov.owed.get c)) }) [.ratings] :=
    State.withOwed_lawful s _ fun k c => by
      rw [PerChannel.get_of]
      exact atLeastOne_le (k.owed c)
  have f2 := (f1.trans (State.degradeOwing_lawful _).except).rated fun _ _ => State.degradeOwing_law _
  exact (f2.trans ((State.emptyTried_lawful _).blocks)).trans
    ((State.testProof_lawful _).blocks)

end Sys2Proof.Machine
end

