-- ==== Sys2Proof/Laws/Doors.lean ====
section
/-! SUPPORT. What a door's step, its drive, its switches and the crew's door requests can do. -/

namespace Sys2Proof.Machine

set_option Elab.async false

variable {r m : List Cause} {s t : State}

/-- The part of the door law that a step of R135 does not break on its way. -/
def State.Motion (s : State) : Prop :=
  ∀ d, (s.doorAt d).motion.isSome = (s.doorAt d).state.moving ∧ (s.doorAt d).reopen ≤ 3

/-- What a step of R135 needs of the state it starts from. -/
structure State.DoorReady (s : State) : Prop where
  core : s.Core
  holds : s.Holds
  braked : s.Braked
  motion : s.Motion

theorem State.Sound.doorReady (h : s.Sound) : s.DoorReady := ⟨h.core, h.holds, h.braked, h.doors.2⟩

/-- The blocks that a door's step touches. -/
abbrev doorBlocks : List Block := [.doors, .motors]

/-- The causes that a door's step may raise and remove (R135, R85). -/
abbrev doorCauses : List Cause := .doorUnlockedMoving :: overspeeds

/-- The causes that a door's step may remove. -/
abbrev doorRemovals : List Cause := [.doorUnlockedMoving, .overspeedService]

@[simp] theorem State.doorAt_withDoor_same (s : State) (d : Door) (x : DoorRecord) : (s.withDoor d x).doorAt d = x := by
  simp [State.withDoor, State.doorAt]

theorem State.doorAt_withDoor (s : State) (d e : Door) (x : DoorRecord) :
    (s.withDoor d x).doorAt e = if e = d then x else s.doorAt e := by
  simp [State.withDoor, State.doorAt, PerDoor.get_put]

theorem State.Motion.withDoor (h : s.Motion) (d : Door) (x : DoorRecord) (k : x.motion.isSome = x.state.moving)
    (l : x.reopen ≤ 3) : (s.withDoor d x).Motion := by
  intro e
  rw [State.doorAt_withDoor]
  split
  · exact ⟨k, l⟩
  · exact h e

theorem State.DoorReady.withDoor (h : s.DoorReady) (d : Door) (x : DoorRecord) (k : x.motion.isSome = x.state.moving)
    (l : x.reopen ≤ 3) : (s.withDoor d x).DoorReady :=
  ⟨⟨h.1.1, h.1.2, h.1.3, h.1.4, h.1.5⟩, h.2, h.3, h.4.withDoor d x k l⟩

theorem State.withDoor_frame (s : State) (d : Door) (x : DoorRecord) : Frame [.doors] r m s (s.withDoor d x) :=
  Frame.withDoors _

/-- The doors are as unlocked as they were when one door's record keeps its state. -/
theorem DoorController.anyUnlocked_put (c : DoorController) (d : Door) (x : DoorRecord)
    (h : x.state = (c.door.get d).state) :
    DoorController.anyUnlocked { c with door := c.door.put d x } = c.anyUnlocked := by
  cases d <;> simp_all [DoorController.anyUnlocked, allDoors, PerDoor.get, PerDoor.put]

/-- While the standstill flag and the released sides are as they were and every door has the state it had, R152 is kept. -/
theorem State.movingLaw_doors (ho : t.odo.standstill = s.odo.standstill) (hl : t.doors.releasedLeft = s.doors.releasedLeft)
    (hr : t.doors.releasedRight = s.doors.releasedRight) (hd : ∀ e, (t.doorAt e).state = (s.doorAt e).state)
    (hk : s.set.has .doorUnlockedMoving = true → t.set.has .doorUnlockedMoving = true) (h : s.MovingLaw) : t.MovingLaw := by
  intro e
  obtain ⟨h1, h2, h3, h4⟩ := h (ho ▸ e)
  refine ⟨hl.trans h1, hr.trans h2, fun d => ?_, fun d a => ?_⟩
  · rw [hd]
    exact h3 d
  · rw [hd] at a
    exact hk (h4 d a)

/-- A change of a door's record other than its state keeps the laws. -/
theorem State.withDoor_lawful (s : State) (d : Door) (x : DoorRecord) (h : x.state = (s.doorAt d).state)
    (k : s.Sound → x.motion.isSome = x.state.moving ∧ x.reopen ≤ 3) : Lawful [.doors] r m s (s.withDoor d x) := by
  have e : ∀ e, ((s.withDoor d x).doorAt e).state = (s.doorAt e).state := fun e => by
    rw [State.doorAt_withDoor]
    split
    · rename_i n
      rw [n]
      exact h
    · rfl
  refine ⟨State.withDoor_frame s d x, fun q => ?_, fun q => (State.withDoor_frame (r := []) (m := []) s d x).keepsBeside q.queued
    (fun _ => State.movingLaw_doors (t := s.withDoor d x) rfl rfl rfl e id) fun _ => id⟩
  have u : (s.withDoor d x).doors.anyUnlocked = s.doors.anyUnlocked := DoorController.anyUnlocked_put _ _ _ h
  refine ⟨q.1, q.2, ?_, ⟨?_, State.Motion.withDoor q.doors.2 d x (k q).1 (k q).2⟩, q.5, q.6, q.7⟩
  · have e : (s.withDoor d x).permitHolds s.sup.state = s.permitHolds s.sup.state := by
      unfold State.permitHolds
      rw [u]
      rfl
    exact q.permit.trans e.symm
  · exact q.doors.1.trans u.symm

/-- A change of a motor output keeps the laws. -/
theorem State.withMotor_lawful (s : State) (x : PerDoor Output) :
    Lawful [.motors] r m s (s.withDrive { s.drive with motor := x }) :=
  .mk (Frame.withDrive _) fun q => ⟨q.1, q.2, q.3, q.4, q.5, q.6, q.7⟩

theorem State.writeMotor_lawful (s : State) (d : Door) (n : Nat) (x : Option Sense) :
    Lawful [.motors] r m s (s.writeMotor d n x) := State.withMotor_lawful s _

theorem State.DoorReady.writeMotor (h : s.DoorReady) (d : Door) (n : Nat) (x : Option Sense) :
    (s.writeMotor d n x).DoorReady := ⟨⟨h.1.1, h.1.2, h.1.3, h.1.4, h.1.5⟩, h.2, h.3, h.4⟩

theorem State.writeMotor_doorAt (s : State) (d e : Door) (n : Nat) (x : Option Sense) :
    (s.writeMotor d n x).doorAt e = s.doorAt e := rfl

theorem State.driveDoor_frame (s : State) (d : Door) (x : Sense) : Frame doorBlocks r m s (s.driveDoor d x) := by
  have f : Frame doorBlocks r m s (s.withDoor d { s.doorAt d with limit := s.doorLimit d x }) :=
    (State.withDoor_frame s d _).mono (by decide) (fun _ h => h) fun _ h => h
  unfold State.driveDoor
  dsimp only
  split
  · exact f
  · exact f.trans ((State.writeMotor_lawful _ _ _ _).frame.mono (by decide) (fun _ h => h) fun _ h => h)

theorem State.DoorReady.driveDoor (h : s.DoorReady) (d : Door) (x : Sense) : (s.driveDoor d x).DoorReady := by
  have k := h.withDoor d { s.doorAt d with limit := s.doorLimit d x } (h.motion d).1 (h.motion d).2
  unfold State.driveDoor
  dsimp only
  split
  · exact k
  · exact k.writeMotor _ _ _

/-- The drive of a moving door (R144) changes its limit and its motor output alone. -/
theorem State.driveDoor_lawful (s : State) (d : Door) (x : Sense) : Lawful doorBlocks r m s (s.driveDoor d x) := by
  have f : Lawful doorBlocks r m s (s.withDoor d { s.doorAt d with limit := s.doorLimit d x }) := by
    refine Lawful.blocks (free := [.doors]) ?_
    exact State.withDoor_lawful s d _ rfl fun q => q.doors.2 d
  unfold State.driveDoor
  dsimp only
  split
  · exact f
  · exact f.trans ((State.writeMotor_lawful _ _ _ _).blocks)

theorem State.driveDoor_doorAt (s : State) (d e : Door) (x : Sense) :
    (s.driveDoor d x).doorAt e = if e = d then { s.doorAt d with limit := s.doorLimit d x } else s.doorAt e := by
  unfold State.driveDoor
  dsimp only
  split
  · exact State.doorAt_withDoor _ _ _ _
  · exact State.doorAt_withDoor _ _ _ _

/-! ### The step of R135 -/

theorem State.moveDoor_frame (s : State) (d : Door) (x : DoorState) : Frame doorBlocks r m s (s.moveDoor d x) := by
  have f : ∀ y, Frame doorBlocks r m s (s.withDoor d y) := fun y =>
    (State.withDoor_frame s d y).mono (by decide) (fun _ h => h) fun _ h => h
  have g : ∀ u n y, Frame doorBlocks r m u (u.writeMotor d n y) := fun u n y =>
    (State.writeMotor_lawful u d n y).frame.mono (by decide) (fun _ h => h) fun _ h => h
  unfold State.moveDoor
  dsimp only
  split
  · exact (f _).trans (State.driveDoor_frame _ _ _)
  · exact (f _).trans (State.driveDoor_frame _ _ _)
  · split
    · exact (f _).trans (g _ _ _)
    · exact f _

theorem State.DoorReady.moveDoor (h : s.DoorReady) (d : Door) (x : DoorState) : (s.moveDoor d x).DoorReady := by
  unfold State.moveDoor
  dsimp only
  split
  · exact (h.withDoor d { s.doorAt d with state := .opening, motion := some (s.after Config.openTimeLimit) } rfl
      (h.motion d).2).driveDoor _ _
  · exact (h.withDoor d { s.doorAt d with
      state := .closing, motion := some (s.after Config.closeTimeLimit), obstruction := none } rfl
      (h.motion d).2).driveDoor _ _
  · rename_i n1 n2
    have k := h.withDoor d { s.doorAt d with state := x, motion := none }
      (by cases x <;> simp_all [DoorState.moving]) (h.motion d).2
    split
    · exact k.writeMotor _ _ _
    · exact k

theorem State.moveDoor_state (s : State) (d : Door) (x : DoorState) : ((s.moveDoor d x).doorAt d).state = x := by
  unfold State.moveDoor
  dsimp only
  split
  · simp [State.driveDoor_doorAt]
  · simp [State.driveDoor_doorAt]
  · split
    · simp [State.writeMotor_doorAt]
    · simp

theorem State.moveDoor_other (s : State) (d e : Door) (x : DoorState) (h : e ≠ d) :
    (s.moveDoor d x).doorAt e = s.doorAt e := by
  unfold State.moveDoor
  dsimp only
  split
  · simp [State.driveDoor_doorAt, State.doorAt_withDoor, h]
  · simp [State.driveDoor_doorAt, State.doorAt_withDoor, h]
  · split <;> simp [State.writeMotor_doorAt, State.doorAt_withDoor, h]

/-- What a door's new record is after the first part of its step: everything but the state, the motion timer, the obstruction
start and the limit is kept. -/
theorem State.moveDoor_kept (s : State) (d : Door) (x : DoorState) :
    (s.moveDoor d x).doorAt d =
      { s.doorAt d with
        state := x
        motion := ((s.moveDoor d x).doorAt d).motion
        obstruction := ((s.moveDoor d x).doorAt d).obstruction
        limit := ((s.moveDoor d x).doorAt d).limit } := by
  unfold State.moveDoor
  dsimp only
  split
  · simp [State.driveDoor_doorAt]
  · simp [State.driveDoor_doorAt]
  · split <;> simp [State.writeMotor_doorAt]

theorem State.testDoorRelease_lawful (s : State) :
    Lawful [] overspeeds doorRemovals s s.testDoorRelease :=
  Lawful.ite (fun h => State.remove_lawful s _ (hd := fun _ => (by simpa using h : _ ∧ s.odo.standstill = true).2)) fun _ =>
    Lawful.refl

theorem State.raiseDoorMoving_lawful (s : State) :
    Lawful [] doorCauses [.overspeedService] s s.raiseDoorMoving := State.raise_lawful s _ _

theorem State.withHold_frame (s : State) (b : Bool) : Frame [.doors] r m s (s.withDoors { s.doors with hold := b }) :=
  Frame.withDoors _

theorem State.rehold_frame (s : State) : Frame [.doors] overspeeds [.overspeedService] s s.rehold := by
  have f : Frame [.doors] overspeeds [.overspeedService] s (s.withDoors { s.doors with hold := s.doors.anyUnlocked }) :=
    State.withHold_frame s _
  unfold State.rehold
  dsimp only
  split
  · exact f
  · exact f.trans ((State.recompute_lawful _).frame.mono (by decide) (fun _ h => h) fun _ h => h)

theorem State.rehold_doors (s : State) : s.rehold.doors = { s.doors with hold := s.doors.anyUnlocked } := by
  unfold State.rehold
  dsimp only
  split
  · rfl
  · exact (State.recompute_lawful _).frame.doors (by simp)

theorem State.rehold_sound (k : s.Core) (h : s.Holds) (b : s.Braked) (p : s.PermitLaw) (mo : s.Motion) :
    s.rehold.Sound := by
  have k' : (s.withDoors { s.doors with hold := s.doors.anyUnlocked }).Core := ⟨k.1, k.2, k.3, k.4, k.5⟩
  have d' : (s.withDoors { s.doors with hold := s.doors.anyUnlocked }).DoorLaw := ⟨rfl, mo⟩
  have p' : (s.withDoors { s.doors with hold := s.doors.anyUnlocked }).PermitLaw := p
  unfold State.rehold
  dsimp only
  split
  · rename_i e
    refine State.Sound.of k' ?_ b p' d'
    have h' : s.comb.holding = (s.doors.hold || s.line.opState == .config) := h
    have e' : s.doors.anyUnlocked = s.doors.hold := e
    show s.comb.holding = (s.doors.anyUnlocked || s.line.opState == .config)
    rw [e']
    exact h'
  · exact State.recompute_sound k' p' d'

/-- The middle of the step of R135, before the notices: the state, the record, the raising in motion. -/
def State.stepDoorHead (s : State) (d : Door) (x : DoorState) : State :=
  let s := s.moveDoor d x
  let s := s.report (.doorEvent d x (s.doorAt d).closeFailed)
  if !s.odo.standstill && x.ajar then s.raiseDoorMoving else s

theorem State.stepDoor_eq (s : State) (d : Door) (x : DoorState) :
    s.stepDoor d x = (s.stepDoorHead d x).evaluate.testDoorRelease.rehold := rfl

theorem State.stepDoorHead_frame (s : State) (d : Door) (x : DoorState) :
    Frame doorBlocks doorCauses doorRemovals s (s.stepDoorHead d x) := by
  have f1 : Frame doorBlocks doorCauses doorRemovals s (s.moveDoor d x) := State.moveDoor_frame s d x
  have f2 := f1.trans ((State.report_frame _ (.doorEvent d x ((s.moveDoor d x).doorAt d).closeFailed)).mono (by decide)
    (fun _ h => h) fun _ h => h)
  unfold State.stepDoorHead
  dsimp only
  split
  · exact f2.trans ((State.raiseDoorMoving_lawful _).frame.mono (by decide) (by decide) (by decide))
  · exact f2

/-- The doors after the head of the step are those the move made. -/
theorem State.stepDoorHead_doors (s : State) (d : Door) (x : DoorState) :
    (s.stepDoorHead d x).doors = (s.moveDoor d x).doors := by
  have f2 := (State.report_frame (r := []) (m := []) (s.moveDoor d x)
    (.doorEvent d x ((s.moveDoor d x).doorAt d).closeFailed)).doors (by simp)
  unfold State.stepDoorHead
  dsimp only
  split
  · exact ((State.raiseDoorMoving_lawful _).frame.doors (by simp)).trans f2
  · exact f2

theorem State.Motion.of (h : s.Motion) (e : t.doors = s.doors) : t.Motion := by
  unfold State.Motion State.doorAt at *
  rw [e]
  exact h

theorem State.DoorReady.head (h : s.DoorReady) (d : Door) (x : DoorState) : (s.stepDoorHead d x).DoorReady := by
  have k := h.moveDoor d x
  have mo := k.motion.of (State.stepDoorHead_doors s d x)
  have e := State.evaluate_evaluator
  unfold State.stepDoorHead at *
  dsimp only at *
  generalize (s.moveDoor d x).doorAt d = y at *
  have k2 := k.core.report (.doorEvent d x y.closeFailed)
  split at mo
  · rw [if_pos ‹_›]
    exact ⟨State.raiseWith_core e k2 _ _, State.raiseWith_holds e (State.report_holds k.holds _) _ _,
      State.raiseWith_braked e k2 (State.report_braked k.braked _) _ _, mo⟩
  · rw [if_neg ‹_›]
    exact ⟨k2, State.report_holds k.holds _, State.report_braked k.braked _, mo⟩

theorem State.stepDoor_frame (s : State) (d : Door) (x : DoorState) :
    Frame doorBlocks doorCauses doorRemovals s (s.stepDoor d x) := by
  rw [State.stepDoor_eq]
  exact (((State.stepDoorHead_frame s d x).trans
    ((State.evaluate_lawful _).frame.mono (by decide) (by decide) (by decide))).trans
    ((State.testDoorRelease_lawful _).frame.mono (by decide) (by decide) (by decide))).trans
    ((State.rehold_frame _).mono (by decide) (by decide) (by decide))

/-- A door's step restores every law (R135, R151). -/
theorem State.DoorReady.step (h : s.DoorReady) (d : Door) (x : DoorState) : (s.stepDoor d x).Sound := by
  have e := State.evaluate_evaluator
  have k := h.head d x
  have k1 := e.core k.core
  have b1 := e.braked k.core k.braked
  have h1 := e.holds k.holds
  have p1 := e.permit k.core
  have m1 : (s.stepDoorHead d x).evaluate.Motion := k.motion.of ((e.frame _).doors (by simp))
  rw [State.stepDoor_eq]
  have m2 : (s.stepDoorHead d x).evaluate.testDoorRelease.Motion :=
    m1.of ((State.testDoorRelease_lawful _).frame.doors (by simp))
  unfold State.testDoorRelease at *
  split at m2
  · rw [if_pos ‹_›]
    exact State.rehold_sound (State.removeWith_core e k1 _) (State.removeWith_holds e h1 _)
      (State.removeWith_braked e k1 b1 _) (State.removeWith_permit e k1 p1 _) m2
  · rw [if_neg ‹_›]
    exact State.rehold_sound k1 h1 b1 p1 m2

/-- The doors after the step of R135: those the move made, with the hold recomputed. -/
theorem State.stepDoor_doors (s : State) (d : Door) (x : DoorState) :
    (s.stepDoor d x).doors = { (s.moveDoor d x).doors with hold := (s.moveDoor d x).doors.anyUnlocked } := by
  have e1 : (s.stepDoorHead d x).evaluate.testDoorRelease.doors = (s.moveDoor d x).doors :=
    ((State.testDoorRelease_lawful _).frame.doors (by simp)).trans
      (((State.evaluate_lawful _).frame.doors (by simp)).trans (State.stepDoorHead_doors s d x))
  rw [State.stepDoor_eq, State.rehold_doors, e1]

theorem State.stepDoor_doorAt (s : State) (d e : Door) (x : DoorState) :
    (s.stepDoor d x).doorAt e = (s.moveDoor d x).doorAt e := by
  unfold State.doorAt
  rw [State.stepDoor_doors]

/-! ### The further laws in the step of R135 -/

theorem State.driveDoor_still (s : State) (d : Door) (x : Sense) :
    (s.driveDoor d x).odo = s.odo ∧ (s.driveDoor d x).prov = s.prov ∧ (s.driveDoor d x).comb = s.comb
      ∧ (s.driveDoor d x).set = s.set ∧ (s.driveDoor d x).doors.releasedLeft = s.doors.releasedLeft
      ∧ (s.driveDoor d x).doors.releasedRight = s.doors.releasedRight := by
  unfold State.driveDoor
  dsimp only
  split <;> exact ⟨rfl, rfl, rfl, rfl, rfl, rfl⟩

/-- The move of a door touches its record and its motor alone. -/
theorem State.moveDoor_still (s : State) (d : Door) (x : DoorState) :
    (s.moveDoor d x).odo = s.odo ∧ (s.moveDoor d x).prov = s.prov ∧ (s.moveDoor d x).comb = s.comb
      ∧ (s.moveDoor d x).set = s.set ∧ (s.moveDoor d x).doors.releasedLeft = s.doors.releasedLeft
      ∧ (s.moveDoor d x).doors.releasedRight = s.doors.releasedRight := by
  unfold State.moveDoor
  dsimp only
  split
  · exact State.driveDoor_still _ _ _
  · exact State.driveDoor_still _ _ _
  · split <;> exact ⟨rfl, rfl, rfl, rfl, rfl, rfl⟩

theorem State.moveDoor_proof (h : s.ProofLaw) (d : Door) (x : DoorState) : (s.moveDoor d x).ProofLaw := by
  obtain ⟨a, b, c, e, -⟩ := State.moveDoor_still s d x
  exact State.proofLaw_of (by rw [a]) (by rw [b]; exact id) (by rw [c]; exact id) (by rw [e]; exact id) h

theorem State.stepDoorHead_proof (k : s.DoorReady) (h : s.ProofLaw) (d : Door) (x : DoorState) :
    (s.stepDoorHead d x).ProofLaw := by
  have a := State.report_proof (State.moveDoor_proof h d x) (.doorEvent d x ((s.moveDoor d x).doorAt d).closeFailed)
  unfold State.stepDoorHead
  dsimp only
  split
  · exact State.raiseWith_proof State.evaluate_evaluator ((k.moveDoor d x).core.report _) a _ _
  · exact a

theorem State.rehold_proof (k : s.Core) (p : s.ProofLaw) : s.rehold.ProofLaw := by
  unfold State.rehold
  dsimp only
  split
  · exact p
  · exact State.combine_proof (s := s.withDoors { s.doors with hold := s.doors.anyUnlocked }) State.evaluate_evaluator
      ⟨k.1, k.2, k.3, k.4, k.5⟩ p false

theorem State.stepDoor_proof (k : s.DoorReady) (h : s.ProofLaw) (d : Door) (x : DoorState) : (s.stepDoor d x).ProofLaw := by
  have e := State.evaluate_evaluator
  have c1 := e.core (k.head d x).core
  have p1 := e.proof (k.head d x).core (State.stepDoorHead_proof k h d x)
  have p2 : (s.stepDoorHead d x).evaluate.testDoorRelease.Core ∧ (s.stepDoorHead d x).evaluate.testDoorRelease.ProofLaw := by
    unfold State.testDoorRelease
    split
    · exact ⟨State.removeWith_core e c1 _, State.removeWith_proof e c1 p1 _⟩
    · exact ⟨c1, p1⟩
  rw [State.stepDoor_eq]
  exact State.rehold_proof p2.1 p2.2

theorem Frame.has_kept {free : List Block} {c : Cause} (f : Frame free r m s t) (hc : c ∉ m) (h : s.set.has c = true)
    (hf : Block.entries ∉ free := by decide) : t.set.has c = true :=
  InterventionSet.has_of_kept (fun x hx e => f.kept hf x hx (by rw [e]; exact hc)) h

/-- A raising leaves the cause present, but for OVERSPEED_SERVICE, which an evaluation may remove (R70, R80). -/
theorem State.raise_has (s : State) (c : Cause) (x : Capture) (hc : c ≠ .overspeedService) :
    (s.raise c x).set.has c = true := by
  have e := State.evaluate_evaluator
  have n : c ∉ [Cause.overspeedService] := by simpa using hc
  show (s.raiseWith State.evaluate c x).set.has c = true
  unfold State.raiseWith
  dsimp only
  split
  · assumption
  · have h0 : (s.withSet (s.set.append { cause := c, capture := x, time := s.partTime, heard := false })).set.has c = true := by
      simp [InterventionSet.has, InterventionSet.append]
    generalize s.withSet _ = u at h0
    have f1 : Frame [] overspeeds [.overspeedService] u (u.report (.raised c x)).reportPosition :=
      (State.report_frame _ _).trans (State.reportPosition_frame _)
    have f2 := (f1.trans (e.frame _)).trans (State.combine_frame e _)
    split
    · exact (f2.trans (State.abandonProof_frame _)).has_kept n h0
    · exact f2.has_kept n h0

/-- Off standstill the release test does nothing, and DOOR_UNLOCKED_MOVING stays. -/
theorem State.stepDoor_has (n : s.odo.standstill = false) (d : Door) (x : DoorState)
    (h : (s.stepDoorHead d x).set.has .doorUnlockedMoving = true) : (s.stepDoor d x).set.has .doorUnlockedMoving = true := by
  have f0 := State.stepDoorHead_frame s d x
  have f1 := (State.evaluate_lawful (s.stepDoorHead d x)).frame
  have n1 : (s.stepDoorHead d x).evaluate.odo.standstill = false := by
    rw [f1.standstill (by decide), f0.standstill (by decide), n]
  have e1 : (s.stepDoorHead d x).evaluate.testDoorRelease = (s.stepDoorHead d x).evaluate := by
    unfold State.testDoorRelease
    rw [n1, Bool.and_false, if_neg (by decide)]
  rw [State.stepDoor_eq, e1]
  exact (State.rehold_frame _).has_kept (by decide) (f1.has_kept (by decide) h)

theorem State.stepDoor_moving (d : Door) (x : DoorState) (hx : x = .released → s.MovingLaw → s.odo.standstill = true)
    (h : s.MovingLaw) : (s.stepDoor d x).MovingLaw := by
  intro e
  rw [(State.stepDoor_frame s d x).standstill (by decide)] at e
  obtain ⟨h1, h2, h3, h4⟩ := h e
  obtain ⟨m1, -, -, m4, m5, m6⟩ := State.moveDoor_still s d x
  have raised : x ∈ [DoorState.opening, .open, .closing] → (s.stepDoorHead d x).set.has .doorUnlockedMoving = true := by
    intro k
    have aj : x.ajar = true := by cases x <;> simp_all [DoorState.ajar]
    have e1 : ((s.moveDoor d x).report (.doorEvent d x ((s.moveDoor d x).doorAt d).closeFailed)).odo.standstill = false := by
      rw [(State.report_frame (r := []) (m := []) _ _).standstill (by decide), m1, e]
    unfold State.stepDoorHead
    dsimp only
    rw [e1, aj, if_pos (by decide)]
    exact State.raise_has _ _ _ (by decide)
  have kept : s.set.has .doorUnlockedMoving = true → (s.stepDoorHead d x).set.has .doorUnlockedMoving = true := by
    intro k
    have k1 : (s.moveDoor d x).set.has .doorUnlockedMoving = true := by rw [m4, k]
    have k2 := (State.report_frame (r := []) (m := []) _ (.doorEvent d x ((s.moveDoor d x).doorAt d).closeFailed)).has_kept
      (by decide) k1
    unfold State.stepDoorHead
    dsimp only
    split
    · exact State.raise_has _ _ _ (by decide)
    · exact k2
  refine ⟨?_, ?_, fun b => ?_, fun b a => State.stepDoor_has e d x ?_⟩
  · rw [State.stepDoor_doors]
    exact m5.trans h1
  · rw [State.stepDoor_doors]
    exact m6.trans h2
  · rw [State.stepDoor_doorAt]
    by_cases n : b = d
    · rw [n, State.moveDoor_state]
      intro y
      rw [hx y h] at e
      exact absurd e (by decide)
    · rw [State.moveDoor_other s d b x n]
      exact h3 b
  · rw [State.stepDoor_doorAt] at a
    by_cases n : b = d
    · rw [n, State.moveDoor_state] at a
      exact raised a
    · rw [State.moveDoor_other s d b x n] at a
      exact kept (h4 b a)

/-- The step of R135 keeps every law, where it makes no door RELEASED in motion (R152). -/
theorem State.stepDoor_lawful (s : State) (d : Door) (x : DoorState)
    (hx : x = .released → s.MovingLaw → s.odo.standstill = true := by exact fun h => absurd h (by decide)) :
    Lawful doorBlocks doorCauses doorRemovals s (s.stepDoor d x) :=
  ⟨State.stepDoor_frame s d x, fun h => h.doorReady.step d x, fun h =>
    (State.stepDoor_frame s d x).keepsBeside h.queued (fun _ => State.stepDoor_moving d x hx) fun _ p =>
      State.stepDoor_proof h.doorReady p d x⟩

/-- A step that makes a door RELEASED keeps every law but R152's. -/
theorem State.stepDoor_lawful_released (s : State) (d : Door) :
    Lawful doorBlocks doorCauses doorRemovals s (s.stepDoor d .released) [.moving] :=
  ⟨State.stepDoor_frame s d _, fun h => h.doorReady.step d _, fun h =>
    (State.stepDoor_frame s d _).keepsBeside h.queued (fun n => absurd (by simp) n) fun _ p =>
      State.stepDoor_proof h.doorReady p d _⟩

/-! ### What the doors' events and requests can do -/

theorem State.withCloseOrdered_lawful (s : State) (d : Door) (b : Bool) :
    Lawful doorBlocks doorCauses doorRemovals s (s.withCloseOrdered d b) := by
  refine Lawful.blocks (free := [.doors]) ?_
  exact State.withDoor_lawful s d _ rfl fun q => q.doors.2 d

theorem State.landDoor_lawful (s : State) (d : Door) : Lawful doorBlocks doorCauses doorRemovals s (s.landDoor d) :=
  (State.withCloseOrdered_lawful s d false).trans (State.stepDoor_lawful _ _ _ fun k h => by
    by_contra n
    obtain ⟨h1, h2, -⟩ := h (by simpa using n)
    have k' : (if (s.withCloseOrdered d false).doors.isReleased d then DoorState.released else .locked) = .released := k
    unfold DoorController.isReleased at k'
    rw [h1, h2] at k'
    simp at k')

theorem State.closeDoor_lawful (s : State) (d : Door) : Lawful doorBlocks doorCauses doorRemovals s (s.closeDoor d) := by
  unfold State.closeDoor
  exact Lawful.ite (fun _ => (State.stepDoor_lawful s d .closing).trans (State.landDoor_lawful _ _)) fun _ =>
    State.stepDoor_lawful s d .closing

theorem State.reachOpen_lawful (s : State) (d : Door) : Lawful doorBlocks doorCauses doorRemovals s (s.reachOpen d) := by
  unfold State.reachOpen
  exact Lawful.ite (fun _ => (State.stepDoor_lawful s d .open).trans (State.closeDoor_lawful _ _)) fun _ =>
    State.stepDoor_lawful s d .open

theorem State.openDoor_lawful (s : State) (d : Door) : Lawful doorBlocks doorCauses doorRemovals s (s.openDoor d) := by
  unfold State.openDoor
  exact Lawful.ite (fun _ => (State.stepDoor_lawful s d .opening).trans (State.reachOpen_lawful _ _)) fun _ =>
    State.stepDoor_lawful s d .opening

theorem State.withPins_lawful (s : State) (d : Door) (x : DoorPins) :
    Lawful doorBlocks doorCauses doorRemovals s (s.withPins d x) := by
  refine Lawful.blocks (free := [.doors]) ?_
  exact State.withDoor_lawful s d _ rfl fun q => q.doors.2 d

theorem State.obstructed_lawful (s : State) (d : Door) :
    Lawful doorBlocks doorCauses doorRemovals s (s.obstructed d) := by
  have n3 : min 3 ((s.doorAt d).reopen + 1) ≤ 3 := min_le_left _ _
  unfold State.obstructed
  dsimp only
  split
  · have f : Lawful doorBlocks doorCauses doorRemovals s
        (s.withDoor d { s.doorAt d with reopen := min 3 ((s.doorAt d).reopen + 1) }) := by
      refine Lawful.blocks (free := [.doors]) ?_
      exact State.withDoor_lawful s d _ rfl fun q => ⟨(q.doors.2 d).1, n3⟩
    exact f.trans (State.openDoor_lawful _ _)
  · have f : Lawful doorBlocks doorCauses doorRemovals s (s.withDoor d { s.doorAt d with
        reopen := min 3 ((s.doorAt d).reopen + 1), closeFailed := true, closeOrdered := false }) := by
      refine Lawful.blocks (free := [.doors]) ?_
      exact State.withDoor_lawful s d _ rfl fun q => ⟨(q.doors.2 d).1, n3⟩
    exact f.trans (State.stepDoor_lawful _ _ _)

theorem State.scanDoor_lawful (s : State) (d : Door) : Lawful doorBlocks doorCauses doorRemovals s (s.scanDoor d) := by
  unfold State.scanDoor
  split
  · exact State.driveDoor_lawful s d .open
  · dsimp only
    have f : Lawful doorBlocks doorCauses doorRemovals s (s.driveDoor d .close) := State.driveDoor_lawful s d .close
    have g : ∀ u : State, ∀ y, Lawful doorBlocks doorCauses doorRemovals u
        (u.withDoor d { u.doorAt d with obstruction := y }) := fun u y => by
      refine Lawful.blocks (free := [.doors]) ?_
      exact State.withDoor_lawful u d _ rfl fun q => q.doors.2 d
    split
    · exact f.trans (g _ _)
    · split
      · exact f.trans (g _ _)
      · split
        · exact f.trans (State.obstructed_lawful _ _)
        · exact f
  · exact Lawful.refl

theorem State.buttonPress_lawful (s : State) (d : Door) :
    Lawful doorBlocks doorCauses doorRemovals s (s.buttonPress d) := by
  unfold State.buttonPress
  dsimp only
  split
  · exact Lawful.refl
  · split
    · exact (State.withPins_lawful s d _).trans (State.openDoor_lawful _ _)
    · exact State.withPins_lawful s d _

theorem State.openSwitchMakes_lawful (s : State) (d : Door) :
    Lawful doorBlocks doorCauses doorRemovals s (s.openSwitchMakes d) := by
  unfold State.openSwitchMakes
  dsimp only
  split
  · exact Lawful.refl
  · split
    · exact (State.withPins_lawful s d _).trans (State.reachOpen_lawful _ _)
    · exact State.withPins_lawful s d _

theorem State.closedSwitchMakes_lawful (s : State) (d : Door) :
    Lawful doorBlocks doorCauses doorRemovals s (s.closedSwitchMakes d) := by
  unfold State.closedSwitchMakes
  dsimp only
  split
  · exact Lawful.refl
  · split
    · exact (State.withPins_lawful s d _).trans (State.landDoor_lawful _ _)
    · exact (State.withPins_lawful s d _).trans (State.landDoor_lawful _ _)
    · exact (State.withPins_lawful s d _).trans (State.landDoor_lawful _ _)
    · exact State.withPins_lawful s d _

theorem State.closedSwitchBreaks_lawful (s : State) (d : Door) :
    Lawful doorBlocks doorCauses doorRemovals s (s.closedSwitchBreaks d) := by
  unfold State.closedSwitchBreaks
  dsimp only
  split
  · split
    · exact (State.withPins_lawful s d _).trans (State.stepDoor_lawful _ _ _)
    · exact (State.withPins_lawful s d _).trans (State.stepDoor_lawful _ _ _)
    · exact State.withPins_lawful s d _
  · exact Lawful.refl

theorem State.motionExpiry_lawful (s : State) (d : Door) (x : MotionLimit) :
    Lawful doorBlocks doorCauses doorRemovals s (s.motionExpiry d x) := by
  unfold State.motionExpiry
  exact Lawful.ite (fun _ => (State.withCloseOrdered_lawful s d false).trans (State.stepDoor_lawful _ _ _)) fun _ => Lawful.refl

/-- A change of the released sides keeps the laws, but R152's where a side becomes released. -/
theorem State.withReleased_lawful (s : State) (x : DoorController) (h : x.door = s.doors.door) (k : x.hold = s.doors.hold) :
    Lawful doorBlocks doorCauses doorRemovals s (s.withDoors x) [.moving] := by
  refine Lawful.blocks (free := [.doors]) ⟨Frame.withDoors x, fun q => ?_, fun q =>
    (Frame.withDoors (raised := []) (removed := []) x).keepsBeside q.queued (fun n => absurd (by simp) n) fun _ => id⟩
  have u : x.anyUnlocked = s.doors.anyUnlocked := by
    unfold DoorController.anyUnlocked
    rw [h]
  refine ⟨q.1, ⟨?_, q.2.2⟩, ?_, ⟨?_, fun d => ?_⟩, q.5, q.6, q.7⟩
  · have h0 : s.comb.holding = (s.doors.hold || s.line.opState == .config) := q.holds
    show s.comb.holding = (x.hold || s.line.opState == .config)
    rw [k]
    exact h0
  · have e : (s.withDoors x).permitHolds s.sup.state = s.permitHolds s.sup.state := by
      unfold State.permitHolds
      rw [State.withDoors_doors, u]
      rfl
    exact q.permit.trans e.symm
  · show x.hold = x.anyUnlocked
    rw [k, u]
    exact q.doors.1
  · have e := q.doors.2 d
    unfold State.doorAt at *
    rw [State.withDoors_doors, h]
    exact e

theorem State.setReleased_lawful (s : State) (x : PlatformSide) (b : Bool) :
    Lawful doorBlocks doorCauses doorRemovals s (s.withDoors (s.doors.setReleased x b)) [.moving] :=
  State.withReleased_lawful s _ (by cases x <;> rfl) (by cases x <;> rfl)

/-- R152, excepted on the way, holds in the end. -/
theorem Lawful.settled {free : List Block} (f : Lawful free r m s t [.moving]) (h : s.Sound → s.MovingLaw → t.MovingLaw) :
    Lawful free r m s t :=
  f.close fun q x n => by
    have : x = .moving := by simpa using n
    subst this
    exact h q

/-- At standstill R152 asks nothing. -/
theorem State.movingLaw_still (h : s.odo.standstill = true) : s.MovingLaw := by
  intro e
  rw [h] at e
  exact absurd e (by decide)

/-- A side is withdrawn (R141). -/
theorem State.withdrawSide_lawful (s : State) (x : PlatformSide) :
    Lawful doorBlocks doorCauses doorRemovals s (s.withDoors (s.doors.setReleased x false)) :=
  (State.setReleased_lawful s x false).settled fun _ h e => by
    obtain ⟨h1, h2, h3, h4⟩ := h e
    refine ⟨?_, ?_, ?_, ?_⟩
    · cases x <;> first | exact h1 | rfl
    · cases x <;> first | exact h2 | rfl
    · cases x <;> exact h3
    · cases x <;> exact h4

theorem State.releaseSide_lawful (s : State) (x : PlatformSide) (n : s.odo.standstill = true) :
    Lawful doorBlocks doorCauses doorRemovals s (s.releaseSide x) :=
  have f := (State.setReleased_lawful s x true).trans (Lawful.foldl _ (doorsOf x) (fun s d =>
    Lawful.ite (p := (s.doorAt d).state = .locked) (fun _ => State.stepDoor_lawful_released s d) fun _ => Lawful.refl) (by decide) _)
  f.settled fun _ _ => State.movingLaw_still ((f.frame.standstill (by decide)).trans n)

/-! ### The end of standstill -/

theorem State.stepDoor_released (s : State) (d : Door) (x : DoorState) :
    (s.stepDoor d x).doors.releasedLeft = s.doors.releasedLeft ∧ (s.stepDoor d x).doors.releasedRight = s.doors.releasedRight := by
  rw [State.stepDoor_doors]
  exact (State.moveDoor_still s d x).2.2.2.2

theorem State.stepDoor_state (s : State) (d e : Door) (x : DoorState) :
    ((s.stepDoor d x).doorAt e).state = if e = d then x else (s.doorAt e).state := by
  rw [State.stepDoor_doorAt]
  split
  · rename_i h
    rw [h, State.moveDoor_state]
  · rw [State.moveDoor_other s d e x ‹_›]

/-- Once the release is withdrawn no side is released and no door is RELEASED (R152). -/
theorem State.withdrawRelease_sides (s : State) :
    s.withdrawRelease.doors.releasedLeft = false ∧ s.withdrawRelease.doors.releasedRight = false
      ∧ ∀ d, (s.withdrawRelease.doorAt d).state ≠ .released := by
  have key : ∀ (l : List Door) (u : State), u.doors.releasedLeft = false → u.doors.releasedRight = false →
      let t := l.foldl (fun s d => if (s.doorAt d).state = .released then s.stepDoor d .locked else s) u
      t.doors.releasedLeft = false ∧ t.doors.releasedRight = false
        ∧ ∀ d, (t.doorAt d).state = .released → (u.doorAt d).state = .released ∧ d ∉ l := by
    intro l
    induction l with
    | nil => exact fun u h1 h2 => ⟨h1, h2, fun d h => ⟨h, by simp⟩⟩
    | cons a l ih =>
      intro u h1 h2
      simp only [List.foldl_cons]
      split
      · rename_i r
        obtain ⟨m1, m2⟩ := State.stepDoor_released u a .locked
        obtain ⟨k1, k2, k3⟩ := ih (u.stepDoor a .locked) (m1.trans h1) (m2.trans h2)
        refine ⟨k1, k2, fun d h => ?_⟩
        obtain ⟨e, n⟩ := k3 d h
        rw [State.stepDoor_state] at e
        split at e
        · cases e
        · exact ⟨e, by simp_all⟩
      · rename_i r
        obtain ⟨k1, k2, k3⟩ := ih u h1 h2
        refine ⟨k1, k2, fun d h => ?_⟩
        obtain ⟨e, n⟩ := k3 d h
        refine ⟨e, fun hm => ?_⟩
        rcases List.mem_cons.1 hm with rfl | hm
        · exact r e
        · exact n hm
  obtain ⟨k1, k2, k3⟩ := key allDoors (s.withDoors { s.doors with releasedLeft := false, releasedRight := false }) rfl rfl
  exact ⟨k1, k2, fun d h => (k3 d h).2 (by cases d <;> decide)⟩

theorem State.doorRelease_lawful (s : State) (f : List Byte) :
    Lawful doorBlocks doorCauses doorRemovals s (s.doorRelease f).1 := by
  unfold State.doorRelease
  split
  · exact Lawful.refl
  · exact Lawful.refl
  · split
    · exact Lawful.refl
    · split
      · exact Lawful.refl
      · split
        · exact Lawful.refl
        · exact State.releaseSide_lawful s _ (by simpa using ‹¬s.odo.standstill = false›)

theorem State.openReleased_lawful (s : State) : Lawful doorBlocks doorCauses doorRemovals s s.openReleased.1 :=
  Lawful.foldl _ _ (fun s d => Lawful.ite (fun _ => State.openDoor_lawful s d) fun _ => Lawful.refl) (by decide) s

theorem State.orderClose_lawful (s : State) (d : Door) :
    Lawful doorBlocks doorCauses doorRemovals s (s.orderClose d) := by
  have f : Lawful doorBlocks doorCauses doorRemovals s (s.withDoor d (s.doorAt d).ordered) := by
    refine Lawful.blocks (free := [.doors]) ?_
    exact State.withDoor_lawful s d _ rfl fun q => ⟨(q.doors.2 d).1, by simp [DoorRecord.ordered]⟩
  unfold State.orderClose
  dsimp only
  split
  · exact State.stepDoor_lawful s d _
  · exact f.trans (State.closeDoor_lawful _ _)
  · exact f.trans (State.closeDoor_lawful _ _)
  · exact f.trans (State.closeDoor_lawful _ _)
  · rename_i e
    refine Lawful.blocks (free := [.doors]) ?_
    refine State.withDoor_lawful s d _ rfl fun q => ⟨?_, by simp [DoorRecord.ordered]⟩
    show true = (s.doorAt d).state.moving
    rw [e]
    rfl
  · exact Lawful.refl
  · exact Lawful.refl

theorem State.doorClose_lawful (s : State) (f : List Byte) :
    Lawful doorBlocks doorCauses doorRemovals s (s.doorClose f).1 := by
  unfold State.doorClose
  split
  · exact Lawful.refl
  · exact (State.withdrawSide_lawful s _).trans
      (Lawful.foldl _ _ (fun s d => State.orderClose_lawful s d) (by decide) _)

theorem State.doorIsolate_lawful (s : State) (f : List Byte) :
    Lawful doorBlocks doorCauses doorRemovals s (s.doorIsolate f).1 := by
  unfold State.doorIsolate
  split
  · exact Lawful.refl
  · split
    · exact Lawful.refl
    · split
      · exact Lawful.refl
      · exact State.stepDoor_lawful s _ _

theorem State.doorUnisolate_lawful (s : State) (f : List Byte) :
    Lawful doorBlocks doorCauses doorRemovals s (s.doorUnisolate f).1 := by
  unfold State.doorUnisolate
  split
  · exact Lawful.refl
  · split
    · exact Lawful.refl
    · split
      · exact Lawful.refl
      · exact (State.withCloseOrdered_lawful s _ false).trans (State.stepDoor_lawful _ _ _ fun h => by split at h <;> cases h)

end Sys2Proof.Machine
end

