-- ==== Sys2Proof/Laws/Odometry.lean ====
section
/-! SUPPORT. What the odometry's events and requests can do, and the requests of the window. -/

namespace Sys2Proof.Machine

set_option Elab.async false

variable {r m : List Cause} {s t : State}

/-- The odometry's own laws. -/
def Odometry.Lawful (o : Odometry) : Prop :=
  o.standstillTimer.isNone = o.standstill ∧ (o.standstill = true → o.v = 0)
    ∧ o.p ≤ Config.maxPosition ∧ o.u ≤ 255 ∧ o.v ≤ Config.maxSpeed ∧ o.slip < Config.slipTeeth ∧ o.rollback ≤ 255
    ∧ -3 ≤ o.stepCount ∧ o.stepCount ≤ 3

theorem State.Core.odometry (h : s.Core) : s.odo.Lawful := by
  obtain ⟨-, a2, a3, a4, a5, a6, a7, a8, -⟩ := h.ranges
  exact ⟨h.timers.1, h.timers.2.1, a2, a3, a4, a5, a6, a7, a8⟩

theorem State.Core.withOdo (h : s.Core) (o : Odometry) (k : o.Lawful) : (s.withOdo o).Core := by
  obtain ⟨k1, k2, b2, b3, b4, b5, b6, b7, b8⟩ := k
  obtain ⟨a1, -, -, -, -, -, -, -, a9⟩ := h.ranges
  exact ⟨h.1, ⟨k1, k2, h.timers.2.2⟩, h.3, ⟨a1, b2, b3, b4, b5, b6, b7, b8, a9⟩, h.5⟩

theorem State.Ready.withOdo (h : s.Ready) (o : Odometry) (k : o.Lawful) : (s.withOdo o).Ready :=
  ⟨h.core.withOdo o k, h.holds, h.braked, h.doors⟩

/-- A change of the odometry that keeps located and the selected direction keeps the laws, but those that ask for standstill. -/
theorem State.withOdo_moved (s : State) (o : Odometry) (h : s.Sound → o.Lawful) (l : o.located = s.odo.located)
    (d : o.direction = s.odo.direction) : Lawful [.odometry] r m s (s.withOdo o) [.moving, .proof] := by
  refine ⟨Frame.withOdo o, fun q => (q.ready.withOdo o (h q)).sound ?_, fun q =>
    (Frame.withOdo (raised := []) (removed := []) o).keepsBeside q.queued (fun n => absurd (by simp) n) fun n => absurd (by simp) n⟩
  have e : (s.withOdo o).permitHolds s.sup.state = s.permitHolds s.sup.state := by
    unfold State.permitHolds
    rw [State.withOdo_odo, l, d]
    rfl
  exact q.permit.trans e.symm

/-- What a change of the odometry keeps that does not end standstill. -/
theorem State.withOdo_keeps (s : State) (o : Odometry) (n : o.standstill = s.odo.standstill ∨ o.standstill = true) :
    s.Keeps (s.withOdo o) [] := by
  refine State.Keeps.of (fun _ h => ?_) (fun _ => id) (fun _ => id) (fun _ h k => ?_) fun _ => id
  · rcases n with n | n
    · exact State.movingLaw_of (t := s.withOdo o) n rfl (fun _ => id) h
    · exact State.movingLaw_still n
  · obtain ⟨h1, h2, h3⟩ := h k
    exact ⟨n.elim (fun n => n.trans h1) id, h2, h3⟩

/-- One that keeps or begins standstill. -/
theorem State.withOdo_lawful (s : State) (o : Odometry) (h : s.Sound → o.Lawful) (l : o.located = s.odo.located)
    (d : o.direction = s.odo.direction) (n : o.standstill = s.odo.standstill ∨ o.standstill = true) :
    Lawful [.odometry] r m s (s.withOdo o) :=
  ⟨(State.withOdo_moved (r := r) (m := m) s o h l d).frame, (State.withOdo_moved (r := r) (m := m) s o h l d).sound, fun _ =>
    s.withOdo_keeps o n⟩

theorem State.Sound.odometry (h : s.Sound) : s.odo.Lawful := h.core.odometry

/-! ### Tooth events -/

theorem movedPosition_le {p : Nat} (h : p ≤ Config.maxPosition) (d : Vertical) : movedPosition p d ≤ Config.maxPosition := by
  cases d
  · exact min_le_left _ _
  · exact (Nat.sub_le _ _).trans h

theorem grown_le (u : Nat) : grown u ≤ 255 := min_le_left _ _

theorem slipAfter_le {b : Bool} {slip u : Nat} (h : slip < Config.slipTeeth) (k : u ≤ 255) :
    (slipAfter b slip u).1 < Config.slipTeeth ∧ (slipAfter b slip u).2 ≤ 255 := by
  unfold slipAfter
  split
  · split
    · exact ⟨by simp [Config.slipTeeth], grown_le u⟩
    · exact ⟨by dsimp only; omega, k⟩
  · exact ⟨h, k⟩

theorem Odometry.measured_le (o : Odometry) (d : Vertical) (now : Nat) : (o.measured d now).1 ≤ Config.maxSpeed := by
  unfold Odometry.measured
  split
  · decide
  · exact min_le_left _ _

theorem rollbackAfter_le {x : Direction} {d : Vertical} {n : Nat} (h : n ≤ 255) : rollbackAfter x d n ≤ 255 := by
  unfold rollbackAfter
  split
  · exact min_le_left _ _
  · omega

theorem Odometry.Lawful.tooth {o : Odometry} (h : o.Lawful) (d : Vertical) (b : Bool) (now : Nat) :
    (o.tooth d b now).Lawful := by
  obtain ⟨-, -, h1, h2, -, h4, h5, -⟩ := h
  have k := slipAfter_le (b := b) h4 h2
  exact ⟨rfl, fun e => absurd e (by simp [Odometry.tooth]), movedPosition_le h1 d, k.2, o.measured_le d now, k.1,
    rollbackAfter_le h5, by simp [Odometry.tooth], by simp [Odometry.tooth]⟩

/-- The blocks that a tooth touches. -/
abbrev toothBlocks : List Block := [.odometry, .window, .authority, .doors, .motors]

/-- The causes that a tooth may raise. -/
abbrev toothCauses : List Cause := .rollback :: .authorityOverrun :: doorCauses

theorem State.withdrawRelease_lawful (s : State) :
    Lawful doorBlocks doorCauses doorRemovals s s.withdrawRelease [.moving] := by
  have f : Lawful doorBlocks doorCauses doorRemovals s
      (s.withDoors { s.doors with releasedLeft := false, releasedRight := false }) [.moving] :=
    State.withReleased_lawful s { s.doors with releasedLeft := false, releasedRight := false } rfl rfl
  unfold State.withdrawRelease
  refine f.trans (Lawful.foldl _ _ (fun u d => ?_) (by decide) _)
  exact Lawful.ite (fun _ => (State.stepDoor_lawful u d .locked).except) fun _ => Lawful.refl

theorem State.doorsTooth_lawful (s : State) (b : Bool) :
    Lawful doorBlocks doorCauses doorRemovals s (s.doorsTooth b) [.moving] := by
  have h : Lawful doorBlocks doorCauses doorRemovals s (if b = true then s.withdrawRelease else s) [.moving] :=
    Lawful.ite (fun _ => State.withdrawRelease_lawful s) fun _ => Lawful.refl
  unfold State.doorsTooth
  dsimp only
  generalize (if b = true then s.withdrawRelease else s) = u at *
  exact Lawful.ite (fun _ => h.trans ((State.raiseDoorMoving_lawful u).mono.except)) fun _ => h

/-- The Door Controller's part of a tooth leaves R152 true, where it held or standstill ends. -/
theorem State.doorsTooth_law (s : State) (b : Bool)
    (h : b = false → s.doors.releasedLeft = false ∧ s.doors.releasedRight = false ∧ ∀ d, (s.doorAt d).state ≠ .released) :
    (s.doorsTooth b).MovingLaw := by
  intro _
  have k : (if b = true then s.withdrawRelease else s).doors.releasedLeft = false
      ∧ (if b = true then s.withdrawRelease else s).doors.releasedRight = false
      ∧ ∀ d, ((if b = true then s.withdrawRelease else s).doorAt d).state ≠ .released := by
    cases b
    · exact h rfl
    · exact s.withdrawRelease_sides
  unfold State.doorsTooth
  dsimp only
  generalize (if b = true then s.withdrawRelease else s) = u at *
  split
  · rename_i aj
    have e : u.raiseDoorMoving.doors = u.doors := (State.raiseDoorMoving_lawful u).frame.doors (by decide)
    unfold State.doorAt at *
    rw [e]
    exact ⟨k.1, k.2.1, k.2.2, fun _ _ => State.raise_has _ _ _ (by decide)⟩
  · rename_i aj
    refine ⟨k.1, k.2.1, k.2.2, fun d hd => absurd ?_ aj⟩
    refine List.any_eq_true.2 ⟨d, by cases d <;> decide, ?_⟩
    generalize (u.doorAt d).state = y at hd
    cases y <;> simp_all [DoorState.ajar]

/-- A tooth up to the Door Controller's part. -/
def State.toothHead (s : State) (d : Vertical) : State :=
  let t := s.withOdo (s.odo.tooth d (s.win.slipsAt (movedPosition s.odo.p d)) s.clock)
  let t :=
    if against s.odo.direction d && decide (s.cfg.rollbackLimit ≤ t.odo.rollback) then t.raise .rollback t.capture else t
  (t.evaluateTooth.recomputeWindow false).recomputeInsideTooth

theorem State.toothEvent_eq (s : State) (d : Vertical) :
    s.toothEvent d = ((s.toothHead d).doorsTooth s.odo.standstill).abandonProof.emptyTried := rfl

/-- The blocks that it touches. -/
abbrev headBlocks : List Block := [.odometry, .window, .authority]

theorem State.toothHead_lawful (s : State) (d : Vertical) :
    Lawful headBlocks toothCauses doorRemovals s (s.toothHead d) [.moving, .proof] := by
  have f1 : Lawful headBlocks toothCauses doorRemovals s
      (s.withOdo (s.odo.tooth d (s.win.slipsAt (movedPosition s.odo.p d)) s.clock)) [.moving, .proof] := by
    refine Lawful.blocks (free := [.odometry]) ?_
    exact State.withOdo_moved s _ (fun q => q.odometry.tooth d _ _) rfl rfl
  unfold State.toothHead
  dsimp only
  generalize s.withOdo (s.odo.tooth d (s.win.slipsAt (movedPosition s.odo.p d)) s.clock) = u at *
  have f2 : Lawful headBlocks toothCauses doorRemovals s
      (if (against s.odo.direction d && decide (s.cfg.rollbackLimit ≤ u.odo.rollback)) = true then
        u.raise .rollback u.capture else u) [.moving, .proof] :=
    Lawful.ite (fun _ => f1.trans ((State.raise_lawful (r := toothCauses) (m := doorRemovals) u .rollback _).blocks.except))
      fun _ => f1
  have f3 := f2.trans ((State.evaluateTooth_lawful _).mono.except)
  have f4 := f3.trans ((State.recomputeWindow_lawful _ false).mono.except)
  exact f4.trans ((State.recomputeInsideTooth_lawful _).mono.except)

theorem State.toothEvent_lawful (s : State) (d : Vertical) :
    Lawful toothBlocks toothCauses doorRemovals s (s.toothEvent d) := by
  have f := State.toothHead_lawful s d
  have g : Lawful toothBlocks toothCauses doorRemovals (s.toothHead d) ((s.toothHead d).doorsTooth s.odo.standstill)
      [.moving, .proof] :=
    let h := State.doorsTooth_lawful (s.toothHead d) s.odo.standstill
    ⟨h.frame.mono (by decide) (by decide) (by decide), h.sound, fun q => (h.keeps q).except⟩
  rw [State.toothEvent_eq]
  refine ((((f.mono (free' := toothBlocks)).trans g).trans ((State.abandonProof_lawful _).blocks.except)).trans
    ((State.emptyTried_lawful _).blocks.except)).close fun _ x hx h => ?_
  have law : s.MovingLaw → ((s.toothHead d).doorsTooth s.odo.standstill).MovingLaw := fun h => by
    refine State.doorsTooth_law _ _ fun n => ?_
    obtain ⟨h1, h2, h3, -⟩ := h n
    unfold State.doorAt at *
    rw [f.frame.doors (by decide)]
    exact ⟨h1, h2, h3⟩
  generalize (s.toothHead d).doorsTooth s.odo.standstill = u at *
  have fu : Frame [] [] [] u u.abandonProof.emptyTried :=
    (State.abandonProof_frame u).trans (State.emptyTried_frame _)
  rcases (by simpa using hx : x = .moving ∨ x = .proof) with rfl | rfl
  · exact State.movingLaw_of (fu.standstill (by decide)) (fu.doors (by decide)) (fun _ => fu.has_kept (by decide)) (law h)
  · exact State.proofLaw_none u.abandonProof_none

theorem State.phaseChange_lawful (s : State) (a b : Bool) :
    Lawful toothBlocks toothCauses doorRemovals s (s.phaseChange a b) := by
  have f1 : Lawful toothBlocks toothCauses doorRemovals s (s.withOdo { s.odo with phaseA := a, phaseB := b }) := by
    refine Lawful.blocks (free := [.odometry]) ?_
    exact State.withOdo_lawful s _ (fun q => q.odometry) rfl rfl (.inl rfl)
  have g : ∀ u : State, ∀ o : Odometry, (u.Sound → o.Lawful) → o.located = u.odo.located →
      o.direction = u.odo.direction → o.standstill = u.odo.standstill →
      Lawful toothBlocks toothCauses doorRemovals u (u.withOdo o) := fun u o h l d n => by
    refine Lawful.blocks (free := [.odometry]) ?_
    exact State.withOdo_lawful u o h l d (.inl n)
  unfold State.phaseChange
  dsimp only
  generalize s.withOdo { s.odo with phaseA := a, phaseB := b } = u at *
  split
  · exact f1
  · refine f1.trans (Lawful.trans (g u { u.odo with u := grown u.odo.u } (fun q => ?_) rfl rfl rfl)
      ((State.recomputeWindow_lawful _ false).mono))
    obtain ⟨h1, h2, h3, -, h5⟩ := q.odometry
    exact ⟨h1, h2, h3, grown_le _, h5⟩
  · split
    · exact f1.trans (State.toothEvent_lawful _ _)
    · refine f1.trans (g u { u.odo with stepCount := u.odo.stepCount + 1 } (fun q => ?_) rfl rfl rfl)
      obtain ⟨h1, h2, h3, h4, h5, h6, h7, h8, h9⟩ := q.odometry
      exact ⟨h1, h2, h3, h4, h5, h6, h7, by dsimp only; omega, by dsimp only; omega⟩
  · split
    · exact f1.trans (State.toothEvent_lawful _ _)
    · refine f1.trans (g u { u.odo with stepCount := u.odo.stepCount - 1 } (fun q => ?_) rfl rfl rfl)
      obtain ⟨h1, h2, h3, h4, h5, h6, h7, h8, h9⟩ := q.odometry
      exact ⟨h1, h2, h3, h4, h5, h6, h7, by dsimp only; omega, by dsimp only; omega⟩

/-! ### Markers -/

theorem betterMarker_mem (x : Direction) (p a b : Nat) : betterMarker x p a b = a ∨ betterMarker x p a b = b := by
  unfold betterMarker
  split
  · exact .inl rfl
  · split
    · exact .inr rfl
    · split
      · rcases min_choice a b with h | h <;> simp [h]
      · rcases max_choice a b with h | h <;> simp [h]

theorem foldl_betterMarker_mem (x : Direction) (p : Nat) (l : List Nat) (a : Nat) :
    l.foldl (betterMarker x p) a ∈ a :: l := by
  induction l generalizing a with
  | nil => simp
  | cons b l ih =>
    rw [List.foldl_cons]
    have h := ih (betterMarker x p a b)
    rcases List.mem_cons.1 h with e | e
    · rcases betterMarker_mem x p a b with k | k <;> rw [e, k] <;> simp
    · exact List.mem_cons_of_mem _ (List.mem_cons_of_mem _ e)

/-- The chosen marker is one of the window's, within u + MARKER_TOLERANCE of p (R7). -/
theorem State.chosenMarker_mem {n : Nat} (h : s.chosenMarker = some n) :
    n ∈ s.win.markers ∧ gap n s.odo.p ≤ s.odo.u + Config.markerTolerance := by
  unfold State.chosenMarker at h
  split at h
  · exact absurd h (by simp)
  · rename_i a l e
    have k := foldl_betterMarker_mem s.odo.direction s.odo.p l a
    rw [Option.some.inj h, ← e] at k
    simpa using List.mem_filter.1 k

theorem State.marker_le (h : ∀ g ∈ s.win.records, g.OnLine) {n : Nat} (k : n ∈ s.win.markers) : n ≤ Config.maxPosition := by
  obtain ⟨g, hg, e⟩ := List.mem_filterMap.1 k
  obtain ⟨-, h2, h3⟩ := h g hg
  unfold Segment.markerAt at e
  obtain ⟨o, ho, rfl⟩ := Option.map_eq_some_iff.1 e
  have := h3 o ho
  omega

/-- The blocks that a correction touches. -/
abbrev correctionBlocks : List Block := [.odometry, .window, .authority]

theorem State.markerPulse_lawful (s : State) :
    Lawful correctionBlocks overspeeds [.overspeedService] s s.markerPulse := by
  unfold State.markerPulse
  split
  · exact (State.report_lawful s _).blocks
  · rename_i n e
    have f : Lawful correctionBlocks overspeeds [.overspeedService] s
        (s.withOdo { s.odo with p := n, u := 0, slip := 0 }) := by
      refine Lawful.blocks (free := [.odometry]) ?_
      refine State.withOdo_lawful s _ (fun q => ?_) rfl rfl (.inl rfl)
      obtain ⟨h1, h2, -, -, h5, -, h7⟩ := q.odometry
      exact ⟨h1, h2, State.marker_le q.ranges.1 (State.chosenMarker_mem e).1, Nat.zero_le _, h5,
        by simp [Config.slipTeeth], h7⟩
    exact ((f.trans ((State.evaluate_lawful _).blocks)).trans ((State.recomputeWindow_lawful _ false).blocks)).trans
      ((State.recomputeInside_lawful _).blocks)

/-! ### Standstill -/

theorem State.standstillExpiry_lawful (s : State) :
    Lawful [.odometry] overspeeds doorRemovals s s.standstillExpiry := by
  unfold State.standstillExpiry
  refine Lawful.ite (fun _ => ?_) fun _ => Lawful.refl
  · have f : Lawful [.odometry] overspeeds doorRemovals s
        (s.withOdo { s.odo with v := 0, standstill := true, standstillTimer := none }) := by
      refine State.withOdo_lawful s _ (fun q => ?_) rfl rfl (.inr rfl)
      obtain ⟨-, -, h3, h4, -, h6⟩ := q.odometry
      exact ⟨rfl, fun _ => rfl, h3, h4, Nat.zero_le _, h6⟩
    have f2 := (f.trans ((State.evaluate_lawful _).mono)).trans ((State.testProof_lawful _).blocks)
    exact (f2.trans ((State.testDoorRelease_lawful _).mono)).trans ((State.testQuiesced_lawful _).mono)

/-! ### Requests -/

theorem foldl_bytes_lt (l : List Byte) (n : Nat) :
    l.foldl (fun n b => n * 256 + b.toNat) n < (n + 1) * 256 ^ l.length := by
  induction l generalizing n with
  | nil => simp
  | cons b l ih =>
    rw [List.foldl_cons, List.length_cons]
    refine (ih _).trans_le ?_
    have := b.isLt
    calc (n * 256 + b.toNat + 1) * 256 ^ l.length ≤ ((n + 1) * 256) * 256 ^ l.length :=
          Nat.mul_le_mul_right _ (by omega)
      _ = (n + 1) * 256 ^ (l.length + 1) := by ring

/-- A field of `k` bytes is below 256 to the `k` (R196). -/
theorem field_lt (f : List Byte) (o k : Nat) : field f o k < 256 ^ k := by
  have h := foldl_bytes_lt ((f.drop o).take k) 0
  have l : ((f.drop o).take k).length ≤ k := List.length_take_le _ _
  unfold field valueOf
  refine h.trans_le ?_
  rw [Nat.zero_add, Nat.one_mul]
  exact Nat.pow_le_pow_right (by norm_num) l

/-- A recomputation of the window after a change of the window, on a state that need not be sound yet. -/
theorem State.Keeps.recompute (f : s.Keeps t [.window]) (k : t.Loose) (h : s.WindowLaw → t.win.Run) (b : Bool) :
    s.Keeps (t.recomputeWindow b) [] :=
  (f.trans (t.recomputeWindow_keeps k (State.Ready.core k).queued b)).close fun l => State.recomputeWindow_law k (h l) b

theorem State.Ready.recomputeInside_keeps (k : s.Ready) : s.Keeps s.recomputeInside [] := by
  have f : s.Keeps s.reflag [] := fun x _ => by cases x <;> exact id
  have k' : s.reflag.Core := ⟨k.1.1, k.1.2, k.1.3, k.1.4, k.1.5⟩
  unfold State.recomputeInside
  split
  · exact f.trans (State.evaluate_keeps k')
  · exact f

/-- What LOCATE does past its checks (R16, R38). -/
theorem State.relocate_lawful (s : State) (o : Odometry) (w : Window) (h : s.Sound → o.Lawful)
    (n : o.standstill = s.odo.standstill) (k : w.records = []) (b : Bool) :
    Lawful correctionBlocks overspeeds [.overspeedService] s
      ((((s.withOdo o).withWin w).recomputeWindow b).recomputeInside).evaluate := by
  have g1 : Frame correctionBlocks overspeeds [.overspeedService] s (s.withOdo o) :=
    (Frame.withOdo o).mono (by decide) (fun _ h => h) fun _ h => h
  have g2 := g1.trans ((Frame.withWin w).mono (by decide) (fun _ h => h) fun _ h => h)
  have k2 : s.Sound → ((s.withOdo o).withWin w).Ready := fun q =>
    State.Ready.withWin (q.ready.withOdo o (h q)) w (by simp [k]) (fun _ _ _ => by simp [k, Config.windowCapacity])
      (fun _ h => absurd h (by simp [k]))
  have e : s.Keeps ((s.withOdo o).withWin w) [.window] := by
    refine (s.withOdo_keeps o (.inl n)).except.trans fun x n => ?_
    cases x <;> first | exact id | exact absurd (by simp) n
  refine ⟨((g2.trans (State.recomputeWindow_lawful _ _).blocks.frame).trans
    (State.recomputeInside_lawful _).blocks.frame).trans (State.evaluate_lawful _).blocks.frame,
    fun q => (((k2 q).recomputeWindow _).recomputeInside).evaluate, fun q => ?_⟩
  have r := (k2 q).recomputeWindow b
  exact ((e.recompute (k2 q).loose (fun _ => Window.run_nil k) b).trans r.recomputeInside_keeps).trans
    (State.evaluate_keeps r.recomputeInside.core)

theorem State.locate_lawful (s : State) (f : List Byte) :
    Lawful correctionBlocks overspeeds [.overspeedService] s (s.locate f).1 := by
  unfold State.locate
  dsimp only
  split
  · exact Lawful.refl
  · split
    · exact Lawful.refl
    · refine State.relocate_lawful s { s.odo with
        p := field f 0 3, u := field f 3 1, located := true, slip := 0, rollback := 0 } { s.win with
          records := [], endUp := false, endDown := false
          located := some { number := field f 4 2, position := field f 0 3 } } (fun q => ?_) rfl rfl (!s.win.records.isEmpty)
      obtain ⟨h1, h2, -, -, h5, -, -, h8⟩ := q.odometry
      have := field_lt f 3 1
      exact ⟨h1, h2, by dsimp only; omega, by dsimp only; omega, h5,
        by simp [Config.slipTeeth], Nat.zero_le _, h8⟩

theorem State.turn_lawful (s : State) (x : Direction) :
    Lawful [.odometry, .window] overspeeds [.overspeedService] s (s.turn x) := by
  have e : s.Keeps (s.withOdo { s.odo with direction := x, rollback := 0 }) [] := s.withOdo_keeps _ (.inl rfl)
  have g1 : Frame [.odometry, .window] overspeeds [.overspeedService] s
      (s.withOdo { s.odo with direction := x, rollback := 0 }) :=
    (Frame.withOdo _).mono (by decide) (fun _ h => h) fun _ h => h
  have k1 : s.Sound → (s.withOdo { s.odo with direction := x, rollback := 0 }).Ready := fun q => by
    refine q.ready.withOdo _ ?_
    obtain ⟨h1, h2, h3, h4, h5, h6, -, h8⟩ := q.odometry
    exact ⟨h1, h2, h3, h4, h5, h6, Nat.zero_le _, h8⟩
  refine ⟨(g1.trans (State.recomputeWindow_lawful _ _).blocks.frame).trans (State.evaluate_lawful _).blocks.frame,
    fun q => ((k1 q).recomputeWindow false).evaluate, fun q => ?_⟩
  exact (e.except.recompute (k1 q).loose (fun l => (State.windowLaw_iff.1 l).1) false).trans
    (State.evaluate_keeps ((k1 q).recomputeWindow false).core)

theorem State.selectDirection_lawful (s : State) (f : List Byte) :
    Lawful [.odometry, .window] overspeeds [.overspeedService] s (s.selectDirection f).1 := by
  unfold State.selectDirection
  split
  · exact Lawful.refl
  · split
    · exact Lawful.refl
    · exact Lawful.ite (fun _ => Lawful.refl) fun _ => State.turn_lawful s _

/-! ### Requests of the window -/

theorem Delivery.record_onLine {d : Delivery} {g : Segment} (h : d.record = some g) : g.OnLine := by
  unfold Delivery.record at h
  split at h
  · simp at h
  · dsimp only at h
    split at h
    · rename_i c
      obtain ⟨-, c2, -, c4, -, -, -, -, -, c9⟩ := c
      rw [← Option.some.inj h]
      refine ⟨by dsimp only; omega, c4, fun o ho => ?_⟩
      exact c9 o (by simpa using ho)
    · simp at h

theorem Window.Lawful.join {w : Window} (h : w.Lawful) {g : Segment}
    (hg : g.OnLine) : (w.join g).records.length ≤ Config.windowCapacity ∧ ∀ x ∈ (w.join g).records, x.OnLine := by
  unfold Window.join
  split
  · rename_i j e
    have := h.2.1 j _ e
    refine ⟨by simp; omega, fun x hx => ?_⟩
    rcases List.mem_append.1 hx with a | a
    · exact h.2.2 x a
    · exact List.mem_singleton.1 a ▸ hg
  · rename_i j e
    have := h.2.1 j _ e
    refine ⟨by simp; omega, fun x hx => ?_⟩
    rcases List.mem_cons.1 hx with a | a
    · exact a ▸ hg
    · exact h.2.2 x a
  · exact ⟨by simp [Config.windowCapacity], fun x hx => List.mem_singleton.1 hx ▸ hg⟩

/-- A record that joins as R30 asks keeps the laws. -/
theorem State.recomputeWindow_joins (s : State) {g : Segment} (hg : g.OnLine) (sp : s.win.spaced g = true)
    (up : ∀ n, s.win.wanted = .byNumber n .up → g.number = n ∧ s.win.last?.map (· + 1) = some (g.start : Int))
    (down : ∀ n, s.win.wanted = .byNumber n .down → g.number = n ∧ s.win.first? = some ((g.start : Int) + g.length)) :
    Lawful [.window] overspeeds [.overspeedService] s ((s.withWin (s.win.join g)).recomputeWindow true) := by
  have fr : Frame [.window] overspeeds [.overspeedService] s (s.withWin (s.win.join g)) := Frame.withWin _
  have k : s.Sound → (s.withWin (s.win.join g)).Loose := fun q =>
    have j := q.ready.window.join hg
    q.ready.loose.loosely _ j.1 j.2
  refine ⟨fr.trans (State.recomputeWindow_frame _ true), fun q =>
    ((k q).recomputeWindow true).sound (State.recomputeWindow_permit (k q) q.permit true), fun q => ?_⟩
  have e : s.Keeps (s.withWin (s.win.join g)) [.window] := by
    intro x n
    cases x <;> first | exact id | exact absurd (by simp) n
  refine e.recompute (k q) (fun l => ?_) true
  obtain ⟨l1, l2⟩ := State.windowLaw_iff.1 l
  exact l1.join l2 sp up down

theorem Delivery.record_place {d : Delivery} {g : Segment} (h : d.record = some g) :
    g.number = d.number ∧ g.start = d.start ∧ g.length = d.length := by
  unfold Delivery.record at h
  split at h
  · simp at h
  · dsimp only at h
    split at h
    · rw [← Option.some.inj h]
      exact ⟨rfl, rfl, rfl⟩
    · simp at h

theorem State.deliver_lawful (s : State) (f : List Byte) :
    Lawful [.window] overspeeds [.overspeedService] s (s.deliver f).1 := by
  unfold State.deliver
  dsimp only
  split
  · exact Lawful.refl
  · rename_i n hn
    split
    · exact Lawful.refl
    · rename_i en
      split
      · exact Lawful.refl
      · rename_i pl
        split
        · exact Lawful.refl
        · rename_i g hg
          obtain ⟨p1, p2, p3⟩ := Delivery.record_place hg
          split
          · rename_i sp
            refine State.recomputeWindow_joins s
              (Segment.withBarring_onLine (Delivery.record_onLine hg) s.prov.capability) sp (fun k e => ?_) fun k e => ?_
            all_goals
              unfold Window.placed at pl
              unfold Wanted.served at hn
              rw [e] at pl hn
              simp only [Option.some.injEq] at hn
              simp only [Bool.not_eq_false, beq_iff_eq] at pl
              subst hn
              refine ⟨p1.trans (by simpa using en), ?_⟩
            · show _ = some (g.start : Int)
              rw [p2]
              exact pl.symm
            · show _ = some ((g.start : Int) + g.length)
              rw [p2, p3]
              exact pl.symm
          · exact Lawful.refl

theorem State.endOfLine_lawful (s : State) (f : List Byte) :
    Lawful [.window] overspeeds [.overspeedService] s (s.endOfLine f).1 := by
  have g : ∀ e, Lawful [.window] overspeeds [.overspeedService] s (s.withWin (s.win.endAt e)) := fun e =>
    ⟨Frame.withWin _, fun q => q.withWin _ (by cases e <;> exact q.capacity.1) (by cases e <;> exact q.capacity.2.1)
      (by cases e <;> exact q.ranges.1), fun _ x _ => by cases x <;> cases e <;> exact id⟩
  unfold State.endOfLine
  split
  · split
    · exact Lawful.refl
    · split
      · exact Lawful.refl
      · split
        · exact Lawful.refl
        · exact (g _).trans (State.recomputeWindow_lawful _ true)
  · exact Lawful.refl

end Sys2Proof.Machine
end

