-- ==== Sys2Proof/Laws/Blocks.lean ====
section
/-! SUPPORT. What the events and requests of the Authority Table, the Intervention Set, the Brake Combiner, the Sensor Scan, the
Drive Engine and the Radio Unit can do. -/

namespace Sys2Proof.Machine

set_option Elab.async false

variable {r m : List Cause} {s t : State}

/-! ### Authority -/

theorem State.takeAuthority_lawful (s : State) (f : List Byte) :
    Lawful [.authority] overspeeds [.overspeedService] s (s.takeAuthority f) := by
  have g : ∀ x : AuthorityTable, x.restrictions = s.auth.restrictions →
      Lawful [.authority] overspeeds [.overspeedService] s (s.withAuth x) := fun x h =>
    State.withAuth_lawful s x (.inr h)
  unfold State.takeAuthority
  dsimp only
  split
  · refine ((Lawful.trans (g _ ?_) (State.reflag_lawful _)).trans ((State.report_lawful _ _).blocks)).trans
      ((State.evaluate_lawful _).blocks)
    rfl
  · exact Lawful.refl

theorem layRestriction_length {rs out : List Restriction} {x : Restriction} (h : layRestriction rs x = some out)
    (k : rs.length ≤ Config.restrictionCapacity) : out.length ≤ Config.restrictionCapacity := by
  unfold layRestriction at h
  split at h
  · rw [← Option.some.inj h, List.length_map]
    exact k
  · split at h
    · rw [← Option.some.inj h, List.length_append, List.length_singleton]
      omega
    · simp at h

theorem State.restrictions_lawful (s : State) (rs : List Restriction)
    (h : s.auth.restrictions.length ≤ Config.restrictionCapacity → rs.length ≤ Config.restrictionCapacity) :
    Lawful [.authority] r m s (s.withAuth { s.auth with restrictions := rs }) :=
  .mk (Frame.withAuth _) fun q => ⟨q.1, q.2, q.3, q.4, q.5,
    ⟨q.6.1, q.6.2.1, h q.6.2.2.1, q.6.2.2.2⟩, q.7⟩

theorem State.takeRestrictionSet_lawful (s : State) (f : List Byte) :
    Lawful [.authority] overspeeds [.overspeedService] s (s.takeRestrictionSet f) := by
  unfold State.takeRestrictionSet
  split
  · exact (State.report_lawful s _).blocks
  · rename_i rs e
    obtain ⟨x, -, hx⟩ := Option.bind_eq_some_iff.1 e
    exact (State.restrictions_lawful s rs (layRestriction_length hx)).trans ((State.evaluate_lawful _).blocks)

theorem State.takeRestrictionClear_lawful (s : State) (f : List Byte) :
    Lawful [.authority] overspeeds [.overspeedService] s (s.takeRestrictionClear f) := by
  unfold State.takeRestrictionClear
  dsimp only
  generalize hx : (if field f 0 1 = 0 then [] else s.auth.restrictions.filter (fun r => r.id != field f 0 1)) = rs
  have l : rs.length ≤ s.auth.restrictions.length := by
    rw [← hx]
    split
    · exact Nat.zero_le _
    · exact List.length_filter_le _ _
  exact Lawful.ite (fun _ => Lawful.refl) fun _ =>
    (State.restrictions_lawful s rs fun h => l.trans h).trans ((State.evaluate_lawful _).blocks)

/-! ### Interventions -/

/-- Every cause, as what a request may remove. -/
abbrev allCauses : List Cause :=
  [.overspeedService, .overspeedEmergency, .authorityOverrun, .rollback, .doorUnlockedMoving, .cabSilent, .emergencyLoop
  , .brakeFeedback]

theorem mem_allCauses (c : Cause) : c ∈ allCauses := by cases c <;> decide

theorem State.acknowledge_lawful (s : State) (b : Bool) :
    Lawful [] overspeeds allCauses s (s.acknowledge b).1 :=
  Lawful.foldl _ _ (fun u c => Lawful.ite
    (fun k => State.removeAside_lawful u c (by decide) (mem_allCauses c) (by decide) fun e => by
      subst e
      simp only [State.releasable, Bool.and_eq_true] at k
      exact k.2) fun _ => Lawful.refl) (by decide) s

/-- The raisings that wait for the end of a step. -/
theorem State.afterRemovals_lawful (t before after : State) :
    Lawful [] overspeeds [.overspeedService] t (t.afterRemovals before after) :=
  Lawful.ite (fun _ => State.raiseOverspeeds_lawful t after) fun _ => Lawful.refl

theorem State.takeRelease_lawful (s : State) (f : List Byte) :
    Lawful [] overspeeds [.authorityOverrun, .overspeedService] s (s.takeRelease f) :=
  Lawful.ite (fun _ => (State.removeAside_lawful s _).trans ((State.afterRemovals_lawful _ _ _).mono)) fun _ => Lawful.refl

theorem State.raiseLoop_lawful (s : State) :
    Lawful [] (.emergencyLoop :: overspeeds) [.overspeedService] s s.raiseLoop := State.raise_lawful s _ _

theorem State.withLoop_lawful (s : State) (b : Bool) : Lawful [.loop] r m s (s.withSet { s.set with loopOpen := b }) := by
  refine .mk ?_ fun q => ⟨q.1, q.2, q.3, q.4, q.5, q.6, q.7⟩
  constructor <;> intros <;>
    first | rfl | exact RadioUnit.Queues.refl _ | exact le_refl _ | exact .inl rfl | assumption | exact .inl ‹_› | exact .inr ⟨rfl, rfl⟩ | simp at *

theorem State.loopOpens_lawful (s : State) :
    Lawful [.loop] (.emergencyLoop :: overspeeds) [.overspeedService] s s.loopOpens := by
  unfold State.loopOpens
  exact Lawful.ite (fun _ => Lawful.refl) fun _ =>
    (State.withLoop_lawful s true).trans ((State.raiseLoop_lawful _).blocks)

theorem State.withCabTimer_lawful (s : State) (x : Timer) (h : x.isSome = true → s.line.opState = .run) :
    Lawful [.cabTimer] r m s (s.withLine { s.line with cabTimer := x }) := by
  refine .mk ?_ fun q => ⟨q.1, q.2, q.3, q.4, ⟨q.5.1, q.5.2.1, q.5.2.2.1, h, q.5.2.2.2.2⟩, q.6, q.7⟩
  constructor <;> intros <;>
    first | rfl | exact RadioUnit.Queues.refl _ | exact le_refl _ | exact .inl rfl | assumption | exact .inl ‹_› | exact .inr ⟨rfl, rfl⟩ | simp at *

theorem State.cabExpiry_lawful (s : State) :
    Lawful [.cabTimer] (.cabSilent :: overspeeds) [.overspeedService] s s.cabExpiry := by
  unfold State.cabExpiry
  refine Lawful.ite (fun _ => ?_) fun _ => Lawful.refl
  · have f : Lawful [.cabTimer] (.cabSilent :: overspeeds) [.overspeedService] s
        (s.withLine { s.line with cabTimer := none }) := State.withCabTimer_lawful s none (by simp)
    exact f.trans ((State.raise_lawful (r := .cabSilent :: overspeeds) (m := [.overspeedService]) _ .cabSilent _).blocks)

theorem InterventionSet.hear_causes (i : InterventionSet) :
    i.hear.entries.map Entry.cause = i.entries.map Entry.cause := by
  simp only [InterventionSet.hear, List.map_map]
  refine List.map_congr_left fun e _ => ?_
  simp only [Function.comp]
  split <;> rfl

theorem InterventionSet.hear_hasLevel (i : InterventionSet) (l : Level) : i.hear.hasLevel l = i.hasLevel l := by
  have h : ∀ j : InterventionSet, j.hasLevel l = (j.entries.map Entry.cause).any (fun c => c.level == l) := by
    intro j
    simp [InterventionSet.hasLevel, List.any_map, Function.comp_def]
  rw [h, h, InterventionSet.hear_causes]

theorem State.springLaw_congr {p : ParkSetting} (h : t.line.opState = s.line.opState)
    (k : t.set.hasLevel .emergency = s.set.hasLevel .emergency) : t.springLaw p = s.springLaw p := by
  unfold State.springLaw
  rw [h, k]

theorem InterventionSet.hear_has (i : InterventionSet) (c : Cause) : i.hear.has c = i.has c := by
  rw [Bool.eq_iff_iff, InterventionSet.has_iff, InterventionSet.has_iff, InterventionSet.hear_causes]

theorem State.hear_lawful (s : State) : Lawful [.entries] r m s (s.withSet s.set.hear) := by
  have l : (s.withSet s.set.hear).set.hasLevel .emergency = s.set.hasLevel .emergency :=
    InterventionSet.hear_hasLevel _ _
  refine ⟨?_, fun q => ⟨⟨?_, ?_⟩, ⟨q.holds, ?_, ?_, ?_⟩, ?_, q.4, q.5, q.6, q.7⟩, fun _ => State.Keeps.of
    (fun _ => State.movingLaw_of (t := s.withSet s.set.hear) rfl rfl fun _ k => (InterventionSet.hear_has _ _).trans k)
    (fun _ => id) (fun _ => id) (fun _ => State.proofLaw_of (t := s.withSet s.set.hear) rfl id id fun k => l.trans k)
    fun _ => id⟩
  · constructor <;> intros <;>
      first | rfl | exact RadioUnit.Queues.refl _ | exact le_refl _ | exact .inl rfl | assumption | exact .inl ‹_› | exact .inr ⟨rfl, rfl⟩ | simp at *
  · rw [State.withSet_set, InterventionSet.hear_causes]
    exact q.1.1
  · rw [l]
    exact q.1.2
  · exact q.2.2.1.trans (State.springLaw_congr (s := s) (t := s.withSet s.set.hear) rfl l).symm
  · rw [l]
    exact q.2.2.2.1
  · rw [l]
    obtain ⟨-, -, -, a, b, c⟩ := q.2
    refine ⟨a, ?_, c⟩
    unfold State.DriveLaw
    rw [l]
    exact b
  · have e : (s.withSet s.set.hear).permitHolds s.sup.state = s.permitHolds s.sup.state := by
      unfold State.permitHolds
      simp only [State.withSet_set, InterventionSet.hear, List.isEmpty_map]
      rfl
    exact q.permit.trans e.symm

/-! ### Brakes -/

theorem State.withDriver_sound (h : s.Sound) (n : Nat) (k : n ≤ 100) :
    (s.withComb { s.comb with driver := n }).Core ∧ (s.withComb { s.comb with driver := n }).PermitLaw
      ∧ (s.withComb { s.comb with driver := n }).DoorLaw := by
  obtain ⟨a1, a2, a3, a4, a5, a6, a7, a8, a9, -, a11⟩ := h.ranges
  exact ⟨⟨h.1, h.5, h.6, ⟨a1, a2, a3, a4, a5, a6, a7, a8, a9, k, a11⟩, h.core.latch⟩, h.3, h.4⟩

theorem State.withDriver_frame (s : State) (n : Nat) :
    Frame [.driver] r m s (s.withComb { s.comb with driver := n }) := by
  constructor <;> intros <;>
    first | rfl | exact RadioUnit.Queues.refl _ | exact le_refl _ | exact .inl rfl | assumption | exact .inl ‹_› | exact .inr ⟨rfl, rfl⟩ | simp at *

theorem State.setDriver_lawful (s : State) (n : Nat) (k : n ≤ 100) :
    Lawful [.driver] overspeeds [.overspeedService] s (s.withComb { s.comb with driver := n }).recompute :=
  ⟨(State.withDriver_frame s n).trans (State.recompute_lawful _).blocks.frame, fun h =>
    State.recompute_sound (State.withDriver_sound h n k).1 (State.withDriver_sound h n k).2.1
      (State.withDriver_sound h n k).2.2, fun h =>
    State.Keeps.trans (t := s.withComb { s.comb with driver := n }) (fun x _ => by cases x <;> exact id)
      (State.recompute_keeps (State.withDriver_sound h n k).1)⟩

theorem State.driverBrake_lawful (s : State) (f : List Byte) :
    Lawful [.driver] overspeeds [.overspeedService] s (s.driverBrake f).1 :=
  State.setDriver_lawful s _ (min_le_left _ _)

theorem State.withPark_frame (s : State) (x : ParkSetting) :
    Frame [.park] r m s (s.withComb { s.comb with park := x }) := by
  constructor <;> intros <;>
    first | rfl | exact RadioUnit.Queues.refl _ | exact le_refl _ | exact .inl rfl | assumption | exact .inl ‹_› | exact .inr ⟨rfl, rfl⟩ | simp at *

theorem State.setPark_lawful (s : State) (f : List Byte) :
    Lawful [.park] overspeeds [.overspeedService] s (s.setPark f).1 := by
  have g : ∀ x, Lawful [.park] overspeeds [.overspeedService] s
      (s.withComb { s.comb with park := x }).recompute := fun x =>
    ⟨(State.withPark_frame s x).trans (State.recompute_lawful _).blocks.frame, fun h =>
      State.recompute_sound ⟨h.1, h.5, h.6, h.7, h.core.latch⟩ h.3 h.4, fun h =>
      State.Keeps.trans (t := s.withComb { s.comb with park := x }) (fun x _ => by cases x <;> exact id)
        (State.recompute_keeps ⟨h.1, h.5, h.6, h.7, h.core.latch⟩)⟩
  unfold State.setPark
  split
  · exact Lawful.refl
  · split
    · exact Lawful.refl
    · exact g _

theorem State.withScan_lawful (s : State) (x : SensorScan) : Lawful [.scan] r m s (s.withScan x) :=
  .mk (Frame.withScan x) fun q => ⟨q.1, q.2, q.3, q.4, q.5, q.6, q.7⟩

theorem State.scanExpiry_lawful (s : State) : Lawful [.scan] r m s s.scanExpiry := by
  unfold State.scanExpiry
  exact Lawful.ite (fun _ => State.withScan_lawful s _) fun _ => Lawful.refl

/-- The blocks that a completed scan touches. -/
abbrev scanBlocks : List Block := [.scan, .ratings, .window, .doors, .motors]

/-- The causes that a completed scan may raise. -/
abbrev scanCauses : List Cause := .brakeFeedback :: doorCauses

theorem State.scanComplete_lawful (s : State) (w : ScanWords) :
    Lawful scanBlocks scanCauses doorRemovals s (s.scanComplete w) := by
  have f1 : Lawful scanBlocks scanCauses doorRemovals s (s.withScan (s.scan.take w)) := by
    refine Lawful.blocks (free := [.scan]) ?_
    exact State.withScan_lawful s _
  have f2 := f1.trans ((State.recompute_lawful _).mono)
  have f3 := f2.trans ((State.checkFeedback_lawful _).mono)
  have f4 := f3.trans ((State.takeStepSample_lawful _).blocks)
  exact f4.trans (Lawful.foldl State.scanDoor allDoors (r := scanCauses) (m := doorRemovals)
    (fun u d => (State.scanDoor_lawful u d).mono) (by decide) _)

/-! ### Period ends -/

theorem DriveEngine.valveEnds_full {e : DriveEngine} (h : ∀ c, (e.valve.get c).IsFull) (x : Channel) (g : Bool)
    (p now : Nat) (c : Channel) : ((e.valveEnds x g p now).valve.get c).IsFull := by
  have f : ∀ c, ((e.valve.get c).endPeriod p now).IsFull := fun c => (h c).endPeriod p now
  unfold DriveEngine.valveEnds
  cases x <;> dsimp only
  · split
    · cases c
      · exact f .rb1
      · exact f .rb1
      · exact h .ab1
      · exact h .ab2
    · cases c
      · exact f .rb1
      · exact h .rb2
      · exact h .ab1
      · exact h .ab2
  · split
    · exact h c
    · cases c
      · exact h .rb1
      · exact f .rb2
      · exact h .ab1
      · exact h .ab2
  · cases c
    · exact h .rb1
    · exact h .rb2
    · exact f .ab1
    · exact h .ab2
  · cases c
    · exact h .rb1
    · exact h .rb2
    · exact h .ab1
    · exact f .ab2

/-- V2 follows V1 after the end of a period only where it may (R109). -/
theorem DriveEngine.valveEnds_ganged {e : DriveEngine} {x : Channel} {g : Bool} {p now : Nat} (h : e.ganged = true → g = true)
    (k : (e.valveEnds x g p now).ganged = true) : g = true := by
  unfold DriveEngine.valveEnds at k
  split at k
  · dsimp only at k
    split at k
    · assumption
    · exact h k
  · split at k <;> exact h k
  · exact h k

theorem DriveEngine.valveEnds_motor (e : DriveEngine) (x : Channel) (g : Bool) (p now : Nat) :
    (e.valveEnds x g p now).motor = e.motor := by
  unfold DriveEngine.valveEnds
  split
  · dsimp only
    split <;> rfl
  · split <;> rfl
  · rfl

theorem State.outputEnds_lawful (s : State) (o : OutputId) : Lawful [.motors] r m s (s.outputEnds o) := by
  cases o with
  | valve c =>
    refine .mk ((Frame.withValves _ (DriveEngine.valveEnds_motor _ _ _ _ _)).mono (free := []) (by simp) (fun _ h => h)
      fun _ h => h) fun q => ?_
    obtain ⟨b1, b2, b3, b4, b5, b6, b7⟩ := q.2
    have w : s.drive.ganged = true → s.wantGang = true := fun k => State.wantGang_iff.2 (b7 k)
    refine ⟨q.1, ⟨b1, b2, b3, fun e x => ?_, b5, (State.valveLaw_iff.1 b6).valveEnds c _ w _ _, fun k => ?_⟩, q.3, q.4, q.5, q.6, q.7⟩
    · exact ⟨(b4 e x).1, (b4 e x).2.1, DriveEngine.valveEnds_full (fun c => (b4 e c).2.2) _ _ _ _ x⟩
    · exact State.wantGang_iff.1 (DriveEngine.valveEnds_ganged w k)
  | motor d => exact State.withMotor_lawful s _

/-! ### Radio -/

/-- A change of the Radio Unit that keeps its own laws. -/
theorem State.withRadio_sound (s : State) (x : RadioUnit)
    (h : s.Sound → x.queue.length ≤ Config.queueCapacity ∧ x.flying ≤ x.queue.length ∧ x.lost ≤ 255 ∧ x.resend ≤ 255
      ∧ x.number < 8 ∧ x.timer.isSome = (x.link == .up)) (q : s.Sound) : (s.withRadio x).Sound := by
  obtain ⟨h1, h2, h3, h4, h5, h6⟩ := h q
  obtain ⟨a1, a2, a3, -, -, -, -, -, a9⟩ := q.capacity
  exact ⟨q.1, q.2, q.3, q.4, ⟨q.5.1, q.5.2.1, h6, q.5.2.2.2⟩, ⟨a1, a2, a3, h1, h2, h3, h4, h5, a9⟩, q.7⟩

theorem State.Sound.radio (q : s.Sound) :
    s.radio.queue.length ≤ Config.queueCapacity ∧ s.radio.flying ≤ s.radio.queue.length ∧ s.radio.lost ≤ 255
      ∧ s.radio.resend ≤ 255 ∧ s.radio.number < 8 ∧ s.radio.timer.isSome = (s.radio.link == .up) := by
  obtain ⟨-, -, -, a4, a5, a6, a7, a8, -⟩ := q.capacity
  exact ⟨a4, a5, a6, a7, a8, q.timers.2.2.1⟩

/-- One that leaves the queue, the burst in flight and the lost tally. -/
theorem State.withRadio_lawful (s : State) (x : RadioUnit)
    (h : s.Sound → x.resend ≤ 255 ∧ x.number < 8 ∧ x.timer.isSome = (x.link == .up))
    (hi : x.inFlight = s.radio.inFlight := by rfl) (hq : x.queue = s.radio.queue := by rfl)
    (hl : x.lost = s.radio.lost := by rfl) (hn : x.number = s.radio.number := by rfl)
    (ht : x.carriedTally = s.radio.carriedTally := by rfl)
    (hc : x.carriedLost = true → s.radio.carriedLost = true := by first | exact id | exact fun h => absurd h (by simp))
    (hw : s.radio.wasLost = true → x.wasLost = true := by first | exact id | exact fun _ => rfl) : Lawful [.radio] r m s (s.withRadio x) := by
  have f := RadioUnit.Queues.of_same hi hq hl hn ht hc hw
  refine ⟨Frame.withRadioBeside x f, State.withRadio_sound s x fun q => ?_, fun q =>
    State.Keeps.of (fun _ => id) (fun _ => id) (fun _ => id) (fun _ => id) fun _ =>
      State.queueLaw_of (t := s.withRadio x) f q.queued.1 q.queued.2⟩
  obtain ⟨h1, h2, h3, -⟩ := q.radio
  rw [hq, hl, RadioUnit.flying_congr hi]
  exact ⟨h1, h2, h3, h q⟩

/-- One that does not. -/
theorem State.withQueue_lawful (s : State) (x : RadioUnit)
    (h : s.Sound → x.queue.length ≤ Config.queueCapacity ∧ x.flying ≤ x.queue.length ∧ x.lost ≤ 255 ∧ x.resend ≤ 255
      ∧ x.number < 8 ∧ x.timer.isSome = (x.link == .up)) (k : s.QueueLaw → (s.withRadio x).QueueLaw) :
    Lawful [.radio, .queue] r m s (s.withRadio x) :=
  ⟨Frame.withRadio x, State.withRadio_sound s x h, fun _ =>
    State.Keeps.of (fun _ => id) (fun _ => id) (fun _ => id) (fun _ => id) fun _ => k⟩

theorem State.linkUp_lawful (s : State) : Lawful [.radio] overspeeds [.overspeedService] s s.linkUp := by
  have f : Lawful [.radio] overspeeds [.overspeedService] s
      (s.withRadio { s.radio with link := .up, timer := some s.radioDeadline }) := by
    refine State.withRadio_lawful s _ fun q => ?_
    obtain ⟨-, -, -, h4, h5, -⟩ := q.radio
    exact ⟨h4, h5, rfl⟩
  exact Lawful.ite (fun _ => f) fun _ => f.trans ((State.evaluate_lawful _).blocks)

theorem State.radioExpiry_lawful (s : State) : Lawful [.radio] overspeeds [.overspeedService] s s.radioExpiry := by
  unfold State.radioExpiry
  refine Lawful.ite (fun _ => ?_) fun _ => Lawful.refl
  · have f : Lawful [.radio] overspeeds [.overspeedService] s
        (s.withRadio { s.radio with link := .lost, timer := none, wasLost := true, carriedLost := false }) := by
      refine State.withRadio_lawful s _ fun q => ?_
      obtain ⟨-, -, -, h4, h5, -⟩ := q.radio
      exact ⟨h4, h5, rfl⟩
    exact Lawful.ite (fun _ => f) fun _ => f.trans ((State.evaluate_lawful _).blocks)

theorem State.positionExpiry_lawful (s : State) : Lawful [.radio] r m s s.positionExpiry := by
  unfold State.positionExpiry
  refine Lawful.ite (fun _ => ?_) fun _ => Lawful.refl
  · have f : Lawful [.radio] r m s
        (s.withRadio { s.radio with positionTimer := some (s.after (s.cfg.positionInterval * 1000)) }) :=
      State.withRadio_lawful s _ fun q => q.radio.2.2.2
    exact Lawful.ite (fun _ => f.trans ((State.reportPosition_lawful _).blocks)) fun _ => f

theorem State.transmit_lawful (s : State) (b : List Byte) : Lawful [.radio] r m s (s.transmit b) :=
  State.withRadio_lawful s _ fun q => q.radio.2.2.2

theorem fitting_le (cap used : Nat) (l : List Report) : fitting cap used l ≤ l.length := by
  induction l generalizing used with
  | nil => exact le_refl _
  | cons x l ih =>
    unfold fitting
    split
    · have := ih (used + x.size)
      rw [List.length_cons]
      omega
    · exact Nat.zero_le _

/-- A burst takes no more records than the queue holds (R172). -/
theorem burstCount_le (cap : Nat) (l : List Report) : burstCount cap l ≤ l.length := by
  cases l with
  | nil => exact le_refl _
  | cons x l =>
    have := fitting_le cap x.size l
    show 1 + fitting cap x.size l ≤ l.length + 1
    omega

/-- A burst carries one record at least (R172). -/
theorem burstCount_pos (cap : Nat) {l : List Report} (h : l ≠ []) : 1 ≤ burstCount cap l := by
  cases l with
  | nil => exact absurd rfl h
  | cons x l => exact Nat.le_add_right 1 _

theorem bitsOf_testBit (l : List Bool) (i : Nat) : (bitsOf l).testBit i = l[i]?.getD false := by
  induction l generalizing i with
  | nil => simp [bitsOf]
  | cons b l ih =>
    unfold bitsOf
    cases i with
    | zero => cases b <;> simp [bit, Nat.testBit_zero]
    | succ i =>
      rw [Nat.testBit_succ, List.getElem?_cons_succ, ← ih]
      congr 1
      cases b
      · show (0 + 2 * bitsOf l) / 2 = _
        omega
      · show (1 + 2 * bitsOf l) / 2 = _
        omega

/-- With RADIO_WAS_LOST carried, its flag stands in the summary byte (R176, R177). -/
theorem State.summaryByte_carries (h : s.carriesLost = true) : s.summaryByte.getLsbD 6 = true := by
  obtain ⟨h1, h2⟩ := Bool.and_eq_true_iff.1 h
  unfold State.summaryByte byteOf
  rw [BitVec.getLsbD_and, BitVec.getLsbD_ofNat, bitsOf_testBit, Bool.and_eq_true_iff]
  exact ⟨by simpa [State.summaryFlags] using h1, h2⟩

/-- With no burst in flight, the records not in flight are all of them. -/
theorem RadioUnit.flying_none {q : RadioUnit} (h : q.inFlight = none) : q.flying = 0 := by
  unfold RadioUnit.flying
  rw [h]

theorem State.buildBurst_queue (n : s.radio.inFlight = none) (ne : s.radio.queue ≠ []) (h : s.QueueLaw) :
    (s.withRadio { s.radio with
      inFlight := some { number := s.radio.number, body := s.burstBody (burstCount s.cfg.burstCap s.radio.queue)
                         count := burstCount s.cfg.burstCap s.radio.queue }
      carriedTally := s.radio.lost
      carriedLost := s.carriesLost
      resend := 0 }).QueueLaw := by
  obtain ⟨h1, -⟩ := h
  refine ⟨?_, fun k => ?_, le_refl _, fun b hb => ?_⟩
  · refine le_trans ?_ h1
    unfold RadioUnit.unsentPositions
    rw [RadioUnit.flying_none n, List.drop_zero]
    exact ((List.drop_sublist _ _).filter _).length_le
  · have k' : s.carriesLost = true := k
    unfold State.carriesLost at k'
    exact (Bool.and_eq_true_iff.1 k').1
  · have e := Option.some.inj hb
    subst e
    exact ⟨burstCount_pos _ ne, rfl, _, _, _, State.summaryByte_carries, rfl⟩

theorem State.buildBurst_lawful (s : State) (n : s.radio.inFlight = none) (ne : s.radio.queue ≠ []) :
    Lawful [.radio, .queue] r m s s.buildBurst := by
  unfold State.buildBurst
  dsimp only
  refine Lawful.trans (State.withQueue_lawful s _ (fun q => ?_) (State.buildBurst_queue n ne))
    ((State.transmit_lawful _ _).blocks)
  obtain ⟨h1, h2, h3, h4, h5, h6⟩ := q.radio
  exact ⟨h1, burstCount_le _ _, h3, Nat.zero_le _, h5, h6⟩

theorem State.resendBurst_lawful (s : State) (b : Burst) : Lawful [.radio] r m s (s.resendBurst b) := by
  unfold State.resendBurst
  refine Lawful.trans (State.withRadio_lawful s _ fun q => ?_) (State.transmit_lawful _ _)
  obtain ⟨-, -, -, -, h5, h6⟩ := q.radio
  exact ⟨min_le_left _ _, h5, h6⟩

theorem State.takePoll_lawful (s : State) : Lawful [.radio, .queue] r m s s.takePoll := by
  unfold State.takePoll
  split
  · exact Lawful.refl
  · split
    · exact Lawful.refl
    · split
      · exact (State.resendBurst_lawful s _).blocks
      · rename_i n
        split
        · split
          · exact (State.transmit_lawful s _).blocks
          · exact Lawful.refl
        · rename_i ne
          exact State.buildBurst_lawful s n (by simpa using ne)

/-- A burst acknowledged leaves the other records (R174). -/
theorem State.retire_queue {b : Burst} (n : s.radio.inFlight = some b) (h : s.QueueLaw) :
    (s.withRadio (s.radio.retire b)).QueueLaw := by
  obtain ⟨h1, -⟩ := h
  refine ⟨?_, fun k => absurd k (by simp [RadioUnit.retire]), Nat.zero_le _, fun b hb => absurd hb (by simp [RadioUnit.retire])⟩
  have e : s.radio.flying = b.count := by
    unfold RadioUnit.flying
    rw [n]
  unfold RadioUnit.unsentPositions at *
  rw [e] at h1
  exact h1

theorem State.takeAck_lawful (s : State) (f : List Byte) : Lawful [.radio, .queue] r m s (s.takeAck f) := by
  unfold State.takeAck
  split
  · exact Lawful.refl
  · rename_i n
    refine Lawful.ite (fun _ => State.withQueue_lawful s _ (fun q => ?_) (State.retire_queue n)) fun _ => Lawful.refl
    obtain ⟨h1, h2, h3, h4, h5, h6⟩ := q.radio
    refine ⟨?_, Nat.zero_le _, (Nat.sub_le _ _).trans h3, Nat.zero_le _, Nat.mod_lt _ (by norm_num), h6⟩
    simp only [RadioUnit.retire, List.length_drop]
    omega

theorem State.transmitComplete_lawful (s : State) : Lawful [.radio] r m s s.transmitComplete :=
  State.withRadio_lawful s _ fun q => q.radio.2.2.2

/-- The blocks that a downlink touches. -/
abbrev downlinkBlocks : List Block := [.radio, .queue, .authority]

/-- The causes that a downlink may remove. -/
abbrev downlinkRemovals : List Cause := [.authorityOverrun, .overspeedService]

theorem State.dispatchDownlink_lawful (s : State) (k : DownlinkKind) (f : List Byte) :
    Lawful downlinkBlocks overspeeds downlinkRemovals s (s.dispatchDownlink k f) := by
  cases k
  · exact (State.takePoll_lawful s).blocks
  · exact (State.takeAck_lawful s f).blocks
  · exact (State.takeAuthority_lawful s f).mono
  · exact (State.takeRelease_lawful s f).blocks
  · exact (State.takeRestrictionSet_lawful s f).mono
  · exact (State.takeRestrictionClear_lawful s f).mono

theorem State.takeDownlink_lawful (s : State) (b : List Byte) :
    Lawful downlinkBlocks overspeeds downlinkRemovals s (s.takeDownlink b) := by
  have f : Lawful downlinkBlocks overspeeds downlinkRemovals s s.linkUp := (State.linkUp_lawful s).mono
  unfold State.takeDownlink
  dsimp only
  split
  · split
    · exact f
    · exact Lawful.ite (fun _ => f.trans (State.dispatchDownlink_lawful _ _ _)) fun _ => f
  · exact f

end Sys2Proof.Machine
end

