-- ==== Sys2Proof/Laws/Figures.lean ====
section
/-! SUPPORT. The figures that the supervisor and the combiner compute are those that Safety.lean spells out term by term: the
static limit and its terms (R60, R61), the targets (R62), P (R68), the demands (R96 to R98, R100). -/

namespace Sys2Proof.Machine

set_option Elab.async false

variable {s : State} {t : Vertical}

/-! ### Least numbers -/

theorem foldl_min_le (l : List Nat) (a : Nat) : l.foldl min a ≤ a ∧ ∀ x ∈ l, l.foldl min a ≤ x := by
  induction l generalizing a with
  | nil => simp
  | cons b l ih =>
    obtain ⟨h1, h2⟩ := ih (min a b)
    simp only [List.foldl_cons, List.mem_cons, forall_eq_or_imp]
    exact ⟨h1.trans (min_le_left _ _), h1.trans (min_le_right _ _), h2⟩

theorem foldl_min_mem (l : List Nat) (a : Nat) : l.foldl min a = a ∨ l.foldl min a ∈ l := by
  induction l generalizing a with
  | nil => simp
  | cons b l ih =>
    simp only [List.foldl_cons, List.mem_cons]
    rcases ih (min a b) with h | h
    · rcases min_choice a b with k | k <;> rw [k] at h
      · exact .inl (by rw [k]; exact h)
      · exact .inr (.inl (by rw [k]; exact h))
    · exact .inr (.inr h)

/-- The least of a number and a list is the least of what they are the members of. -/
theorem least_foldl {p : Nat → Prop} {l : List Nat} {a : Nat} (h : ∀ n, p n ↔ n = a ∨ n ∈ l) : Least p (l.foldl min a) := by
  refine ⟨(h _).2 (foldl_min_mem l a), fun m hm => ?_⟩
  rcases (h m).1 hm with rfl | hm
  · exact (foldl_min_le l _).1
  · exact (foldl_min_le l a).2 m hm

/-! ### Questions to the window -/

theorem State.lo_eq (s : State) : s.lo = (s.odo.p : Int) - s.cfg.trainLength - s.odo.u := rfl

theorem State.hi_eq (s : State) : s.hi = s.odo.p + s.odo.u := rfl

theorem State.carLo_eq (s : State) : s.carLo = (s.odo.p : Int) - s.cfg.carLength - s.odo.u := rfl

theorem Window.covers_iff (w : Window) (low high : Int) :
    w.covers low high = true ↔
      ∃ a b, w.records.head? = some a ∧ w.records.getLast? = some b ∧ (a.start : Int) ≤ low ∧ high ≤ b.last := by
  unfold Window.covers Window.first? Window.last?
  rcases w.records.head? with _ | a <;> rcases w.records.getLast? with _ | b <;> simp

theorem State.covers_iff (s : State) (low high : Int) : s.win.covers low high = true ↔ s.Covers low high :=
  s.win.covers_iff low high

theorem State.under_iff (s : State) (g : Segment) : g ∈ s.win.overlapping s.lo s.hi ↔ g ∈ s.win.records ∧ s.Under g := by
  rw [State.lo_eq, State.hi_eq]
  simp [Window.overlapping, Segment.overlaps, State.Under, Segment.last]

/-! ### The static limit -/

theorem Direction.travel_eq_some {d : Direction} : d.travel = some t ↔ d = (match t with | .up => .up | .down => .down) := by
  cases d <;> cases t <;> simp [Direction.travel]

theorem State.supervised_iff : s.Supervised t ↔ s.odo.direction.travel = some t ∧ s.supervisable = true := by
  have c := s.covers_iff s.lo s.hi
  rw [State.lo_eq, State.hi_eq] at c
  unfold State.Supervised State.supervisable
  rw [Direction.travel_eq_some, State.lo_eq, State.hi_eq, ← c]
  simp only [Bool.and_eq_true]
  tauto

theorem Restriction.bears_iff (r : Restriction) (t : Vertical) : r.bears t = true ↔ r.IsApplicable t := by
  unfold Restriction.bears Restriction.IsApplicable Restriction.appliesTo
  cases t <;> simp [and_comm]

theorem State.limitTerm_iff (n : Nat) : LimitTerm s t n ↔ n = s.cfg.maxSpeed ∨ n ∈ s.limitTerms t := by
  unfold State.limitTerms
  simp only [List.mem_append, List.mem_map, List.mem_filter, State.under_iff, Bool.and_eq_true, Restriction.bears_iff]
  constructor
  · intro h
    cases h with
    | maxSpeed => exact .inl rfl
    | record g m u => exact .inr (.inl (.inl (.inl ⟨g, ⟨m, u⟩, by cases t <;> rfl⟩)))
    | restriction r m a l h => 
      refine .inr (.inl (.inl (.inr ⟨r, ⟨m, a, ?_⟩, rfl⟩)))
      simp only [Restriction.overlaps, Bool.and_eq_true, decide_eq_true_eq]
      exact ⟨l, h⟩
    | barred g m u b =>
      refine .inr (.inl (.inr ?_))
      rw [if_pos]
      · exact List.mem_singleton_self _
      · refine List.any_eq_true.2 ⟨g, s.under_iff g |>.2 ⟨m, u⟩, ?_⟩
        cases t <;> exact b
    | radioLost h => exact .inr (.inr (by rw [if_pos h]; exact List.mem_singleton_self _))
  · rintro (rfl | ((⟨g, ⟨m, u⟩, rfl⟩ | ⟨r, ⟨m, a, o⟩, rfl⟩) | h) | h)
    · exact .maxSpeed
    · have k := LimitTerm.record (t := t) g m u
      cases t <;> exact k
    · simp only [Restriction.overlaps, Bool.and_eq_true, decide_eq_true_eq] at o
      exact .restriction r m a o.1 o.2
    · split at h
      · rename_i hb
        obtain ⟨g, hg, b⟩ := List.any_eq_true.1 hb
        obtain ⟨m, u⟩ := (s.under_iff g).1 hg
        rw [List.mem_singleton.1 h]
        refine .barred g m u ?_
        cases t <;> exact b
      · cases h
    · split at h
      · rw [List.mem_singleton.1 h]
        exact .radioLost ‹_›
      · cases h

theorem State.lineLimit_least (s : State) (t : Vertical) : Least (LimitTerm s t) (s.lineLimit t) :=
  least_foldl fun n => s.limitTerm_iff n

/-! ### Targets -/

theorem mem_authorityEnd_up (x : Target) :
    x ∈ (s.authorityEnd .up).toList.map (fun y => ({ position := y, speed := 0 } : Target)) ↔
      ∃ r, s.auth.inside = true ∧ s.auth.Contains r ∧ (∀ y, s.auth.Contains y → y.high ≤ r.high)
        ∧ x = { position := (r.high : Int) + 1, speed := 0 } := by
  unfold State.authorityEnd AuthorityTable.Contains
  simp only [Range.beyond, State.distance]
  cases s.auth.inside <;> cases hA : s.auth.inA <;> cases hB : s.auth.inB <;> simp
  split <;> rename_i h <;> simp only [Option.some.injEq, exists_eq_left'] <;> constructor
  · rintro rfl
    exact .inr ⟨by omega, rfl⟩
  · rintro (⟨k, rfl⟩ | ⟨-, rfl⟩)
    · omega
    · rfl
  · rintro rfl
    exact .inl ⟨by omega, rfl⟩
  · rintro (⟨-, rfl⟩ | ⟨k, rfl⟩)
    · rfl
    · congr 1
      omega

theorem mem_authorityEnd_down (x : Target) :
    x ∈ (s.authorityEnd .down).toList.map (fun y => ({ position := y, speed := 0 } : Target)) ↔
      ∃ r, s.auth.inside = true ∧ s.auth.Contains r ∧ (∀ y, s.auth.Contains y → r.low ≤ y.low)
        ∧ x = { position := (r.low : Int) - 1, speed := 0 } := by
  unfold State.authorityEnd AuthorityTable.Contains
  simp only [Range.beyond, State.distance]
  cases s.auth.inside <;> cases hA : s.auth.inA <;> cases hB : s.auth.inB <;> simp
  split <;> rename_i h <;> simp only [Option.some.injEq, exists_eq_left'] <;> constructor
  · rintro rfl
    exact .inr ⟨by omega, rfl⟩
  · rintro (⟨k, rfl⟩ | ⟨-, rfl⟩)
    · omega
    · rfl
  · rintro rfl
    exact .inl ⟨by omega, rfl⟩
  · rintro (⟨-, rfl⟩ | ⟨k, rfl⟩)
    · rfl
    · congr 1
      omega

theorem State.isTarget_iff (x : Target) : IsTarget s t x ↔ x ∈ s.targets t := by
  unfold State.targets State.recordTargets State.restrictionTargets State.windowEdge Window.last? Window.first?
  simp only [List.mem_append, List.mem_map, List.mem_filter, Bool.and_eq_true, Restriction.bears_iff, State.covers_iff]
  cases t
  · rw [← List.mem_map, mem_authorityEnd_up]
    simp only [Segment.beyond, Segment.nearEnd, Restriction.isAhead, Restriction.nearEnd, decide_eq_true_eq,
      Segment.barred, Segment.limit]
    constructor
    · intro h
      cases h with
      | recordUp g m b => exact .inl (.inl (.inl ⟨g, ⟨m, b⟩, rfl⟩))
      | restrictionUp r m a h c => exact .inl (.inl (.inr ⟨r, ⟨m, ⟨a, h⟩, c⟩, rfl⟩))
      | authorityUp r i c f => exact .inl (.inr ⟨r, i, c, f, rfl⟩)
      | edgeUp g h =>
        refine .inr ⟨(g.start : Int) + g.length, ?_, rfl⟩
        rw [h]
        simp [Segment.last]
    · rintro (((⟨g, ⟨m, b⟩, rfl⟩ | ⟨r, ⟨m, ⟨a, h⟩, c⟩, rfl⟩) | ⟨r, i, c, f, rfl⟩) | ⟨y, hy, rfl⟩)
      · exact .recordUp g m b
      · exact .restrictionUp r m a h c
      · exact .authorityUp r i c f
      · cases e : s.win.records.getLast? with
        | none => rw [e] at hy; simp at hy
        | some g =>
          rw [e] at hy
          simp [Segment.last] at hy
          rw [hy]
          exact .edgeUp g e
  · rw [← List.mem_map, mem_authorityEnd_down]
    simp only [Segment.beyond, Segment.nearEnd, Restriction.isAhead, Restriction.nearEnd, decide_eq_true_eq,
      Segment.barred, Segment.limit]
    constructor
    · intro h
      cases h with
      | recordDown g m b => exact .inl (.inl (.inl ⟨g, ⟨m, b⟩, rfl⟩))
      | restrictionDown r m a h c => exact .inl (.inl (.inr ⟨r, ⟨m, ⟨a, h⟩, c⟩, rfl⟩))
      | authorityDown r i c f => exact .inl (.inr ⟨r, i, c, f, rfl⟩)
      | edgeDown g h =>
        refine .inr ⟨(g.start : Int) - 1, ?_, rfl⟩
        rw [h]
        simp
    · rintro (((⟨g, ⟨m, b⟩, rfl⟩ | ⟨r, ⟨m, ⟨a, h⟩, c⟩, rfl⟩) | ⟨r, i, c, f, rfl⟩) | ⟨y, hy, rfl⟩)
      · exact .recordDown g m b
      · exact .restrictionDown r m a h c
      · exact .authorityDown r i c f
      · cases e : s.win.records.head? with
        | none => rw [e] at hy; simp at hy
        | some g =>
          rw [e] at hy
          simp at hy
          rw [hy]
          exact .edgeDown g e

/-! ### The four speeds -/

/-- The figures are those that an evaluation computes now. -/
def State.Figured (s : State) : Prop :=
  s.sup.staticLimit = s.newLimit ∧ s.sup.permitted = s.newPermitted ∧ s.sup.warning = s.newPermitted
    ∧ s.sup.serviceSpeed = serviceMargin s.newPermitted ∧ s.sup.emergencySpeed = emergencyMargin s.newPermitted

/-- The figures that an evaluation computes are those of R60 to R68. -/
theorem State.Figured.fresh (h : s.Figured) : s.Fresh := by
  obtain ⟨h1, h2, h3, h4, h5⟩ := h
  refine ⟨fun n => ?_, fun t k => ?_, by rw [h3, h2], by rw [h4, h2]; rfl, by rw [h5, h2]; rfl⟩
  · rw [h1, h2]
    unfold State.newLimit State.newPermitted
    cases e : s.odo.direction.travel with
    | none => exact ⟨rfl, rfl⟩
    | some t =>
      have q : s.supervisable = false := by
        by_contra c
        exact n t (State.supervised_iff.2 ⟨e, by simpa using c⟩)
      simp [q]
  · obtain ⟨k1, k2⟩ := State.supervised_iff.1 k
    have l : s.newLimit = s.lineLimit t := by simp [State.newLimit, k1, k2]
    have p : s.newPermitted = ((s.targets t).map (s.curve t)).foldl min (s.lineLimit t) := by
      simp [State.newPermitted, k1, k2]
    rw [h1, h2, l, p]
    refine ⟨s.lineLimit_least t, least_foldl fun n => ?_⟩
    simp only [List.mem_map, ← State.isTarget_iff]
    constructor <;> rintro (h | ⟨x, a, b⟩)
    · exact .inl h
    · exact .inr ⟨x, a, b.symm⟩
    · exact .inl h
    · exact .inr ⟨x, a, b.symm⟩

/-! ### The demands -/

/-- The combiner's figures are those that a recomputation computes now. -/
theorem State.blended_iff :
    s.Blended ↔ s.comb.holding = s.holdingRequest ∧ s.comb.service = s.serviceDemand ∧ s.comb.blend = s.blendKind
      ∧ ∀ c, s.comb.demand.get c = s.channelDemand c := by
  have a : (s.comb.holding = true ↔ s.doors.hold = true ∨ s.line.opState = .config) ↔ s.comb.holding = s.holdingRequest := by
    unfold State.holdingRequest
    cases s.comb.holding <;> cases s.doors.hold <;> cases s.line.opState <;> simp
  unfold State.Blended
  rw [a]
  refine and_congr_right fun h => ?_
  have d : max (max s.comb.driver (if s.set.entries.any (fun e => e.cause.level == .service) then 100 else 0))
      (if s.comb.holding then s.cfg.holdLevel else 0) = s.serviceDemand := by rw [h]; rfl
  have b : s.blendKind = (s.win.records.find? (fun g =>
      decide ((g.start : Int) ≤ (s.odo.p : Int) - (s.cfg.carLength / 2 : Nat)
        ∧ (s.odo.p : Int) - (s.cfg.carLength / 2 : Nat) ≤ (g.start : Int) + g.length - 1))).map Segment.kind := by
    unfold State.blendKind Window.containing State.carMiddle Segment.contains Segment.last
    simp only [Bool.decide_and]
  rw [d, ← b]
  refine and_congr_right fun k => and_congr_right fun l => forall_congr' fun c => ?_
  unfold State.channelDemand InterventionSet.hasLevel Settings.share
  rw [k, l]
  cases s.blendKind <;> cases c <;> simp

end Sys2Proof.Machine
end

