-- ==== Sys2Proof/Laws/Cascade.lean ====
section
/-! SUPPORT. What holds through a whole cascade of notices: a relation between states that every single operation keeps is kept by
an evaluation, a recomputation, a raising and a removal (`Cascade`). Two such relations: the odometry state and the figures stay
those of the state once v has decayed (`Steady`), and the queued event records stay (`Remembers`). -/

namespace Sys2Proof.Machine

set_option Elab.async false

variable {s t u : State} {R : State → State → Prop} {ev : State → State}

/-- A relation that every single operation of a cascade keeps. -/
structure Cascade (R : State → State → Prop) : Prop where
  refl : ∀ s, R s s
  trans : ∀ {s t u}, R s t → R t u → R s u
  report : ∀ s (b : ReportBody), b.IsEvent → R s (s.report b)
  reportPosition : ∀ s, R s s.reportPosition
  append : ∀ (s : State) e, R s (s.withSet (s.set.append e))
  erase : ∀ (s : State) c, R s (s.withSet (s.set.erase c))
  recombine : ∀ s b, R s (s.recombine b)
  resettle : ∀ s c, R s (s.resettle c)
  setOpState : ∀ s x, R s (s.setOpState x)
  proof : ∀ (s : State) (x : Proving), x.capability = s.prov.capability → R s (s.withProv x)
  figures : ∀ (s : State) b, R s (s.decayed.withFigures.withSupervision b)
  supervision : ∀ (s : State) b, R s (s.withSupervision b)

/-- An evaluation that a notice brings keeps the relation. -/
def KeptBy (R : State → State → Prop) (ev : State → State) : Prop := ∀ s, R s (ev s)

namespace Cascade

theorem beginProof (h : Cascade R) (s : State) (c : Channel) : R s (s.beginProof c) := by
  unfold State.beginProof
  refine h.trans (h.trans ?_ (h.resettle _ c)) (h.recombine _ false)
  exact h.proof s _ rfl

theorem endProof (h : Cascade R) (s : State) (c : Channel) : R s (s.endProof c) := by
  unfold State.endProof
  refine h.trans (h.trans ?_ (h.resettle _ c)) (h.recombine _ false)
  exact h.proof s _ rfl

theorem emptyTried (h : Cascade R) (s : State) : R s s.emptyTried := h.proof _ _ rfl

theorem testProof (h : Cascade R) (s : State) : R s s.testProof := by
  unfold State.testProof
  split
  · split
    · exact h.refl s
    · exact h.beginProof s _
  · exact h.refl s

theorem abandonProof (h : Cascade R) (s : State) : R s s.abandonProof := by
  unfold State.abandonProof
  split
  · exact h.refl s
  · exact h.trans (h.endProof _ _) (h.emptyTried _)

theorem evaluateQuiet (h : Cascade R) : KeptBy R State.evaluateQuiet := fun s => h.figures s _

theorem springNotice (h : Cascade R) (k : KeptBy R ev) (s : State) (a : Bool) : R s (s.springNotice ev a) := by
  unfold State.springNotice
  cases a
  · exact h.trans (h.trans (k s) (h.abandonProof _)) (h.emptyTried _)
  · simp only [if_true]
    split
    · exact h.trans (h.trans (h.trans (h.trans (k s) (h.testProof _)) (h.setOpState _ _)) (k _)) (h.recombine _ true)
    · exact h.trans (k s) (h.testProof _)

theorem combine (h : Cascade R) (k : KeptBy R ev) (s : State) (b : Bool) : R s (s.combine ev b) := by
  unfold State.combine
  simp only []
  split
  · exact h.recombine s b
  · exact h.trans (h.recombine s b) (h.springNotice k _ _)

theorem raiseWith (h : Cascade R) (k : KeptBy R ev) (s : State) (c : Cause) (x : Capture) : R s (s.raiseWith ev c x) := by
  unfold State.raiseWith
  split
  · exact h.refl s
  · have a := h.trans (h.trans (h.append s { cause := c, capture := x, time := s.partTime, heard := false })
      (h.report _ (.raised c x) fun _ => rfl)) (h.reportPosition _)
    have b := h.trans (h.trans a (k _)) (h.combine k _ false)
    simp only []
    split
    · exact h.trans b (h.abandonProof _)
    · exact b

theorem removeWith (h : Cascade R) (k : KeptBy R ev) (s : State) (c : Cause) : R s (s.removeWith ev c) := by
  unfold State.removeWith
  split
  · exact h.trans (h.trans (h.trans (h.trans (h.erase s c) (h.report _ (.cleared c) fun _ => rfl)) (k _)) (h.combine k _ false))
      (h.testProof _)
  · exact h.refl s

theorem judgeWith (h : Cascade R) {s : State} {raising : State → State} (r : s.Raising raising) : R s (s.judgeWith raising) :=
  State.judgeWith_keeps r (R s) (fun b => h.supervision s b) (fun _ c _ g => h.trans g (h.raiseWith h.evaluateQuiet _ c _))
    (fun _ g => h.trans g (h.removeWith h.evaluateQuiet _ _))

theorem judge (h : Cascade R) (s : State) : R s s.judge := h.judgeWith s.raiseOverspeeds_raising

theorem raiseOverspeeds (h : Cascade R) (s judged : State) : R s (s.raiseOverspeeds judged) :=
  judged.raiseOverspeeds_raising (R s) (fun _ c _ g => h.trans g (h.raiseWith h.evaluateQuiet _ c _)) s (h.refl s)

end Cascade

/-! ### The figures -/

/-- v has decayed as far as the time since the last tooth asks (R11). -/
def State.Settled (s : State) : Prop := s.odo.decayedSpeed s.clock = s.odo.v

/-- Once v has decayed, the odometry state stays, and figures that are those of the state stay so. -/
def Steady (s t : State) : Prop := s.Settled → t.odo = s.odo ∧ t.clock = s.clock ∧ (s.Figured → t.Figured)

theorem State.figures_congr (o : t.odo = s.odo) (w : t.win = s.win) (a : t.auth = s.auth) (c : t.cfg = s.cfg)
    (l : t.radio.link = s.radio.link) (p : t.prov.capability = s.prov.capability) :
    t.newLimit = s.newLimit ∧ t.newPermitted = s.newPermitted := by
  obtain ⟨_, _, _, _, _, _, _, _, _, ⟨_, _, _, _, _, _, _⟩, _, ⟨_, _, _, _, _, _, _, _, _, _, _, _, _⟩, ⟨_, _, _, _, _⟩, _⟩ := s
  obtain ⟨_, _, _, _, _, _, _, _, _, ⟨_, _, _, _, _, _, _⟩, _, ⟨_, _, _, _, _, _, _, _, _, _, _, _, _⟩, ⟨_, _, _, _, _⟩, _⟩ := t
  simp only [State.cfg] at o w a c l p
  subst o w a c l p
  exact ⟨rfl, rfl⟩

theorem Steady.of (f : Frame [] r m s t) (o : t.odo = s.odo) (h : ∃ x p, t.sup = { s.sup with state := x, permit := p }) :
    Steady s t := by
  intro _
  refine ⟨o, f.clock, ?_⟩
  obtain ⟨x, p, e⟩ := h
  have g := State.figures_congr o (f.window (by simp)) (f.authority (by simp)) (f.settings (by simp))
    (by rw [f.radio (by simp)]) (f.capability (by simp))
  intro k
  rw [State.Figured, e, g.1, g.2]
  exact k

theorem Steady.of_same (f : Frame [] overspeeds [.overspeedService] s t) (o : t.odo = s.odo) (h : t.sup = s.sup) :
    Steady s t := Steady.of f o ⟨s.sup.state, s.sup.permit, h⟩

theorem State.withFigures_figured (s : State) : s.withFigures.Figured := by
  have g := State.figures_congr (s := s) (t := s.withFigures) rfl rfl rfl rfl rfl rfl
  rw [State.Figured, g.1, g.2]
  exact ⟨rfl, rfl, rfl, rfl, rfl⟩

theorem State.decayed_settled (s : State) : s.decayed.Settled := Odometry.decayedSpeed_idem s.odo s.clock

theorem State.Settled.decayed (h : s.Settled) : s.decayed = s := by
  have e : { s.odo with v := s.odo.decayedSpeed s.clock } = s.odo := by rw [h]
  rw [State.decayed, e]
  rfl

theorem steady_cascade : Cascade Steady where
  refl s := fun _ => ⟨rfl, rfl, id⟩
  trans := fun {s t u} f g h => by
    obtain ⟨o, c, k⟩ := f h
    have q : t.Settled := by rw [State.Settled, o, c]; exact h
    obtain ⟨o', c', k'⟩ := g q
    exact ⟨o'.trans o, c'.trans c, fun x => k' (k x)⟩
  report s b e := Steady.of_same (State.report_frame s b e) (by unfold State.report; split <;> rfl)
    (by unfold State.report; split <;> rfl)
  reportPosition s := Steady.of_same (State.reportPosition_frame s) (by unfold State.reportPosition; split <;> rfl)
    (by unfold State.reportPosition; split <;> rfl)
  append s e := fun _ => ⟨rfl, rfl, fun k => by
    have g := State.figures_congr (s := s) (t := s.withSet (s.set.append e)) rfl rfl rfl rfl rfl rfl
    rw [State.Figured, g.1, g.2]
    exact k⟩
  erase s c := fun _ => ⟨rfl, rfl, fun k => by
    have g := State.figures_congr (s := s) (t := s.withSet (s.set.erase c)) rfl rfl rfl rfl rfl rfl
    rw [State.Figured, g.1, g.2]
    exact k⟩
  recombine s b := fun _ => ⟨rfl, rfl, fun k => by
    have g := State.figures_congr (s := s) (t := s.recombine b) rfl rfl rfl rfl rfl rfl
    rw [State.Figured, g.1, g.2]
    exact k⟩
  resettle s c := Steady.of_same (State.resettle_frame s c) rfl rfl
  setOpState s x := fun _ => ⟨rfl, rfl, fun k => by
    have g := State.figures_congr (s := s) (t := s.setOpState x) rfl rfl rfl rfl rfl rfl
    rw [State.Figured, g.1, g.2]
    exact k⟩
  proof s x e := fun _ => ⟨rfl, rfl, fun k => by
    have g := State.figures_congr (s := s) (t := s.withProv x) rfl rfl rfl rfl rfl e
    rw [State.Figured, g.1, g.2]
    exact k⟩
  figures s b := fun h => by
    rw [h.decayed]
    refine ⟨rfl, rfl, fun _ => ?_⟩
    have k := State.withFigures_figured s
    have g := State.figures_congr (s := s.withFigures) (t := s.withFigures.withSupervision b) rfl rfl rfl rfl rfl rfl
    rw [State.Figured, g.1, g.2]
    exact k
  supervision s b := Steady.of (State.withSupervision_frame (r := []) (m := []) s b) rfl ⟨_, _, rfl⟩

/-! ### What an evaluation leaves -/

/-- v after an evaluation is the decayed one (R11). -/
theorem State.evaluate_odo (s : State) : s.evaluate.odo = { s.odo with v := s.odo.decayedSpeed s.clock } :=
  (steady_cascade.judge s.decayed.withFigures s.decayed_settled).1

/-- After an evaluation the figures are those of the state (R59, R68). -/
theorem State.evaluate_figured (s : State) : s.evaluate.Figured :=
  (steady_cascade.judge s.decayed.withFigures s.decayed_settled).2.2 s.decayed.withFigures_figured

theorem State.evaluate_fresh (s : State) : s.evaluate.Fresh := s.evaluate_figured.fresh

/-- The same of an evaluation inside the step of a release. -/
theorem State.evaluateAside_odo (s : State) : s.evaluateAside.odo = { s.odo with v := s.odo.decayedSpeed s.clock } :=
  (steady_cascade.judgeWith s.decayed.withFigures.raising_id s.decayed_settled).1

theorem State.evaluateAside_figured (s : State) : s.evaluateAside.Figured :=
  (steady_cascade.judgeWith s.decayed.withFigures.raising_id s.decayed_settled).2.2 s.decayed.withFigures_figured

theorem State.evaluate_settled (s : State) : s.evaluate.Settled := by
  have h := steady_cascade.judge s.decayed.withFigures s.decayed_settled
  have e : s.evaluate.odo = s.decayed.withFigures.odo := h.1
  have c : s.evaluate.clock = s.decayed.withFigures.clock := h.2.1
  rw [State.Settled, e, c]
  exact s.decayed_settled

theorem evaluate_steady : KeptBy Steady State.evaluate := fun s h => by
  have e : s.odo.decayedSpeed s.clock = s.odo.v := h
  refine ⟨?_, (State.evaluate_evaluator.frame s).clock, fun _ => s.evaluate_figured⟩
  rw [State.evaluate_odo, e]

theorem evaluateAside_steady : KeptBy Steady State.evaluateAside := fun s h => by
  have e : s.odo.decayedSpeed s.clock = s.odo.v := h
  refine ⟨?_, (State.evaluateAside_evaluator.frame s).clock, fun _ => s.evaluateAside_figured⟩
  rw [State.evaluateAside_odo, e]

/-- A car at standstill, or one that no tooth has moved, has a settled speed. -/
theorem State.settled_still (h : s.odo.standstill = true) : s.Settled := Odometry.decayedSpeed_still h s.clock

/-- Just after a tooth event v is settled. -/
theorem State.settled_now (h : s.odo.lastToothAt = some s.clock) : s.Settled := by
  unfold State.Settled Odometry.decayedSpeed
  rw [h]
  split
  · rfl
  · split <;> simp_all

/-! ### The report queue -/

/-- Every queued event record stays queued. -/
def Remembers (s t : State) : Prop := ∀ x ∈ s.radio.queue, x.isPosition = false → x ∈ t.radio.queue

theorem Remembers.of (h : t.radio = s.radio) : Remembers s t := fun x k _ => by rw [h]; exact k

theorem RadioUnit.queueEvent_mem (q : RadioUnit) (y : Report) {x : Report} (h : x ∈ q.queue) (k : x.isPosition = false) :
    x ∈ (q.queueEvent y).queue := by
  unfold RadioUnit.queueEvent
  split
  · exact List.mem_append_left _ h
  · split
    · refine List.mem_append_left _ ?_
      rw [← List.take_append_drop q.flying q.queue, List.mem_append] at h
      rcases h with h | h
      · exact List.mem_append_left _ h
      · exact List.mem_append_right _ ((List.mem_eraseP_of_neg (by simp [k])).2 h)
    · exact h

theorem RadioUnit.queuePosition_mem (q : RadioUnit) (y : Report) {x : Report} (h : x ∈ q.queue) (k : x.isPosition = false) :
    x ∈ (q.queuePosition y).queue := by
  unfold RadioUnit.queuePosition
  split
  · rw [← List.take_append_drop q.flying q.queue, List.mem_append] at h
    rcases h with h | h
    · exact List.mem_append_left _ h
    · exact List.mem_append_right _ (List.mem_map.2 ⟨x, h, by simp [k]⟩)
  · split
    · exact List.mem_append_left _ h
    · exact h

theorem remembers_cascade : Cascade Remembers where
  refl s := fun _ h _ => h
  trans := fun f g x h k => g x (f x h k) k
  report s b _ := fun x h k => by
    unfold State.report
    split
    · exact h
    · exact RadioUnit.queueEvent_mem _ _ h k
  reportPosition s := fun x h k => by
    unfold State.reportPosition
    split
    · exact h
    · exact RadioUnit.queuePosition_mem _ _ h k
  append _ _ := Remembers.of rfl
  erase _ _ := Remembers.of rfl
  recombine _ _ := Remembers.of rfl
  resettle _ _ := Remembers.of rfl
  setOpState _ _ := Remembers.of rfl
  proof _ _ _ := Remembers.of rfl
  figures _ _ := Remembers.of rfl
  supervision _ _ := Remembers.of rfl

theorem evaluate_remembers : KeptBy Remembers State.evaluate := fun s =>
  remembers_cascade.trans (Remembers.of (t := s.decayed.withFigures) rfl) (remembers_cascade.judge _)

/-- An event record handed to a queue with room is queued (R167). -/
theorem State.report_mem (s : State) (b : ReportBody) (h : s.cfg.listenOnly = false)
    (k : s.radio.queue.length < Config.queueCapacity) :
    { time := s.recordTime, body := b } ∈ (s.report b).radio.queue := by
  unfold State.report RadioUnit.queueEvent
  simp [h, k]

end Sys2Proof.Machine
end

