-- ==== Sys2Proof/Laws/Check.lean ====
section
/-! SUPPORT. Computations that decide the laws of `State.Sound` and `State.Ordered` on a concrete state, for the tests. -/

namespace Sys2Proof.Machine

set_option Elab.async false

variable {s : State}

theorem forall_channels {p : Channel → Prop} (h : ∀ c ∈ channels, p c) (c : Channel) : p c := h c (by cases c <;> decide)

theorem forall_doors {p : Door → Prop} (h : ∀ d ∈ allDoors, p d) (d : Door) : p d := h d (by cases d <;> decide)

theorem forall_items {p : ConfigItem → Prop} (h : ∀ i ∈ configItems, p i) (i : ConfigItem) : p i := by
  refine h i ?_
  cases i with
  | nominal k => cases k <;> decide
  | react k => cases k <;> decide
  | rbShare k => cases k <;> decide
  | abShare k => cases k <;> decide
  | fullPressure c => cases c <;> decide
  | openDir d => cases d <;> decide
  | _ => decide

/-- The output runs wholly on. -/
def Output.full (o : Output) : Bool :=
  o.boundary.isSome && decide (o.pendingDuty = some 100) && decide (o.activeOn = o.period) && decide (o.pendingOn = o.period)

/-- The wanted request is no by-number request at a full window. -/
def Window.askable (w : Window) : Bool :=
  match w.wanted with
  | .byNumber _ _ => decide (w.records.length < Config.windowCapacity)
  | _ => true

/-- The output carries the duty. -/
def Output.carriesDuty (o : Output) (duty : Nat) : Bool :=
  ((o.boundary.isSome && decide (o.pendingDuty = some duty) && decide (o.pendingOn = duty * o.period / 100))
      || (o.boundary.isNone && o.pendingDuty.isNone && duty == 0))
    && o.activeSense.isNone && o.pendingSense.isNone

theorem Output.carriesDuty_iff {o : Output} {n : Nat} : o.carriesDuty n = true ↔ o.Carries n := by
  simp [Output.carriesDuty, Output.Carries, and_assoc]

/-- The drive values and the valve outputs, computed. -/
def State.checkDrive (s : State) : Bool :=
  channels.all (fun c => decide (s.comb.drive.get c
    = if s.set.hasLevel .emergency then 100
      else
        match s.prov.proof with
        | none => s.comb.demand.get c
        | some x => if x.channel = c then (match x.step with | .rise => 100 | .fall => 0) else s.comb.demand.get c))
    && channels.all (fun c => c == .rb2 || (s.drive.valve.get c).carriesDuty (s.comb.drive.get c))
    && (s.drive.ganged || s.drive.valve.rb2.carriesDuty s.comb.drive.rb2)
    && (!s.drive.ganged || decide (s.drive.valve.rb2 = s.drive.valve.rb1) && s.cfg.gangRack && s.prov.proof.isNone)

theorem State.checkDrive_law (h : s.checkDrive = true) :
    s.DriveLaw ∧ s.ValveLaw ∧ (s.drive.ganged = true → s.cfg.gangRack = true ∧ s.prov.proof = none) := by
  simp only [State.checkDrive, Bool.and_eq_true, Bool.or_eq_true, decide_eq_true_eq, List.all_eq_true, Bool.not_eq_true',
    beq_iff_eq, Option.isNone_iff_eq_none, Output.carriesDuty_iff] at h
  obtain ⟨⟨⟨a1, a2⟩, a3⟩, a4⟩ := h
  refine ⟨forall_channels a1, ⟨fun c k => (forall_channels a2 c).resolve_left k, fun k => a3.resolve_left (by simp [k]),
    fun k => ?_⟩, fun k => ?_⟩
  · exact (a4.resolve_left (by simp [k])).1.1
  · exact ⟨(a4.resolve_left (by simp [k])).1.2, (a4.resolve_left (by simp [k])).2⟩

/-- The laws, computed. -/
def State.check (s : State) : Bool :=
  decide (s.set.entries.map Entry.cause).Nodup && decide (s.set.breakOpen = s.set.hasLevel .emergency)
    && decide (s.comb.holding = s.holdingRequest) && decide (s.comb.springApplied = s.springLaw s.comb.park)
    && decide (s.comb.emergency = s.set.hasLevel .emergency)
    && (!s.set.hasLevel .emergency || channels.all (fun c =>
        decide (s.comb.demand.get c = 100) && decide (s.comb.drive.get c = 100) && (s.drive.valve.get c).full))
    && decide (s.sup.permit = s.permitHolds s.sup.state)
    && decide (s.doors.hold = s.doors.anyUnlocked)
    && allDoors.all (fun d => decide ((s.doorAt d).motion.isSome = (s.doorAt d).state.moving) && decide ((s.doorAt d).reopen ≤ 3))
    && decide (s.odo.standstillTimer.isNone = s.odo.standstill) && (!s.odo.standstill || decide (s.odo.v = 0))
    && decide (s.radio.timer.isSome = (s.radio.link == .up))
    && (!s.line.cabTimer.isSome || decide (s.line.opState = .run))
    && decide (s.prov.dwell.isSome = s.prov.proof.isSome)
    && decide (s.win.records.length ≤ Config.windowCapacity) && s.win.askable
    && decide (s.auth.restrictions.length ≤ Config.restrictionCapacity)
    && decide (s.radio.queue.length ≤ Config.queueCapacity) && decide (s.radio.flying ≤ s.radio.queue.length)
    && decide (s.radio.lost ≤ 255) && decide (s.radio.resend ≤ 255) && decide (s.radio.number < 8)
    && decide (s.line.cab.waiting.length ≤ Config.responseCapacity) && decide (s.line.cab.overflow ≤ 255)
    && decide (s.line.crew.waiting.length ≤ Config.responseCapacity) && decide (s.line.crew.overflow ≤ 255)
    && channels.all (fun c => decide (s.prov.owed.get c ≤ 15))
    && s.win.records.all (fun g => decide (1 ≤ g.length) && decide (g.start + g.length ≤ Config.maxPosition + 1)
        && g.marker.all (fun o => decide (o < g.length)))
    && decide (s.odo.p ≤ Config.maxPosition) && decide (s.odo.u ≤ 255) && decide (s.odo.v ≤ Config.maxSpeed)
    && decide (s.odo.slip < Config.slipTeeth) && decide (s.odo.rollback ≤ 255) && decide (-3 ≤ s.odo.stepCount)
    && decide (s.odo.stepCount ≤ 3)
    && configItems.all (fun i => decide (i.range.1 ≤ s.cfg.get i) && decide (s.cfg.get i ≤ i.range.2))
    && decide (s.comb.driver ≤ 100)
    && channels.all (fun c => decide (s.comb.demand.get c ≤ 100) && decide (s.comb.drive.get c ≤ 100))
    && s.checkDrive

/-- A state that passes the computation keeps every law. -/
theorem State.check_sound (h : s.check = true) : s.Sound := by
  simp only [State.check, Bool.and_eq_true, decide_eq_true_eq, List.all_eq_true, Bool.or_eq_true, Bool.not_eq_true',
    Output.full] at h
  obtain ⟨⟨⟨⟨⟨⟨⟨⟨⟨⟨⟨⟨⟨⟨⟨⟨⟨⟨⟨⟨⟨⟨⟨⟨⟨⟨⟨⟨⟨⟨⟨⟨⟨⟨⟨⟨⟨⟨a1, a2⟩, a3⟩, a4⟩, a5⟩, a6⟩, a7⟩, a8⟩, a9⟩, a10⟩, a11⟩, a12⟩, a13⟩,
    a14⟩, a15⟩, a16⟩, a17⟩, a18⟩, a19⟩, a20⟩, a21⟩, a22⟩, a23⟩, a24⟩, a25⟩, a26⟩, a27⟩, a28⟩, a29⟩, a30⟩, a31⟩, a32⟩,
    a33⟩, a34⟩, a35⟩, a36⟩, a37⟩, a38⟩, a39⟩ := h
  refine ⟨⟨a1, a2⟩, ⟨a3, a4, a5, ?_, State.checkDrive_law a39⟩, a7, ⟨a8, forall_doors a9⟩, ⟨a10, ?_, a12, ?_, a14⟩,
    ⟨a15, ?_, a17, a18, a19, a20, a21, a22, a23, a24, a25, a26, forall_channels a27⟩,
    ⟨?_, a29, a30, a31, a32, a33, a34, a35, forall_items a36, a37, forall_channels a38⟩⟩
  · intro k c
    rcases a6 with a6 | a6
    · rw [k] at a6; contradiction
    · obtain ⟨⟨d1, d2⟩, ⟨⟨d3, d4⟩, d5⟩, d6⟩ := forall_channels a6 c
      exact ⟨d1, d2, d3, d4, d5, d6⟩
  · intro k
    rcases a11 with a11 | a11
    · rw [k] at a11; contradiction
    · exact a11
  · intro k
    rcases a13 with a13 | a13
    · rw [k] at a13; contradiction
    · exact a13
  · intro n e k
    unfold Window.askable at a16
    rw [k] at a16
    exact of_decide_eq_true a16
  · intro g m
    obtain ⟨⟨d1, d2⟩, d3⟩ := a28 g m
    refine ⟨d1, d2, fun o k => ?_⟩
    rw [Option.mem_def.1 k] at d3
    exact of_decide_eq_true d3

/-- The by-number request asks for the number next to its edge. -/
def Window.asksNext (w : Window) : Bool :=
  match w.wanted with
  | .byNumber n .up => w.records.getLast?.all fun g => n == g.number + 1
  | .byNumber n .down => w.records.head?.all fun g => g.number == n + 1
  | _ => true

/-- The burst in flight is the head of the queue behind its header. -/
def RadioUnit.carries (q : RadioUnit) (b : Burst) : Bool :=
  decide (1 ≤ b.count) && b.number == q.number
    && (!q.carriedLost || (b.body.getD 3 0#8).getLsbD 6)
    && b.body == [b.body.getD 0 0#8, b.body.getD 1 0#8, byteOf b.number, b.body.getD 3 0#8, byteOf q.carriedTally, byteOf b.count]
        ++ (q.queue.take b.count).flatMap Report.bytes

/-- The further laws, computed. -/
def State.checkOrder (s : State) : Bool :=
  (s.odo.standstill || !s.doors.releasedLeft && !s.doors.releasedRight && allDoors.all (fun d =>
      (s.doorAt d).state != .released
        && (!decide ((s.doorAt d).state ∈ [DoorState.opening, .open, .closing]) || s.set.has .doorUnlockedMoving)))
    && decide (s.win.records.IsChain fun g h => h.start = g.start + g.length ∧ h.number = g.number + 1)
    && decide (s.win.markers.Pairwise fun m n => 20 ≤ gap m n) && s.win.asksNext
    && channels.all (fun c => s.prov.health.get c != .healthy || decide (s.prov.owed.get c < s.cfg.owedDegrade))
    && (!s.prov.proof.isSome || s.odo.standstill && s.comb.springApplied && !s.set.hasLevel .emergency)
    && decide (s.radio.unsentPositions.length ≤ 1) && (!s.radio.carriedLost || s.radio.wasLost)
    && decide (s.radio.carriedTally ≤ s.radio.lost) && s.radio.inFlight.all s.radio.carries

/-- A state that passes the computation keeps every further law. -/
theorem State.check_ordered (h : s.checkOrder = true) : s.Ordered := by
  simp only [State.checkOrder, Bool.and_eq_true, Bool.or_eq_true, decide_eq_true_eq, List.all_eq_true, Bool.not_eq_true',
    bne_iff_ne, ne_eq, decide_eq_false_iff_not, Option.all_eq_true] at h
  obtain ⟨⟨⟨⟨⟨⟨⟨⟨⟨a1, a2⟩, a3⟩, a4⟩, a5⟩, a6⟩, a7⟩, a8⟩, a9⟩, a10⟩ := h
  refine ⟨fun k => ?_, ⟨a2, a3, fun n k g m => ?_, fun n k g m => ?_⟩, fun c k => ?_, fun k => ?_, a7, fun k => ?_, a9,
    fun b k => ?_⟩
  · obtain ⟨⟨b1, b2⟩, b3⟩ := a1.resolve_left (by simp [k])
    exact ⟨b1, b2, forall_doors fun d m => (b3 d m).1, forall_doors fun d m e => (b3 d m).2.resolve_left (absurd e)⟩
  · simpa [Window.asksNext, k, m] using a4
  · simpa [Window.asksNext, k, m] using a4
  · exact (forall_channels a5 c).resolve_left (absurd k)
  · obtain ⟨⟨b1, b2⟩, b3⟩ := a6.resolve_left (by simp [k])
    exact ⟨b1, b2, b3⟩
  · exact a8.resolve_left (by simp [k])
  · have m := a10 b k
    simp only [RadioUnit.carries, Bool.and_eq_true, decide_eq_true_eq, beq_iff_eq, Bool.or_eq_true, Bool.not_eq_true'] at m
    obtain ⟨⟨⟨b1, b2⟩, b3⟩, b4⟩ := m
    exact ⟨b1, b2, _, _, _, fun e => b3.resolve_left (by simp [e]), b4⟩

end Sys2Proof.Machine
end

