-- ==== Sys2Proof/Laws/Combined.lean ====
section
/-! SUPPORT. The combiner's figures and the spring agree with the state after every recomputation, and stay so through every
notice (R96 to R98, R100, R103). -/

namespace Sys2Proof.Machine

set_option Elab.async false

variable {s t : State} {ev : State → State}

/-- The combiner's figures and the spring are those of the state as it stands. -/
def State.Combined (s : State) : Prop := s.Blended ∧ s.comb.springApplied = s.springLaw s.comb.park

theorem State.recombine_combined (s : State) (b : Bool) : (s.recombine b).Combined := by
  refine ⟨State.blended_iff.2 ⟨rfl, rfl, rfl, fun c => ?_⟩, ?_⟩
  · rw [State.recombine_demand]
    rfl
  · rfl

/-- An evaluation that a notice brings keeps the agreement. -/
def KeepsCombined (ev : State → State) : Prop := ∀ s : State, s.Combined → (ev s).Combined

theorem State.report_combined (h : s.Combined) (b : ReportBody) : (s.report b).Combined := by
  unfold State.report
  split <;> exact h

theorem State.reportPosition_combined (h : s.Combined) : s.reportPosition.Combined := by
  unfold State.reportPosition
  split <;> exact h

theorem State.evaluateQuiet_combined : KeepsCombined State.evaluateQuiet := fun _ h => h

theorem State.testProof_combined (h : s.Combined) : s.testProof.Combined := by
  unfold State.testProof
  split
  · split
    · exact h
    · exact State.recombine_combined _ _
  · exact h

theorem State.abandonProof_combined (h : s.Combined) : s.abandonProof.Combined := by
  unfold State.abandonProof
  split
  · exact h
  · exact State.recombine_combined _ false

theorem State.springNotice_combined (k : KeepsCombined ev) (h : s.Combined) (a : Bool) : (s.springNotice ev a).Combined := by
  unfold State.springNotice
  cases a
  · exact State.abandonProof_combined (k s h)
  · simp only [if_true]
    split
    · exact State.recombine_combined _ _
    · exact State.testProof_combined (k s h)

/-- A recomputation leaves the combiner in agreement, whatever it was before (R99). -/
theorem State.combine_combined (k : KeepsCombined ev) (s : State) (b : Bool) : (s.combine ev b).Combined := by
  unfold State.combine
  simp only []
  split
  · exact State.recombine_combined s b
  · exact State.springNotice_combined k (State.recombine_combined s b) _

theorem State.raiseWith_combined (k : KeepsCombined ev) (h : s.Combined) (c : Cause) (x : Capture) :
    (s.raiseWith ev c x).Combined := by
  unfold State.raiseWith
  split
  · exact h
  · simp only []
    split
    · exact State.abandonProof_combined (State.combine_combined k _ false)
    · exact State.combine_combined k _ false

theorem State.removeWith_combined (k : KeepsCombined ev) (h : s.Combined) (c : Cause) : (s.removeWith ev c).Combined := by
  unfold State.removeWith
  split
  · exact State.testProof_combined (State.combine_combined k _ false)
  · exact h

theorem State.judge_combined (h : s.Combined) : s.judge.Combined :=
  State.judge_keeps State.Combined (fun _ => h) (fun _ _ _ g => State.raiseWith_combined State.evaluateQuiet_combined g _ _)
    (fun _ g => State.removeWith_combined State.evaluateQuiet_combined g _)

theorem State.evaluate_combined : KeepsCombined State.evaluate := fun s h =>
  State.judge_combined (s := s.decayed.withFigures) h

theorem State.recompute_combined (s : State) : s.recompute.Combined := State.combine_combined State.evaluate_combined s false

theorem State.remove_combined (h : s.Combined) (c : Cause) : (s.remove c).Combined :=
  State.removeWith_combined State.evaluate_combined h c

theorem State.raise_combined (h : s.Combined) (c : Cause) (x : Capture) : (s.raise c x).Combined :=
  State.raiseWith_combined State.evaluate_combined h c x

theorem State.testDoorRelease_combined (h : s.Combined) : s.testDoorRelease.Combined := by
  unfold State.testDoorRelease
  split
  · exact State.remove_combined h _
  · exact h

/-- The step of a door keeps the agreement: its hold is handed on when it changes (R151). -/
theorem State.rehold_combined (h : s.Combined) : s.rehold.Combined := by
  unfold State.rehold
  simp only []
  split
  · rename_i e
    have q : s.withDoors { s.doors with hold := s.doors.anyUnlocked } = s := by
      have : { s.doors with hold := s.doors.anyUnlocked } = s.doors := by
        simp only [State.withDoors_doors] at e
        rw [e]
      rw [this]
      rfl
    rw [q]
    exact h
  · exact State.recompute_combined _

theorem State.driveDoor_combined (h : s.Combined) (d : Door) (x : Sense) : (s.driveDoor d x).Combined := by
  unfold State.driveDoor
  simp only []
  split <;> exact h

theorem State.moveDoor_combined (h : s.Combined) (d : Door) (x : DoorState) : (s.moveDoor d x).Combined := by
  unfold State.moveDoor
  simp only []
  split
  · exact State.driveDoor_combined (s := s.withDoor d _) h d _
  · exact State.driveDoor_combined (s := s.withDoor d _) h d _
  · split <;> exact h

theorem State.stepDoor_combined (h : s.Combined) (d : Door) (x : DoorState) : (s.stepDoor d x).Combined := by
  have a := State.report_combined (State.moveDoor_combined h d x) (.doorEvent d x ((s.moveDoor d x).doorAt d).closeFailed)
  unfold State.stepDoor
  refine State.rehold_combined (State.testDoorRelease_combined (State.evaluate_combined _ ?_))
  split
  · exact State.raise_combined a _ _
  · exact a

end Sys2Proof.Machine
end

