-- ==== Sys2Proof/Laws/DoorMoves.lean ====
section
/-! SUPPORT. What the step of one door's state leaves of the doors and their motors: the other doors stay (`OnlyDoor`), and the door
that moves is driven as the slope asks (R135, R143, R144). -/

namespace Sys2Proof.Machine

set_option Elab.async false

variable {s t u : State} {d : Door}

/-- Nothing of the other doors changes, nor the released sides, nor what the drive on a slope is computed from. -/
structure OnlyDoor (d : Door) (s t : State) : Prop where
  doors : ∀ e, e ≠ d → t.doorAt e = s.doorAt e
  motors : ∀ e, e ≠ d → t.drive.motor.get e = s.drive.motor.get e
  left : t.doors.releasedLeft = s.doors.releasedLeft
  right : t.doors.releasedRight = s.doors.releasedRight
  clock : t.clock = s.clock
  position : t.odo.p = s.odo.p
  window : t.win = s.win
  settings : t.cfg = s.cfg

theorem OnlyDoor.refl (s : State) (d : Door) : OnlyDoor d s s :=
  ⟨fun _ _ => rfl, fun _ _ => rfl, rfl, rfl, rfl, rfl, rfl, rfl⟩

theorem OnlyDoor.trans (f : OnlyDoor d s t) (g : OnlyDoor d t u) : OnlyDoor d s u where
  doors e h := (g.doors e h).trans (f.doors e h)
  motors e h := (g.motors e h).trans (f.motors e h)
  left := g.left.trans f.left
  right := g.right.trans f.right
  clock := g.clock.trans f.clock
  position := g.position.trans f.position
  window := g.window.trans f.window
  settings := g.settings.trans f.settings

theorem OnlyDoor.slope (f : OnlyDoor d s t) (e : Door) : t.slopeAt e = s.slopeAt e := by
  have c : t.line.settings = s.line.settings := f.settings
  unfold State.slopeAt State.doorPosition
  simp only [State.cfg]
  rw [f.position, f.window, c]

theorem OnlyDoor.duty (f : OnlyDoor d s t) (e : Door) (v : Vertical) : t.dutyOnSlope e v = s.dutyOnSlope e v := by
  unfold State.dutyOnSlope
  rw [f.slope, f.settings]

theorem OnlyDoor.limit (f : OnlyDoor d s t) (e : Door) (v : Vertical) : t.limitOnSlope e v = s.limitOnSlope e v := by
  unfold State.limitOnSlope
  rw [f.slope, f.settings]

/-- The way a leaf moves, as the statements write it (R143). -/
def State.way (s : State) (d : Door) : Sense → Vertical
  | .open => s.cfg.openDir.get d
  | .close => (s.cfg.openDir.get d).opposite

theorem State.doorDuty_eq (s : State) (d : Door) (x : Sense) : s.doorDuty d x = s.dutyOnSlope d (s.way d x) := by
  have g : s.doorGradient d = s.slopeAt d := by
    unfold State.doorGradient State.slopeAt
    cases s.win.containing (s.doorPosition d) <;> rfl
  have w : s.leafMoves d x = s.way d x := by cases x <;> rfl
  unfold State.doorDuty State.dutyOnSlope
  simp only [g, w]
  cases s.way d x <;> simp [uphill]

theorem State.doorLimit_eq (s : State) (d : Door) (x : Sense) : s.doorLimit d x = s.limitOnSlope d (s.way d x) := by
  have g : s.doorGradient d = s.slopeAt d := by
    unfold State.doorGradient State.slopeAt
    cases s.win.containing (s.doorPosition d) <;> rfl
  have w : s.leafMoves d x = s.way d x := by cases x <;> rfl
  unfold State.doorLimit State.limitOnSlope
  simp only [g, w]
  cases s.way d x <;> simp [uphill]

/-- A moving door is driven at one per cent or more, while DOOR_DUTY keeps its range. -/
theorem State.dutyOnSlope_pos (h : 1 ≤ s.cfg.doorDuty) (d : Door) (v : Vertical) : 1 ≤ s.dutyOnSlope d v := by
  unfold State.dutyOnSlope
  split <;> omega

theorem State.Sound.doorDuty (h : s.Sound) : 1 ≤ s.cfg.doorDuty := by
  have := (h.ranges.2.2.2.2.2.2.2.2.1 .doorDuty).1
  exact le_trans (by decide) this

/-- The drive of a moving door: its duty toward its sense is pending (R144). -/
theorem State.driveDoor_drives (h : 1 ≤ s.cfg.doorDuty) (d : Door) (x : Sense) :
    (s.driveDoor d x).Drives d (s.dutyOnSlope d (s.way d x)) x := by
  have p := State.dutyOnSlope_pos h d (s.way d x)
  unfold State.driveDoor
  simp only [State.doorDuty_eq]
  split
  · rename_i e
    exact e
  · unfold State.writeMotor State.Drives Output.write
    simp only [State.withDrive_drive, PerDoor.get_put_same]
    split
    · exact ⟨rfl, rfl⟩
    · exact ⟨rfl, by rw [if_neg (by omega)]⟩

theorem State.driveDoor_other (s : State) {e : Door} (h : e ≠ d) (x : Sense) :
    (s.driveDoor d x).drive.motor.get e = s.drive.motor.get e := by
  unfold State.driveDoor
  simp only []
  split
  · rfl
  · unfold State.writeMotor
    simp only [State.withDrive_drive]
    rw [PerDoor.get_put, if_neg h]
    rfl

theorem State.moveDoor_motor_other (s : State) {e : Door} (h : e ≠ d) (x : DoorState) :
    (s.moveDoor d x).drive.motor.get e = s.drive.motor.get e := by
  unfold State.moveDoor
  simp only []
  split
  · rw [State.driveDoor_other _ h]; rfl
  · rw [State.driveDoor_other _ h]; rfl
  · split
    · unfold State.writeMotor
      simp only [State.withDrive_drive]
      rw [PerDoor.get_put, if_neg h]
      rfl
    · rfl

/-- The notices of a door's step change no motor (R135). -/
theorem State.stepDoor_motor (s : State) (d : Door) (x : DoorState) :
    (s.stepDoor d x).drive.motor = (s.moveDoor d x).drive.motor := by
  rw [State.stepDoor_eq]
  have f3 := State.rehold_frame (s.stepDoorHead d x).evaluate.testDoorRelease
  have f2 := (State.testDoorRelease_lawful (s.stepDoorHead d x).evaluate).frame
  have f1 := State.evaluate_evaluator.frame (s.stepDoorHead d x)
  rw [f3.motors (by decide), f2.motors (by decide), f1.motors (by decide)]
  unfold State.stepDoorHead
  simp only []
  have r := (State.report_frame (r := []) (m := []) (s.moveDoor d x) (.doorEvent d x ((s.moveDoor d x).doorAt d).closeFailed))
  split
  · rw [(State.raiseDoorMoving_lawful _).frame.motors (by decide), r.motors (by decide)]
  · exact r.motors (by decide)

theorem State.moveDoor_released (s : State) (d : Door) (x : DoorState) :
    (s.moveDoor d x).doors.releasedLeft = s.doors.releasedLeft
      ∧ (s.moveDoor d x).doors.releasedRight = s.doors.releasedRight := by
  have k : ∀ (q : State) y, (q.driveDoor d y).doors.releasedLeft = q.doors.releasedLeft
      ∧ (q.driveDoor d y).doors.releasedRight = q.doors.releasedRight := by
    intro q y
    unfold State.driveDoor
    simp only []
    split <;> exact ⟨rfl, rfl⟩
  unfold State.moveDoor
  simp only []
  split
  · exact k _ _
  · exact k _ _
  · split <;> exact ⟨rfl, rfl⟩

theorem Frame.place {r m : List Cause} (f : Frame doorBlocks r m s t) :
    t.clock = s.clock ∧ t.odo.p = s.odo.p ∧ t.win = s.win ∧ t.cfg = s.cfg :=
  ⟨f.clock, by rw [f.odometry (by decide)], f.window (by decide), f.settings (by decide)⟩

theorem State.stepDoor_only (s : State) (d : Door) (x : DoorState) : OnlyDoor d s (s.stepDoor d x) := by
  obtain ⟨c, p, w, g⟩ := (State.stepDoor_frame s d x).place
  have m := State.moveDoor_released s d x
  refine ⟨fun e h => ?_, fun e h => ?_, ?_, ?_, c, p, w, g⟩
  · rw [State.stepDoor_doorAt, State.moveDoor_other s d e x h]
  · rw [State.stepDoor_motor, State.moveDoor_motor_other s h]
  · rw [State.stepDoor_doors]; exact m.1
  · rw [State.stepDoor_doors]; exact m.2

theorem State.withDoor_only (s : State) (d : Door) (x : DoorRecord) : OnlyDoor d s (s.withDoor d x) :=
  ⟨fun e h => by rw [State.doorAt_withDoor, if_neg h], fun _ _ => rfl, rfl, rfl, rfl, rfl, rfl, rfl⟩

theorem State.landDoor_only (s : State) (d : Door) : OnlyDoor d s (s.landDoor d) :=
  (State.withDoor_only s d _).trans (State.stepDoor_only _ d _)

theorem State.closeDoor_only (s : State) (d : Door) : OnlyDoor d s (s.closeDoor d) := by
  unfold State.closeDoor
  simp only []
  split
  · exact (State.stepDoor_only s d _).trans (State.landDoor_only _ d)
  · exact State.stepDoor_only s d _

theorem State.reachOpen_only (s : State) (d : Door) : OnlyDoor d s (s.reachOpen d) := by
  unfold State.reachOpen
  simp only []
  split
  · exact (State.stepDoor_only s d _).trans (State.closeDoor_only _ d)
  · exact State.stepDoor_only s d _

theorem State.openDoor_only (s : State) (d : Door) : OnlyDoor d s (s.openDoor d) := by
  unfold State.openDoor
  simp only []
  split
  · exact (State.stepDoor_only s d _).trans (State.reachOpen_only _ d)
  · exact State.stepDoor_only s d _

theorem State.orderClose_only (s : State) (d : Door) : OnlyDoor d s (s.orderClose d) := by
  unfold State.orderClose
  simp only []
  split
  · exact State.stepDoor_only s d _
  · exact (State.withDoor_only s d _).trans (State.closeDoor_only _ d)
  · exact (State.withDoor_only s d _).trans (State.closeDoor_only _ d)
  · exact (State.withDoor_only s d _).trans (State.closeDoor_only _ d)
  · exact State.withDoor_only s d _
  · exact OnlyDoor.refl s d
  · exact OnlyDoor.refl s d

/-! ### The door that moves -/

theorem State.stepDoor_opening (s : State) (d : Door) :
    (s.stepDoor d .opening).doorAt d
      = { s.doorAt d with
          state := .opening, motion := some (s.clock + Config.openTimeLimit)
          limit := s.limitOnSlope d (s.cfg.openDir.get d) } := by
  rw [State.stepDoor_doorAt]
  unfold State.moveDoor
  simp only [State.driveDoor_doorAt, if_true, State.doorAt_withDoor_same, State.doorLimit_eq]
  rw [(State.withDoor_only s d _).limit]
  rfl

theorem State.stepDoor_closing (s : State) (d : Door) :
    (s.stepDoor d .closing).doorAt d
      = { s.doorAt d with
          state := .closing, motion := some (s.clock + Config.closeTimeLimit), obstruction := none
          limit := s.limitOnSlope d (s.cfg.openDir.get d).opposite } := by
  rw [State.stepDoor_doorAt]
  unfold State.moveDoor
  simp only [State.driveDoor_doorAt, if_true, State.doorAt_withDoor_same, State.doorLimit_eq]
  rw [(State.withDoor_only s d _).limit]
  rfl

/-- A door that comes to rest: its state, and no motion timer (R135). -/
theorem State.stepDoor_rest (s : State) (d : Door) (x : DoorState) (h : x.moving = false) :
    (s.stepDoor d x).doorAt d = { s.doorAt d with state := x, motion := none } := by
  rw [State.stepDoor_doorAt]
  unfold State.moveDoor
  cases x <;> simp only [DoorState.moving] at h <;> first | contradiction | skip
  all_goals
    simp only []
    split <;> simp [State.writeMotor_doorAt]

/-- A door that comes to rest from motion has its motor taken to 0 (R135). -/
theorem State.stepDoor_stops (s : State) (d : Door) (x : DoorState) (h : x.moving = false)
    (k : (s.doorAt d).state.moving = true) : ((s.stepDoor d x).drive.motor.get d).pendingDuty = some 0 := by
  rw [State.stepDoor_motor]
  unfold State.moveDoor
  cases x <;> simp only [DoorState.moving] at h <;> first | contradiction | skip
  all_goals
    simp only [k, if_true, State.writeMotor, State.withDrive_drive, PerDoor.get_put_same, Output.write]
    split <;> rfl

/-- A door that was at rest leaves its motor. -/
theorem State.stepDoor_keepsMotors (s : State) (d : Door) (x : DoorState) (h : x.moving = false)
    (k : (s.doorAt d).state.moving = false) : (s.stepDoor d x).drive.motor = s.drive.motor := by
  rw [State.stepDoor_motor]
  unfold State.moveDoor
  cases x <;> simp only [DoorState.moving] at h <;> first | contradiction | skip
  all_goals
    simp only [k]
    rfl

theorem State.stepDoor_drives (h : 1 ≤ s.cfg.doorDuty) (d : Door) (x : Sense) :
    (s.stepDoor d (match x with | .open => .opening | .close => .closing)).Drives d (s.dutyOnSlope d (s.way d x)) x := by
  have key : ∀ q : State, (∃ y, q = s.withDoor d y) →
      (q.driveDoor d x).Drives d (s.dutyOnSlope d (s.way d x)) x := by
    rintro q ⟨y, rfl⟩
    have a := State.driveDoor_drives (s := s.withDoor d y) h d x
    rw [(State.withDoor_only s d y).duty] at a
    exact a
  unfold State.Drives
  rw [State.stepDoor_motor]
  unfold State.moveDoor
  cases x
  · exact key _ ⟨_, rfl⟩
  · exact key _ ⟨_, rfl⟩

/-- A door whose leaf is shut: RELEASED or LOCKED, its close order ended (R142, R148). -/
theorem State.landDoor_at (s : State) (d : Door) :
    (s.landDoor d).doorAt d = { s.doorAt d with state := s.shutState d, motion := none, closeOrdered := false } := by
  unfold State.landDoor
  rw [State.stepDoor_rest _ _ _ (by unfold State.shutState; split <;> rfl)]
  simp [State.withCloseOrdered]

theorem State.closeDoor_ajar (h : (s.doorAt d).pins.closedMade = false) : s.closeDoor d = s.stepDoor d .closing := by
  unfold State.closeDoor
  simp only []
  rw [State.stepDoor_closing]
  simp [h]

theorem State.closeDoor_shut (h : (s.doorAt d).pins.closedMade = true) :
    s.closeDoor d = (s.stepDoor d .closing).landDoor d := by
  unfold State.closeDoor
  simp only []
  rw [State.stepDoor_closing]
  simp [h]

theorem State.openDoor_short (h : (s.doorAt d).pins.openMade = false) : s.openDoor d = s.stepDoor d .opening := by
  unfold State.openDoor
  simp only []
  rw [State.stepDoor_opening]
  simp [h]

theorem State.openDoor_long (h : (s.doorAt d).pins.openMade = true) :
    s.openDoor d = (s.stepDoor d .opening).reachOpen d := by
  unfold State.openDoor
  simp only []
  rw [State.stepDoor_opening]
  simp [h]

end Sys2Proof.Machine
end

