-- ==== Sys2Proof/Laws/Framer.lean ====
section
/-! SUPPORT. Numbers and their bytes (R196), and what a framer makes of the bytes of a frame and of noise (R158, R160). -/

namespace Sys2Proof.Machine

set_option Elab.async false

/-! ### Numbers and bytes -/

theorem bytesOf_length (k n : Nat) : (bytesOf k n).length = k := by
  induction k with
  | zero => rfl
  | succ k ih => simp [bytesOf, ih]

theorem foldl_value (l : List Byte) (n : Nat) :
    l.foldl (fun n b => n * 256 + b.toNat) n = n * 256 ^ l.length + valueOf l := by
  unfold valueOf
  induction l generalizing n with
  | nil => simp
  | cons b l ih =>
    rw [List.foldl_cons, List.foldl_cons, ih, ih (0 * 256 + b.toNat), List.length_cons, pow_succ]
    ring

theorem valueOf_cons (b : Byte) (l : List Byte) : valueOf (b :: l) = b.toNat * 256 ^ l.length + valueOf l := by
  have := foldl_value l (0 * 256 + b.toNat)
  simpa [valueOf] using this

/-- A number that fits reads back from its bytes. -/
theorem valueOf_bytesOf (k n : Nat) : valueOf (bytesOf k n) = n % 256 ^ k := by
  induction k with
  | zero => simp [bytesOf, valueOf, Nat.mod_one]
  | succ k ih =>
    rw [bytesOf, valueOf_cons, ih, bytesOf_length, BitVec.toNat_ofNat]
    have h := Nat.mod_mul (x := n) (a := 256 ^ k) (b := 256)
    have h2 : 256 ^ (k + 1) = 256 ^ k * 256 := pow_succ _ _
    rw [h2, h]
    norm_num
    ring

/-! ### The stages of reception -/

/-- The bytes of a frame after its sync are a good frame. -/
theorem receive_frameOf (body : List Byte) (h1 : 1 ≤ body.length) (h2 : body.length ≤ Config.maxBody) :
    receive (frameOf body).tail = .good body [] := by
  have hb : (byteOf body.length).toNat = body.length := by
    have : body.length < 2 ^ 8 := lt_of_le_of_lt h2 (by decide)
    simp only [byteOf, BitVec.toNat_ofNat]
    exact Nat.mod_eq_of_lt this
  have hc : (bytesOf 2 (crc (byteOf body.length :: body)).toNat).length = 2 := bytesOf_length _ _
  show receive (byteOf body.length :: (body ++ bytesOf 2 (crc (byteOf body.length :: body)).toNat)) = _
  simp only [receive, hb]
  have e1 : ¬ (body.length = 0 ∨ Config.maxBody < body.length) := by omega
  rw [if_neg e1, if_neg (by simp only [List.length_append, hc]; omega), List.take_left, List.drop_left,
    List.take_of_length_le (by omega), valueOf_bytesOf, if_pos, List.drop_eq_nil_of_le (by simp [hc])]
  have hk : (crc (byteOf body.length :: body)).toNat % 256 ^ 2 = (crc (byteOf body.length :: body)).toNat :=
    Nat.mod_eq_of_lt (crc (byteOf body.length :: body)).isLt
  rw [hk]
  simp

/-- A proper part of a frame after its sync needs more bytes. -/
theorem receive_part (body part rest : List Byte) (h1 : 1 ≤ body.length) (h2 : body.length ≤ Config.maxBody)
    (e : (frameOf body).tail = part ++ rest) (h : rest ≠ []) : receive part = .partly := by
  have hb : (byteOf body.length).toNat = body.length := by
    have : body.length < 2 ^ 8 := lt_of_le_of_lt h2 (by decide)
    simp only [byteOf, BitVec.toNat_ofNat]
    exact Nat.mod_eq_of_lt this
  have hl := congrArg List.length e
  have hr : 0 < rest.length := List.length_pos_of_ne_nil h
  cases part with
  | nil => rfl
  | cons b part =>
    simp only [frameOf, List.tail_cons, List.cons_append, List.cons.injEq] at e
    obtain ⟨rfl, e⟩ := e
    have hl := congrArg List.length e
    simp only [List.length_append, bytesOf_length] at hl
    simp only [receive, hb]
    rw [if_neg (by omega), if_pos (by omega)]

/-- Bytes without a sync leave nothing while hunting. -/
theorem scanBytes_noise (n : Nat) (l : List Byte) (h : Config.sync ∉ l) : scanBytes n l = ([], []) := by
  induction n generalizing l with
  | zero => rfl
  | succ n ih =>
    cases l with
    | nil => rfl
    | cons b l =>
      rw [List.mem_cons, not_or] at h
      unfold scanBytes
      rw [if_neg (fun e => h.1 e.symm)]
      exact ih l h.2

/-- Bytes without a sync before others are dropped while hunting. -/
theorem scanBytes_after_noise (n : Nat) (noise l : List Byte) (h : Config.sync ∉ noise) :
    scanBytes (noise.length + n) (noise ++ l) = scanBytes n l := by
  induction noise with
  | nil => simp
  | cons b noise ih =>
    rw [List.mem_cons, not_or] at h
    rw [List.length_cons, Nat.add_right_comm, List.cons_append]
    conv_lhs => unfold scanBytes
    rw [if_neg (fun e => h.1 e.symm)]
    exact ih h.2

/-- A frame scanned from hunting. -/
theorem scanBytes_frameOf (n : Nat) (body : List Byte) (h1 : 1 ≤ body.length) (h2 : body.length ≤ Config.maxBody) :
    scanBytes (n + 1) (frameOf body) = ([body], []) := by
  have e : frameOf body = Config.sync :: (frameOf body).tail := rfl
  rw [e]
  unfold scanBytes
  rw [if_pos rfl, receive_frameOf body h1 h2]
  cases n <;> rfl

/-- The last byte of a frame gives the good frame. -/
theorem frameByte_last (body kept : List Byte) (b : Byte) (h1 : 1 ≤ body.length) (h2 : body.length ≤ Config.maxBody)
    (e : frameOf body = kept ++ [b]) : frameByte kept b = ([body], []) := by
  unfold frameByte
  rw [← e]
  exact scanBytes_frameOf _ body h1 h2

/-- Any other byte of a frame is kept. -/
theorem frameByte_part (body kept rest : List Byte) (b : Byte) (h1 : 1 ≤ body.length) (h2 : body.length ≤ Config.maxBody)
    (e : frameOf body = kept ++ b :: rest) (h : rest ≠ []) : frameByte kept b = ([], kept ++ [b]) := by
  unfold frameByte
  cases kept with
  | nil =>
    simp only [frameOf, List.nil_append, List.cons_append, List.cons.injEq] at e
    rw [← e.1]
    rfl
  | cons c kept =>
    have c' : c = Config.sync := by
      simp only [frameOf, List.cons_append, List.cons.injEq] at e
      exact e.1.symm
    subst c'
    have p : receive (kept ++ [b]) = .partly := by
      refine receive_part body (kept ++ [b]) rest h1 h2 ?_ h
      rw [e]
      simp
    simp only [List.cons_append, List.length_cons]
    unfold scanBytes
    rw [if_pos rfl, p]

end Sys2Proof.Machine
end

