-- ==== Sys2Proof/Laws/Settings.lean ====
section
/-! SUPPORT. The configuration items: reading back what was put, ranges, and what CONFIGURE can do. -/

namespace Sys2Proof.Machine

set_option Elab.async false

variable {r m : List Cause} {s t : State}

/-- A value taken lies in the item's range (R190). -/
theorem ConfigItem.clamp_range (i : ConfigItem) (v : Nat) : i.range.1 ≤ i.clamp v ∧ i.clamp v ≤ i.range.2 := by
  have h : i.range.1 ≤ i.range.2 := by
    cases i <;> first | decide | (rename_i k; cases k <;> decide)
  unfold ConfigItem.clamp
  omega

/-- The item put holds the value, for a value of its range. -/
theorem Settings.get_put_same (g : Settings) (i : ConfigItem) (v : Nat) (h : i.range.1 ≤ v) (k : v ≤ i.range.2) :
    (g.put i v).get i = v := by
  cases i <;> simp only [ConfigItem.range] at h k
  all_goals first
    | rfl
    | (simp only [Settings.put, Settings.get, PerKind.get_put, PerChannel.get_put_same]; done)
    | (simp only [Settings.put, Settings.get, BitVec.toNat_ofNat]; omega)
    | (have e : v = 0 ∨ v = 1 := by omega
       rcases e with e | e <;> simp [Settings.put, Settings.get, bit, e])
    | (have e : v = 1 ∨ v = 2 := by omega
       rcases e with e | e <;> simp [Settings.put, Settings.get, verticalCode, e])
    | (simp [Settings.put, Settings.get, PerKind.get_put])

/-- The other items keep their values. -/
theorem Settings.get_put_other (g : Settings) (i j : ConfigItem) (v : Nat) (h : j ≠ i) : (g.put i v).get j = g.get j := by
  cases i <;> cases j <;>
    first
    | rfl
    | (exact absurd rfl h)
    | (simp only [ne_eq, ConfigItem.nominal.injEq, ConfigItem.react.injEq, ConfigItem.rbShare.injEq,
        ConfigItem.abShare.injEq, ConfigItem.fullPressure.injEq, ConfigItem.openDir.injEq] at h
       simp [Settings.put, Settings.get, PerKind.get_put, PerChannel.get_put, PerDoor.get_put, h])

theorem State.withItem_ranges (h : s.RangeLaw) (i : ConfigItem) (v : Nat) (h1 : i.range.1 ≤ v) (h2 : v ≤ i.range.2) :
    (s.withItem i v).RangeLaw := by
  obtain ⟨a1, a2, a3, a4, a5, a6, a7, a8, a9, a10⟩ := h
  refine ⟨a1, a2, a3, a4, a5, a6, a7, a8, fun j => ?_, a10⟩
  show j.range.1 ≤ (s.cfg.put i v).get j ∧ (s.cfg.put i v).get j ≤ j.range.2
  by_cases e : j = i
  · subst e
    rw [Settings.get_put_same _ _ _ h1 h2]
    exact ⟨h1, h2⟩
  · rw [Settings.get_put_other _ _ _ _ e]
    exact a9 j

theorem Settings.put_gangRack (g : Settings) {i : ConfigItem} (h : i ≠ .gangRack) (v : Nat) :
    (g.put i v).gangRack = g.gangRack := by
  cases i <;> first | rfl | exact absurd rfl h

theorem State.withItem_sound (h : s.Sound) {i : ConfigItem} (n : i ≠ .gangRack) (v : Nat) (h1 : i.range.1 ≤ v)
    (h2 : v ≤ i.range.2) : (s.withItem i v).Sound := by
  obtain ⟨b1, b2, b3, b4, b5, b6, b7⟩ := h.brakes
  refine ⟨h.1, ⟨b1, b2, b3, b4, b5, b6, fun k => ?_⟩, h.3, h.4, h.5, h.6, State.withItem_ranges h.ranges i v h1 h2⟩
  exact ⟨(Settings.put_gangRack s.cfg n v).trans (b7 k).1, (b7 k).2⟩

theorem State.withItem_core (h : s.Sound) (i : ConfigItem) (v : Nat) (h1 : i.range.1 ≤ v) (h2 : v ≤ i.range.2) :
    (s.withItem i v).Core := ⟨h.1, h.5, h.6, State.withItem_ranges h.ranges i v h1 h2, h.core.latch⟩

theorem State.withItem_frame (s : State) (i : ConfigItem) (v : Nat) : Frame [.settings] r m s (s.withItem i v) := by
  constructor <;> intros <;>
    first | rfl | exact RadioUnit.Queues.refl _ | exact le_refl _ | exact .inl rfl | assumption | exact .inl ‹_› | exact .inr ⟨rfl, rfl⟩ | simp at *

theorem State.withItem_keeps (s : State) (i : ConfigItem) (v : Nat) : s.Keeps (s.withItem i v) [.ratings] :=
  State.Keeps.of (fun _ => id) (fun _ => id) (fun n => absurd (by simp) n) (fun _ => id) fun _ => id

/-- An item changed, with the law that reads OWED_DEGRADE excepted. -/
theorem State.withItem_lawful (s : State) {i : ConfigItem} (n : i ≠ .gangRack) (v : Nat) (h1 : i.range.1 ≤ v)
    (h2 : v ≤ i.range.2) : Lawful [.settings] r m s (s.withItem i v) [.ratings] :=
  ⟨State.withItem_frame s i v, fun h => State.withItem_sound h n v h1 h2, fun _ => State.withItem_keeps s i v⟩

/-- GANG_RACK changed and taken up: the recomputation lets V2 leave V1 where it was turned off (R109). -/
theorem State.withGang_lawful (s : State) (v : Nat) (h1 : ConfigItem.gangRack.range.1 ≤ v) (h2 : v ≤ ConfigItem.gangRack.range.2) :
    Lawful [.settings] overspeeds [.overspeedService] s (s.withItem .gangRack v).recompute [.ratings] := by
  have c : s.Sound → (s.withItem .gangRack v).Core := fun h => State.withItem_core h _ v h1 h2
  refine ⟨(State.withItem_frame s _ v).trans ((State.recompute_lawful _).frame.mono (by simp) (fun _ h => h) fun _ h => h),
    fun h => State.recompute_sound (c h) h.permit h.doors, fun h => ?_⟩
  exact (State.withItem_keeps s .gangRack v).trans (State.recompute_keeps (c h)).except

/-- No item but OWED_DEGRADE is read by the law of the ratings (R117). -/
theorem State.withItem_rated (s : State) {i : ConfigItem} (v : Nat) (h : i ≠ .owedDegrade) (k : s.RatingLaw) :
    (s.withItem i v).RatingLaw := by
  have e : (s.cfg.put i v).owedDegrade = s.cfg.owedDegrade := Settings.get_put_other s.cfg i .owedDegrade v h.symm
  intro c a
  show s.prov.owed.get c < (s.cfg.put i v).owedDegrade
  rw [e]
  exact k c a

/-- The blocks that a CONFIGURE touches. -/
abbrev configureBlocks : List Block := [.settings, .window, .ratings, .proofTimer, .radio]

theorem State.withProofTimer_lawful (s : State) (x : Timer) :
    Lawful [.proofTimer] r m s (s.withProv { s.prov with timer := x }) := by
  refine .mk ?_ fun q => q.withProv _ q.dwell rfl q.owed
  constructor <;> intros <;>
    first | rfl | exact RadioUnit.Queues.refl _ | exact le_refl _ | exact .inl rfl | assumption | exact .inl ‹_› | exact .inr ⟨rfl, rfl⟩ | simp at *

theorem State.takeUp_lawful (s : State) (i : ConfigItem) :
    Lawful configureBlocks overspeeds [.overspeedService] s (s.takeUp i) := by
  have w : ∀ u : State, Lawful configureBlocks overspeeds [.overspeedService] u (u.recomputeWindow false) := fun u =>
    (State.recomputeWindow_lawful u false).blocks
  have e : ∀ u : State, Lawful configureBlocks overspeeds [.overspeedService] u u.evaluate := fun u =>
    (State.evaluate_lawful u).blocks
  have c : ∀ u : State, Lawful configureBlocks overspeeds [.overspeedService] u u.recompute := fun u =>
    (State.recompute_lawful u).blocks
  have q : ∀ (u : State) (x : Channel), Lawful configureBlocks overspeeds [.overspeedService] u (u.resettle x) :=
    fun u x => (State.resettle_lawful u x).blocks
  cases i with
  | carAddress => exact Lawful.refl
  | groupMask => exact Lawful.refl
  | openDir _ => exact Lawful.refl
  | doorDuty => exact Lawful.refl
  | compGain => exact Lawful.refl
  | obstructLimit => exact Lawful.refl
  | rollbackLimit => exact Lawful.refl
  | burstCap => exact Lawful.refl
  | answerEmpty => exact Lawful.refl
  | listenOnly => exact Lawful.refl
  | summaryMask => exact Lawful.refl
  | cabTimeout => exact Lawful.refl
  | carLength => exact w s
  | trainLength => exact (w s).trans (e _)
  | maxSpeed => exact e s
  | barredCreep => exact e s
  | radioLossSpeed => exact e s
  | react _ => exact e s
  | nominal _ => exact ((State.recap_lawful s).blocks).trans ((State.noticeCapability_lawful _ s).blocks)
  | rbShare _ => exact c s
  | abShare _ => exact c s
  | holdLevel => exact c s
  | valvePeriod => exact c s
  | motorPeriod => exact c s
  | gangRack => exact c s
  | fullPressure x => exact (q s x).trans (c _)
  | feedbackTol => exact (((((q s .rb1).trans (q _ .rb2)).trans (q _ .ab1)).trans (q _ .ab2))).trans (c _)
  | proofPeriod => exact (State.withProofTimer_lawful s _).blocks
  | owedDegrade => exact (State.degradeOwing_lawful s).blocks
  | aheadLow => exact w s
  | behindHigh => exact w s
  | radioTimeout =>
    show Lawful _ _ _ s (match s.radio.timer with
      | none => s
      | some _ => s.withRadio { s.radio with timer := some (s.after (s.cfg.radioTimeout * 1000)) })
    split
    · exact Lawful.refl
    · rename_i h
      refine Lawful.blocks (free := [.radio]) ?_
      refine State.withRadio_lawful s _ fun k => ?_
      obtain ⟨-, -, -, h4, h5, h6⟩ := k.radio
      refine ⟨h4, h5, ?_⟩
      rw [h] at h6
      exact h6
  | positionInterval =>
    refine Lawful.blocks (free := [.radio]) ?_
    exact State.withRadio_lawful s _ fun k => k.radio.2.2.2

theorem State.configure_lawful (s : State) (f : List Byte) :
    Lawful configureBlocks overspeeds [.overspeedService] s (s.configure f).1 := by
  unfold State.configure
  split
  · exact Lawful.refl
  · split
    · exact Lawful.refl
    · rename_i i _
      dsimp only
      split
      · refine Lawful.ite (fun _ => Lawful.refl) fun _ => ?_
        have c := ConfigItem.clamp_range i (field f 1 2)
        by_cases n : i = .gangRack
        · subst n
          exact (State.withGang_lawful s _ c.1 c.2).blocks.rated fun h q =>
            State.recompute_keeps (State.withItem_core h _ _ c.1 c.2) .ratings (by simp)
              (State.withItem_rated s _ (by decide) q)
        have f : Lawful configureBlocks overspeeds [.overspeedService] s (s.withItem i (i.clamp (field f 1 2))) [.ratings] :=
          Lawful.blocks (State.withItem_lawful s n _ c.1 c.2)
        by_cases e : i = .owedDegrade
        · subst e
          exact (f.trans (State.takeUp_lawful _ _).except).rated fun _ _ => State.degradeOwing_law _
        · exact (f.rated fun _ => State.withItem_rated s _ e).trans (State.takeUp_lawful _ i)
      · exact Lawful.refl

end Sys2Proof.Machine
end

