-- ==== Sys2Proof/Laws/Lines.lean ====
section
/-! SUPPORT. What the Line Unit can do: the ports, the hearing of a cab request, RESUME, QUIESCE, each block's step of RESTART,
each kind of request, and the frames and bytes of the three lines. -/

namespace Sys2Proof.Machine

set_option Elab.async false

variable {r m : List Cause} {s t : State}

/-! ### Ports -/

@[simp] theorem LineUnit.port_withPort (u : LineUnit) (x y : RequestLine) (p : Port) :
    (u.withPort x p).port y = if y = x then p else u.port y := by
  cases x <;> cases y <;> rfl

@[simp] theorem LineUnit.withPort_settings (u : LineUnit) (x : RequestLine) (p : Port) :
    (u.withPort x p).settings = u.settings := by cases x <;> rfl

@[simp] theorem LineUnit.withPort_opState (u : LineUnit) (x : RequestLine) (p : Port) :
    (u.withPort x p).opState = u.opState := by cases x <;> rfl

@[simp] theorem LineUnit.withPort_cabTimer (u : LineUnit) (x : RequestLine) (p : Port) :
    (u.withPort x p).cabTimer = u.cabTimer := by cases x <;> rfl

theorem State.Sound.port (h : s.Sound) (x : RequestLine) :
    (s.line.port x).waiting.length ≤ Config.responseCapacity ∧ (s.line.port x).overflow ≤ 255 := by
  obtain ⟨-, -, -, -, -, -, -, -, a, b, c, d, -⟩ := h.capacity
  cases x
  · exact ⟨a, b⟩
  · exact ⟨c, d⟩

/-- A port with a list of legal length keeps the laws. -/
theorem State.withPort_lawful (s : State) (x : RequestLine) (p : Port)
    (h : s.Sound → p.waiting.length ≤ Config.responseCapacity ∧ p.overflow ≤ 255) :
    Lawful [portBlock x] r m s (s.withPort x p) := by
  refine ⟨?_, fun q => ?_, fun _ y _ => by cases x <;> cases y <;> exact id⟩
  · cases x <;> constructor <;> intros <;>
      first | rfl | exact RadioUnit.Queues.refl _ | exact le_refl _ | exact .inl rfl | assumption | exact .inl ‹_› | exact .inr ⟨rfl, rfl⟩ | simp at *
  · obtain ⟨a1, a2, a3, a4, a5, a6, a7, a8, b1, b2, c1, c2, d⟩ := q.capacity
    obtain ⟨h1, h2⟩ := h q
    cases x
    · exact ⟨q.1, q.2, q.3, q.4, q.5, ⟨a1, a2, a3, a4, a5, a6, a7, a8, h1, h2, c1, c2, d⟩, q.7⟩
    · exact ⟨q.1, q.2, q.3, q.4, q.5, ⟨a1, a2, a3, a4, a5, a6, a7, a8, b1, b2, h1, h2, d⟩, q.7⟩

theorem State.respond_lawful (s : State) (x : RequestLine) (f : List Byte)
    (h : (s.line.port x).waiting.length < Config.responseCapacity) : Lawful [portBlock x] r m s (s.respond x f) := by
  unfold State.respond
  dsimp only
  split
  · exact State.withPort_lawful s x _ fun q => q.port x
  · refine State.withPort_lawful s x _ fun q => ⟨?_, (q.port x).2⟩
    simp only [List.length_append, List.length_singleton]
    exact h

theorem State.responseSent_lawful (s : State) (x : RequestLine) : Lawful [portBlock x] r m s (s.responseSent x) := by
  unfold State.responseSent
  dsimp only
  split
  · exact Lawful.refl
  · exact State.withPort_lawful s x _ fun q => q.port x
  · rename_i e
    refine State.withPort_lawful s x _ fun q => ⟨?_, (q.port x).2⟩
    have := (q.port x).1
    rw [e] at this
    exact (Nat.le_succ _).trans this

theorem State.dropRequest_lawful (s : State) (x : RequestLine) : Lawful [portBlock x] r m s (s.dropRequest x) :=
  State.withPort_lawful s x _ fun q => ⟨(q.port x).1, min_le_left _ _⟩

/-! ### Hearing -/

/-- The blocks that a valid cab request touches before its checks (R182). -/
abbrev hearingBlocks : List Block := [.cabTimer, .entries]

theorem State.hearCab_lawful (s : State) : Lawful hearingBlocks r m s s.hearCab := by
  unfold State.hearCab
  dsimp only
  have f : ∀ u : State, Lawful hearingBlocks r m u (u.withSet u.set.hear) := fun u => (State.hear_lawful u).blocks
  split
  · exact ((State.withCabTimer_lawful (r := r) (m := m) s _ (fun _ => ‹_›)).blocks).trans (f _)
  · exact f s

theorem State.heardOn_lawful (s : State) (x : RequestLine) : Lawful hearingBlocks r m s (s.heardOn x) := by
  cases x
  · exact State.hearCab_lawful s
  · exact Lawful.refl

/-! ### Operating states -/

/-- The blocks that a change of operating state touches. -/
abbrev opStateBlocks : List Block := [.opState, .cabTimer, .park]

theorem State.resume_lawful (s : State) : Lawful opStateBlocks overspeeds [.overspeedService] s s.resume.1 := by
  unfold State.resume
  split
  · exact Lawful.refl
  · exact State.changeOpState_lawful s _
  · split
    · exact State.changeOpState_lawful s _
    · exact Lawful.refl

theorem State.quiesce_lawful (s : State) : Lawful opStateBlocks overspeeds [.overspeedService] s s.quiesce.1 := by
  unfold State.quiesce
  split
  · exact Lawful.refl
  · exact Lawful.refl
  · exact (State.changeOpState_lawful s _).trans ((State.testQuiesced_lawful _).blocks)

/-! ### RESTART -/

theorem State.restartRadio_lawful (s : State) : Lawful [.radio, .queue] overspeeds [.overspeedService] s s.restartRadio := by
  have f : Lawful [.radio, .queue] overspeeds [.overspeedService] s
      (s.withRadio
        { RadioUnit.atReset with
          transmitter := s.radio.transmitter
          positionTimer := some (s.after (s.cfg.positionInterval * 1000)) }) :=
    State.withQueue_lawful s _ (fun _ =>
      ⟨Nat.zero_le _, Nat.zero_le _, Nat.zero_le _, Nat.zero_le _, (by decide : 0 < 8), rfl⟩) fun _ =>
      ⟨Nat.zero_le _, fun h => absurd h (by simp [RadioUnit.atReset]), le_refl _, fun _ h =>
        absurd h (by simp [RadioUnit.atReset])⟩
  unfold State.restartRadio
  exact Lawful.ite (fun _ => f) fun _ => f.trans ((State.evaluate_lawful _).blocks)

theorem State.restartOdometry_lawful (s : State) :
    Lawful [.odometry, .window] overspeeds [.overspeedService] s s.restartOdometry := by
  unfold State.restartOdometry
  split
  · refine Lawful.blocks (free := [.odometry]) ?_
    have h : s.Sound → Odometry.Lawful { s.odo with rollback := 0 } := fun q => by
      have := q.odometry
      unfold Odometry.Lawful at *
      simp_all
    exact State.withOdo_lawful s _ h rfl rfl (.inl rfl)
  · exact State.turn_lawful s _

theorem State.restartAuthority_lawful (s : State) :
    Lawful [.authority] overspeeds [.overspeedService] s s.restartAuthority := by
  have f : Lawful [.authority] overspeeds [.overspeedService] s
      ((s.withAuth { s.auth with a := { low := 1, high := 0 }, b := { low := 1, high := 0 }, id := 0 }).reflag) :=
    Lawful.trans
      (State.withAuth_lawful s { s.auth with a := { low := 1, high := 0 }, b := { low := 1, high := 0 }, id := 0 } (.inr rfl))
      (State.reflag_lawful _)
  unfold State.restartAuthority
  exact Lawful.ite (fun _ => f.trans ((State.evaluate_lawful _).blocks)) fun _ => f

theorem State.testLoop_lawful (s : State) :
    Lawful [] (.emergencyLoop :: overspeeds) [.overspeedService] s s.testLoop :=
  Lawful.ite (fun _ => State.raiseLoop_lawful s) fun _ => Lawful.refl

/-- The set emptied, before its notice (R94). -/
theorem State.emptySet_frame (s : State) :
    Frame [.entries] r m s (s.withSet { s.set with entries := [], breakOpen := false }) := by
  constructor <;> intros <;>
    first | rfl | exact RadioUnit.Queues.refl _ | exact le_refl _ | exact .inl rfl | assumption | exact .inl ‹_› | exact .inr ⟨rfl, rfl⟩ | simp at *

/-- The set emptied keeps the further laws, but R152's. -/
theorem State.emptySet_keeps (s : State) : s.Keeps (s.withSet { s.set with entries := [], breakOpen := false }) [.moving] :=
  State.Keeps.of (fun n => absurd (by simp) n) (fun _ => id) (fun _ => id)
    (fun _ => State.proofLaw_of (t := s.withSet { s.set with entries := [], breakOpen := false }) rfl id id fun _ => rfl)
    fun _ => id

theorem State.restartSet_lawful (s : State) :
    Lawful [.entries] (.emergencyLoop :: overspeeds) [.overspeedService] s s.restartSet [.moving] := by
  unfold State.restartSet
  dsimp only
  have f0 : Frame [.entries] (.emergencyLoop :: overspeeds) [.overspeedService] s
      (s.withSet { s.set with entries := [], breakOpen := false }) := State.emptySet_frame s
  have k0 := s.emptySet_keeps
  refine Lawful.trans ?_ ((State.testLoop_lawful _).blocks.except)
  split
  · rename_i e
    refine ⟨f0, fun q => ?_, fun _ => k0⟩
    have b := q.interventions.2
    have e' : s.set.entries = [] := List.isEmpty_iff.1 e
    have b' : s.set.breakOpen = false := by
      rw [b]
      simp [InterventionSet.hasLevel, e']
    have : s.withSet { s.set with entries := [], breakOpen := false } = s := by
      rw [← e', ← b']
      rfl
    rw [this]
    exact q
  · generalize hu : s.withSet { s.set with entries := [], breakOpen := false } = u at *
    have f1 := f0.trans (((State.evaluate_lawful u).mono (free' := [.entries]) (r' := .emergencyLoop :: overspeeds)
      (m' := [.overspeedService])).frame)
    have f2 := f1.trans (((State.recompute_lawful u.evaluate).mono (free' := [.entries])
      (r' := .emergencyLoop :: overspeeds) (m' := [.overspeedService])).frame)
    have g : Lawful [.entries] (.emergencyLoop :: overspeeds) [.overspeedService] u.evaluate.recompute
        u.evaluate.recompute.testProof := (State.testProof_lawful _).blocks
    have e := State.evaluate_evaluator
    have k : s.Sound → u.Core := fun q => by
      subst hu
      exact ⟨⟨List.nodup_nil, rfl⟩, q.timers, q.capacity, q.ranges, q.core.latch⟩
    have d : s.Sound → u.evaluate.recompute.Sound := fun q =>
      State.recompute_sound (e.core (k q)) (e.permit (k q)) (State.doorLaw_of (by
        subst hu
        exact q.doors) ((e.frame u).doors (by simp)))
    exact ⟨f2.trans g.frame, fun q => g.sound (d q), fun q => ((k0.trans (State.evaluate_keeps (k q)).except).trans
      (State.recompute_keeps (e.core (k q))).except).trans (g.keeps (d q)).except⟩

theorem State.restartCombiner_lawful (s : State) :
    Lawful [.driver] overspeeds [.overspeedService] s s.restartCombiner := State.setDriver_lawful s 0 (by decide)

theorem PerDoor.put_put {α : Type} (t : PerDoor α) (d : Door) (x y : α) : (t.put d x).put d y = t.put d y := by
  cases d <;> rfl

/-- A step to a state in which the leaf is still does not read the motion timer it ends. -/
theorem State.stepDoor_still (s : State) (d : Door) (y : DoorRecord) (t : Timer) (x : DoorState)
    (h : x = .locked ∨ x = .fault) :
    (s.withDoor d { y with motion := t }).stepDoor d x = (s.withDoor d y).stepDoor d x := by
  have e : (s.withDoor d { y with motion := t }).moveDoor d x = (s.withDoor d y).moveDoor d x := by
    have w : ∀ a b : DoorRecord, (s.withDoor d a).withDoor d b = s.withDoor d b := fun a b => by
      simp only [State.withDoor, State.withDoors_doors, PerDoor.put_put]
      rfl
    rcases h with rfl | rfl <;> (unfold State.moveDoor; simp only [State.doorAt_withDoor_same, w])
  unfold State.stepDoor
  rw [e]

theorem State.restartDoor_lawful (s : State) (d : Door) :
    Lawful doorBlocks doorCauses doorRemovals s (s.restartDoor d) := by
  unfold State.restartDoor
  dsimp only
  generalize hx : (if (s.doorAt d).pins.closedMade then DoorState.locked else DoorState.fault) = x
  have x2 : x = .locked ∨ x = .fault := by
    rw [← hx]
    split
    · exact .inl rfl
    · exact .inr rfl
  have x3 : x.moving = false := by rcases x2 with rfl | rfl <;> rfl
  split
  · exact Lawful.refl
  · split
    · rename_i e
      refine Lawful.blocks (free := [.doors]) (State.withDoor_lawful s d _ rfl fun _ => ⟨?_, Nat.zero_le _⟩)
      show Option.isSome none = (s.doorAt d).state.moving
      rw [e, x3]
      rfl
    · have q : (s.withDoor d (s.doorAt d).cleared).stepDoor d x
          = (s.withDoor d { (s.doorAt d).cleared with motion := (s.doorAt d).motion }).stepDoor d x :=
        (State.stepDoor_still s d (s.doorAt d).cleared (s.doorAt d).motion x x2).symm
      rw [q]
      have y1 : ({ (s.doorAt d).cleared with motion := (s.doorAt d).motion } : DoorRecord).state = (s.doorAt d).state := rfl
      have y2 : ({ (s.doorAt d).cleared with motion := (s.doorAt d).motion } : DoorRecord).motion = (s.doorAt d).motion := rfl
      have y3 : ({ (s.doorAt d).cleared with motion := (s.doorAt d).motion } : DoorRecord).reopen ≤ 3 := Nat.zero_le _
      generalize ({ (s.doorAt d).cleared with motion := (s.doorAt d).motion } : DoorRecord) = y at y1 y2 y3 ⊢
      have f : Lawful doorBlocks doorCauses doorRemovals s (s.withDoor d y) := by
        refine Lawful.blocks (free := [.doors]) (State.withDoor_lawful s d y y1 fun k => ⟨?_, y3⟩)
        rw [y1, y2]
        exact (k.doors.2 d).1
      exact f.trans (State.stepDoor_lawful _ d x fun h => by rcases x2 with rfl | rfl <;> cases h)

theorem State.restartDoors_lawful (s : State) : Lawful doorBlocks doorCauses doorRemovals s s.restartDoors := by
  unfold State.restartDoors
  have f := State.withdrawSide_lawful s .both
  have g := Lawful.foldl State.restartDoor allDoors State.restartDoor_lawful (by decide)
    (s.withDoors (s.doors.setReleased .both false))
  exact f.trans g

/-- A door as RESTART leaves it is LOCKED, FAULT or ISOLATED; the other doors and the released sides stay (R156). -/
theorem State.restartDoor_states (s : State) (d : Door) :
    (s.restartDoor d).doors.releasedLeft = s.doors.releasedLeft ∧ (s.restartDoor d).doors.releasedRight = s.doors.releasedRight
      ∧ ((s.restartDoor d).doorAt d).state ∈ [DoorState.locked, .fault, .isolated]
      ∧ ∀ e ≠ d, ((s.restartDoor d).doorAt e).state = (s.doorAt e).state := by
  unfold State.restartDoor
  dsimp only
  generalize hx : (if (s.doorAt d).pins.closedMade then DoorState.locked else DoorState.fault) = x
  have x2 : x ∈ [DoorState.locked, .fault, .isolated] := by
    rw [← hx]
    split <;> decide
  split
  · rename_i e
    rw [e]
    exact ⟨rfl, rfl, by decide, fun _ _ => rfl⟩
  · split
    · rename_i e
      refine ⟨rfl, rfl, ?_, fun b n => by rw [State.doorAt_withDoor, if_neg n]⟩
      rw [State.doorAt_withDoor_same]
      show (s.doorAt d).state ∈ _
      rw [e]
      exact x2
    · obtain ⟨m1, m2⟩ := State.stepDoor_released (s.withDoor d (s.doorAt d).cleared) d x
      refine ⟨m1, m2, ?_, fun b n => ?_⟩
      · rw [State.stepDoor_state, if_pos rfl]
        exact x2
      · rw [State.stepDoor_state, if_neg n, State.doorAt_withDoor, if_neg n]

/-- After the Door Controller's part of RESTART no side is released and every door is LOCKED, FAULT or ISOLATED. -/
theorem State.restartDoors_states (s : State) :
    s.restartDoors.doors.releasedLeft = false ∧ s.restartDoors.doors.releasedRight = false
      ∧ ∀ d, (s.restartDoors.doorAt d).state ∈ [DoorState.locked, .fault, .isolated] := by
  have key : ∀ (l : List Door) (u : State), u.doors.releasedLeft = false → u.doors.releasedRight = false →
      (l.foldl State.restartDoor u).doors.releasedLeft = false ∧ (l.foldl State.restartDoor u).doors.releasedRight = false
        ∧ ∀ d, (d ∈ l ∨ (u.doorAt d).state ∈ [DoorState.locked, .fault, .isolated]) →
            ((l.foldl State.restartDoor u).doorAt d).state ∈ [DoorState.locked, .fault, .isolated] := by
    intro l
    induction l with
    | nil => exact fun u h1 h2 => ⟨h1, h2, fun d h => h.resolve_left (by simp)⟩
    | cons a l ih =>
      intro u h1 h2
      obtain ⟨r1, r2, r3, r4⟩ := State.restartDoor_states u a
      obtain ⟨k1, k2, k3⟩ := ih (u.restartDoor a) (r1.trans h1) (r2.trans h2)
      refine ⟨k1, k2, fun d h => k3 d ?_⟩
      by_cases n : d = a
      · rw [n]
        exact .inr r3
      · rw [r4 d n]
        exact h.imp_left fun h => (List.mem_cons.1 h).resolve_left n
  obtain ⟨k1, k2, k3⟩ := key allDoors (s.withDoors { s.doors with releasedLeft := false, releasedRight := false }) rfl rfl
  exact ⟨k1, k2, fun d => k3 d (.inl (by cases d <;> decide))⟩

/-- So R152 asks nothing of them. -/
theorem State.restartDoors_law (s : State) : s.restartDoors.MovingLaw := by
  obtain ⟨h1, h2, h3⟩ := s.restartDoors_states
  refine fun _ => ⟨h1, h2, fun d e => ?_, fun d e => ?_⟩
  all_goals
    have k := h3 d
    generalize (s.restartDoors.doorAt d).state = y at *
    cases y <;> simp at k e

/-- The blocks that RESTART touches. -/
abbrev restartBlocks : List Block := [.radio, .queue, .odometry, .window, .authority, .entries, .driver, .doors, .motors]

/-- The causes that RESTART may raise. -/
abbrev restartCauses : List Cause := .emergencyLoop :: doorCauses

theorem State.restart_lawful (s : State) : Lawful restartBlocks restartCauses doorRemovals s s.restart.1 := by
  unfold State.restart
  split
  · exact Lawful.refl
  · dsimp only
    have f1 : Lawful restartBlocks restartCauses doorRemovals s s.restartRadio := (State.restartRadio_lawful s).mono
    have f2 := f1.trans ((State.restartOdometry_lawful _).mono)
    have f3 := f2.trans ((State.restartAuthority_lawful _).mono)
    have f4 := f3.except.trans ((State.restartSet_lawful _).mono)
    have f5 := f4.trans ((State.restartCombiner_lawful _).mono.except)
    have f6 := (f5.trans ((State.restartDoors_lawful _).mono.except)).settled fun _ _ => State.restartDoors_law _
    have f7 := f6.trans ((State.abandonProof_lawful _).blocks)
    have f8 := f7.trans ((State.emptyTried_lawful _).blocks)
    exact f8.trans ((State.testProof_lawful _).blocks)

/-! ### Requests -/

/-- The blocks that a kind's step touches. -/
abbrev RequestKind.touches : RequestKind → List Block
  | .status => []
  | .locate => correctionBlocks
  | .direction => [.odometry, .window]
  | .segment => [.window]
  | .endOfLine => [.window]
  | .readWindow => []
  | .readAuthority => []
  | .ackIntervention => []
  | .driverBrake => [.driver]
  | .park => [.park]
  | .configure => configureBlocks
  | .resume => opStateBlocks
  | .quiesce => opStateBlocks
  | .restart => restartBlocks
  | .doorRelease => doorBlocks
  | .doorOpenReleased => doorBlocks
  | .doorClose => doorBlocks
  | .doorIsolate => doorBlocks
  | .doorUnisolate => doorBlocks
  | .proveNow => ratingBlocks

/-- The causes that a kind's step may raise. -/
abbrev RequestKind.raises : RequestKind → List Cause
  | .restart => restartCauses
  | .doorRelease => doorCauses
  | .doorOpenReleased => doorCauses
  | .doorClose => doorCauses
  | .doorIsolate => doorCauses
  | .doorUnisolate => doorCauses
  | _ => overspeeds

/-- The causes that a kind's step may remove. -/
abbrev RequestKind.removes : RequestKind → List Cause
  | .ackIntervention => allCauses
  | .restart => doorRemovals
  | .doorRelease => doorRemovals
  | .doorOpenReleased => doorRemovals
  | .doorClose => doorRemovals
  | .doorIsolate => doorRemovals
  | .doorUnisolate => doorRemovals
  | _ => [.overspeedService]

theorem State.serve_lawful (s : State) (x : RequestLine) (b : Bool) (k : RequestKind) (f : List Byte) :
    Lawful k.touches k.raises k.removes s (s.serve x b k f).1 := by
  cases k
  · exact Lawful.refl
  · exact State.locate_lawful s f
  · exact State.selectDirection_lawful s f
  · exact State.deliver_lawful s f
  · exact State.endOfLine_lawful s f
  · show Lawful _ _ _ s (s.readWindow f).1
    unfold State.readWindow
    dsimp only
    split
    · exact Lawful.refl
    · exact Lawful.refl
  · exact Lawful.refl
  · exact State.acknowledge_lawful s b
  · exact State.driverBrake_lawful s f
  · exact State.setPark_lawful s f
  · exact State.configure_lawful s f
  · exact State.resume_lawful s
  · exact State.quiesce_lawful s
  · exact State.restart_lawful s
  · exact State.doorRelease_lawful s f
  · exact State.openReleased_lawful s
  · exact State.doorClose_lawful s f
  · exact State.doorIsolate_lawful s f
  · exact State.doorUnisolate_lawful s f
  · exact State.proveNow_lawful s

theorem RequestKind.touches_port (k : RequestKind) (x : RequestLine) : portBlock x ∉ k.touches := by
  cases k <;> cases x <;> decide

/-- A step whose frame leaves a line's port out of its list keeps it. -/
theorem Frame.port {free : List Block} (f : Frame free r m s t) (x : RequestLine) (h : portBlock x ∉ free) :
    t.line.port x = s.line.port x := by
  cases x
  · exact f.cabPort h
  · exact f.crewPort h

theorem State.serve_port (s : State) (x y : RequestLine) (b : Bool) (k : RequestKind) (f : List Byte) :
    (s.serve x b k f).1.line.port y = s.line.port y := (State.serve_lawful s x b k f).frame.port y (k.touches_port y)

theorem State.heardOn_port (s : State) (x y : RequestLine) : (s.heardOn x).line.port y = s.line.port y :=
  (State.heardOn_lawful (r := []) (m := []) s x).frame.port y (by cases y <;> decide)

/-- Every block, for steps whose frame says only that the clock and the queue of commands stay. -/
abbrev everyBlock : List Block :=
  [.odometry, .window, .authority, .evaluationTimer, .loop, .entries, .driver, .park, .motors, .scan, .ratings, .proofTimer
  , .doors, .radio, .queue, .opState, .cabTimer, .settings, .cabPort, .crewPort]

theorem mem_everyBlock (b : Block) : b ∈ everyBlock := by cases b <;> decide

/-- The weakest step: the clock and the queue stay, the laws are kept. -/
abbrev Orderly (s t : State) : Prop := Lawful everyBlock allCauses allCauses s t

theorem Lawful.orderly {free : List Block} (f : Lawful free r m s t) : Orderly s t :=
  f.mono (fun b _ => mem_everyBlock b) (fun c _ => mem_allCauses c) fun c _ => mem_allCauses c

theorem State.answer_cases (s : State) (x : RequestLine) (b : Bool) (code : Byte) (f : List Byte) :
    (∃ e, s.answer x b code f = (s, .refused e))
      ∨ ∃ k, requestOfCode code = some k ∧ k.servedOn x = true ∧ f.length = k.size
          ∧ s.answer x b code f = s.serve x b k f := by
  unfold State.answer
  split
  · exact .inl ⟨_, rfl⟩
  · rename_i k e
    split
    · exact .inl ⟨_, rfl⟩
    · rename_i h
      split
      · exact .inl ⟨_, rfl⟩
      · rename_i g
        exact .inr ⟨k, e, by simpa using h, not_not.1 g, rfl⟩

theorem State.answer_orderly (s : State) (x : RequestLine) (b : Bool) (code : Byte) (f : List Byte) :
    Orderly s (s.answer x b code f).1 := by
  rcases State.answer_cases s x b code f with ⟨e, h⟩ | ⟨k, -, -, -, h⟩
  · rw [h]
    exact Lawful.refl
  · rw [h]
    exact (State.serve_lawful s x b k f).orderly

theorem State.answer_port (s : State) (x y : RequestLine) (b : Bool) (code : Byte) (f : List Byte) :
    (s.answer x b code f).1.line.port y = s.line.port y := by
  rcases State.answer_cases s x b code f with ⟨e, h⟩ | ⟨k, -, -, -, h⟩
  · rw [h]
  · rw [h]
    exact State.serve_port s x y b k f

theorem State.takeRequest_orderly (s : State) (x : RequestLine) (code : Byte) (f : List Byte)
    (h : (s.line.port x).waiting.length < Config.responseCapacity) : Orderly s (s.takeRequest x code f) := by
  unfold State.takeRequest
  dsimp only
  have p : ((((s.heardOn x).answer x s.set.heard code f).1).line.port x).waiting.length < Config.responseCapacity := by
    rw [State.answer_port, State.heardOn_port]
    exact h
  have g : ∀ b, Orderly s (((s.heardOn x).answer x s.set.heard code f).1.respond x b) := fun b =>
    (State.heardOn_lawful (r := []) (m := []) s x).orderly.trans ((State.answer_orderly _ x _ code f).trans
      (State.respond_lawful (r := []) (m := []) _ x b p).orderly)
  exact Lawful.ite (fun _ => (g _).trans (State.afterRemovals_lawful _ _ _).orderly) fun _ => g _

theorem State.takeFrame_orderly (s : State) (x : RequestLine) (body : List Byte) : Orderly s (s.takeFrame x body) := by
  unfold State.takeFrame
  split
  · exact Lawful.refl
  · split
    · exact (State.dropRequest_lawful (r := []) (m := []) s x).orderly
    · rename_i h
      refine State.takeRequest_orderly s x _ _ ?_
      unfold State.isFull at h
      simpa using h

/-! ### Lines -/

theorem State.withFramer_orderly (s : State) (x : SerialLine) (kept : List Byte) : Orderly s (s.withFramer x kept) := by
  cases x
  · exact (State.withPort_lawful (r := []) (m := []) s .cab { s.line.cab with framer := kept } fun q => q.port .cab).orderly
  · exact (State.withPort_lawful (r := []) (m := []) s .crew { s.line.crew with framer := kept } fun q => q.port .crew).orderly
  · exact (State.withRadio_lawful (r := []) (m := []) s { s.radio with framer := kept } fun q => q.radio.2.2.2).orderly

theorem State.hand_orderly (s : State) (x : SerialLine) (body : List Byte) : Orderly s (s.hand x body) := by
  cases x
  · exact State.takeFrame_orderly s .cab body
  · exact State.takeFrame_orderly s .crew body
  · exact (State.takeDownlink_lawful s body).orderly

theorem State.received_orderly (s : State) (x : SerialLine) (y : List (List Byte) × List Byte) :
    Orderly s (s.received x y) :=
  (State.withFramer_orderly s x y.2).trans (Lawful.foldl (fun u body => State.hand u x body) y.1
    (fun u body => State.hand_orderly u x body) (by decide) _)

theorem State.feed_orderly (s : State) (x : SerialLine) (b : Byte) : Orderly s (s.feed x b) := State.received_orderly s x _

theorem State.characterError_orderly (s : State) (x : SerialLine) : Orderly s (s.characterError x) :=
  State.received_orderly s x _

theorem State.frame_orderly (s : State) (x : SerialLine) (body : List Byte) : Orderly s (s.frame x body) :=
  (State.withFramer_orderly s x []).trans (State.hand_orderly _ x body)

theorem State.request_orderly (s : State) (x : RequestLine) (k : RequestKind) (f : List Byte) :
    Orderly s (s.request x k f) := State.frame_orderly s _ _

theorem State.downlink_orderly (s : State) (k : DownlinkKind) (d : BitVec 16) (f : List Byte) :
    Orderly s (s.downlink k d f) := State.frame_orderly s _ _

theorem State.evaluationExpiry_lawful (s : State) :
    Lawful [.evaluationTimer] overspeeds [.overspeedService] s s.evaluationExpiry := by
  unfold State.evaluationExpiry
  refine Lawful.ite (fun _ => ?_) fun _ => Lawful.refl
  · have f : Lawful [.evaluationTimer] overspeeds [.overspeedService] s
        (s.withSup { s.sup with timer := some (s.after Config.evaluationTime) }) := by
      refine .mk ?_ fun q => ⟨q.1, q.2, q.3, q.4, q.5, q.6, q.7⟩
      constructor <;> intros <;>
        first | rfl | exact RadioUnit.Queues.refl _ | exact le_refl _ | exact .inl rfl | assumption | exact .inl ‹_› | exact .inr ⟨rfl, rfl⟩ | simp at *
    exact f.trans ((State.evaluate_lawful _).blocks)

end Sys2Proof.Machine
end

