-- ==== Sys2Proof/Laws/PowerOn.lean ====
section
/-! SUPPORT. Power-on reset: `State.reset` is what POWER_ON_RESET with the inputs of log 4 gives, and every state it gives keeps
the laws. -/

namespace Sys2Proof.Machine

set_option Elab.async false

/-- The end of reset gives the reset tables: the loop-break output, open while reset is held, closes on the empty set. -/
theorem State.heldInReset_endReset (p : PinLevels) : (State.heldInReset p).endReset = State.atReset p := rfl

/-- `State.reset` is the state POWER_ON_RESET leaves when every input is at rest (log 4). -/
theorem State.powerOn_atRest : (State.reset).powerOn PinLevels.atRest = State.reset := by decide +kernel

theorem Settings.default_range (i : ConfigItem) :
    i.range.1 ≤ Settings.default.get i ∧ Settings.default.get i ≤ i.range.2 := by
  cases i <;> first | decide | (rename_i k; cases k <;> decide)

theorem State.powerOn_pending (s : State) (p : PinLevels) : (s.powerOn p).pending = s.pending := by
  unfold State.powerOn
  rw [(State.testProof_frame (r := []) (m := []) _).pending, (State.testLoop_lawful _).frame.pending,
    (State.recompute_lawful _).frame.pending]
  rfl

theorem State.powerOn_clock (s : State) (p : PinLevels) : (s.powerOn p).clock = 0 := by
  unfold State.powerOn
  rw [(State.testProof_frame (r := []) (m := []) _).clock, (State.testLoop_lawful _).frame.clock,
    (State.recompute_lawful _).frame.clock]
  rfl

/-- The reset tables, before the first notices, with the queue that waits. -/
theorem State.atReset_core (l : List Instr) (p : PinLevels) : ((State.atReset p).withPending l).Core := by
  · refine ⟨by simp [State.InterventionLaw, State.atReset, State.withPending, InterventionSet.hasLevel], ?_, ?_, ?_, ?_⟩
    · simp [State.TimerLaw, State.atReset, State.withPending, RadioUnit.atReset]
    · simp [State.CapacityLaw, State.atReset, State.withPending, RadioUnit.atReset, RadioUnit.flying, Port.idle]
      intro c
      cases c <;> decide
    · refine ⟨by simp [State.atReset, State.withPending], Nat.zero_le _, le_refl _, Nat.zero_le _,
        (by decide : 0 < Config.slipTeeth), Nat.zero_le _, (by decide : (-3 : Int) ≤ 0), (by decide : (0 : Int) ≤ 3),
        Settings.default_range, Nat.zero_le _, fun c => ?_⟩
      cases c <;> exact ⟨Nat.zero_le _, Nat.zero_le _⟩
    · refine ⟨fun h => absurd h (by simp [State.atReset, State.withPending]), fun c _ => ?_, fun _ => ?_, fun h => ?_⟩
      · cases c <;> exact ⟨.inr ⟨rfl, rfl, rfl⟩, rfl, rfl⟩
      · exact ⟨.inr ⟨rfl, rfl, rfl⟩, rfl, rfl⟩
      · exact absurd h (by simp [State.atReset, State.withPending])

theorem State.powerOn_first (l : List Instr) (p : PinLevels) : ((State.atReset p).withPending l).recompute.Sound := by
  refine State.recompute_sound (State.atReset_core l p) ?_ ?_
  · simp [State.PermitLaw, State.permitHolds, State.atReset, State.withPending]
  · refine ⟨?_, fun d => ?_⟩
    · simp only [State.atReset, State.withPending, DoorController.anyUnlocked, allDoors, PerDoor.get,
        DoorRecord.fromPins, List.any_cons, List.any_nil]
      cases p.door.d1.closedMade <;> cases p.door.d2.closedMade <;> cases p.door.d3.closedMade
        <;> cases p.door.d4.closedMade <;> rfl
    · cases d <;> simp only [State.atReset, State.withPending, State.doorAt, PerDoor.get, DoorRecord.fromPins] <;>
        (split <;> exact ⟨rfl, Nat.zero_le _⟩)

theorem State.powerOn_sound (s : State) (p : PinLevels) : (s.powerOn p).Sound := by
  unfold State.powerOn
  rw [State.heldInReset_endReset]
  exact (State.testProof_lawful (r := []) (m := []) _).sound ((State.testLoop_lawful _).sound (State.powerOn_first _ p))

theorem State.atReset_ordered (l : List Instr) (p : PinLevels) : ((State.atReset p).withPending l).Ordered where
  moving := State.movingLaw_still rfl
  window := State.windowLaw_iff.2 ⟨Window.run_nil rfl, Window.asks_of fun _ _ h => absurd h (by
    simp [State.atReset, State.withPending])⟩
  ratings c := by cases c <;> exact fun h => by cases h
  proof := State.proofLaw_none rfl
  queue := ⟨Nat.zero_le _, fun h => absurd h (by simp [State.atReset, State.withPending, RadioUnit.atReset]), le_refl _,
    fun _ h => absurd h (by simp [State.atReset, State.withPending, RadioUnit.atReset])⟩

/-- POWER_ON_RESET leaves every further law true. -/
theorem State.powerOn_ordered (s : State) (p : PinLevels) : (s.powerOn p).Ordered := by
  have k1 := State.recompute_keeps (State.atReset_core s.pending p)
  have s1 := State.powerOn_first s.pending p
  have f2 := State.testLoop_lawful ((State.atReset p).withPending s.pending).recompute
  have f3 := State.testProof_lawful (r := []) (m := []) ((State.atReset p).withPending s.pending).recompute.testLoop
  refine State.ordered_iff.2 fun x => ?_
  unfold State.powerOn
  rw [State.heldInReset_endReset]
  exact f3.keeps (f2.sound s1) x (by simp) (f2.keeps s1 x (by simp)
    (k1 x (by simp) (State.ordered_iff.1 (State.atReset_ordered s.pending p) x)))

end Sys2Proof.Machine
end

