-- ==== Sys2Proof/Laws/Raisings.lean ====
section
/-! SUPPORT. What becomes of the intervention set and of the supervision state in a raising, a removal and an evaluation. -/

namespace Sys2Proof.Machine

set_option Elab.async false

variable {s t : State} {c : Cause} {ev : State → State}

/-! ### The set -/

/-- The entry that a raising appends. -/
def State.entryOf (s : State) (c : Cause) (x : Capture) : Entry :=
  { cause := c, capture := x, time := s.partTime, heard := false }

/-- The set after a raising (R79). -/
def State.raisedSet (s : State) (c : Cause) (x : Capture) : InterventionSet :=
  if s.set.has c then s.set else s.set.append (s.entryOf c x)

/-- The set after a removal (R81). -/
def State.removedSet (s : State) (c : Cause) : InterventionSet := if s.set.has c then s.set.erase c else s.set

theorem InterventionSet.has_append (i : InterventionSet) (e : Entry) (c : Cause) :
    (i.append e).has c = (i.has c || e.cause == c) := by simp [InterventionSet.has, InterventionSet.append]

theorem InterventionSet.has_erase (i : InterventionSet) (c d : Cause) :
    (i.erase c).has d = (i.has d && d != c) := by
  rw [Bool.eq_iff_iff]
  simp only [InterventionSet.has, InterventionSet.erase, List.any_filter, List.any_eq_true, Bool.and_eq_true, bne_iff_ne,
    beq_iff_eq]
  constructor
  · rintro ⟨e, m, h, rfl⟩
    exact ⟨⟨e, m, rfl⟩, h⟩
  · rintro ⟨⟨e, m, rfl⟩, h⟩
    exact ⟨e, m, h, rfl⟩

theorem State.raisedSet_has (s : State) (c d : Cause) (x : Capture) : (s.raisedSet c x).has d = (s.set.has d || c == d) := by
  unfold State.raisedSet
  split
  · rename_i h
    by_cases e : c = d
    · subst e; simp [h]
    · simp [e]
  · rw [InterventionSet.has_append]
    rfl

theorem State.removedSet_has (s : State) (c d : Cause) : (s.removedSet c).has d = (s.set.has d && d != c) := by
  unfold State.removedSet
  split
  · exact InterventionSet.has_erase _ _ _
  · rename_i h
    by_cases e : d = c
    · subst e; simp_all
    · simp [e]

/-- The operations whose notices leave the set as it is. -/
def KeepsSet (ev : State → State) : Prop := ∀ s : State, (ev s).set = s.set

@[simp] theorem State.report_set (s : State) (b : ReportBody) : (s.report b).set = s.set := by
  unfold State.report; split <;> rfl

@[simp] theorem State.reportPosition_set (s : State) : s.reportPosition.set = s.set := by
  unfold State.reportPosition; split <;> rfl

@[simp] theorem State.testProof_set (s : State) : s.testProof.set = s.set := by
  unfold State.testProof; split
  · split <;> rfl
  · rfl

@[simp] theorem State.abandonProof_set (s : State) : s.abandonProof.set = s.set := by
  unfold State.abandonProof; split <;> rfl

theorem State.springNotice_set (k : KeepsSet ev) (s : State) (a : Bool) : (s.springNotice ev a).set = s.set := by
  unfold State.springNotice
  cases a
  · exact (State.abandonProof_set (ev s)).trans (k s)
  · simp only [if_true]
    split
    · exact (k _).trans ((State.testProof_set (ev s)).trans (k s))
    · exact (State.testProof_set (ev s)).trans (k s)

theorem State.combine_set (k : KeepsSet ev) (s : State) (b : Bool) : (s.combine ev b).set = s.set := by
  unfold State.combine
  simp only []
  split
  · rfl
  · exact State.springNotice_set k _ _

theorem State.raiseWith_set (k : KeepsSet ev) (s : State) (c : Cause) (x : Capture) :
    (s.raiseWith ev c x).set = s.raisedSet c x := by
  unfold State.raiseWith State.raisedSet
  split
  · rfl
  · simp only []
    split
    · rw [State.abandonProof_set, State.combine_set k, k, State.reportPosition_set, State.report_set]
      rfl
    · rw [State.combine_set k, k, State.reportPosition_set, State.report_set]
      rfl

theorem State.removeWith_set (k : KeepsSet ev) (s : State) (c : Cause) : (s.removeWith ev c).set = s.removedSet c := by
  unfold State.removeWith State.removedSet
  split
  · rw [State.testProof_set, State.combine_set k, k, State.report_set]
    rfl
  · rfl

theorem State.evaluateQuiet_set : KeepsSet State.evaluateQuiet := fun _ => rfl

/-- An evaluation inside the step of a release raises nothing: OVERSPEED_SERVICE leaves the set, or the set stays (R71, R91). -/
theorem State.evaluateAside_set (s : State) :
    s.evaluateAside.set = s.set ∨ s.evaluateAside.set = s.set.erase .overspeedService := by
  unfold State.evaluateAside State.judgeWith
  dsimp only [id]
  split
  · rw [State.removeWith_set State.evaluateQuiet_set, State.removedSet]
    split
    · exact .inr rfl
    · exact .inl rfl
  · exact .inl rfl

/-- The raisings of the supervisor join at the end of the set, each if its cause is not present (R79, R91). -/
theorem State.raiseOverspeeds_set (s judged : State) :
    ∃ new, (s.raiseOverspeeds judged).set.entries = s.set.entries ++ new ∧ ∀ e ∈ new, e.cause ∈ overspeeds := by
  refine judged.raiseOverspeeds_raising (fun t => ∃ new, t.set.entries = s.set.entries ++ new ∧ ∀ e ∈ new, e.cause ∈ overspeeds)
    (fun t c hc ⟨new, h, k⟩ => ?_) s ⟨[], by simp, by simp⟩
  rw [State.raiseWith_set State.evaluateQuiet_set, State.raisedSet]
  split
  · exact ⟨new, h, k⟩
  · refine ⟨new ++ [t.entryOf c judged.capture], by simp [InterventionSet.append, h], fun e he => ?_⟩
    rcases List.mem_append.1 he with he | he
    · exact k e he
    · rw [List.mem_singleton.1 he]
      exact hc

/-- A calm car: v is above neither intervention speed. -/
def State.Calm (s : State) : Prop := s.overService = false ∧ s.overEmergency = false

/-- Which overspeed causes are present after a judgement (R70, R71). -/
theorem State.judge_has (s : State) (c : Cause) :
    s.judge.set.has c
      = ((s.set.has c || s.overService && c == .overspeedService || s.overEmergency && c == .overspeedEmergency)
          && !(s.set.has .overspeedService && s.belowService && c == .overspeedService)) := by
  unfold State.judge State.judgeWith State.raiseOverspeeds
  simp only []
  have e1 : ∀ t : State, (if s.overService then t.raiseWith State.evaluateQuiet .overspeedService s.capture else t).set.has c
      = (t.set.has c || s.overService && c == .overspeedService) := by
    intro t
    split
    · rename_i h
      rw [State.raiseWith_set State.evaluateQuiet_set, State.raisedSet_has, h, Bool.true_and]
      rw [Bool.beq_comm]
    · rename_i h
      simp [h]
  have e2 : ∀ t : State,
      (if s.overEmergency then t.raiseWith State.evaluateQuiet .overspeedEmergency s.capture else t).set.has c
      = (t.set.has c || s.overEmergency && c == .overspeedEmergency) := by
    intro t
    split
    · rename_i h
      rw [State.raiseWith_set State.evaluateQuiet_set, State.raisedSet_has, h, Bool.true_and]
      rw [Bool.beq_comm]
    · rename_i h
      simp [h]
  split
  · rename_i h
    rw [State.removeWith_set State.evaluateQuiet_set, State.removedSet_has, e2, e1]
    rw [h]
    simp
    rfl
  · rename_i h
    rw [e2, e1]
    simp only [Bool.not_eq_true] at h
    rw [h]
    simp
    rfl

/-- With nothing to raise and nothing to remove an evaluation leaves the set. -/
theorem State.judge_set_calm (h : s.Calm) (k : s.set.has .overspeedService = false ∨ s.belowService = false) :
    s.judge.set = s.set := by
  unfold State.judge State.judgeWith State.raiseOverspeeds
  have r : (s.set.has .overspeedService && s.belowService) = false := by rcases k with k | k <;> simp [k]
  simp [h.1, h.2, r, State.withSupervision]

/-! ### The supervision state (R69) -/

/-- The supervision state is that of the set, of v and of P. -/
def State.Judged (s : State) : Prop :=
  s.sup.state = supervisionOf (s.set.has .overspeedService || s.set.has .overspeedEmergency) s.odo.v s.sup.permitted

theorem State.evaluateQuiet_judged (s : State) : s.evaluateQuiet.Judged := rfl

theorem State.testProof_judged (h : s.Judged) : s.testProof.Judged := by
  unfold State.testProof
  split
  · split <;> exact h
  · exact h

theorem State.abandonProof_judged (h : s.Judged) : s.abandonProof.Judged := by
  unfold State.abandonProof
  split <;> exact h

theorem State.springNotice_judged (s : State) (a : Bool) : (s.springNotice State.evaluateQuiet a).Judged := by
  unfold State.springNotice
  cases a
  · exact State.abandonProof_judged (State.evaluateQuiet_judged s)
  · simp only [if_true]
    split
    · exact State.evaluateQuiet_judged _
    · exact State.testProof_judged (State.evaluateQuiet_judged s)

theorem State.combine_judged (h : s.Judged) (b : Bool) : (s.combine State.evaluateQuiet b).Judged := by
  unfold State.combine
  simp only []
  split
  · exact h
  · exact State.springNotice_judged _ _

/-- A raising that appends an entry leaves the supervision state judged anew. -/
theorem State.raiseQuiet_judged (h : s.set.has c = false) (x : Capture) :
    (s.raiseWith State.evaluateQuiet c x).Judged := by
  unfold State.raiseWith
  simp only [h]
  split
  · contradiction
  · split
    · exact State.abandonProof_judged (State.combine_judged (State.evaluateQuiet_judged _) _)
    · exact State.combine_judged (State.evaluateQuiet_judged _) _

theorem State.removeQuiet_judged (h : s.set.has c = true) : (s.removeWith State.evaluateQuiet c).Judged := by
  unfold State.removeWith
  simp only [h, if_true]
  exact State.testProof_judged (State.combine_judged (State.evaluateQuiet_judged _) _)

theorem State.raiseWith_present (h : s.set.has c = true) (x : Capture) : s.raiseWith ev c x = s := by
  simp [State.raiseWith, h]

theorem State.removeWith_absent (h : s.set.has c = false) : s.removeWith ev c = s := by simp [State.removeWith, h]

/-- After an evaluation the supervision state is that of the set, of v and of P (R69). -/
theorem State.judge_judged (s : State) : s.judge.Judged := by
  have step : ∀ (t : State) (b : Bool) (c : Cause), (b = false ∨ t.set.has c = true ∨ t.set.has c = false ∧ b = true)
      ∧ ((b = true → t.set.has c = true) → (if b then t.raiseWith State.evaluateQuiet c s.capture else t) = t)
      ∧ (b = true → t.set.has c = false → (if b then t.raiseWith State.evaluateQuiet c s.capture else t).Judged) := by
    intro t b c
    cases b <;> cases h : t.set.has c <;> simp_all [State.raiseWith_present, State.raiseQuiet_judged]
  unfold State.judge State.judgeWith State.raiseOverspeeds
  simp only []
  generalize hr : (s.set.has .overspeedService && s.belowService) = remove
  cases remove
  · simp only [Bool.not_false, Bool.and_true, Bool.false_eq_true, if_false]
    generalize ht : s.withSupervision _ = t0
    have e0 : t0.set = s.set := by rw [← ht]; rfl
    by_cases a : s.overService = true → t0.set.has .overspeedService = true
    · rw [(step t0 s.overService .overspeedService).2.1 a]
      by_cases b : s.overEmergency = true → t0.set.has .overspeedEmergency = true
      · rw [(step t0 s.overEmergency .overspeedEmergency).2.1 b]
        rw [e0] at a b
        rw [← ht]
        show supervisionOf _ _ _ = supervisionOf _ _ _
        congr 1
        show _ = (s.set.has .overspeedService || s.set.has .overspeedEmergency)
        cases h1 : s.overService <;> cases h2 : s.overEmergency <;> simp_all
      · simp only [Classical.not_imp, Bool.not_eq_true] at b
        exact (step t0 s.overEmergency .overspeedEmergency).2.2 b.1 b.2
    · simp only [Classical.not_imp, Bool.not_eq_true] at a
      have j := (step t0 s.overService .overspeedService).2.2 a.1 a.2
      generalize (if s.overService then t0.raiseWith State.evaluateQuiet .overspeedService s.capture else t0) = t1 at j
      by_cases b : s.overEmergency = true → t1.set.has .overspeedEmergency = true
      · rw [(step t1 s.overEmergency .overspeedEmergency).2.1 b]
        exact j
      · simp only [Classical.not_imp, Bool.not_eq_true] at b
        exact (step t1 s.overEmergency .overspeedEmergency).2.2 b.1 b.2
  · simp only [if_true]
    refine State.removeQuiet_judged ?_
    have grows : ∀ (t : State) (b : Bool) (c : Cause), t.set.has .overspeedService = true →
        (if b then t.raiseWith State.evaluateQuiet c s.capture else t).set.has .overspeedService = true := by
      intro t b c h
      cases b
      · exact h
      · simp only [if_true]
        rw [State.raiseWith_set State.evaluateQuiet_set, State.raisedSet_has, h, Bool.true_or]
    refine grows _ _ _ (grows _ _ _ ?_)
    rw [Bool.and_eq_true] at hr
    exact hr.1

/-! ### An evaluation as a whole -/

/-- P and v stay what the figures of the evaluation made them. -/
theorem State.judge_speeds (s : State) :
    s.evaluate.odo = s.decayed.withFigures.odo ∧ s.evaluate.sup.permitted = s.decayed.withFigures.sup.permitted := by
  have o := (steady_cascade.judge s.decayed.withFigures s.decayed_settled).1
  refine ⟨o, ?_⟩
  have f := State.judge_frame s.decayed.withFigures
  have g := State.figures_congr (s := s.decayed.withFigures) (t := s.evaluate) o (f.window (by simp)) (f.authority (by simp))
    (f.settings (by simp)) ((congrArg RadioUnit.link (f.radio (by simp))).trans rfl) (f.capability (by simp))
  rw [s.evaluate_figured.2.1, g.2]
  exact (s.decayed.withFigures_figured).2.1.symm

/-- Which causes are present after an evaluation, by v and P as it leaves them (R70, R71). -/
theorem State.evaluate_has (s : State) (c : Cause) :
    s.evaluate.set.has c
      = ((s.set.has c || decide (serviceMargin s.evaluate.sup.permitted < s.evaluate.odo.v) && c == .overspeedService
            || decide (emergencyMargin s.evaluate.sup.permitted < s.evaluate.odo.v) && c == .overspeedEmergency)
          && !(s.set.has .overspeedService
            && (decide (s.evaluate.odo.v ≤ s.evaluate.sup.permitted - s.evaluate.sup.permitted / 16)
                || s.evaluate.odo.standstill) && c == .overspeedService)) := by
  rw [s.judge_speeds.1, s.judge_speeds.2]
  exact State.judge_has s.decayed.withFigures c

/-- An evaluation that finds nothing to raise and nothing to remove is decay, figures, supervision state and permit alone. -/
theorem State.evaluate_calm (h : s.decayed.withFigures.Calm)
    (k : s.set.has .overspeedService = false ∨ s.decayed.withFigures.belowService = false) :
    ∃ b, s.evaluate = s.decayed.withFigures.withSupervision b := by
  show ∃ b, s.decayed.withFigures.judge = _
  unfold State.judge State.judgeWith State.raiseOverspeeds
  have r : (s.decayed.withFigures.set.has .overspeedService && s.decayed.withFigures.belowService) = false := by
    rcases k with k | k
    · rw [show s.decayed.withFigures.set = s.set from rfl, k, Bool.false_and]
    · rw [k, Bool.and_false]
  simp only [h.1, h.2, r, Bool.false_eq_true, if_false]
  exact ⟨_, rfl⟩

/-- A car at rest is calm. -/
theorem State.calm_rest (h : s.odo.v = 0) : s.decayed.withFigures.Calm := by
  have v : s.decayed.withFigures.odo.v = 0 := Nat.le_zero.1 (h ▸ Odometry.decayedSpeed_le s.odo s.clock)
  constructor
  · unfold State.overService; rw [v]; rfl
  · unfold State.overEmergency; rw [v]; rfl

end Sys2Proof.Machine
end

