-- ==== Sys2Proof/Laws/Requests.lean ====
section
/-! SUPPORT. A request that its line serves: what its owner's step starts from, what that step leaves, and the response. -/

namespace Sys2Proof.Machine

set_option Elab.async false

variable {s t u : State}

/-! ### A response touches its port alone -/

theorem State.respond_eq (s : State) (x : RequestLine) (f : List Byte) :
    ∃ p, s.respond x f = s.withPort x p ∧ (s.line.port x).Given p x s.clock f ∧ p.framer = (s.line.port x).framer := by
  unfold State.respond Port.Given
  generalize s.line.port x = q
  obtain ⟨fr, waiting, sending, overflow⟩ := q
  cases sending
  · exact ⟨{ framer := fr, waiting := waiting, sending := some (s.beginResponse x f), overflow := overflow }, rfl, rfl, rfl⟩
  · exact ⟨{ framer := fr, waiting := waiting ++ [f], sending := some _, overflow := overflow }, rfl, rfl, rfl⟩

theorem State.withPort_line (s : State) (x : RequestLine) (p : Port) : (s.withPort x p).line = s.line.withPort x p := rfl

@[simp] theorem State.withPort_clock (s : State) (x : RequestLine) (p : Port) : (s.withPort x p).clock = s.clock := rfl
@[simp] theorem State.withPort_odo (s : State) (x : RequestLine) (p : Port) : (s.withPort x p).odo = s.odo := rfl
@[simp] theorem State.withPort_win (s : State) (x : RequestLine) (p : Port) : (s.withPort x p).win = s.win := rfl
@[simp] theorem State.withPort_auth (s : State) (x : RequestLine) (p : Port) : (s.withPort x p).auth = s.auth := rfl
@[simp] theorem State.withPort_sup (s : State) (x : RequestLine) (p : Port) : (s.withPort x p).sup = s.sup := rfl
@[simp] theorem State.withPort_set (s : State) (x : RequestLine) (p : Port) : (s.withPort x p).set = s.set := rfl
@[simp] theorem State.withPort_comb (s : State) (x : RequestLine) (p : Port) : (s.withPort x p).comb = s.comb := rfl
@[simp] theorem State.withPort_drive (s : State) (x : RequestLine) (p : Port) : (s.withPort x p).drive = s.drive := rfl
@[simp] theorem State.withPort_scan (s : State) (x : RequestLine) (p : Port) : (s.withPort x p).scan = s.scan := rfl
@[simp] theorem State.withPort_prov (s : State) (x : RequestLine) (p : Port) : (s.withPort x p).prov = s.prov := rfl
@[simp] theorem State.withPort_doors (s : State) (x : RequestLine) (p : Port) : (s.withPort x p).doors = s.doors := rfl
@[simp] theorem State.withPort_radio (s : State) (x : RequestLine) (p : Port) : (s.withPort x p).radio = s.radio := rfl
@[simp] theorem State.withPort_cfg (s : State) (x : RequestLine) (p : Port) : (s.withPort x p).cfg = s.cfg := by
  cases x <;> rfl
@[simp] theorem State.withPort_pending (s : State) (x : RequestLine) (p : Port) : (s.withPort x p).pending = s.pending := rfl

theorem State.withPort_frame {r m : List Cause} (s : State) (x : RequestLine) (p : Port) :
    Frame [portBlock x] r m s (s.withPort x p) := by
  cases x <;> constructor <;> intros <;>
    first | rfl | exact RadioUnit.Queues.refl _ | exact le_refl _ | exact .inl rfl | assumption | exact .inl ‹_› | exact .inr ⟨rfl, rfl⟩ | simp at *

/-! ### What the owner starts from -/

theorem State.withFramer_port (s : State) (x : RequestLine) (kept : List Byte) :
    (s.withFramer (serialOf x) kept).line.port x = { s.line.port x with framer := kept } := by cases x <;> rfl

theorem State.withFramer_clock (s : State) (x : SerialLine) (kept : List Byte) :
    (s.withFramer x kept).clock = s.clock := by cases x <;> rfl

theorem State.withFramer_set (s : State) (x : SerialLine) (kept : List Byte) :
    (s.withFramer x kept).set = s.set := by cases x <;> rfl

theorem State.withFramer_port_waiting (s : State) (x : RequestLine) (kept : List Byte) :
    ((s.withFramer (serialOf x) kept).line.port x).waiting = (s.line.port x).waiting := by cases x <;> rfl

theorem State.heardAt_clock (s : State) (x : RequestLine) : (s.heardAt x).clock = s.clock :=
  ((State.heardOn_lawful (r := []) (m := []) _ x).frame.clock).trans (State.withFramer_clock s _ _)

theorem State.heardAt_port (s : State) (x : RequestLine) :
    (s.heardAt x).line.port x = { s.line.port x with framer := [] } :=
  (State.heardOn_port _ x x).trans (State.withFramer_port s x [])

/-- Hearing a request changes the cab timer, the heard mark and the framer of its line alone (R89, R182, R193). -/
theorem State.hearCab_keeps (s : State) :
    s.hearCab.odo = s.odo ∧ s.hearCab.win = s.win ∧ s.hearCab.auth = s.auth ∧ s.hearCab.sup = s.sup ∧ s.hearCab.comb = s.comb
      ∧ s.hearCab.drive = s.drive ∧ s.hearCab.scan = s.scan ∧ s.hearCab.prov = s.prov ∧ s.hearCab.doors = s.doors
      ∧ s.hearCab.radio = s.radio ∧ s.hearCab.line.opState = s.line.opState ∧ s.hearCab.line.settings = s.line.settings
      ∧ s.hearCab.set = s.set.hear ∧ s.hearCab.pending = s.pending := by
  unfold State.hearCab
  simp only []
  split <;> exact ⟨rfl, rfl, rfl, rfl, rfl, rfl, rfl, rfl, rfl, rfl, rfl, rfl, rfl, rfl⟩

theorem State.heardAt_keeps (s : State) (x : RequestLine) :
    (s.heardAt x).odo = s.odo ∧ (s.heardAt x).win = s.win ∧ (s.heardAt x).auth = s.auth ∧ (s.heardAt x).sup = s.sup
      ∧ (s.heardAt x).comb = s.comb ∧ (s.heardAt x).drive = s.drive ∧ (s.heardAt x).scan = s.scan
      ∧ (s.heardAt x).prov = s.prov ∧ (s.heardAt x).doors = s.doors ∧ (s.heardAt x).radio = s.radio
      ∧ (s.heardAt x).line.opState = s.line.opState ∧ (s.heardAt x).cfg = s.cfg
      ∧ (s.heardAt x).set.loopOpen = s.set.loopOpen ∧ (s.heardAt x).pending = s.pending := by
  cases x
  · obtain ⟨a1, a2, a3, a4, a5, a6, a7, a8, a9, a10, a11, a12, a13, a14⟩ := State.hearCab_keeps (s.withFramer .cab [])
    exact ⟨a1, a2, a3, a4, a5, a6, a7, a8, a9, a10, a11, a12, (congrArg InterventionSet.loopOpen a13).trans rfl, a14⟩
  · exact ⟨rfl, rfl, rfl, rfl, rfl, rfl, rfl, rfl, rfl, rfl, rfl, rfl, rfl, rfl⟩

theorem requestOfCode_code (k : RequestKind) : requestOfCode k.code = some k := by cases k <;> decide

/-- A request with its response built, before the raisings that its step brought are taken. -/
def State.served (s : State) (x : RequestLine) (k : RequestKind) (f : List Byte) : State :=
  ((s.heardAt x).serve x s.set.heard k f).1.respond x
    (frameOf (((s.heardAt x).serve x s.set.heard k f).1.responseBody k.code ((s.heardAt x).serve x s.set.heard k f).2))

/-- A request that its line serves, of the right length, on a line with room: the owner's step, then the response, then the
raisings that the step of an ACK_INTERVENTION brought. -/
theorem State.request_eq (s : State) (x : RequestLine) (k : RequestKind) (f : List Byte) (h : s.CanTake x)
    (hs : k.servedOn x = true) (hl : f.length = k.size) :
    s.request x k f
      = if k = .ackIntervention then
          (s.served x k f).afterRemovals (s.heardAt x) ((s.heardAt x).serve x s.set.heard k f).1
        else s.served x k f := by
  have full : (s.withFramer (serialOf x) []).isFull x = false := by
    unfold State.isFull
    rw [State.withFramer_port_waiting, decide_eq_false_iff_not, not_le]
    exact h
  have e : (s.heardAt x).answer x s.set.heard k.code f = (s.heardAt x).serve x s.set.heard k f := by
    unfold State.answer
    rw [requestOfCode_code]
    simp [hs, hl]
  have g : s.request x k f = (s.withFramer (serialOf x) []).takeRequest x k.code f := by
    have g' : s.request x k f = (s.withFramer (serialOf x) []).takeFrame x (k.code :: f) := by cases x <;> rfl
    rw [g', State.takeFrame, full]
    rfl
  rw [g]
  unfold State.takeRequest
  dsimp only
  rw [State.withFramer_set, requestOfCode_code, show (s.withFramer (serialOf x) []).heardOn x = s.heardAt x from rfl, e]
  simp only [Option.some.injEq]
  rfl

/-- What a served request leaves: the owner's state with the line's port given the response. -/
theorem State.served_serves (s : State) (x : RequestLine) (k : RequestKind) (f : List Byte) :
    ∃ p, s.served x k f = ((s.heardAt x).serve x s.set.heard k f).1.withPort x p
      ∧ Served s (((s.heardAt x).serve x s.set.heard k f).1.withPort x p) x k.code
          ((s.heardAt x).serve x s.set.heard k f).2 k.touches k.raises k.removes := by
  unfold State.served
  generalize hr : (s.heardAt x).serve x s.set.heard k f = z
  have fz : Frame k.touches k.raises k.removes (s.heardAt x) z.1 := hr ▸ (State.serve_lawful _ x _ k f).frame
  have pz : z.1.line.port x = { s.line.port x with framer := [] } := by
    rw [fz.port x (k.touches_port x), State.heardAt_port]
  obtain ⟨p, e, g, fr⟩ := State.respond_eq z.1 x (frameOf (z.1.responseBody k.code z.2))
  refine ⟨p, e, ?_, ?_⟩
  · unfold Answered
    have q : (z.1.withPort x p).line.port x = p := by
      rw [State.withPort_line, LineUnit.port_withPort, if_pos rfl]
    have b : (z.1.withPort x p).responseBody k.code z.2 = z.1.responseBody k.code z.2 := rfl
    have c : z.1.clock = s.clock := fz.clock.trans (State.heardAt_clock s x)
    rw [q, b]
    unfold Port.Given at *
    rw [pz, c] at g
    rw [pz] at fr
    dsimp only at g fr ⊢
    split at g <;> exact g
  · have f1 : Frame (portBlock x :: k.touches) k.raises k.removes (s.heardAt x) z.1 :=
      fz.mono (fun _ h => List.mem_cons_of_mem _ h) (fun _ h => h) fun _ h => h
    have f2 : Frame (portBlock x :: k.touches) k.raises k.removes z.1 (z.1.withPort x p) :=
      (State.withPort_frame _ x p).mono (by simp) (fun _ h => h) fun _ h => h
    exact f1.trans f2 (by cases k <;> cases x <;> decide)

theorem State.request_serves (s : State) (x : RequestLine) (k : RequestKind) (f : List Byte) (h : s.CanTake x)
    (hs : k.servedOn x = true) (hl : f.length = k.size) (n : k ≠ .ackIntervention) :
    ∃ p, s.request x k f = ((s.heardAt x).serve x s.set.heard k f).1.withPort x p
      ∧ Served s (((s.heardAt x).serve x s.set.heard k f).1.withPort x p) x k.code
          ((s.heardAt x).serve x s.set.heard k f).2 k.touches k.raises k.removes := by
  rw [State.request_eq s x k f h hs hl, if_neg n]
  exact s.served_serves x k f

end Sys2Proof.Machine
end

