-- ==== Sys2Proof/Laws/Timers.lean ====
section
/-! SUPPORT. When an expiry of a timer can come (log 3): some of its length has passed; not when the timer is stopped or has just
been (re)started. -/

namespace Sys2Proof.Machine

variable {t : Timer} {now length : Nat}

theorem Timer.expires_iff : t.expires now length = true ↔ ∃ m, t = some m ∧ (m < now + length ∨ m ≤ now) := by
  cases t <;> simp [Timer.expires]

theorem Timer.Elapsing.expires (h : t.Elapsing now length) : t.expires now length = true :=
  Timer.expires_iff.2 (h.imp fun _ k => ⟨k.1, .inl k.2⟩)

theorem Timer.Resting.stays (h : t.Resting now length) : t.expires now length = false := by
  rw [Bool.eq_false_iff, ne_eq, Timer.expires_iff]
  rintro ⟨m, e, k⟩
  have := h m e
  omega

/-- A timer whose moment has come expires, whatever its length. -/
theorem Timer.due_expires (h : t.due now = true) : t.expires now length = true := by
  cases t with
  | none => exact absurd h (by simp [Timer.due])
  | some m => exact Timer.expires_iff.2 ⟨m, rfl, .inr (by simpa [Timer.due] using h)⟩

/-- A timer that a step has (re)started does not expire in that moment. -/
theorem Timer.restarted_resting (h : 0 < length) : Timer.Resting (some (now + length)) now length := by
  rintro m ⟨⟩
  omega

theorem Timer.elapsing_iff : t.Elapsing now length ↔ (t.any fun m => decide (m < now + length)) = true := by
  cases t <;> simp [Timer.Elapsing]

theorem Timer.resting_iff : t.Resting now length ↔ (t.all fun m => decide (now < m ∧ now + length ≤ m)) = true := by
  cases t <;> simp [Timer.Resting]

end Sys2Proof.Machine
end

