-- ==== Sys2Proof/Laws/Wanted.lean ====
section
/-! SUPPORT. The wanted request: the derivation gives the one that R24 and R27 ask for, and what changes neither the window nor the
footprint keeps it. -/

namespace Sys2Proof.Machine

set_option Elab.async false

variable {s : State}

/-- The line goes on where a number lies beyond the edge. -/
theorem State.goesOn_iff {e : Vertical} {n : Nat} : s.GoesOn e n ↔ s.win.numberBeyond e = some n := by
  unfold State.GoesOn Window.numberBeyond
  cases e with
  | up =>
    dsimp only
    rcases s.win.records.getLast? with _ | g
    · simp
    · simp only [Option.some.injEq, exists_eq_left']
      have a : g.last = (Config.maxPosition : Int) ↔ g.start + g.length = 1048576 := by
        unfold Segment.last Config.maxPosition
        omega
      by_cases c : g.number = 65535 ∨ g.last = (Config.maxPosition : Int)
      · rw [if_pos c]
        simp only [reduceCtorEq, iff_false]
        omega
      · rw [if_neg c, Option.some.injEq]
        omega
  | down =>
    dsimp only
    rcases s.win.records.head? with _ | g
    · simp
    · simp only [Option.some.injEq, exists_eq_left']
      by_cases c : g.number = 0 ∨ g.start = 0
      · rw [if_pos c]
        simp only [reduceCtorEq, iff_false]
        omega
      · rw [if_neg c, Option.some.injEq]
        omega

theorem State.overhangs_iff {e : Vertical} : s.Overhangs e ↔ s.reachesBeyond e = true := by
  unfold State.Overhangs State.reachesBeyond Window.last? Window.first?
  cases e with
  | up =>
    dsimp only
    rcases s.win.records.getLast? with _ | g
    · simp
    · simp only [Option.some.injEq, exists_eq_left', Option.map_some, decide_eq_true_eq]
      rfl
  | down =>
    dsimp only
    rcases s.win.records.head? with _ | g
    · simp
    · simp only [Option.some.injEq, exists_eq_left', Option.map_some, decide_eq_true_eq]
      rfl

theorem State.needsBehind_iff {t : Vertical} {n : Nat} : s.NeedsBehind t n ↔
    (s.reachesBeyond t.opposite && !s.win.endFlag t.opposite) = true ∧ s.win.numberBeyond t.opposite = some n := by
  unfold State.NeedsBehind
  rw [State.overhangs_iff, State.goesOn_iff]
  cases t <;> simp [Window.endFlag, Vertical.opposite, and_assoc]

theorem State.needsAhead_iff {t : Vertical} {n : Nat} : s.NeedsAhead t n ↔
    (s.win.ahead < s.cfg.aheadLow ∧ s.win.endFlag t = false) ∧ s.win.numberBeyond t = some n := by
  unfold State.NeedsAhead
  rw [State.goesOn_iff]
  cases t <;> simp [Window.endFlag, and_assoc]

/-- The request that R24 and R27 derive on the window as it stands. -/
def State.derived (s : State) : Wanted :=
  if s.win.records.isEmpty then
    match s.odo.located, s.win.located with
    | true, some l => .byPosition l.number l.position
    | _, _ => .none
  else
    match s.neededNext with
    | none => .none
    | some (n, e) => if s.win.records.length < 32 then .byNumber n e else .pinned n e

theorem State.asked_of (h : s.win.wanted = s.derived) : s.Asked := by
  unfold State.derived at h
  refine ⟨fun k => ?_, fun k l => ?_, fun t k l => ?_⟩
  · rw [if_pos (by simp [k])] at h
    exact h
  · rw [if_neg (by simp [k])] at h
    simpa [State.neededNext, l, Direction.travel] using h
  · rw [if_neg (by simp [k])] at h
    have l' : s.odo.direction.travel = some t := by rw [l]; cases t <;> rfl
    unfold State.neededNext at h
    rw [l'] at h
    dsimp only at h
    simp only [State.needsBehind_iff, State.needsAhead_iff]
    unfold Window.Requests
    refine ⟨fun n m => ?_, fun m => ⟨fun n o => ?_, fun o => ?_⟩⟩
    · rw [m.1, m.2] at h
      simpa using h
    · rcases hb : (s.reachesBeyond t.opposite && !s.win.endFlag t.opposite) with _ | _
      · simp [hb, o.1, o.2] at h
        exact h
      · rcases hn : s.win.numberBeyond t.opposite with _ | j
        · simp [hb, hn, o.1, o.2] at h
          exact h
        · exact absurd ⟨hb, hn⟩ (m j)
    · rcases hb : (s.reachesBeyond t.opposite && !s.win.endFlag t.opposite) with _ | _
      · by_cases c : s.win.ahead < s.cfg.aheadLow ∧ s.win.endFlag t = false
        · rcases hn : s.win.numberBeyond t with _ | j
          · simpa [hb, c, hn] using h
          · exact absurd ⟨c, hn⟩ (o j)
        · simpa [hb, c] using h
      · rcases hn : s.win.numberBeyond t.opposite with _ | j
        · by_cases c : s.win.ahead < s.cfg.aheadLow ∧ s.win.endFlag t = false
          · rcases hm : s.win.numberBeyond t with _ | j
            · simpa [hb, c, hn, hm] using h
            · exact absurd ⟨c, hm⟩ (o j)
          · simpa [hb, c, hn] using h
        · exact absurd ⟨hb, hn⟩ (m j)

/-- A derived request is the one that R24 asks for, whatever request stood before: the law of the derivation reads the window's
records, flags and counts alone. -/
theorem State.derived_withWanted (x : Wanted) : (s.withWin { s.win with wanted := x }).derived = s.derived := rfl

/-- Case 3 decides where the footprint does not reach beyond the trailing edge (R24). -/
theorem State.neededNext_ahead {t : Vertical} (k : s.odo.direction.travel = some t) (r : s.reachesBeyond t.opposite = false) :
    s.neededNext
      = if s.win.ahead < s.cfg.aheadLow ∧ s.win.endFlag t = false then (s.win.numberBeyond t).map (fun n => (n, t)) else none := by
  unfold State.neededNext
  rw [k]
  dsimp only
  rw [r]
  simp

/-- Where a record lies behind, the footprint does not reach beyond the trailing edge, nor does it once the farthest has left. -/
theorem State.reachesBeyond_drop {t : Vertical} (k : s.odo.direction.travel = some t) (h : s.win.Run)
    (l : ∀ g ∈ s.win.records, 1 ≤ g.length) (b : s.behindRecords ≠ []) :
    s.reachesBeyond t.opposite = false ∧ (s.withWin (s.win.drop t.opposite 1)).reachesBeyond t.opposite = false := by
  obtain ⟨g, hg⟩ := List.exists_mem_of_ne_nil _ b
  refine ⟨eq_false_of_ne_true fun r => b (State.behind_nil k h l r), ?_⟩
  unfold State.behindRecords at hg
  rw [k] at hg
  obtain ⟨m, hb⟩ := List.mem_filter.1 hg
  cases t with
  | up =>
    have hb' : (g.start : Int) + g.length - 1 < s.lo := by simpa [Segment.beyond, Vertical.opposite, Segment.last] using hb
    unfold State.reachesBeyond
    simp only [Vertical.opposite, Window.first?, Window.drop, Nat.one_ne_zero, if_false, State.withWin_win]
    rcases e : s.win.records with _ | ⟨a, _ | ⟨c, r⟩⟩
    · rfl
    · rfl
    · rw [e] at m
      have ch := h.1
      rw [e] at ch
      have f := (List.isChain_cons.1 ch).1 c rfl
      have g2 : a.start + a.length ≤ g.start + g.length := by
        rcases List.mem_cons.1 m with rfl | m
        · exact le_refl _
        · have := run_start (List.isChain_cons.1 ch).2 (a := c) rfl m
          have := f.1
          omega
      have := f.1
      have z : ¬s.lo < c.start := by omega
      exact decide_eq_false z
  | down =>
    have hb' : s.hi < g.start := by simpa [Segment.beyond, Vertical.opposite] using hb
    unfold State.reachesBeyond
    simp only [Vertical.opposite, Window.last?, Window.drop, Nat.one_ne_zero, if_false, State.withWin_win]
    have ch := h.1
    rcases List.eq_nil_or_concat s.win.records with e | ⟨r, a, e⟩
    · rw [e]
      rfl
    · rw [e] at m ch ⊢
      rw [List.concat_eq_append] at *
      rw [show (r ++ [a]).length - 1 = r.length by simp, List.take_left]
      rcases hc : r.getLast? with _ | c
      · rfl
      · obtain ⟨ch1, -, ch2⟩ := List.isChain_append.1 ch
        have f := (ch2 c hc a rfl).1
        have g2 : g.start ≤ a.start := by
          rcases List.mem_append.1 m with m | m
          · have := run_end ch1 hc m
            omega
          · rw [List.mem_singleton.1 m]
        have z : ¬(c.start : Int) + c.length - 1 < s.hi := by omega
        exact decide_eq_false z

/-- The derivation on a run counted against the footprint gives the request of R24 (R24, R27). -/
theorem State.deriveWanted_asked (h : s.win.Run) (l : ∀ g ∈ s.win.records, 1 ≤ g.length) (cap : s.win.records.length ≤ 32)
    (b : s.win.ahead = s.aheadRecords.length ∧ s.win.behind = s.behindRecords.length) : s.deriveWanted.1.Asked := by
  refine State.asked_of ?_
  unfold State.deriveWanted
  split
  · rename_i e
    split <;>
    · rename_i h1 h2
      rw [State.derived_withWanted]
      unfold State.derived
      rw [if_pos e]
      simp_all
  · rename_i e
    split
    · rename_i n e' t hn ht
      split
      · rename_i room
        rw [State.derived_withWanted]
        unfold State.derived
        rw [if_neg e, hn]
        exact (if_pos room).symm
      · rename_i full
        split
        · rename_i one
          have hb : s.behindRecords ≠ [] := fun z => by rw [b.2, z] at one; exact absurd one (by simp)
          obtain ⟨r1, r2⟩ := State.reachesBeyond_drop ht h l hb
          rw [State.neededNext_ahead ht r1] at hn
          have len : 1 < s.win.records.length := by
            simp only [Config.windowCapacity] at full
            omega
          split at hn
          · rename_i c
            obtain ⟨n', hn', e2⟩ := Option.map_eq_some_iff.1 hn
            simp only [Prod.mk.injEq] at e2
            obtain ⟨rfl, rfl⟩ := e2
            rw [State.derived_withWanted]
            have size : ((s.withWin (s.win.drop t.opposite 1)).recount).win.records.length < 32 := by
              show (s.win.drop t.opposite 1).records.length < 32
              rw [Window.drop_length]
              omega
            have ahead : ((s.withWin (s.win.drop t.opposite 1)).recount).win.ahead ≤ s.win.ahead := by
              rw [b.1]
              show ((s.withWin (s.win.drop t.opposite 1)).aheadRecords).length ≤ _
              unfold State.aheadRecords
              rw [show (s.withWin (s.win.drop t.opposite 1)).odo.direction.travel = some t from ht, ht]
              refine (List.Sublist.filter _ ?_).length_le
              unfold Window.drop
              cases t
              · exact List.drop_sublist _ _
              · exact List.take_sublist _ _
            have next : ((s.withWin (s.win.drop t.opposite 1)).recount).neededNext = some (n', t) := by
              rw [State.neededNext_ahead (s := (s.withWin (s.win.drop t.opposite 1)).recount) ht r2, if_pos]
              · exact Option.map_eq_some_iff.2
                  ⟨n', (Window.numberBeyond_congr (w := s.win.drop t.opposite 1) rfl t).trans
                    ((Window.numberBeyond_drop t len).trans hn'), rfl⟩
              · refine ⟨lt_of_le_of_lt ahead c.1, ?_⟩
                rw [← c.2]
                cases t <;> rfl
            unfold State.derived
            rw [if_neg, next]
            · exact (if_pos size).symm
            · simp only [List.isEmpty_iff]
              intro z
              have : (s.win.drop t.opposite 1).records.length = 0 := List.length_eq_zero_iff.2 z
              rw [Window.drop_length] at this
              omega
          · simp at hn
        · rw [State.derived_withWanted]
          unfold State.derived
          rw [if_neg e, hn]
          exact (if_neg full).symm
    · rename_i no
      rw [State.derived_withWanted]
      unfold State.derived
      rw [if_neg e]
      rcases ht : s.odo.direction.travel with _ | t
      · simp [State.neededNext, ht]
      · rcases hn : s.neededNext with _ | ⟨n, e⟩
        · rfl
        · exact absurd ht (no n e t hn)

/-- The request reads the window, the footprint, the direction and the configuration, so what changes none of them keeps it. -/
theorem Frame.asked {t : State} {free : List Block} {r m : List Cause} (f : Frame free r m s t) (fw : Block.window ∉ free)
    (fo : Block.odometry ∉ free) (fc : Block.settings ∉ free) (h : s.Asked) : t.Asked := by
  have c : t.cfg = s.cfg := f.settings fc
  unfold State.Asked State.NeedsBehind State.NeedsAhead State.Overhangs State.GoesOn at *
  rw [f.window fw, f.odometry fo, c]
  exact h

/-- A recomputation leaves the request that R24 asks for (R25). -/
theorem State.recomputeWindow_asked (h : s.win.Run) (l : ∀ g ∈ s.win.records, 1 ≤ g.length) (cap : s.win.records.length ≤ 32)
    (b : Bool) : (s.recomputeWindow b).Asked := by
  have c : s.recount.dropBehind.1.win.ahead = s.recount.dropBehind.1.aheadRecords.length
      ∧ s.recount.dropBehind.1.win.behind = s.recount.dropBehind.1.behindRecords.length := by
    unfold State.dropBehind
    split
    · exact ⟨rfl, rfl⟩
    · dsimp only
      split <;> exact ⟨rfl, rfl⟩
  have n : s.recount.dropBehind.1.win.records.length ≤ 32 := by
    unfold State.dropBehind
    split
    · exact cap
    · dsimp only
      split
      · exact cap
      · refine le_trans (Nat.le_of_eq (Window.drop_length _ _ _)) ((Nat.sub_le _ _).trans cap)
  have k := State.deriveWanted_asked (State.dropBehind_run (State.recount_run h)) (State.dropBehind_length (s := s.recount) l) n c
  unfold State.recomputeWindow
  dsimp only
  split
  · exact (State.evaluate_evaluator.frame _).asked (by simp) (by simp) (by simp) k
  · exact k
end Sys2Proof.Machine
end

