-- ==== Sys2Proof/Tests/Slice0.lean ====
section
/-! SUPPORT. Tests: the checks of WellFormed refuse ill-formed terms; the manual's worked figures; and for each statement with
hypotheses a state and operands that meet them (`witness_`). Expected values come from the manual's worked cases. -/

namespace Sys2Proof.Tests

set_option Elab.async false

open Machine

/-! ### Well-formedness -/

theorem test_refuses_empty_body : Instr.wellFormed (.requestDropped .cab []) = false := by decide

theorem test_refuses_long_body : Instr.wellFormed (.downlinkDiscarded (List.replicate 121 0#8)) = false := by decide +kernel

theorem test_refuses_long_fields : Instr.wellFormed (.status .cab (List.replicate 120 0#8)) = false := by decide +kernel

theorem test_refuses_long_downlink : Instr.wellFormed (.poll 1#16 (List.replicate 118 0#8)) = false := by decide

theorem test_refuses_known_as_unknown : Instr.wellFormed (.unknownRequest .crew 0x26#8 []) = false := by decide

theorem test_accepts_longest_body : Instr.wellFormed (.requestDropped .cab (List.replicate 120 0#8)) = true := by decide

theorem test_no_word_decodes : decodeTableWord 16 0 = none := by decide

/-! ### The car of the worked case of 4.6 -/

/-- The six records of 4.6, flags as a healthy car bars them. -/
def line : List Segment :=
  [ { number := 208, start := 39400, length := 600, kind := .adhesion, gradient := 40, limitUp := 5500, limitDown := 4500
      platform := none, marker := none, barredUp := false, barredDown := false }
  , { number := 209, start := 40000, length := 780, kind := .adhesion, gradient := 60, limitUp := 4000, limitDown := 3000
      platform := none, marker := none, barredUp := false, barredDown := false }
  , { number := 210, start := 40780, length := 120, kind := .entry, gradient := 120, limitUp := 2500, limitDown := 2500
      platform := none, marker := some 10, barredUp := false, barredDown := false }
  , { number := 211, start := 40900, length := 400, kind := .rack, gradient := 250, limitUp := 4200, limitDown := 4200
      platform := none, marker := none, barredUp := false, barredDown := false }
  , { number := 212, start := 41300, length := 300, kind := .rack, gradient := 250, limitUp := 4200, limitDown := 4200
      platform := none, marker := none, barredUp := false, barredDown := false }
  , { number := 213, start := 41600, length := 200, kind := .rack, gradient := 180, limitUp := 1500, limitDown := 1500
      platform := some { id := 7, side := .left }, marker := none, barredUp := false, barredDown := false } ]

/-- A valve output in its running period, with no demand. -/
def shut : Output :=
  { period := 2000, boundary := some 3001000, activeOn := 0, pendingDuty := some 0, pendingOn := 0, activeSense := none
    pendingSense := none }

/-- The car of 4.6, in RUN: DOWN at p = 41,360, v = 4,000, every channel HEALTHY, the last tooth just taken. -/
def car : State :=
  { State.reset with
    clock := 3000000
    odo :=
      { State.reset.odo with
        p := 41360, u := 0, located := true, v := 4000, standstill := false, standstillTimer := some 5000000
        lastDir := some .down, lastInterval := some 25000, lastToothAt := some 3000000, direction := .down, stepCount := -3 }
    win :=
      { records := line, endUp := false, endDown := false, located := none, wanted := .byNumber 207 .down, ahead := 3
        behind := 1 }
    auth :=
      { a := { low := 40000, high := 45000 }, b := { low := 1, high := 0 }, id := 9, inside := true, inA := true, inB := false
        restrictions := [] }
    sup :=
      { staticLimit := 4200, permitted := 4200, warning := 4200, serviceSpeed := 4612, emergencySpeed := 5125
        state := .normal, permit := true, timer := some 3050000 }
    comb :=
      { State.reset.comb with
        park := .release, holding := false, service := 0, blend := some .rack, springApplied := false
        demand := { rb1 := 0, rb2 := 0, ab1 := 0, ab2 := 0 }, drive := { rb1 := 0, rb2 := 0, ab1 := 0, ab2 := 0 } }
    drive := { State.reset.drive with valve := { rb1 := shut, rb2 := shut, ab1 := shut, ab2 := shut } }
    prov :=
      { owed := { rb1 := 0, rb2 := 0, ab1 := 0, ab2 := 0 }
        health := { rb1 := .healthy, rb2 := .healthy, ab1 := .healthy, ab2 := .healthy }
        capability := { rack := 4000, adhesion := 1100, entry := 2200 }
        timer := some 1800000000, tried := [], proof := none, dwell := none }
    radio := { State.reset.radio with link := .up, timer := some 9000000 }
    line := { State.reset.line with opState := .run, cabTimer := some 3500000 } }

/-- The car brought to rest in RUN. -/
def still : State :=
  { car with odo := { car.odo with v := 0, standstill := true, standstillTimer := none, stepCount := 0 } }

/-- The car at rest at platform 7 (8.5). -/
def platform : State :=
  { still with odo := { still.odo with p := 41780 } }

/-- The car at the platform with one door in a state and its switches so. -/
def withD1 (x : DoorState) (r : DoorRecord) : State :=
  let s := platform.withDoor .d1 { r with state := x }
  { s with
    sup := { s.sup with permit := !x.unlocked }
    doors := { s.doors with hold := x.unlocked }
    comb := { s.comb with holding := x.unlocked } }

/-- A door record: moving or not, its close order, its switches. -/
def leaf (moving ordered closed opened : Bool) : DoorRecord :=
  { state := .locked, reopen := 0, closeFailed := false, closeOrdered := ordered
    motion := if moving then some 8999999 else none, obstruction := none, limit := 1800
    pins := { closedMade := closed, openMade := opened, pressed := false } }

theorem car_sound : car.Sound := State.check_sound (by decide +kernel)
theorem still_sound : still.Sound := State.check_sound (by decide +kernel)
theorem reset_sound : State.reset.Sound := State.powerOn_atRest ▸ State.powerOn_sound State.reset PinLevels.atRest

/-- The state after one command. -/
def after (i : Instr) (s : State) : State :=
  match exec i s with
  | .next t => t
  | _ => s

/-- The state 1 µs later: a timer restarted before is no longer new. -/
def later (s : State) : State := { s with clock := s.clock + 1 }

/-- A report queue that is full, its first record a POSITION record or an event. -/
def full (position : Bool) : State :=
  { still with
    radio :=
      { still.radio with
        queue :=
          { time := 0, body := if position then .position 0 0 0 0 .up true true else .cleared .rollback }
            :: List.replicate 31 { time := 0, body := .cleared .rollback } } }

/-- A burst is in flight. -/
def flown : State := after .transmitComplete (after (.poll 1#16 []) (full false))

/-! ### The manual's worked figures -/

/-- 4.6: L, P, I_s and I_e on the descent. -/
theorem test_descent_figures :
    (after .evaluationTimerExpiry car).sup.staticLimit = 4200 ∧ (after .evaluationTimerExpiry car).sup.permitted = 4200
      ∧ (after .evaluationTimerExpiry car).sup.serviceSpeed = 4612
      ∧ (after .evaluationTimerExpiry car).sup.emergencySpeed = 5125 := by decide +kernel

/-- 4.6: the five curve speeds of the table, and its effective decelerations. -/
theorem test_descent_curves :
    (car.targets .down).map (car.curve .down) = [11217, 7795, 6886, 10274, 12918]
      ∧ [40899, 40779, 39999, 39399].map (car.effectiveDeceleration .down) = [1548, 1023, 511, 511] := by decide +kernel

/-- 4.6: RB1 fails; L and P fall to 1,000 and both overspeed causes are raised, the service cause first. -/
theorem test_descent_rb1_failed :
    (car.changeHealth .rb1 .failed).sup.permitted = 1000
      ∧ (car.changeHealth .rb1 .failed).win.records.map Segment.barredDown = [false, false, true, true, true, false]
      ∧ (car.changeHealth .rb1 .failed).set.entries.map Entry.cause = [.overspeedService, .overspeedEmergency] := by
  decide +kernel

/-- 1.1: the net cycle of the first table gives one UP tooth, the invalid transition u = 1, the last step +1. -/
theorem test_counting_teeth :
    let t := [(true, false), (true, true), (true, false), (true, true), (false, true), (false, false), (true, true)
             , (false, true)].foldl (fun s x => after (.phaseChange x.1 x.2) s) still
    t.odo.p = 41361 ∧ t.odo.u = 1 ∧ t.odo.stepCount = 1 := by decide +kernel

/-- 1.3: the marker at 40,790 is taken from p = 40,794 with u = 4, and is out of reach from 40,783 with u = 0. -/
theorem test_marker :
    (after .markerPulse { car with odo := { car.odo with p := 40794, u := 4 } }).odo.p = 40790
      ∧ (after .markerPulse { car with odo := { car.odo with p := 40783 } }).odo.p = 40783 := by decide +kernel

/-- 1.4: a tooth 40,000 µs after the last one measures 2,500 mm/s; at 30,000 µs v has decayed to 3,333. -/
theorem test_speed :
    (after (.phaseChange false true) { car with clock := 3040000 }).odo.v = 2500
      ∧ (after .evaluationTimerExpiry { car with clock := 3030000 }).odo.v = 3333 := by decide +kernel

/-- 3.1: the tooth that takes lo from 40,000 to 39,999 raises AUTHORITY_OVERRUN. -/
theorem test_overrun :
    ((after (.phaseChange false true) { car with odo := { car.odo with p := 40300 } }).set.has .authorityOverrun) = true
      ∧ ((after (.phaseChange false true) { car with odo := { car.odo with p := 40301 } }).set.has .authorityOverrun) = false := by
  decide +kernel

/-- 8.5: the duty of D1 opening and closing, the limit of D2 closing, at platform 7. -/
theorem test_door_slope :
    (platform.doorDuty .d1 .open, platform.doorDuty .d1 .close, platform.doorLimit .d2 .close) = (54, 36, 2160) := by
  decide +kernel

/-- 9.1: the CRC's check value over the nine characters 1 to 9. -/
theorem test_crc : crc [0x31#8, 0x32#8, 0x33#8, 0x34#8, 0x35#8, 0x36#8, 0x37#8, 0x38#8, 0x39#8] = 0x29B1#16 := by
  decide +kernel

/-- 9.2: the four destinations of the group addressing table. -/
theorem test_group :
    let g := { Settings.default with carAddress := 0x0123#16, groupMask := 0xFF00#16 }
    [ g.accepts .authority 0x0123#16, g.accepts .restrictionSet 0x01FF#16, g.accepts .authority 0x01FF#16
    , g.accepts .restrictionClear 0x0223#16 ] = [true, true, false, false] := by decide

/-- 1.2: at p = 41,360 with u = 4 the extended train and car footprints, and the plain ones. -/
theorem test_footprints :
    let s := { car with odo := { car.odo with u := 4 } }
    (s.lo, s.hi, s.carLo) = (41056, 41364, 41196) ∧ (s.trainFootprint.low, s.trainFootprint.high) = (41060, 41360)
      ∧ (s.carFootprint.low, s.carFootprint.high) = (41200, 41360) := by
  decide +kernel

/-- 9.5: the flags of a header right after power-on reset: BRAKE_DEGRADED, WINDOW_LOW and POSITION_UNCERTAIN. -/
theorem test_summary : (State.reset.burstHeader 0).getD 3 0#8 = 0xA8#8 := by decide +kernel

/-! ### Witnesses: states and operands that meet the hypotheses of the statements -/

theorem witness_IdleStepRunsTheClock_waits :
    State.reset.pending = [] ∧ ∀ e ∈ State.reset.events, ∀ m ∈ e.1, State.reset.clock < m := by decide +kernel

/-- 2,000 µs after reset the first event that is due is the end of V1's period. -/
theorem witness_IdleStepRunsTheClock_due :
    let s := State.reset.withClock 2000
    (s.events = s.events.take 12 ++ (some 2000, .periodEnd (.valve .rb1)) :: s.events.drop 13)
      ∧ (∀ x ∈ s.events.take 12, ∀ n ∈ x.1, s.clock < n) ∧ 2000 ≤ s.clock := by decide +kernel

/-- The car of 4.6 on the move, and the car with a burst in flight. -/
theorem witness_EveryStepKeepsTheLaws :
    ((car.withPending [.phaseChange false true]).Sound ∧ (car.withPending [.phaseChange false true]).Ordered
        ∧ step (car.withPending [.phaseChange false true]) = .next (after (.phaseChange false true) car))
      ∧ ((flown.withPending [.poll 1#16 []]).Sound ∧ (flown.withPending [.poll 1#16 []]).Ordered ∧ flown.radio.inFlight.isSome = true
        ∧ step (flown.withPending [.poll 1#16 []]) = .next (after (.poll 1#16 []) flown)) :=
  ⟨⟨State.check_sound (by decide +kernel), State.check_ordered (by decide +kernel), rfl⟩, State.check_sound (by decide +kernel),
    State.check_ordered (by decide +kernel), by decide +kernel, rfl⟩

/-- A stray marker's record joins the queue, and at a full queue is counted lost. -/
theorem witness_EveryStepKeepsTheLaws_records :
    mayRetire .markerPulse = false ∧ exec .markerPulse still = .next (after .markerPulse still)
      ∧ (after .markerPulse still).radio.eventRecords.length = 1
      ∧ exec .markerPulse (full false) = .next (after .markerPulse (full false))
      ∧ (after .markerPulse (full false)).radio.lost = 1 := ⟨rfl, rfl, by decide +kernel, rfl, by decide +kernel⟩

/-- The four classes of a change, from position 0. -/
theorem witness_PhaseChangesAreClassified :
    let old := phasePosition still.odo.phaseA still.odo.phaseB
    phasePosition false false = old ∧ phasePosition true false = (old + 1) % 4 ∧ phasePosition false true = (old + 3) % 4
      ∧ phasePosition true true = (old + 2) % 4 ∧ still.odo.stepCount ≠ 3 ∧ still.odo.stepCount ≠ -3 := by decide +kernel

/-- A DOWN tooth in the selected direction, the last one DOWN too; on RACK, so no slip. -/
theorem witness_ToothEventsMoveTheCar_running :
    car.CompletesTooth false true .down ∧ car.odo.standstill = false ∧ car.odo.lastDir = some .down
      ∧ car.odo.lastToothAt = some 3000000 ∧ car.odo.direction.travel = some .down
      ∧ (car.win.containing (41359 : Nat)).map Segment.kind = some .rack := by
  unfold State.CompletesTooth
  decide +kernel

/-- From standstill, against the direction, off the window, at the last slip tooth and at one before it. -/
theorem witness_ToothEventsMoveTheCar_starting :
    let s := fun slip => { still with odo := { still.odo with p := 50000, stepCount := 3, slip := slip } }
    (s 31).CompletesTooth true false .up ∧ (s 31).odo.standstill = true ∧ (s 31).odo.direction.travel ≠ some .up
      ∧ (s 31).win.containing (50001 : Nat) = none ∧ 31 ≤ (s 31).odo.slip ∧ (s 30).odo.slip < 31
      ∧ (s 30).CompletesTooth true false .up := by
  unfold State.CompletesTooth
  decide +kernel

/-- The tooth that ends standstill with D1 RELEASED; a tooth of the running car with D1 OPEN. -/
theorem witness_ToothEventsMoveTheCar_doors :
    let t := { withD1 .released (leaf false false true false) with odo := { platform.odo with stepCount := -3 } }
    let u := { withD1 .open (leaf false false false true) with odo := car.odo }
    t.CompletesTooth false true .down ∧ t.odo.standstill = true ∧ (t.doorAt .d1).state = .released
      ∧ u.CompletesTooth false true .down ∧ u.odo.standstill = false ∧ (u.doorAt .d1).state = .open
      ∧ ((after (.phaseChange false true) t).doorAt .d1).state = .locked
      ∧ ((after (.phaseChange false true) u).doorAt .d1).state = .open
      ∧ (after (.phaseChange false true) u).set.has .doorUnlockedMoving = true := by
  unfold State.CompletesTooth
  decide +kernel

/-- The car of 1.5's table before its fifth tooth: UP against DOWN, the tally at 2 of ROLLBACK_LIMIT 3. -/
def slipping : State := { still with odo := { still.odo with stepCount := 3, rollback := 2 } }

theorem witness_TeethRaise_rollback :
    slipping.Sound ∧ slipping.CompletesTooth true false .up ∧ slipping.odo.direction.travel ≠ some .up
      ∧ slipping.cfg.rollbackLimit ≤ min 255 (slipping.odo.rollback + 1) ∧ slipping.set.has .rollback = false :=
  ⟨State.check_sound (by decide +kernel), by unfold State.CompletesTooth; decide +kernel⟩

/-- The car of 3.1's table before the tooth that leaves range A. -/
def leaving : State := { car with odo := { car.odo with p := 40300 } }

theorem witness_TeethRaise_overrun :
    leaving.Sound ∧ leaving.CompletesTooth false true .down ∧ leaving.auth.inside = true
      ∧ (after (.phaseChange false true) leaving).auth.inside = false ∧ leaving.set.has .authorityOverrun = false :=
  ⟨State.check_sound (by decide +kernel), by unfold State.CompletesTooth; decide +kernel⟩

/-- Two markers at one distance, at the edge of the reach u + 2: the lower is taken in DOWN, the higher otherwise. -/
def between (d : Direction) : State :=
  { car with
    odo := { car.odo with p := 40800, u := 8, direction := d }
    win := { car.win with records := line.map (fun g => if g.number = 210 then { g with marker := some 10 }
      else if g.number = 209 then { g with length := 790, marker := none }
      else if g.number = 211 then { g with start := 40800, length := 500, marker := some 10 } else g) } }

theorem witness_MarkersCorrectThePosition :
    (between .down).win.markers = [40790, 40810] ∧ gap 40790 40800 ≤ 8 + 2 ∧ gap 40810 40800 ≤ 8 + 2
      ∧ (between .down).odo.direction = .down ∧ (between .up).odo.direction ≠ .down
      ∧ (after .markerPulse (between .down)).odo.p = 40790 ∧ (after .markerPulse (between .up)).odo.p = 40810 := by
  decide +kernel

/-- The configuration item LISTEN_ONLY on. -/
def listening : State :=
  { still with line := { still.line with settings := { still.line.settings with listenOnly := true } } }

theorem witness_StrayMarkersAreReported :
    (∀ m ∈ still.win.markers, still.odo.u + 2 < gap m still.odo.p) ∧ listening.cfg.listenOnly = true
      ∧ still.cfg.listenOnly = false ∧ still.radio.queue.length < 32
      ∧ 32 ≤ (full true).radio.queue.length ∧ (full true).radio.flying ≤ 0
      ∧ ((full true).radio.queue.head?.map Report.isPosition) = some true
      ∧ 32 ≤ (full false).radio.queue.length
      ∧ ∀ y ∈ (full false).radio.queue.drop (full false).radio.flying, y.isPosition = false := by decide +kernel

/-- In QUIESCING the car rolls out with its spring applied. -/
def quiescing : State :=
  { car with
    sup := { car.sup with permit := false }
    comb := { car.comb with park := .apply, springApplied := true }
    line := { car.line with opState := .quiescing, cabTimer := none } }

/-- 1 µs after the tooth; at the tooth itself, and with the timer stopped. -/
theorem witness_StandstillIsEntered :
    (later quiescing).Sound ∧ (later quiescing).odo.standstillTimer.Elapsing (later quiescing).clock 2000000
      ∧ quiescing.odo.standstillTimer.Resting quiescing.clock 2000000 ∧ still.odo.standstillTimer = none
      ∧ quiescing.line.opState = .quiescing
      ∧ quiescing.comb.springApplied = true ∧ quiescing.doors.anyUnlocked = false ∧ quiescing.set.entries = []
      ∧ quiescing.prov.proof = none :=
  ⟨State.check_sound (by decide +kernel), Timer.elapsing_iff.2 (by decide +kernel), Timer.resting_iff.2 (by decide +kernel),
    by decide +kernel⟩

/-- R13's race: the tooth is taken first, and the expiry behind it enters no standstill; the expiry first, standstill is entered. -/
theorem test_tooth_before_expiry :
    let tooth := Instr.phaseChange false true
    let s := { car with clock := 5000000 }
    (after .standstillTimerExpiry (after tooth s)).odo.standstill = false
      ∧ (after .standstillTimerExpiry (after tooth s)).odo.v = 50 ∧ (after .standstillTimerExpiry s).odo.standstill = true
      ∧ (after .standstillTimerExpiry s).odo.v = 0 ∧ (after tooth (after .standstillTimerExpiry s)).odo.v = 50 := by
  decide +kernel

/-- AB1 owes a proof and RB1 has been tried: the car that comes to rest with its spring applied takes AB1. -/
theorem witness_StandstillIsEntered_round :
    let s : State :=
      { later quiescing with prov := { quiescing.prov with owed := { rb1 := 1, rb2 := 0, ab1 := 2, ab2 := 2 }, tried := [.rb1] } }
    s.Sound ∧ firstOwing s.prov.owed s.prov.tried = some .ab1
      ∧ (after .standstillTimerExpiry s).prov.tried = [.rb1, .ab1] :=
  ⟨State.check_sound (by decide +kernel), by decide +kernel⟩

/-- The highest position. -/
theorem witness_LocateSetsThePosition :
    let f : List Byte := [0x0F#8, 0xFF#8, 0xFF#8, 5#8, 0#8, 212#8]
    State.reset.CanTake .cab ∧ f.length = 6 ∧ field f 0 3 = 1048575 ∧ State.reset.odo.standstill = true := by
  unfold State.CanTake
  decide +kernel

theorem witness_DirectionTurnsTheCar :
    still.CanTake .cab ∧ still.odo.standstill = true ∧ still.odo.direction = .down
      ∧ [0, 1, 2].map (fun b => field [BitVec.ofNat 8 b] 0 1) = [Direction.neutral, .up, .down].map directionCode := by
  unfold State.CanTake
  decide +kernel

theorem car_ordered : car.Ordered := State.check_ordered (by decide +kernel)

theorem witness_CountsFollowTheFootprint :
    (car.Sound ∧ car.Ordered ∧ car.Counted ∧ car.Asked) ∧ ∃ t, exec .markerPulse car = .next t :=
  ⟨⟨car_sound, car_ordered, by unfold State.Counted; decide +kernel, State.asked_of (by decide +kernel)⟩, _, rfl⟩

/-- The state that asks for a segment, the window cut to some records. -/
def asking (w : Wanted) (rs : List Segment) : State := { still with win := { still.win with wanted := w, records := rs } }

/-- Segment 213 of 4.6 with a marker at its last position, and segment 208. -/
def top : Segment :=
  { number := 213, start := 41600, length := 200, kind := .rack, gradient := 180, limitUp := 1500, limitDown := 1500
    platform := some { id := 7, side := .left }, marker := some 199, barredUp := false, barredDown := false }

def bottom : Segment :=
  { number := 208, start := 39400, length := 600, kind := .adhesion, gradient := 40, limitUp := 5500, limitDown := 4500
    platform := none, marker := none, barredUp := false, barredDown := false }

theorem delivers_top : Delivers top.bytes top := by
  constructor <;> decide +kernel

theorem delivers_bottom : Delivers bottom.bytes bottom := by
  constructor <;> decide +kernel

/-- A by-position request at the segment's last position, and by-number requests beyond both edges. -/
theorem witness_DeliveredSegmentsJoinTheWindow :
    (Delivers top.bytes top ∧ Delivers bottom.bytes bottom)
      ∧ ((asking (.byPosition 213 41799) []).Wants top ∧ (asking (.byNumber 213 .up) (line.take 5)).Wants top
        ∧ (asking (.byNumber 208 .down) (line.drop 1)).Wants bottom)
      ∧ top.bytes.length = 19 ∧ bottom.bytes.length = 19 ∧ (asking (.byNumber 213 .up) (line.take 5)).CanTake .cab
      ∧ ∀ o ∈ top.marker, ∀ m ∈ (asking (.byNumber 213 .up) (line.take 5)).win.markers, 20 ≤ gap (top.start + o) m :=
  ⟨⟨delivers_top, delivers_bottom⟩,
    ⟨by show _ ∧ _; decide +kernel, by show _ ∧ _; decide +kernel, by show _ ∧ _; decide +kernel⟩,
    by unfold State.CanTake; decide +kernel⟩

/-- The car of 4.6 in the lowest record: five records behind, one more than BEHIND_HIGH. -/
def deep (w : Wanted) (rs : List Segment) : State :=
  { asking w rs with odo := { still.odo with p := 39990 } }

/-- Records of ten teeth from 1,000 on, the front in the last of 32, the first of them behind. -/
def short (n : Nat) : List Segment :=
  (List.range n).map fun i =>
    { number := i, start := 1000 + 10 * i, length := 10, kind := .rack, gradient := 0, limitUp := 9, limitDown := 9
      platform := none, marker := none, barredUp := false, barredDown := false }

/-- The car at the end of a window of 31 short records, asking for the next. -/
def crowded : State :=
  { asking (.byNumber 31 .up) (short 31) with odo := { still.odo with p := 1315, direction := .up } }

/-- A record that joins below sends the fifth behind off the other edge; one that makes 32 sends off the one behind. -/
theorem witness_DeliveredSegmentsJoinTheWindow_drop :
    let g := (short 32).getLastD top
    let t := after (.segment .cab bottom.bytes) (deep (.byNumber 208 .down) (line.drop 1))
    let u := after (.segment .cab g.bytes) crowded
    (deep (.byNumber 208 .down) (line.drop 1)).CanTake .cab ∧ crowded.CanTake .cab ∧ crowded.win.wanted = .byNumber g.number .up
      ∧ crowded.win.last? = some ((g.start : Int) - 1) ∧ g.bytes.length = 19 ∧ g.marker = none
      ∧ t.win.records.map Segment.number = [208, 209, 210, 211, 212]
      ∧ u.win.records.map Segment.number = (List.range 32).drop 1 ∧ u.win.wanted = .byNumber 32 .up := by
  unfold State.CanTake
  decide +kernel

/-- Each case of R24 decides somewhere: an empty window; the footprint beyond the trailing edge; the travel edge with 31 records and
with 32, none of them behind; an end-flag; NEUTRAL. -/
theorem witness_CountsFollowTheFootprint_cases :
    let asked : State → Wanted := fun s => (s.recomputeWindow false).win.wanted
    let front := fun p => { crowded with odo := { crowded.odo with p := p } }
    let full := { crowded with odo := { crowded.odo with p := 1310 }, win := { crowded.win with records := short 32 } }
    asked { asking .none [] with
        win := { (asking .none []).win with located := some { number := 212, position := 41360 } } } = .byPosition 212 41360
      ∧ asked (asking .none []) = .none
      ∧ asked (asking .none (line.take 4)) = .byNumber 212 .up ∧ asked (asking .none line) = .byNumber 207 .down
      ∧ asked (front 1305) = .byNumber 31 .up
      ∧ asked { full with odo := { full.odo with p := 1160 }
                          line := { full.line with settings := { full.line.settings with aheadLow := 27 } } } = .pinned 32 .up
      ∧ asked { asking .none line with win := { (asking .none line).win with endDown := true } } = .none
      ∧ asked { asking .none line with odo := { still.odo with direction := .neutral } } = .none := by decide +kernel

/-- The longest record, at the end of the line, every field at an end of its range. -/
theorem witness_RecordsReadAsTheyAreDelivered :
    let g : Segment :=
      { number := 65535, start := 1044481, length := 4095, kind := .entry, gradient := -500, limitUp := 20000, limitDown := 0
        platform := some { id := 255, side := .both }, marker := some 4094, barredUp := true, barredDown := true }
    g.number ≤ 65535 ∧ 10 ≤ g.length ∧ g.length ≤ 4095 ∧ g.start + g.length ≤ 1048576 ∧ -500 ≤ g.gradient ∧ g.gradient ≤ 500
      ∧ g.limitUp ≤ 20000 ∧ g.limitDown ≤ 20000 ∧ (∀ x ∈ g.platform, 1 ≤ x.id ∧ x.id ≤ 255) ∧ ∀ o ∈ g.marker, o < g.length := by
  decide +kernel

theorem witness_EndOfLineClosesTheEdge :
    let s := asking (.byNumber 207 .down) line
    let f : List Byte := [0#8, 207#8, 2#8]
    s.CanTake .cab ∧ f.length = 3 ∧ s.win.wanted = .byNumber 207 .down ∧ field f 0 2 = 207 ∧ field f 2 1 = verticalCode .down := by
  unfold State.CanTake
  decide +kernel

/-- The flag of the edge stays where nothing leaves, and where a record leaves at the other edge; where one leaves at its own
edge it is cleared. -/
theorem witness_EndOfLineClosesTheEdge_drop :
    (after (.endOfLine .cab [0#8, 207#8, 2#8]) (asking (.byNumber 207 .down) line)).win.endDown = true
      ∧ (after (.endOfLine .cab [0#8, 207#8, 2#8]) (deep (.byNumber 207 .down) line)).win.endDown = true
      ∧ (after (.endOfLine .cab [0#8, 207#8, 2#8]) (deep (.byNumber 207 .down) line)).win.records = line.take 5
      ∧ (after (.endOfLine .cab [0#8, 214#8, 1#8]) (deep (.byNumber 214 .up) line)).win.endUp = false
      ∧ (after (.endOfLine .cab [0#8, 214#8, 1#8]) (deep (.byNumber 214 .up) line)).win.records = line.take 5 := by
  decide +kernel

/-- AUTHORITY with its last position at 1,048,575, and at 1,048,576. -/
theorem witness_AuthorityIsTaken :
    let f : Byte → List Byte := fun b =>
      [9#8, 0#8, 0#8, 0#8, 0#8, 0#8, 1#8, 0#8, 0#8, 0#8, b] ++ (if b = 0x0F#8 then [0xFF#8, 0xFF#8] else [0#8, 0#8])
    (f 0x0F#8).length = 13 ∧ (∀ o ∈ [1, 4, 7, 10], field (f 0x0F#8) o 3 ≤ 1048575) ∧ field (f 0x0F#8) 10 3 = 1048575
      ∧ (f 0x10#8).length = 13 ∧ (∃ o ∈ [1, 4, 7, 10], 1048575 < field (f 0x10#8) o 3) ∧ still.radio.link = .up
      ∧ still.cfg.listenOnly = false ∧ still.radio.queue.length < 32 := by decide +kernel

/-- A table with the entries of some ids. -/
def restricted (ids : List Nat) : State :=
  { still with
    auth := { still.auth with restrictions := ids.map (fun i => { id := i, low := 0, high := 9, speed := 500, direction := .both }) } }

/-- A RESTRICTION_SET of an id, with its `to` at 1,048,575 or one above, and a direction code. -/
def setFields (id top code : Byte) : List Byte :=
  [id, 0#8, 0#8, 0#8, top] ++ (if top = 0x0F#8 then [0xFF#8, 0xFF#8] else [0#8, 0#8]) ++ [0xFF#8, 0xFF#8, code]

theorem witness_RestrictionsAreLaid :
    (setFields 8#8 0x0F#8 3#8).length = 10 ∧ ((1#16 ^^^ still.cfg.carAddress) &&& still.cfg.groupMask) = 0#16
      ∧ field (setFields 8#8 0x0F#8 3#8) 0 1 ≠ 0 ∧ field (setFields 8#8 0x0F#8 3#8) 1 3 ≤ 1048575
      ∧ field (setFields 8#8 0x0F#8 3#8) 4 3 = 1048575 ∧ field (setFields 8#8 0x0F#8 3#8) 9 1 = Applies.both.code
      ∧ (∃ y ∈ (restricted [8]).auth.restrictions, y.id = 8)
      ∧ (∀ y ∈ (restricted [1, 2, 3, 4, 5, 6, 7]).auth.restrictions, y.id ≠ 8)
      ∧ (restricted [1, 2, 3, 4, 5, 6, 7]).auth.restrictions.length = 7
      ∧ (∀ y ∈ (restricted [1, 2, 3, 4, 5, 6, 7, 9]).auth.restrictions, y.id ≠ 8)
      ∧ (restricted [1, 2, 3, 4, 5, 6, 7, 9]).auth.restrictions.length = 8
      ∧ field (setFields 0#8 0x0F#8 3#8) 0 1 = 0 ∧ 1048575 < field (setFields 8#8 0x10#8 3#8) 4 3
      ∧ field (setFields 8#8 0x0F#8 4#8) 9 1 = 4 := by decide +kernel

theorem witness_RestrictionsAreLifted :
    ([8#8] : List Byte).length = 1 ∧ ((1#16 ^^^ still.cfg.carAddress) &&& still.cfg.groupMask) = 0#16
      ∧ (∀ r ∈ (restricted [1, 2]).auth.restrictions, field [8#8] 0 1 ≠ 0 ∧ r.id ≠ field [8#8] 0 1)
      ∧ (after (.restrictionClear 1#16 [2#8]) (restricted [1, 2])).auth.restrictions.map Restriction.id = [1]
      ∧ (after (.restrictionClear 1#16 [0#8]) (restricted [1, 2])).auth.restrictions = [] := by decide +kernel

/-- The car of 3.1's table past its overrun, at rest: the entry present; a healthy car at rest and a moving one. -/
theorem witness_ReleaseLiftsTheOverrun :
    let s := after .standstillTimerExpiry (later (after (.phaseChange false true) { car with odo := { car.odo with p := 40300 } }))
    field [3#8] 0 1 = 3 ∧ s.odo.standstill = true ∧ s.set.has .authorityOverrun = true ∧ s.cfg.listenOnly = false
      ∧ s.linkedAt.radio.queue.length < 32
      ∧ (after (.release s.cfg.carAddress [3#8]) s).set.has .authorityOverrun = false
      ∧ still.set.has .authorityOverrun = false ∧ car.odo.standstill = false ∧ field [4#8] 0 1 ≠ 3
      ∧ still.cfg.carAddress ≠ 0x7FFF#16 := by decide +kernel

/-- The car of 4.6, the car at standstill, and a car that has run over both intervention speeds; the timer just restarted. -/
theorem witness_EvaluationsFollowTheLine :
    (car.Sound ∧ still.Sound) ∧ (car.sup.timer.Elapsing car.clock 100000 ∧ still.sup.timer.Elapsing still.clock 100000)
      ∧ (after .evaluationTimerExpiry car).sup.timer.Resting (after .evaluationTimerExpiry car).clock 100000
      ∧ still.odo.standstill = true ∧ car.odo.standstill = false ∧ car.odo.lastToothAt = some 3000000 ∧ car.odo.lastInterval = some 25000
      ∧ (let t := after .evaluationTimerExpiry { car with odo := { car.odo with v := 6000 } }
         t.sup.permitted + t.sup.permitted / 8 + 400 < t.odo.v) :=
  ⟨⟨car_sound, still_sound⟩, ⟨Timer.elapsing_iff.2 (by decide +kernel), Timer.elapsing_iff.2 (by decide +kernel)⟩,
    Timer.resting_iff.2 (by decide +kernel), by decide +kernel⟩

/-- The first target of 4.6, and the curve of a target one tooth ahead (d_eff below 0); S from 400,000,000 on. -/
theorem witness_CurvesTakeTheExactRoot :
    car.odo.direction.travel = some .down ∧ { position := 40899, speed := 2500 } ∈ car.targets .down
      ∧ car.distance .down 40899 * 100 - (car.reactionDistance .down : Int) > 0
      ∧ car.distance .down 41059 * 100 - (car.reactionDistance .down : Int) ≤ 0
      ∧ (car.curve .down { position := 41059, speed := 2500 }, car.curve .down { position := 41059, speed := 20000 })
          = (2500, 20000) := by decide +kernel

/-- 4.6: toward the first target the front crosses segment 211, which contains it; at its own position it crosses none. -/
theorem witness_CurvesTakeTheExactRoot_terms :
    (∃ g, car.Crosses .down 40899 g) ∧ (∃ g, car.FrontIn .down g) ∧ (∀ h, ¬car.Crosses .down 41060 h)
      ∧ car.frontAt .down = 41060 := by
  refine ⟨⟨line.getD 3 top, ?_⟩, ⟨line.getD 3 top, ?_⟩, fun h m => ?_, by decide +kernel⟩
  · exact ⟨by decide +kernel, show _ ∧ _ by decide +kernel⟩
  · unfold State.FrontIn
    decide +kernel
  · exact absurd (show (41060 : Int) < car.frontAt .down from m.2.1) (by decide +kernel)

theorem witness_OpenLoopRaisesTheEmergency :
    (car.Sound ∧ (after .loopOpens car).Sound ∧ (after .loopCloses (after .loopOpens car)).Sound)
      ∧ car.set.loopOpen = false ∧ car.set.has .emergencyLoop = false ∧ (after .loopOpens car).set.loopOpen = true
      ∧ (after .loopCloses (after .loopOpens car)).set.loopOpen = false
      ∧ (after .loopCloses (after .loopOpens car)).set.has .emergencyLoop = true ∧ car.cfg.listenOnly = false
      ∧ car.radio.queue.length < 32 :=
  ⟨⟨car_sound, State.check_sound (by decide +kernel), State.check_sound (by decide +kernel)⟩, by decide +kernel⟩

/-- The car at rest with its spring applied. -/
def parked : State :=
  { still with
    sup := { still.sup with permit := false }
    comb := { still.comb with park := .apply, springApplied := true } }

/-- A proof of RB1, FULL_PRESSURE 500, in a step with a sample, every channel owing one; RB1 is tried. -/
def proving (step : ProofStep) (sample : Nat) : State :=
  let sampled := fun (s : State) n => { s with prov := { s.prov with proof := s.prov.proof.map fun x => { x with sample := n } } }
  let begun := after (.proveNow .crew []) parked
  match step with
  | .rise => later (sampled begun sample)
  | .fall => later (sampled (after .dwellTimerExpiry (later (sampled begun 450))) sample)

theorem proving_sound : (proving .rise 450).Sound ∧ (proving .fall 50).Sound :=
  ⟨State.check_sound (by decide +kernel), State.check_sound (by decide +kernel)⟩

theorem proving_ordered : (proving .rise 450).Ordered ∧ (proving .fall 50).Ordered :=
  ⟨State.check_ordered (by decide +kernel), State.check_ordered (by decide +kernel)⟩

theorem parked_sound : parked.Sound := State.check_sound (by decide +kernel)

/-- The loop opens while RB1 is proved. -/
theorem witness_OpenLoopRaisesTheEmergency_proof :
    (proving .rise 450).Sound ∧ (proving .rise 450).set.loopOpen = false ∧ (proving .rise 450).set.has .emergencyLoop = false
      ∧ (proving .rise 450).prov.proof ≠ none ∧ (proving .rise 450).prov.tried = [.rb1]
      ∧ (after .loopOpens (proving .rise 450)).prov.tried = [] := ⟨proving_sound.1, by decide +kernel⟩

/-- The car after its cab fell silent, at rest and running; the mark clear, and set by a cab request. -/
theorem witness_AcknowledgementClearsWhatIsPutRight :
    ((after .cabTimerExpiry still).Sound ∧ (after .cabTimerExpiry car).Sound ∧ (after (.status .cab []) (after .cabTimerExpiry car)).Sound)
      ∧ ((after .cabTimerExpiry still).CanTake .cab ∧ (after .cabTimerExpiry car).CanTake .cab)
      ∧ (after .cabTimerExpiry still).odo.standstill = true ∧ (after .cabTimerExpiry car).odo.standstill = false
      ∧ (after .cabTimerExpiry car).set.entries.map (fun e => (e.cause, e.heard)) = [(.cabSilent, false)]
      ∧ (after (.status .cab []) (after .cabTimerExpiry car)).set.entries.map (fun e => (e.cause, e.heard))
          = [(.cabSilent, true)] :=
  ⟨⟨State.check_sound (by decide +kernel), State.check_sound (by decide +kernel), State.check_sound (by decide +kernel)⟩,
    by unfold State.CanTake; decide +kernel, by decide +kernel⟩

/-- The parked car acknowledges its EMERGENCY_LOOP; RB2 owes a proof. -/
theorem witness_AcknowledgementClearsWhatIsPutRight_round :
    let owing := { parked with prov := { parked.prov with owed := { rb1 := 0, rb2 := 1, ab1 := 0, ab2 := 0 } } }
    let s := after .loopCloses (after .loopOpens owing)
    let t := after (.ackIntervention .cab []) s
    s.Sound ∧ s.CanTake .cab ∧ s.odo.standstill = true ∧ s.prov.proof = none ∧ t.comb.springApplied = true
      ∧ t.set.entries.length < s.set.entries.length ∧ t.set.entries = []
      ∧ firstOwing s.prov.owed s.prov.tried = some .rb2 ∧ t.prov.tried = [.rb2] :=
  ⟨State.check_sound (by decide +kernel), by unfold State.CanTake; decide +kernel, by decide +kernel⟩

/-- CAB_SILENT with its mark set on a car that has come to run over I_s, and over I_e. -/
def silent (v : Nat) : State :=
  let s := after (.status .cab []) (after .cabTimerExpiry car)
  { s with odo := { s.odo with v := v } }

/-- The evaluation of the removal finds the car too fast: the entries join behind a response that lists none. -/
theorem witness_AcknowledgementClearsWhatIsPutRight_raised :
    ((silent 4700).Sound ∧ (silent 6000).Sound) ∧ ((silent 4700).CanTake .cab ∧ (silent 6000).CanTake .cab)
      ∧ (silent 4700).set.entries.map Entry.cause = [.cabSilent]
      ∧ (after (.ackIntervention .cab []) (silent 4700)).set.entries.map Entry.cause = [.overspeedService]
      ∧ (after (.ackIntervention .cab []) (silent 6000)).set.entries.map Entry.cause
          = [.overspeedService, .overspeedEmergency]
      ∧ ((after (.ackIntervention .cab []) (silent 4700)).line.cab.waiting.getLast?.map fun f => f.getD 7 0xFF#8) = some 0#8 :=
  ⟨⟨State.check_sound (by decide +kernel), State.check_sound (by decide +kernel)⟩, by unfold State.CanTake; decide +kernel,
    by decide +kernel⟩

/-- The cab timer running, and just restarted by a request. -/
theorem witness_CabSilenceBrakesTheCar :
    car.Sound ∧ car.line.cabTimer.Elapsing car.clock (car.cfg.cabTimeout * 1000)
      ∧ (let s := after (.status .cab []) car
         s.line.cabTimer.Resting s.clock (s.cfg.cabTimeout * 1000)) ∧ car.set.has .cabSilent = false :=
  ⟨car_sound, Timer.elapsing_iff.2 (by decide +kernel), Timer.resting_iff.2 (by decide +kernel), by decide +kernel⟩

theorem witness_EmergenciesPutEveryBrakeOn :
    (car.withPending [.loopOpens]).Sound ∧ step (car.withPending [.loopOpens]) = .next (after .loopOpens car)
      ∧ (after .loopOpens car).set.hasLevel .emergency = true :=
  ⟨State.check_sound (by decide +kernel), rfl, by decide +kernel⟩

theorem witness_DriverBrakeSetsTheDemand :
    still.Sound ∧ still.CanTake .cab ∧ ([255#8] : List Byte).length = 1
      ∧ (after (.driverBrake .cab [255#8]) still).comb.driver = 100
      ∧ (after (.driverBrake .cab [255#8]) still).drive.valve.rb1.pendingDuty = some 100 :=
  ⟨still_sound, by unfold State.CanTake; decide +kernel⟩

theorem witness_ParkWorksTheSpring :
    (State.reset.CanTake .cab ∧ still.CanTake .cab) ∧ field [1#8] 0 1 = ParkSetting.apply.code
      ∧ field [2#8] 0 1 = ParkSetting.release.code ∧ still.line.opState ≠ .config := by
  unfold State.CanTake
  decide +kernel

/-- RELEASE with a proof in progress; APPLY at standstill with channels that owe proofs, RB1 tried. -/
theorem witness_ParkWorksTheSpring_proof :
    let s : State := { still with prov := { still.prov with owed := { rb1 := 1, rb2 := 1, ab1 := 0, ab2 := 0 }, tried := [.rb1] } }
    ((proving .rise 450).Sound ∧ s.Sound) ∧ ((proving .rise 450).CanTake .cab ∧ s.CanTake .cab)
      ∧ (proving .rise 450).comb.springApplied = true
      ∧ (after (.park .cab [2#8]) (proving .rise 450)).comb.springApplied = false
      ∧ s.comb.springApplied = false ∧ s.odo.standstill = true ∧ s.prov.proof = none
      ∧ firstOwing s.prov.owed s.prov.tried = some .rb2
      ∧ (after (.park .cab [1#8]) s).prov.tried = [.rb1, .rb2] :=
  ⟨⟨proving_sound.1, State.check_sound (by decide +kernel)⟩, by unfold State.CanTake; decide +kernel, by decide +kernel⟩

/-! ### Brakes, proofs and doors -/

/-- V1 and M1 running with a pending duty of 40. -/
def pulsing : State :=
  { still with
    drive :=
      { still.drive with
        valve := { still.drive.valve with rb1 := { Output.firstPeriod with pendingDuty := some 40 } }
        motor := { still.drive.motor with d1 := { Output.firstPeriod with pendingDuty := some 40 } } } }

/-- GANG_RACK on. -/
def ganging : State :=
  { pulsing with line := { pulsing.line with settings := { pulsing.line.settings with gangRack := true } } }

theorem witness_PeriodsTakeThePendingDuty :
    (pulsing.drive.motor.get .d1).boundary.isSome = true ∧ (pulsing.drive.motor.get .d1).pendingDuty = some 40
      ∧ (pulsing.drive.valve.get .rb1).boundary.isSome = true ∧ (pulsing.drive.valve.get .rb1).pendingDuty = some 40
      ∧ pulsing.cfg.gangRack = false ∧ (pulsing.drive.valve.get .rb2).boundary.isSome = true ∧ pulsing.drive.ganged = false
      ∧ ganging.drive.valve.rb1.pendingDuty = some 40 ∧ ganging.cfg.gangRack = true ∧ ganging.prov.proof = none
      ∧ (pulsing.drive.motor.get .d2).boundary = none := by decide +kernel

/-- R106: at a duty of 100 the output stays on at the boundary at which its next period is due; at 40 it is off by then. -/
theorem test_full_duty_has_no_gap :
    ({ shut with activeOn := 2000 } : Output).isOn 3001000 = true ∧ ({ shut with activeOn := 800 } : Output).isOn 2999799 = true
      ∧ ({ shut with activeOn := 800 } : Output).isOn 2999800 = false
      ∧ ({ shut with activeOn := 800 } : Output).isOn 3001000 = false ∧ shut.isOn 2999000 = false := by decide +kernel

/-- A located car with an unsent POSITION record, none, and none at a full queue; and one that is not located. -/
theorem witness_TimersRunOn :
    (still.scan.timer.Elapsing still.clock 10000
        ∧ still.radio.positionTimer.Elapsing still.clock (still.cfg.positionInterval * 1000)
        ∧ (later State.reset).radio.positionTimer.Elapsing (later State.reset).clock (State.reset.cfg.positionInterval * 1000)
        ∧ State.reset.scan.timer.Resting State.reset.clock 10000
        ∧ State.reset.radio.positionTimer.Resting State.reset.clock (State.reset.cfg.positionInterval * 1000))
      ∧ State.reset.odo.located = false ∧ listening.cfg.listenOnly = true ∧ still.odo.located = true
      ∧ still.cfg.listenOnly = false ∧ (∀ r ∈ still.radio.queue.drop still.radio.flying, r.isPosition = false)
      ∧ still.radio.queue.length < 32 ∧ 32 ≤ (full false).radio.queue.length
      ∧ (∀ r ∈ (full false).radio.queue.drop (full false).radio.flying, r.isPosition = false)
      ∧ ((full true).radio.queue.head?.map Report.isPosition) = some true ∧ (full true).radio.flying ≤ 0
      ∧ ∀ y ∈ (full true).radio.queue.drop 1, y.isPosition = false :=
  ⟨⟨Timer.elapsing_iff.2 (by decide +kernel), Timer.elapsing_iff.2 (by decide +kernel), Timer.elapsing_iff.2 (by decide +kernel),
    Timer.resting_iff.2 (by decide +kernel), Timer.resting_iff.2 (by decide +kernel)⟩, by decide +kernel⟩

/-- A scan of one pressure on every channel but RB1, and one current at every door. -/
def scanOf (rb1 p c : BitVec 16) : ScanWords :=
  { pressure := { rb1 := rb1, rb2 := p, ab1 := p, ab2 := p }, current := { d1 := c, d2 := c, d3 := c, d4 := c } }

/-- The car 400 ms after its demands changed (AB2 one µs less): RB1 with no deviation start, RB2 and AB2 with one 1 µs short of
200 ms, AB1 with one that its sample ends. -/
def watched : State :=
  { car with
    comb :=
      { car.comb with
        feedback :=
          { rb1 := { lastChange := 2600000, deviationStart := none }
            rb2 := { lastChange := 2600000, deviationStart := some 2800001 }
            ab1 := { lastChange := 2600000, deviationStart := some 2800001 }
            ab2 := { lastChange := 2600001, deviationStart := some 2700000 } } } }

/-- 61 kPa on RB1, RB2 and AB2, 60 kPa on AB1, all expected at 0 with FEEDBACK_TOL 60. -/
def sixtyOne : ScanWords :=
  { pressure := { rb1 := 61#16, rb2 := 61#16, ab1 := 60#16, ab2 := 61#16 }, current := { d1 := 0#16, d2 := 0#16, d3 := 0#16, d4 := 0#16 } }

/-- Every row of R113 for a scan that fails no channel: a start is set, kept and cleared, and one channel is not looked at. -/
theorem witness_ScansReadTheConverter_feedback :
    (watched.Sound ∧ watched.Blended) ∧ (watched.Watches .rb1 ∧ watched.Watches .rb2 ∧ watched.Watches .ab1 ∧ ¬watched.Watches .ab2)
      ∧ (watched.Strays sixtyOne .rb1 ∧ watched.Strays sixtyOne .rb2 ∧ ¬watched.Strays sixtyOne .ab1)
      ∧ (∀ c m, watched.Watches c → watched.Strays sixtyOne c → (watched.comb.feedback.get c).deviationStart = some m →
          watched.clock < m + 200000)
      ∧ (after (.scanComplete sixtyOne) watched).comb.feedback =
          { rb1 := { lastChange := 2600000, deviationStart := some 3000000 }
            rb2 := { lastChange := 2600000, deviationStart := some 2800001 }
            ab1 := { lastChange := 2600000, deviationStart := none }
            ab2 := { lastChange := 2600001, deviationStart := some 2700000 } } := by
  have no : ∀ c, ∀ x, watched.prov.proof = some x → x.channel ≠ c := fun _ _ e => absurd (show none = some _ from e) (by simp)
  refine ⟨⟨State.check_sound (by decide +kernel),
      ⟨by decide +kernel, by decide +kernel, by decide +kernel, forall_channels (by decide +kernel)⟩⟩,
    ⟨⟨by decide +kernel, no _, by decide +kernel⟩, ⟨by decide +kernel, no _, by decide +kernel⟩,
      ⟨by decide +kernel, no _, by decide +kernel⟩, fun h => absurd h.2.2 (by decide +kernel)⟩,
    by unfold State.Strays; decide +kernel, fun c m w x e => ?_, by decide +kernel⟩
  cases c with
  | rb1 => exact absurd (show none = some m from e) (by simp)
  | rb2 =>
    obtain rfl : 2800001 = m := Option.some.inj (show some 2800001 = some m from e)
    decide +kernel
  | ab1 => exact absurd x (by unfold State.Strays; decide +kernel)
  | ab2 => exact absurd w.2.2 (by decide +kernel)

/-- RB1, expected at 0 kPa, stands at 61 with FEEDBACK_TOL 60, 400 ms after its demand changed and 200 ms after it was first
seen; every other channel is at 60. -/
def deviating : State :=
  { car with
    comb := { car.comb with feedback := { car.comb.feedback with rb1 := { lastChange := 2600000, deviationStart := some 2800000 } } } }

theorem witness_FeedbackFailsTheChannel :
    deviating.Sound ∧ deviating.Blended
      ∧ (∀ x ∈ channels,
          sampleAfter (deviating.scan.pressure.get x) 1000 ((scanOf 61#16 60#16 0#16).pressure.get x)
              ≤ deviating.comb.demand.get x * deviating.cfg.fullPressure.get x / 100 + deviating.cfg.feedbackTol
            ∧ deviating.comb.demand.get x * deviating.cfg.fullPressure.get x / 100
              ≤ sampleAfter (deviating.scan.pressure.get x) 1000 ((scanOf 61#16 60#16 0#16).pressure.get x)
                + deviating.cfg.feedbackTol ↔ x ≠ .rb1)
      ∧ deviating.prov.health.get .rb1 ≠ .failed ∧ deviating.prov.proof = none
      ∧ (deviating.comb.feedback.get .rb1).lastChange + 400000 = deviating.clock
      ∧ (deviating.comb.feedback.get .rb1).deviationStart = some 2800000 ∧ 2800000 + 200000 = deviating.clock :=
  ⟨State.check_sound (by decide +kernel),
    ⟨by decide +kernel, by decide +kernel, by decide +kernel, forall_channels (by decide +kernel)⟩, by decide +kernel⟩

/-- The same channel fails while the car is parked, and is proved at once. -/
theorem witness_FeedbackFailsTheChannel_round :
    let s : State := { parked with comb := { parked.comb with feedback := deviating.comb.feedback } }
    (s.Sound ∧ s.Blended ∧ s.MayProve) ∧ s.prov.health.get .rb1 ≠ .failed ∧ (s.comb.feedback.get .rb1).deviationStart = some 2800000
      ∧ (after (.scanComplete (scanOf 61#16 60#16 0#16)) s).prov.tried = [.rb1] :=
  ⟨⟨State.check_sound (by decide +kernel),
      ⟨by decide +kernel, by decide +kernel, by decide +kernel, forall_channels (by decide +kernel)⟩,
      by unfold State.MayProve; decide +kernel⟩, by decide +kernel⟩

/-- The proof timer running; just started at reset. -/
theorem witness_ProofPeriodsAddToWhatIsOwed :
    parked.Sound ∧ parked.prov.timer.Elapsing parked.clock (parked.cfg.proofPeriod * 1000000)
      ∧ State.reset.prov.timer.Resting State.reset.clock (State.reset.cfg.proofPeriod * 1000000) ∧ parked.odo.standstill = true ∧ parked.comb.springApplied = true
      ∧ parked.set.hasLevel .emergency = false ∧ parked.set.has .overspeedService = false ∧ parked.prov.proof = none :=
  ⟨parked_sound, Timer.elapsing_iff.2 (by decide +kernel), Timer.resting_iff.2 (by decide +kernel), by decide +kernel⟩

/-- The period ends while RB1 is proved; on the move, with the spring released, and in an emergency. -/
theorem witness_ProofPeriodsAddToWhatIsOwed_else :
    let stopped := after .loopOpens still
    ((proving .rise 450).Sound ∧ (proving .rise 450).Ordered) ∧ ((car.Sound ∧ car.Ordered) ∧ still.Sound ∧ still.Ordered)
      ∧ (stopped.Sound ∧ stopped.Ordered)
      ∧ ((proving .rise 450).odo.standstill = true ∧ (proving .rise 450).set.has .overspeedService = false)
      ∧ (proving .rise 450).prov.timer.Elapsing (proving .rise 450).clock ((proving .rise 450).cfg.proofPeriod * 1000000)
      ∧ (proving .rise 450).prov.proof ≠ none ∧ car.odo.standstill = false ∧ still.comb.springApplied = false ∧ stopped.set.hasLevel .emergency = true :=
  ⟨⟨proving_sound.1, proving_ordered.1⟩, ⟨⟨car_sound, car_ordered⟩, still_sound, State.check_ordered (by decide +kernel)⟩,
    ⟨State.check_sound (by decide +kernel), State.check_ordered (by decide +kernel)⟩, by decide +kernel,
    Timer.elapsing_iff.2 (by decide +kernel), by decide +kernel⟩

/-- Both steps 1 µs after their start, and the FALL at its start. -/
theorem witness_DwellTimersJudgeTheStep :
    ((proving .rise 450).prov.dwell.Elapsing (proving .rise 450).clock 300000
        ∧ (proving .fall 50).prov.dwell.Elapsing (proving .fall 50).clock 300000
        ∧ (after .dwellTimerExpiry (proving .rise 450)).prov.dwell.Resting (after .dwellTimerExpiry (proving .rise 450)).clock 300000)
      ∧ 9 * (proving .rise 450).cfg.fullPressure.get .rb1 = 10 * 450
      ∧ 10 * 449 < 9 * (proving .rise 449).cfg.fullPressure.get .rb1
      ∧ 10 * 50 = (proving .fall 50).cfg.fullPressure.get .rb1 ∧ (proving .fall 51).cfg.fullPressure.get .rb1 < 10 * 51
      ∧ (proving .rise 450).set.hasLevel .emergency = false ∧ (proving .fall 51).cfg.listenOnly = false
      ∧ (proving .fall 51).radio.queue.length < 32 :=
  ⟨⟨Timer.elapsing_iff.2 (by decide +kernel), Timer.elapsing_iff.2 (by decide +kernel), Timer.resting_iff.2 (by decide +kernel)⟩,
    by decide +kernel⟩

/-- RB1 passes, and RB2 is next; where every other channel is tried, none is. -/
theorem witness_DwellTimersJudgeTheStep_round :
    let last : State := { proving .fall 50 with prov := { (proving .fall 50).prov with tried := [.rb2, .ab1, .ab2, .rb1] } }
    ((proving .fall 50).Sound ∧ (proving .fall 50).Ordered) ∧ (last.Sound ∧ last.Ordered)
      ∧ firstOwing (after .dwellTimerExpiry (proving .fall 50)).prov.owed (proving .fall 50).prov.tried = some .rb2
      ∧ (after .dwellTimerExpiry (proving .fall 50)).prov.tried = [.rb1, .rb2]
      ∧ firstOwing (after .dwellTimerExpiry last).prov.owed last.prov.tried = none :=
  ⟨⟨proving_sound.2, proving_ordered.2⟩, ⟨State.check_sound (by decide +kernel), State.check_ordered (by decide +kernel)⟩,
    by decide +kernel⟩

/-- The parked car; with a proof in progress; on the move. -/
theorem witness_ProveNowMakesEveryChannelOwe :
    (parked.Sound ∧ parked.MayProve) ∧ (parked.CanTake .crew ∧ (proving .rise 450).CanTake .crew ∧ car.CanTake .crew)
      ∧ ((proving .rise 450).Sound ∧ (proving .rise 450).Ordered ∧ ¬(proving .rise 450).MayProve)
      ∧ (car.Sound ∧ car.Ordered ∧ ¬car.MayProve) ∧ parked.set.has .overspeedService = false
      ∧ (proving .rise 450).set.has .overspeedService = false ∧ car.set.has .overspeedService = false :=
  ⟨⟨parked_sound, by unfold State.MayProve; decide +kernel⟩, by unfold State.CanTake; decide +kernel,
    ⟨proving_sound.1, proving_ordered.1, fun h => absurd h.2.2.2 (by decide +kernel)⟩,
    ⟨car_sound, car_ordered, fun h => absurd h.1 (by decide +kernel)⟩, by decide +kernel⟩

/-- The car of 4.6 with a brake DEGRADED: the ratings, the capability and the barred flags agree. -/
theorem witness_CapabilityFollowsTheRatings :
    ((after .evaluationTimerExpiry car).prov.capability = capabilityOf car.cfg.nominal car.prov.health)
      ∧ car.Rated ∧ ∃ t, exec (.scanComplete (scanOf 0#16 0#16 0#16)) car = .next t :=
  ⟨by decide +kernel, ⟨by decide +kernel, by decide +kernel⟩, _, rfl⟩

/-- A release granted at platform 7 (8.2): the car footprint lies within segment 213. -/
theorem witness_DoorReleaseReleasesTheSide :
    platform.CanTake .crew ∧ field [1#8] 0 1 = PlatformSide.left.code ∧ platform.odo.located = true
      ∧ platform.odo.standstill = true ∧ platform.AtPlatform .left ∧ (platform.doorAt .d1).state = .locked := by
  refine ⟨?_, by decide +kernel, by decide +kernel, by decide +kernel, ⟨by decide +kernel, 7, fun g m => ?_⟩,
    by decide +kernel⟩
  · unfold State.CanTake
    decide +kernel
  · have h : platform.win.overlapping platform.carLo platform.hi = line.drop 5 := by decide +kernel
    rw [h] at m
    simp only [line, List.drop, List.mem_singleton] at m
    subst m
    exact ⟨_, rfl, rfl, .inl rfl⟩

theorem released_sound : (withD1 .released (leaf false false true false)).Sound := State.check_sound (by decide +kernel)

theorem witness_ButtonsOpenReleasedDoors :
    let s := withD1 .released (leaf false false true false)
    s.Sound ∧ (s.doorAt .d1).pins.pressed = false ∧ (s.doorAt .d1).state = .released ∧ (s.doorAt .d1).pins.openMade = false
      ∧ (s.doorAt .d2).state ≠ .released ∧ (s.doorAt .d2).pins.pressed = false ∧ s.cfg.listenOnly = false
      ∧ s.radio.queue.length < 32 := ⟨released_sound, by decide +kernel⟩

theorem witness_OpenReleasedOpensEveryReleasedDoor :
    let s := withD1 .released (leaf false false true false)
    let u := withD1 .released (leaf false false true true)
    (s.Sound ∧ u.Sound) ∧ (s.CanTake .crew ∧ u.CanTake .crew) ∧ (s.doorAt .d1).state = .released
      ∧ (s.doorAt .d1).pins.openMade = false ∧ (u.doorAt .d1).pins.openMade = true ∧ (u.doorAt .d1).closeOrdered = false
      ∧ (s.doorAt .d2).state ≠ .released :=
  ⟨⟨released_sound, State.check_sound (by decide +kernel)⟩, by unfold State.CanTake; decide +kernel, by decide +kernel⟩

/-- A close order is pending at a RELEASED door whose open switch reads made, its closed switch made or not. -/
theorem witness_OpenReleasedOpensEveryReleasedDoor_ordered :
    let s := fun closed => withD1 .released (leaf false true closed true)
    ((s true).Sound ∧ (s false).Sound) ∧ ((s true).CanTake .crew ∧ (s false).CanTake .crew)
      ∧ ((s true).doorAt .d1).state = .released ∧ ((s true).doorAt .d1).pins.openMade = true
      ∧ ((s true).doorAt .d1).closeOrdered = true ∧ ((s true).doorAt .d1).pins.closedMade = true
      ∧ ((s false).doorAt .d1).pins.closedMade = false :=
  ⟨⟨State.check_sound (by decide +kernel), State.check_sound (by decide +kernel)⟩, by unfold State.CanTake; decide +kernel,
    by decide +kernel⟩

theorem witness_OpenSwitchesEndTheOpening :
    let s := fun ordered => withD1 .opening (leaf true ordered false false)
    ((s true).Sound ∧ (s false).Sound ∧ still.Sound) ∧ ((s true).doorAt .d1).pins.openMade = false
      ∧ ((s true).doorAt .d1).state = .opening ∧ ((s true).doorAt .d1).closeOrdered = true
      ∧ ((s true).doorAt .d1).pins.closedMade = false ∧ ((s false).doorAt .d1).closeOrdered = false
      ∧ (still.doorAt .d1).state ≠ .opening ∧ (still.doorAt .d1).pins.openMade = false :=
  ⟨⟨State.check_sound (by decide +kernel), State.check_sound (by decide +kernel), still_sound⟩, by decide +kernel⟩

/-- D1 in each state that a close order finds it in. -/
theorem witness_DoorCloseOrdersTheSide :
    ((withD1 .released (leaf false false true false)).Sound ∧ (withD1 .opening (leaf true false false false)).Sound
        ∧ (withD1 .fault (leaf false false true false)).Sound ∧ (withD1 .closing (leaf true true false false)).Sound
        ∧ still.Sound)
      ∧ still.CanTake .crew ∧ (withD1 .opening (leaf true false false false)).CanTake .crew
      ∧ field [3#8] 0 1 = PlatformSide.both.code ∧ field [2#8] 0 1 = PlatformSide.right.code
      ∧ ((withD1 .opening (leaf true false false false)).doorAt .d1).pins.closedMade = false
      ∧ ((withD1 .fault (leaf false false true false)).doorAt .d1).pins.closedMade = true
      ∧ ((withD1 .closing (leaf true true false false)).doorAt .d1).state = .closing ∧ (still.doorAt .d1).state = .locked :=
  ⟨⟨released_sound, State.check_sound (by decide +kernel), State.check_sound (by decide +kernel),
    State.check_sound (by decide +kernel), still_sound⟩, by unfold State.CanTake; decide +kernel⟩

theorem witness_ClosedSwitchesShutTheDoor :
    let s := withD1 .closing (leaf true true false false)
    (s.doorAt .d1).pins.closedMade = false ∧ (s.doorAt .d1).state ∈ [DoorState.closing, .open, .fault]
      ∧ ((withD1 .opening (leaf true false false false)).doorAt .d1).state ∉ [DoorState.closing, .open, .fault]
      ∧ ((withD1 .opening (leaf true false false false)).doorAt .d1).pins.closedMade = false
      ∧ (car.doorAt .d1).pins.closedMade = true ∧ (car.doorAt .d1).state ∈ [DoorState.locked, .released]
      ∧ car.odo.standstill = false ∧ ((withD1 .fault (leaf false false true false)).doorAt .d1).pins.closedMade = true
      ∧ ((withD1 .fault (leaf false false true false)).doorAt .d1).state ∉ [DoorState.locked, .released] := by decide +kernel

/-- D1 closing uphill against 1,801 mA for 150 ms, at its first and at its third obstruction. -/
def obstructed (n : Nat) : State :=
  { withD1 .closing { leaf true true false false with reopen := n, obstruction := some 2850000 } with clock := 3000000 }

/-- D1 moving on a combined state: OPENING, or CLOSING with an obstruction start or none. -/
def moving (x : DoorState) (start : Option Nat) : State :=
  (withD1 x { leaf true (x == .closing) false false with obstruction := start }).recombine false

/-- The rows of R145 for a scan that finds no obstruction, at platform 7, whose uphill limit is 2,160 mA for the leaf of D1 that
closes down the line and 1,800 the other way: 1,801 mA with no start, and with one a µs short of 150 ms; 1,800 mA; OPENING. -/
theorem witness_ScansReadTheConverter_doors :
    let above := scanOf 0#16 0#16 1801#16
    ((moving .closing none).Sound ∧ (moving .closing (some 2850001)).Sound ∧ (moving .opening none).Sound)
      ∧ ((moving .closing none).Blended ∧ (moving .closing (some 2850001)).Blended ∧ (moving .opening none).Blended)
      ∧ ((moving .closing none).doorAt .d1).state = .closing ∧ ((moving .opening none).doorAt .d1).state = .opening
      ∧ (moving .closing none).Blocks above .d1 ∧ (moving .closing (some 2850001)).Blocks above .d1
      ∧ ¬(moving .closing (some 2850001)).Blocks (scanOf 0#16 0#16 1800#16) .d1
      ∧ (moving .closing (some 2850001)).clock < 2850001 + 150000 ∧ (∀ c, (moving .closing none).Watches c → False)
      ∧ ((moving .closing none).doorAt .d2).state ∉ [DoorState.opening, .closing]
      ∧ ((after (.scanComplete above) (moving .closing none)).doorAt .d1).obstruction = some 3000000
      ∧ ((after (.scanComplete above) (moving .closing (some 2850001))).doorAt .d1).obstruction = some 2850001
      ∧ ((after (.scanComplete (scanOf 0#16 0#16 1800#16)) (moving .closing (some 2850001))).doorAt .d1).obstruction = none :=
  ⟨⟨State.check_sound (by decide +kernel), State.check_sound (by decide +kernel), State.check_sound (by decide +kernel)⟩,
    ⟨⟨by decide +kernel, by decide +kernel, by decide +kernel, forall_channels (by decide +kernel)⟩,
      ⟨by decide +kernel, by decide +kernel, by decide +kernel, forall_channels (by decide +kernel)⟩,
      ⟨by decide +kernel, by decide +kernel, by decide +kernel, forall_channels (by decide +kernel)⟩⟩,
    by decide +kernel, by decide +kernel, by unfold State.Blocks; decide +kernel, by unfold State.Blocks; decide +kernel,
    by unfold State.Blocks; decide +kernel, by decide +kernel,
    fun c h => absurd h.2.2 (forall_channels (p := fun c =>
      ¬((moving .closing none).comb.feedback.get c).lastChange + 400000 ≤ (moving .closing none).clock) (by decide +kernel) c),
    by decide +kernel⟩

/-- Each motion with its own limit and with the other's, a closing that DOOR_CLOSE has just restarted, and a door at rest; the last by R147: the scan reopens D1 in the
instant of its closing limit, which then finds the opening's timer. -/
theorem witness_MotionLimitsEndInFault :
    let s := withD1 .closing (leaf true true false false)
    let u := withD1 .opening (leaf true false false false)
    let v := after (.doorClose .crew [1#8]) s
    ((s.doorAt .d1).motion.Elapsing s.clock 8000000 ∧ (u.doorAt .d1).motion.Elapsing u.clock 6000000
        ∧ (v.doorAt .d1).motion.Resting v.clock 8000000)
      ∧ (s.doorAt .d1).state = .closing ∧ (v.doorAt .d1).state = .closing ∧ (u.doorAt .d1).state = .opening ∧ (still.doorAt .d1).motion = none
      ∧ ((after (.motionTimerExpiry { door := .d1, limit := .closing }) (after (.scanComplete (scanOf 0#16 0#16 1801#16)) (obstructed 0))).doorAt
          .d1).state = .opening :=
  ⟨⟨Timer.elapsing_iff.2 (by decide +kernel), Timer.elapsing_iff.2 (by decide +kernel), Timer.resting_iff.2 (by decide +kernel)⟩,
    by decide +kernel⟩

theorem witness_DoorsAreIsolatedAndReturned :
    let s := withD1 .isolated (leaf false false false false)
    (still.CanTake .crew ∧ s.CanTake .crew) ∧ field [1#8] 0 1 = doorCode .d1 ∧ field [4#8] 0 1 = doorCode .d4
      ∧ still.odo.standstill = true ∧ s.odo.standstill = true ∧ (still.doorAt .d4).state = .locked
      ∧ (s.doorAt .d1).state = .isolated ∧ (s.doorAt .d1).pins.closedMade = false
      ∧ ((after (.doorIsolate .crew [4#8]) still).doorAt .d4).state = .isolated
      ∧ ((after (.doorIsolate .crew [4#8]) still).doorAt .d4).pins.closedMade = true := by
  unfold State.CanTake
  decide +kernel

theorem witness_ObstructedDoorsReopen :
    ((obstructed 1).Sound ∧ (obstructed 2).Sound) ∧ ((obstructed 1).doorAt .d1).state = .closing
      ∧ (obstructed 1).limitOnSlope .d1 ((obstructed 1).cfg.openDir.get .d1).opposite
          < sampleAfter ((obstructed 1).scan.current.get .d1) 4000 ((scanOf 0#16 0#16 1801#16).current.get .d1)
      ∧ ((obstructed 1).doorAt .d1).obstruction = some 2850000 ∧ 2850000 + 150000 = (obstructed 1).clock
      ∧ ((obstructed 1).doorAt .d1).reopen = 1 ∧ ((obstructed 1).doorAt .d1).pins.openMade = false
      ∧ ((obstructed 2).doorAt .d1).reopen = 2 :=
  ⟨⟨State.check_sound (by decide +kernel), State.check_sound (by decide +kernel)⟩, by decide +kernel⟩

/-! ### Radio and lines -/

/-- A body too short; no kind of downlink; a POLL with a byte too many; a POLL to another car. The timer running, and just
restarted by a good frame. -/
theorem witness_LinkFollowsTheFrames :
    ([0#8, 1#8] : List Byte).length < 3
      ∧ (∀ k ∈ [DownlinkKind.poll, .ack, .authority, .release, .restrictionSet, .restrictionClear], k.code ≠ 7#8)
      ∧ ([0#8] : List Byte).length ≠ DownlinkKind.poll.size ∧ still.cfg.accepts .poll (0#8 ++ 2#8) = false
      ∧ State.reset.radio.link ≠ .up ∧ still.radio.link = .up
      ∧ still.radio.timer.Elapsing still.clock (still.cfg.radioTimeout * 1000)
      ∧ still.linkedAt.radio.timer.Resting still.linkedAt.clock (still.linkedAt.cfg.radioTimeout * 1000) :=
  ⟨by decide +kernel, by decide +kernel, by decide +kernel, by decide +kernel, by decide +kernel, by decide +kernel,
    Timer.elapsing_iff.2 (by decide +kernel), Timer.resting_iff.2 (by decide +kernel)⟩

/-- Silent: LISTEN_ONLY on, or a frame going out. -/
def sending : State := { still with radio := { still.radio with transmitter := some { frame := [], ends := 4000000 } } }

theorem witness_PollsAreAnsweredWithABurst :
    listening.linkedAt.cfg.listenOnly = true ∧ sending.linkedAt.radio.transmitter.isSome = true
      ∧ still.linkedAt.cfg.listenOnly = false ∧ still.linkedAt.radio.transmitter = none
      ∧ (flown.linkedAt.radio.inFlight.map Burst.count) = some 24 ∧ flown.linkedAt.radio.transmitter = none
      ∧ still.linkedAt.radio.inFlight = none ∧ still.linkedAt.radio.queue = [] ∧ still.linkedAt.cfg.answerEmpty = true
      ∧ (full false).linkedAt.radio.inFlight = none ∧ (full false).linkedAt.radio.queue ≠ [] := by decide +kernel

theorem witness_PollsAreAnsweredWithABurst_silent :
    let s := { still with line := { still.line with settings := { still.line.settings with answerEmpty := false } } }
    s.linkedAt.cfg.answerEmpty = false ∧ s.linkedAt.cfg.listenOnly = false ∧ s.linkedAt.radio.transmitter = none
      ∧ s.linkedAt.radio.inFlight = none ∧ s.linkedAt.radio.queue = [] := by decide +kernel

theorem witness_AcksRetireTheBurst :
    ([0#8] : List Byte).length = 1 ∧ (flown.linkedAt.radio.inFlight.map Burst.number) = some 0 ∧ field [0#8] 0 1 = 0
      ∧ field [1#8] 0 1 ≠ 0 ∧ still.linkedAt.radio.inFlight = none
      ∧ (after (.ack 1#16 [0#8]) flown).radio.queue.length = 8 := by decide +kernel

/-- Five requests: one response in sending, four waiting, the list full. -/
def busy : State := (List.replicate 5 (Instr.status .cab [])).foldl (fun s i => after i s) still

theorem witness_LinesSendOneAfterTheOther :
    (after (.status .cab []) still).line.cab.sending.isSome = true ∧ (after (.status .cab []) still).line.cab.waiting = []
      ∧ busy.line.cab.sending.isSome = true ∧ busy.line.cab.waiting.length = 4 := by decide +kernel

theorem witness_BadRequestsAreRefused :
    (still.CanTake .cab ∧ still.CanTake .crew) ∧ 0x0F#8 ∉ requestCodes ∧ RequestKind.locate.servedOn .crew = false
      ∧ RequestKind.doorClose.servedOn .cab = false ∧ RequestKind.status.servedOn .crew = true
      ∧ ([0#8] : List Byte).length ≠ RequestKind.status.size := by
  unfold State.CanTake
  decide +kernel

/-- The cross-check fails by the window items, and by the lengths. -/
def conflicting (ahead car : Nat) : State :=
  { State.reset with
    line :=
      { State.reset.line with
        settings := { State.reset.line.settings with aheadLow := ahead, behindHigh := 4, carLength := car, trainLength := 160 } } }

theorem witness_OwnersRefuse_cab :
    (still.CanTake .cab ∧ car.CanTake .cab ∧ State.reset.CanTake .cab)
      ∧ field [0x10#8, 0#8, 0#8, 0#8, 0#8, 1#8] 0 3 = 1048576 ∧ field [0x0F#8, 0xFF#8, 0xFF#8, 0#8, 0#8, 1#8] 0 3 = 1048575
      ∧ car.odo.standstill = false ∧ field [3#8] 0 1 = 3 ∧ field [2#8] 0 1 = 2 ∧ still.win.wanted.served = some 207
      ∧ (asking (.byNumber 207 .down) line).win.wanted.served ≠ some (field (top.bytes) 0 2)
      ∧ State.reset.line.opState = .config ∧ still.line.opState = .run
      ∧ 28 < (conflicting 25 160).cfg.aheadLow + (conflicting 25 160).cfg.behindHigh
      ∧ (conflicting 24 161).cfg.trainLength < (conflicting 24 161).cfg.carLength := by
  unfold State.CanTake
  decide +kernel

/-- A segment of another number; one of kind 9, which is none; a marker 19 teeth from another, and one 20 teeth. -/
theorem witness_OwnersRefuse_segment :
    let s := asking (.byNumber 210 .up) [{ line.getD 1 top with marker := some 779 }]
    let g := fun o => { line.getD 2 top with marker := some o }
    (s.CanTake .cab ∧ ¬(asking (.byNumber 212 .up) (line.take 5)).Asks (field top.bytes 0 2) (field top.bytes 2 3) (field top.bytes 5 2))
      ∧ ((asking (.byNumber 213 .up) (line.take 5)).Asks (field (top.bytes.set 7 9#8) 0 2) (field (top.bytes.set 7 9#8) 2 3)
          (field (top.bytes.set 7 9#8) 5 2) ∧ ∀ g, ¬Delivers (top.bytes.set 7 9#8) g)
      ∧ (Delivers (g 18).bytes (g 18) ∧ s.Wants (g 18) ∧ 40779 ∈ s.win.markers ∧ gap (40780 + 18) 40779 = 19
        ∧ gap (40780 + 19) 40779 = 20) := by
  refine ⟨⟨by unfold State.CanTake; decide +kernel, fun k => ?_⟩, ⟨show _ ∧ _ by decide +kernel, fun g k => ?_⟩,
    by constructor <;> decide +kernel, show _ ∧ _ by decide +kernel, by decide +kernel⟩
  · exact absurd (show field top.bytes 0 2 = 212 from k.1) (by decide +kernel)
  · have h : g.kind.code = 9 := k.kind
    revert h
    cases g.kind <;> decide

/-- END_OF_LINE naming another number, edge 3 or the other edge; READ_WINDOW 32, PARK 0 and 3; CONFIGURE of items 0 and 48. -/
theorem witness_OwnersRefuse_fields :
    let s := asking (.byNumber 207 .down) line
    s.CanTake .cab ∧ field [0#8, 208#8, 2#8] 0 2 ≠ 207 ∧ s.win.wanted = .byNumber (field [0#8, 207#8, 3#8] 0 2) .down
      ∧ field [0#8, 207#8, 3#8] 2 1 = 3 ∧ field [0#8, 207#8, 1#8] 2 1 = verticalCode Vertical.down.opposite
      ∧ field [32#8] 0 1 = 32 ∧ field [0#8] 0 1 = 0 ∧ field [3#8] 0 1 = 3 ∧ field [48#8, 0#8, 0#8] 0 1 = 48
      ∧ State.reset.line.opState = .config ∧ itemOfCode 47 ≠ none ∧ itemOfCode 48 = none := by
  unfold State.CanTake
  decide +kernel

/-- DOOR_RELEASE 0 and 3, DOOR_CLOSE 0 and 4, DOOR_ISOLATE and DOOR_UNISOLATE 0 and 5; on the move. -/
theorem witness_OwnersRefuse_doors :
    (still.CanTake .crew ∧ car.CanTake .crew) ∧ field [3#8] 0 1 ≠ 1 ∧ field [3#8] 0 1 ≠ 2
      ∧ (∀ x ∈ [PlatformSide.left, .right, .both], field [4#8] 0 1 ≠ x.code ∧ field [0#8] 0 1 ≠ x.code)
      ∧ (∀ d ∈ allDoors, field [5#8] 0 1 ≠ doorCode d ∧ field [0#8] 0 1 ≠ doorCode d)
      ∧ field [4#8] 0 1 = doorCode .d4 ∧ car.odo.standstill = false ∧ still.odo.standstill = true
      ∧ (still.doorAt .d4).state ≠ .isolated := by
  unfold State.CanTake
  decide +kernel

/-- 8.2: a release refused where the car footprint reaches beyond the platform's segment. -/
theorem witness_OwnersRefuse_crew :
    (still.CanTake .crew ∧ car.CanTake .crew ∧ State.reset.CanTake .crew) ∧ State.reset.odo.located = false
      ∧ car.odo.located = true ∧ car.odo.standstill = false ∧ still.odo.located = true ∧ still.odo.standstill = true
      ∧ field [1#8] 0 1 = PlatformSide.left.code ∧ field [4#8] 0 1 = doorCode .d4
      ∧ ((withD1 .fault (leaf false false true false)).doorAt .d1).state ≠ .locked ∧ (still.doorAt .d1).state ≠ .isolated := by
  unfold State.CanTake
  decide +kernel

theorem witness_OwnersRefuse_platform : ¬still.AtPlatform .left := by
  rintro ⟨-, id, h⟩
  obtain ⟨x, hx, -⟩ := h (line.getD 4 (line.headD top)) (by decide +kernel)
  exact absurd hx (by rw [show (line.getD 4 (line.headD top)).platform = none from rfl]; simp)

theorem witness_ReadingsChangeNothing :
    (still.CanTake .cab ∧ still.CanTake .crew) ∧ field [31#8] 0 1 = 31 ∧ still.win.records.length ≤ 31
      ∧ field [5#8] 0 1 = 5 ∧ (still.win.records[5]?).isSome = true := by
  unfold State.CanTake
  decide +kernel

/-- A number at and beyond an end of its range; a switch on, and out of range. -/
theorem witness_ConfigureTakesTheValue :
    State.reset.CanTake .cab ∧ State.reset.line.opState = .config ∧ itemOfCode (field [1#8, 0xFF#8, 0xFF#8] 0 1) = some .carAddress
      ∧ ConfigItem.carAddress.isCoded = false ∧ field [1#8, 0xFF#8, 0xFF#8] 1 2 = 65535
      ∧ (itemOfCode 45).map ConfigItem.isCoded = some true ∧ (itemOfCode 45).map ConfigItem.range = some (0, 1)
      ∧ (after (.configure .cab [1#8, 0xFF#8, 0xFF#8]) State.reset).cfg.carAddress = 65534#16 := by
  unfold State.CanTake
  decide +kernel

/-- In CONFIG with the link UP and AB1 owing one proof: a value that an item keeps, and changes within the range of each item that
restarts a timer, of OWED_DEGRADE to what AB1 owes, and of an item of each block. -/
theorem witness_ConfigureTakesTheValue_changes :
    let s : State :=
      { still with
        prov := { still.prov with owed := { rb1 := 0, rb2 := 0, ab1 := 1, ab2 := 0 } }
        line := { still.line with opState := .config, cabTimer := none } }
    s.CanTake .cab ∧ s.line.opState = .config ∧ s.radio.timer.isSome = true ∧ s.prov.health.get .ab1 = .healthy
      ∧ (∀ x ∈ [(ConfigItem.proofPeriod, 60), (.radioTimeout, 6000), (.positionInterval, 1000), (.owedDegrade, 1), (.feedbackTol, 50)
          , (.fullPressure .rb1, 400), (.nominal .rack, 3000), (.react .entry, 800), (.rbShare .rack, 50), (.holdLevel, 50)
          , (.aheadLow, 3), (.trainLength, 170), (.maxSpeed, 3000)],
          s.cfg.get x.1 ≠ x.2 ∧ x.1.range.1 ≤ x.2 ∧ x.2 ≤ x.1.range.2)
      ∧ ([1#8, 0#8, 1#8] : List Byte).length = 3 ∧ s.cfg.get .carAddress = field [1#8, 0#8, 1#8] 1 2 := by
  unfold State.CanTake
  decide +kernel

/-- From QUIESCING, from CONFIG with the cross-check at its limits, and from RUN. -/
theorem witness_ServiceIsEnteredAndLeft :
    (quiescing.CanTake .cab ∧ (conflicting 24 160).CanTake .cab ∧ still.CanTake .cab) ∧ quiescing.line.opState = .quiescing
      ∧ (conflicting 24 160).line.opState = .config
      ∧ (conflicting 24 160).cfg.aheadLow + (conflicting 24 160).cfg.behindHigh = 28
      ∧ (conflicting 24 160).cfg.carLength = (conflicting 24 160).cfg.trainLength ∧ still.line.opState = .run := by
  unfold State.CanTake
  decide +kernel

/-- The loop open, D1 isolated, and a report queue that has lost a record, in CONFIG at standstill. -/
def worn : State :=
  let s := after (.doorIsolate .crew [1#8]) (after .loopOpens State.reset)
  s.withRadio { s.radio with lost := 7, wasLost := true }

theorem witness_RestartKeepsThePosition :
    worn.Sound ∧ worn.CanTake .cab ∧ worn.line.opState = .config ∧ worn.odo.standstill = true ∧ worn.set.loopOpen = true
      ∧ (worn.doorAt .d1).state = .isolated ∧ (worn.doorAt .d2).state ≠ .isolated
      ∧ State.reset.radio.link = worn.radio.link ∧ State.reset.radio.transmitter = worn.radio.transmitter
      ∧ State.reset.radio ≠ worn.radio :=
  ⟨State.check_sound (by decide +kernel), by unfold State.CanTake; decide +kernel, by decide +kernel⟩

/-- At standstill with the loop closed, RB1 owing; on the move. -/
theorem witness_RestartKeepsThePosition_round :
    State.reset.Sound ∧ (State.reset.CanTake .cab ∧ car.CanTake .cab) ∧ State.reset.line.opState = .config
      ∧ State.reset.odo.standstill = true ∧ State.reset.set.loopOpen = false ∧ firstOwing State.reset.prov.owed [] = some .rb1
      ∧ car.odo.standstill = false :=
  ⟨reset_sound, by unfold State.CanTake; decide +kernel, by decide +kernel⟩

theorem witness_FramesAreReceivedAsTheyAreSent :
    State.reset.framer .radio = [] ∧ 1 ≤ (List.replicate 120 0x5A#8).length ∧ (List.replicate 120 0x5A#8).length ≤ 120 := by
  decide +kernel

/-- A length of 0 and of 121; a wrong CRC over bytes without a sync, and over bytes that end in a good frame. -/
theorem witness_RejectedFramesAreScannedAgain :
    (Config.sync ∉ [1#8, 2#8, 3#8, 4#8] ∧ Config.sync ∉ [0#8] ∧ Config.sync ∉ [121#8] ∧ Config.sync ∉ [3#8])
      ∧ (0#8 : Byte).toNat = 0 ∧ 120 < (121#8 : Byte).toNat
      ∧ (State.reset.withFramer .cab [Config.sync, 1#8, 2#8, 3#8]).framer .cab = Config.sync :: [1#8, 2#8, 3#8]
      ∧ [2#8, 3#8, 4#8].length = (1#8 : Byte).toNat + 2
      ∧ crc (1#8 :: [2#8, 3#8, 4#8].take 1) ≠ BitVec.ofNat 16 (valueOf ([2#8, 3#8, 4#8].drop 1))
      ∧ (frameOf [1#8]).length = (3#8 : Byte).toNat + 2
      ∧ crc (3#8 :: (frameOf [1#8]).take 3) ≠ BitVec.ofNat 16 (valueOf ((frameOf [1#8]).drop 3)) := by
  decide +kernel

end Sys2Proof.Tests
end

section
/-! PROOFS. The window beside the car: what leaves position, direction and the places of the records alone (`Placed`), what keeps
the counts and the wanted request (`Tracks`), and that every command does (R23 to R27). -/

namespace Sys2Proof.Machine

set_option Elab.async false

variable {free : List Block} {r m : List Cause} {s t u : State}

/-! ### What the counts and the request read -/

/-- What the counts and the wanted request read of a record. -/
def Segment.place (g : Segment) : Nat × Nat × Nat := (g.number, g.start, g.length)

/-- The car, the places of the records and the items that the counts and the wanted request read stay; ratings, barred flags and
everything else may change. -/
structure Placed (s t : State) : Prop where
  p : t.odo.p = s.odo.p
  u : t.odo.u = s.odo.u
  located : t.odo.located = s.odo.located
  direction : t.odo.direction = s.odo.direction
  places : t.win.records.map Segment.place = s.win.records.map Segment.place
  window : t.win = { s.win with records := t.win.records }
  train : t.cfg.trainLength = s.cfg.trainLength
  aheadLow : t.cfg.aheadLow = s.cfg.aheadLow

theorem Placed.refl (s : State) : Placed s s := ⟨rfl, rfl, rfl, rfl, rfl, rfl, rfl, rfl⟩

theorem Placed.trans (f : Placed s t) (g : Placed t u) : Placed s u where
  p := g.p.trans f.p
  u := g.u.trans f.u
  located := g.located.trans f.located
  direction := g.direction.trans f.direction
  places := g.places.trans f.places
  window := by rw [g.window, f.window]
  train := g.train.trans f.train
  aheadLow := g.aheadLow.trans f.aheadLow

theorem Frame.placed (f : Frame free r m s t) (hw : Block.window ∉ free := by decide) (ho : Block.odometry ∉ free := by decide)
    (hc : Block.settings ∉ free := by decide) : Placed s t := by
  have o := f.odometry ho
  have w := f.window hw
  have c : t.cfg = s.cfg := f.settings hc
  exact ⟨by rw [o], by rw [o], by rw [o], by rw [o], by rw [w], by rw [w], by rw [c], by rw [c]⟩

theorem Lawful.placed {but : List Law} (f : Lawful free r m s t but) (hw : Block.window ∉ free := by decide)
    (ho : Block.odometry ∉ free := by decide) (hc : Block.settings ∉ free := by decide) : Placed s t := f.frame.placed hw ho hc

theorem Placed.ite {c : Prop} [Decidable c] (f : Placed s t) (g : Placed s u) : Placed s (if c then t else u) := by
  split
  · exact f
  · exact g

theorem Placed.foldl {α : Type} (f : State → α → State) (l : List α) (h : ∀ s a, Placed s (f s a)) (s : State) :
    Placed s (l.foldl f s) := by
  induction l generalizing s with
  | nil => exact Placed.refl s
  | cons a l ih => exact (h s a).trans (ih _)

theorem Placed.lo (f : Placed s t) : t.lo = s.lo := by rw [State.lo_eq, State.lo_eq, f.p, f.u, f.train]

theorem Placed.hi (f : Placed s t) : t.hi = s.hi := by rw [State.hi_eq, State.hi_eq, f.p, f.u]

/-- As many records lie beyond a range at an edge, whatever else the records hold. -/
theorem Placed.beyond (f : Placed s t) (lo hi : Int) (e : Vertical) :
    (t.win.records.filter fun g => g.beyond lo hi e).length = (s.win.records.filter fun g => g.beyond lo hi e).length := by
  have h : ∀ l : List Segment, (l.filter fun g => g.beyond lo hi e).length
      = ((l.map Segment.place).filter fun x =>
          match e with
          | .up => decide (hi < (x.2.1 : Int))
          | .down => decide ((x.2.1 : Int) + x.2.2 - 1 < lo)).length := fun l => by
    rw [List.filter_map, List.length_map]
    cases e <;> rfl
  rw [h, h, f.places]

theorem Placed.ahead (f : Placed s t) : t.aheadRecords.length = s.aheadRecords.length := by
  unfold State.aheadRecords
  rw [f.direction, f.lo, f.hi]
  split
  · rfl
  · exact f.beyond _ _ _

theorem Placed.behind (f : Placed s t) : t.behindRecords.length = s.behindRecords.length := by
  unfold State.behindRecords
  rw [f.direction, f.lo, f.hi]
  split
  · rfl
  · exact f.beyond _ _ _

/-- The counts stay those of the footprint (R23). -/
theorem Placed.counted (f : Placed s t) (h : s.Counted) : t.Counted := by
  unfold State.Counted
  rw [f.ahead, f.behind, f.window]
  exact h

/-- What is said of the place of the last record is said of the last place. -/
theorem exists_last_place (l : List Segment) (p : Nat → Nat → Nat → Prop) :
    (∃ g, l.getLast? = some g ∧ p g.number g.start g.length)
      ↔ ∃ x, (l.map Segment.place).getLast? = some x ∧ p x.1 x.2.1 x.2.2 := by
  rw [List.getLast?_map]
  constructor
  · rintro ⟨g, e, h⟩
    exact ⟨g.place, by rw [e]; rfl, h⟩
  · rintro ⟨x, e, h⟩
    obtain ⟨g, e', rfl⟩ := Option.map_eq_some_iff.1 e
    exact ⟨g, e', h⟩

theorem exists_head_place (l : List Segment) (p : Nat → Nat → Nat → Prop) :
    (∃ g, l.head? = some g ∧ p g.number g.start g.length)
      ↔ ∃ x, (l.map Segment.place).head? = some x ∧ p x.1 x.2.1 x.2.2 := by
  simpa [List.map_reverse] using exists_last_place l.reverse p

theorem Placed.goesOn (f : Placed s t) (e : Vertical) (n : Nat) : t.GoesOn e n ↔ s.GoesOn e n := by
  cases e with
  | up =>
    have h := fun l => exists_last_place l fun k start length => k ≠ 65535 ∧ start + length ≠ 1048576 ∧ n = k + 1
    exact (h _).trans (by rw [f.places]; exact (h _).symm)
  | down =>
    have h := fun l => exists_head_place l fun k start _ => k ≠ 0 ∧ start ≠ 0 ∧ k = n + 1
    exact (h _).trans (by rw [f.places]; exact (h _).symm)

theorem Placed.overhangs (f : Placed s t) (e : Vertical) : t.Overhangs e ↔ s.Overhangs e := by
  cases e with
  | up =>
    have h := fun (x : State) l =>
      exists_last_place l fun _ start length => (start : Int) + length - 1 < (x.odo.p : Int) + x.odo.u
    exact (h t _).trans (by rw [f.places, f.p, f.u]; exact (h s _).symm)
  | down =>
    have h := fun (x : State) l =>
      exists_head_place l fun _ start _ => (x.odo.p : Int) - x.cfg.trainLength - x.odo.u < start
    exact (h t _).trans (by rw [f.places, f.p, f.u, f.train]; exact (h s _).symm)

theorem Placed.endUp (f : Placed s t) : t.win.endUp = s.win.endUp := by rw [f.window]

theorem Placed.endDown (f : Placed s t) : t.win.endDown = s.win.endDown := by rw [f.window]

theorem Placed.wanted (f : Placed s t) : t.win.wanted = s.win.wanted := by rw [f.window]

theorem Placed.length (f : Placed s t) : t.win.records.length = s.win.records.length := by
  simpa using congrArg List.length f.places

theorem Placed.empty (f : Placed s t) : t.win.records = [] ↔ s.win.records = [] := by
  rw [← List.length_eq_zero_iff, f.length, List.length_eq_zero_iff]

theorem Placed.needsBehind (f : Placed s t) (e : Vertical) (n : Nat) : t.NeedsBehind e n ↔ s.NeedsBehind e n := by
  unfold State.NeedsBehind
  rw [f.overhangs, f.goesOn, f.endUp, f.endDown]

theorem Placed.needsAhead (f : Placed s t) (e : Vertical) (n : Nat) : t.NeedsAhead e n ↔ s.NeedsAhead e n := by
  unfold State.NeedsAhead
  rw [f.goesOn, f.endUp, f.endDown, f.aheadLow, show t.win.ahead = s.win.ahead by rw [f.window]]

/-- The wanted request stays the one that R24 derives. -/
theorem Placed.asked (f : Placed s t) (h : s.Asked) : t.Asked := by
  unfold State.Asked Window.Requests at *
  simp only [f.needsBehind, f.needsAhead, ne_eq, f.empty, f.wanted, f.length, f.located, f.direction,
    show t.win.located = s.win.located by rw [f.window]]
  exact h

/-! ### A recomputation counts anew -/

theorem State.recount_counted (s : State) : s.recount.Counted := ⟨rfl, rfl⟩

theorem State.Counted.withWanted (h : s.Counted) (x : Wanted) : (s.withWin { s.win with wanted := x }).Counted := h

theorem State.Counted.dropBehind (h : s.Counted) : s.dropBehind.1.Counted := by
  unfold State.dropBehind
  split
  · exact h
  · dsimp only
    split
    · exact h
    · exact State.recount_counted _

theorem State.Counted.deriveWanted (h : s.Counted) : s.deriveWanted.1.Counted := by
  unfold State.deriveWanted
  split
  · split <;> exact h.withWanted _
  · split
    · split
      · exact h.withWanted _
      · split
        · exact (State.recount_counted _).withWanted _
        · exact h.withWanted _
    · exact h.withWanted _

/-- A recomputation leaves the counts those of the footprint, whatever they were (R25). -/
theorem State.recomputeWindow_counted (s : State) (b : Bool) : (s.recomputeWindow b).Counted := by
  have h := s.recount_counted.dropBehind.deriveWanted
  unfold State.recomputeWindow
  dsimp only
  split
  · exact (State.evaluate_lawful _).placed.counted h
  · exact h

/-- The window as a recomputation needs it: one run of line, with no more than 32 records, each of one tooth or more. -/
def State.Laid (s : State) : Prop :=
  s.win.Run ∧ (∀ g ∈ s.win.records, 1 ≤ g.length) ∧ s.win.records.length ≤ 32

theorem State.Sound.laid (h : s.Sound) (o : s.Ordered) : s.Laid :=
  ⟨(State.windowLaw_iff.1 o.window).1, fun g hg => (h.ranges.1 g hg).1, h.capacity.1⟩

theorem State.Laid.of_window (h : s.Laid) (e : t.win = s.win) : t.Laid := by
  unfold State.Laid
  rw [e]
  exact h

theorem State.laid_nil (h : s.win.records = []) : s.Laid := ⟨Window.run_nil h, by simp [h], by simp [h]⟩

theorem State.Laid.recompute (h : s.Laid) (b : Bool) : (s.recomputeWindow b).Asked :=
  State.recomputeWindow_asked h.1 h.2.1 h.2.2 b

/-! ### Steps that keep the counts and the request -/

/-- The step keeps the counts those of the footprint and, of a lawful state, the wanted request the one that R24 derives. -/
structure Tracks (s t : State) : Prop where
  counted : s.Counted → t.Counted
  asked : s.Sound → s.Ordered → s.Counted → s.Asked → t.Asked

theorem Placed.tracks (f : Placed s t) : Tracks s t := ⟨f.counted, fun _ _ _ => f.asked⟩

theorem Tracks.placed (f : Tracks s t) (g : Placed t u) : Tracks s u :=
  ⟨fun h => g.counted (f.counted h), fun a b c d => g.asked (f.asked a b c d)⟩

theorem State.Ordered.step (o : s.Ordered) (l : Lawful free r m s t) (h : s.Sound) : t.Ordered :=
  State.ordered_iff.2 fun x => l.keeps h x (by simp) (State.ordered_iff.1 o x)

theorem Tracks.trans (f : Tracks s t) (l : Lawful free r m s t) (g : Tracks t u) : Tracks s u :=
  ⟨fun h => g.counted (f.counted h), fun a b c d => g.asked (l.sound a) (b.step l a) (f.counted c) (f.asked a b c d)⟩

/-- A recomputation of the window, of a state laid as the one before it. -/
theorem Tracks.recompute (h : s.Sound → s.Ordered → t.Laid) (b : Bool) : Tracks s (t.recomputeWindow b) :=
  ⟨fun _ => t.recomputeWindow_counted b, fun x y _ _ => (h x y).recompute b⟩

end Sys2Proof.Machine
end

section
namespace Sys2Proof.Machine

set_option Elab.async false

variable {free : List Block} {r m : List Cause} {s t u : State}

/-! ### Ratings leave the places -/

theorem State.rebar_placed (s : State) : Placed s s.rebar :=
  ⟨rfl, rfl, rfl, rfl, by unfold State.rebar; rw [State.withWin_win, List.map_map]; rfl, rfl, rfl, rfl⟩

/-- Another state of the Proving Unit. -/
theorem State.withProv_placed (s : State) (x : Proving) : Placed s (s.withProv x) :=
  (Frame.withProv (raised := []) (removed := []) x).placed

theorem State.recap_placed (s : State) : Placed s s.recap := (s.withProv_placed _).trans (State.rebar_placed _)

theorem State.rate_placed (s : State) (c : Channel) (h : Health) : Placed s (s.rate c h) :=
  (s.withProv_placed _).trans (State.recap_placed _)

theorem State.report_placed (s : State) (b : ReportBody) : Placed s (s.report b) := by
  unfold State.report
  split <;> exact ⟨rfl, rfl, rfl, rfl, rfl, rfl, rfl, rfl⟩

theorem State.changeHealth_placed (s : State) (c : Channel) (h : Health) : Placed s (s.changeHealth c h) :=
  ((s.rate_placed c h).trans (State.report_placed _ _)).trans (State.noticeIfCapabilityChanged_lawful _ _).placed

theorem State.degradeOwing_placed (s : State) : Placed s s.degradeOwing :=
  Placed.foldl _ _ (fun s c => by
    split
    · exact s.changeHealth_placed c _
    · exact Placed.refl s) s

theorem State.testProof_placed (s : State) : Placed s s.testProof := (State.testProof_lawful (r := []) (m := []) s).placed

theorem State.emptyTried_placed (s : State) : Placed s s.emptyTried := (State.emptyTried_lawful (r := []) (m := []) s).placed

theorem State.abandonProof_placed (s : State) : Placed s s.abandonProof :=
  (State.abandonProof_lawful (r := []) (m := []) s).placed

theorem State.evaluate_placed (s : State) : Placed s s.evaluate := s.evaluate_lawful.placed

theorem State.concludeProof_placed (s : State) (c : Channel) (o : ProofOutcome) : Placed s (s.concludeProof c o) := by
  have a := (State.endProof_lawful (r := []) (m := []) s c).placed
  unfold State.concludeProof
  dsimp only
  refine (a.trans ?_).trans (State.testProof_placed _)
  have b := fun x y => ((s.endProof c).withProv_placed x).trans (State.rate_placed _ c y)
  exact Placed.ite ((b _ _).trans (State.report_placed _ _))
    ((((b _ _).trans (State.report_placed _ _)).trans (State.report_placed _ _)).trans
      (State.noticeIfCapabilityChanged_lawful _ _).placed)

theorem State.judgeProof_placed (s : State) (x : Proof) : Placed s (s.judgeProof x) := by
  unfold State.judgeProof
  dsimp only
  split
  · split
    · exact (s.withProv_placed _).trans (State.recombine_lawful (r := []) (m := []) _).placed
    · exact s.concludeProof_placed _ _
  · exact s.concludeProof_placed _ _

theorem State.dwellExpiry_placed (s : State) : Placed s s.dwellExpiry := by
  unfold State.dwellExpiry
  split
  · exact Placed.refl s
  · split
    · exact s.judgeProof_placed _
    · exact Placed.refl s

theorem State.proofExpiry_placed (s : State) : Placed s s.proofExpiry := by
  unfold State.proofExpiry
  split
  · exact ((((s.withProv_placed _).trans (State.degradeOwing_placed _)).trans (State.emptyTried_placed _)).trans
      (State.withProv_placed _ _)).trans (State.testProof_placed _)
  · exact Placed.refl s

theorem State.proveNow_placed (s : State) : Placed s s.proveNow.1 :=
  (((s.withProv_placed _).trans (State.degradeOwing_placed _)).trans (State.emptyTried_placed _)).trans
    (State.testProof_placed _)

theorem State.failChannel_placed (s : State) (c : Channel) : Placed s (s.failChannel c) := by
  have a := (State.withDeviationStart_lawful (r := []) (m := []) s c none).placed
  unfold State.failChannel
  exact (((((a.trans (State.withProv_placed _ _)).trans (State.rate_placed _ _ _)).trans (State.testProof_placed _)).trans
    (State.report_placed _ _)).trans (State.raise_lawful (r := feedbackCauses) (m := [.overspeedService]) _ _ _).placed).trans
      (State.noticeIfCapabilityChanged_lawful _ _).placed

theorem State.scanComplete_placed (s : State) (w : ScanWords) : Placed s (s.scanComplete w) := by
  have a := (State.withScan_lawful (r := []) (m := []) s (s.scan.take w)).placed.trans (State.recompute_lawful _).placed
  have b := (Placed.foldl State.trackDeviation channels
      (fun s c => (State.trackDeviation_lawful (r := []) (m := []) s c).placed) (s.withScan (s.scan.take w)).recompute).trans
    (Placed.foldl State.failChannel (channels.filter (s.withScan (s.scan.take w)).recompute.failsCheck)
      State.failChannel_placed _)
  exact ((a.trans b).trans (State.takeStepSample_lawful (r := []) (m := []) _).placed).trans
    (Placed.foldl _ _ (fun s d => (State.scanDoor_lawful s d).placed) _)

/-! ### The odometry -/

/-- Another odometry state with the same position, uncertainty, direction and mark. -/
theorem State.withOdo_placed (s : State) (o : Odometry) (h1 : o.p = s.odo.p := by rfl) (h2 : o.u = s.odo.u := by rfl)
    (h3 : o.located = s.odo.located := by rfl) (h4 : o.direction = s.odo.direction := by rfl) : Placed s (s.withOdo o) :=
  ⟨h1, h2, h3, h4, rfl, rfl, rfl, rfl⟩

/-- A tooth event has the window recomputed from the records before it (R3). -/
theorem State.toothHead_tracks (s : State) (d : Vertical) : Tracks s (s.toothHead d) := by
  unfold State.toothHead
  refine Tracks.placed (Tracks.recompute (fun h o => (h.laid o).of_window ?_) false)
    (State.recomputeInsideTooth_lawful _).placed
  rw [(State.evaluateTooth_lawful _).frame.window (by decide)]
  split
  · exact (State.raise_lawful (r := .rollback :: overspeeds) (m := [.overspeedService]) _ _ _).frame.window (by decide)
  · rfl

theorem State.toothEvent_tracks (s : State) (d : Vertical) : Tracks s (s.toothEvent d) := by
  rw [State.toothEvent_eq]
  exact (((s.toothHead_tracks d).placed (State.doorsTooth_lawful _ _).placed).placed (State.abandonProof_placed _)).placed
    (State.emptyTried_placed _)

theorem State.phaseChange_tracks (s : State) (a b : Bool) : Tracks s (s.phaseChange a b) := by
  have keep : Placed s (s.withOdo { s.odo with phaseA := a, phaseB := b }) := s.withOdo_placed _
  have laid : s.Sound → s.Ordered → (s.withOdo { s.odo with phaseA := a, phaseB := b }).Laid :=
    fun h o => (h.laid o).of_window rfl
  have same : Tracks s (s.withOdo { s.odo with phaseA := a, phaseB := b }) := keep.tracks
  have sound := State.withOdo_lawful (r := []) (m := []) s { s.odo with phaseA := a, phaseB := b }
    (fun h => h.odometry) rfl rfl (.inl rfl)
  unfold State.phaseChange
  dsimp only
  split
  · exact same
  · exact Tracks.recompute (fun h o => State.Laid.of_window (laid h o) (by rfl)) false
  · split
    · exact same.trans sound (State.toothEvent_tracks _ _)
    · exact same.placed (State.withOdo_placed _ _)
  · split
    · exact same.trans sound (State.toothEvent_tracks _ _)
    · exact same.placed (State.withOdo_placed _ _)

theorem State.recomputeInside_placed (s : State) : Placed s s.recomputeInside := s.recomputeInside_lawful.placed

theorem State.markerPulse_tracks (s : State) : Tracks s s.markerPulse := by
  unfold State.markerPulse
  split
  · exact (s.report_placed _).tracks
  · refine Tracks.placed (Tracks.recompute (fun h o => (h.laid o).of_window ?_) false) (State.recomputeInside_placed _)
    rw [(State.evaluate_lawful _).frame.window (by decide)]
    rfl

theorem State.standstillExpiry_placed (s : State) : Placed s s.standstillExpiry := by
  unfold State.standstillExpiry
  split
  · exact ((((s.withOdo_placed _).trans (State.evaluate_placed _)).trans (State.testProof_placed _)).trans
      (State.testDoorRelease_lawful _).placed).trans (State.testQuiesced_lawful _).placed
  · exact Placed.refl s

theorem State.locate_tracks (s : State) (f : List Byte) : Tracks s (s.locate f).1 := by
  unfold State.locate
  dsimp only
  split
  · exact (Placed.refl s).tracks
  · split
    · exact (Placed.refl s).tracks
    · exact (Tracks.placed (Tracks.recompute (fun _ _ => State.laid_nil rfl) _) (State.recomputeInside_placed _)).placed
        (State.evaluate_placed _)

theorem State.turn_tracks (s : State) (x : Direction) : Tracks s (s.turn x) :=
  Tracks.placed (Tracks.recompute (fun h o => (h.laid o).of_window (by rfl)) false) (State.evaluate_placed _)

theorem State.selectDirection_tracks (s : State) (f : List Byte) : Tracks s (s.selectDirection f).1 := by
  unfold State.selectDirection
  split
  · exact (Placed.refl s).tracks
  · split
    · exact (Placed.refl s).tracks
    · dsimp only
      split
      · exact (Placed.refl s).tracks
      · exact s.turn_tracks _

/-! ### The window's own requests -/

/-- A record that joins at the request's edge or alone leaves the window laid (R30, R31). -/
theorem State.Laid.join (h : s.Sound) (o : s.Ordered) {g : Segment} (hg : g.OnLine) (sp : s.win.spaced g = true)
    (up : ∀ n, s.win.wanted = .byNumber n .up → g.number = n ∧ s.win.last?.map (· + 1) = some (g.start : Int))
    (down : ∀ n, s.win.wanted = .byNumber n .down → g.number = n ∧ s.win.first? = some ((g.start : Int) + g.length)) :
    (s.withWin (s.win.join g)).Laid := by
  obtain ⟨run, asks⟩ := State.windowLaw_iff.1 o.window
  obtain ⟨cap, lines⟩ := Window.Lawful.join h.ready.window hg
  exact ⟨run.join asks sp up down, fun x hx => (lines x hx).1, cap⟩

end Sys2Proof.Machine
end

section
namespace Sys2Proof.Machine

set_option Elab.async false

variable {free : List Block} {r m : List Cause} {s t u : State}

/-- What SEGMENT can do: nothing, or one record joins at the place the wanted request asks for and the window is recomputed (R30,
R31). -/
theorem State.deliver_cases (s : State) (f : List Byte) :
    (s.deliver f).1 = s
      ∨ ∃ g : Segment, g.OnLine ∧ s.win.spaced g = true
          ∧ (∀ n, s.win.wanted = .byNumber n .up → g.number = n ∧ s.win.last?.map (· + 1) = some (g.start : Int))
          ∧ (∀ n, s.win.wanted = .byNumber n .down → g.number = n ∧ s.win.first? = some ((g.start : Int) + g.length))
          ∧ (s.deliver f).1 = (s.withWin (s.win.join g)).recomputeWindow true := by
  unfold State.deliver
  dsimp only
  split
  · exact .inl rfl
  rename_i n hn
  split
  · exact .inl rfl
  rename_i en
  split
  · exact .inl rfl
  rename_i pl
  split
  · exact .inl rfl
  rename_i g hg
  split
  · rename_i sp
    obtain ⟨p1, p2, p3⟩ := Delivery.record_place hg
    have number : g.number = n := p1.trans (by simpa using en)
    refine .inr ⟨_, Segment.withBarring_onLine (Delivery.record_onLine hg) s.prov.capability, sp, fun k e => ?_, fun k e => ?_,
      rfl⟩
    all_goals
      unfold Window.placed at pl
      unfold Wanted.served at hn
      rw [e] at pl hn
      simp only [Option.some.injEq] at hn
      simp only [Bool.not_eq_false, beq_iff_eq] at pl
      subst hn
      refine ⟨number, ?_⟩
    · exact (congrArg (fun x : Nat => some (x : Int)) p2 ▸ pl).symm
    · exact (congrArg₂ (fun x y : Nat => some ((x : Int) + y)) p2 p3 ▸ pl).symm
  · exact .inl rfl

theorem State.deliver_tracks (s : State) (f : List Byte) : Tracks s (s.deliver f).1 := by
  rcases s.deliver_cases f with e | ⟨g, line, sp, up, down, e⟩
  · rw [e]
    exact (Placed.refl s).tracks
  · rw [e]
    exact Tracks.recompute (fun h o => State.Laid.join h o line sp up down) true

theorem State.Laid.endAt (h : s.Laid) (e : Vertical) : (s.withWin (s.win.endAt e)).Laid := by
  cases e <;> exact ⟨h.1.of_records _ rfl, h.2⟩

theorem State.endOfLine_tracks (s : State) (f : List Byte) : Tracks s (s.endOfLine f).1 := by
  have same : Tracks s s := (Placed.refl s).tracks
  unfold State.endOfLine
  split
  · split
    · exact same
    · split
      · exact same
      · split
        · exact same
        · exact Tracks.recompute (fun h o => (h.laid o).endAt _) true
  · exact same

/-! ### CONFIGURE and RESTART -/

theorem State.withItem_placed (s : State) {i : ConfigItem} (h1 : i ≠ .trainLength) (h2 : i ≠ .aheadLow) (v : Nat) :
    Placed s (s.withItem i v) := by
  refine ⟨rfl, rfl, rfl, rfl, rfl, rfl, ?_, ?_⟩ <;> cases i <;> first | rfl | contradiction

/-- The items whose change has the window recomputed (10.4). -/
def ConfigItem.recounts : ConfigItem → Bool
  | .carLength => true
  | .trainLength => true
  | .aheadLow => true
  | .behindHigh => true
  | _ => false

theorem State.resettle_placed (s : State) (c : Channel) : Placed s (s.resettle c) :=
  (State.resettle_lawful (r := []) (m := []) s c).placed

theorem State.recompute_placed (s : State) : Placed s s.recompute := s.recompute_lawful.placed

theorem State.withRadio_placed (s : State) (x : RadioUnit) : Placed s (s.withRadio x) :=
  (Frame.withRadio (raised := []) (removed := []) x).placed

/-- Any other item is taken up without the window. -/
theorem State.takeUp_placed (s : State) {i : ConfigItem} (h : i.recounts = false) : Placed s (s.takeUp i) := by
  cases i with
  | carLength | trainLength | aheadLow | behindHigh => simp [ConfigItem.recounts] at h
  | maxSpeed | barredCreep | radioLossSpeed | react => exact s.evaluate_placed
  | rbShare | abShare | holdLevel | valvePeriod | motorPeriod | gangRack => exact s.recompute_placed
  | nominal => exact s.recap_placed.trans (State.noticeCapability_lawful _ _).placed
  | fullPressure c => exact (s.resettle_placed c).trans (State.recompute_placed _)
  | feedbackTol =>
    exact ((((s.resettle_placed .rb1).trans (State.resettle_placed _ .rb2)).trans (State.resettle_placed _ .ab1)).trans
      (State.resettle_placed _ .ab2)).trans (State.recompute_placed _)
  | proofPeriod => exact s.withProv_placed _
  | owedDegrade => exact s.degradeOwing_placed
  | radioTimeout =>
    simp only [State.takeUp]
    split
    · exact Placed.refl s
    · exact s.withRadio_placed _
  | positionInterval => exact s.withRadio_placed _
  | carAddress | groupMask | openDir | doorDuty | compGain | obstructLimit | rollbackLimit | burstCap | answerEmpty | listenOnly
  | summaryMask | cabTimeout => exact Placed.refl s

/-- An item that takes a value and is taken up keeps the counts and the request (R190). -/
theorem State.setItem_tracks (s : State) (i : ConfigItem) (v : Nat) : Tracks s ((s.withItem i v).takeUp i) := by
  have again : Tracks s ((s.withItem i v).recomputeWindow false) :=
    Tracks.recompute (s := s) (t := s.withItem i v) (fun h o => (h.laid o).of_window rfl) false
  cases e : i.recounts with
  | false =>
    exact ((s.withItem_placed (by rintro rfl; cases e) (by rintro rfl; cases e) v).trans (State.takeUp_placed _ e)).tracks
  | true =>
    cases i with
    | carLength | aheadLow | behindHigh => exact again
    | trainLength => exact again.placed (State.evaluate_placed _)
    | _ => cases e

theorem State.configure_tracks (s : State) (f : List Byte) : Tracks s (s.configure f).1 := by
  have same : Tracks s s := (Placed.refl s).tracks
  unfold State.configure
  split
  · exact same
  · split
    · exact same
    · dsimp only
      split
      · dsimp only
        split
        · exact same
        · exact s.setItem_tracks _ _
      · exact same

theorem State.restartOdometry_tracks (s : State) : Tracks s s.restartOdometry := by
  unfold State.restartOdometry
  split
  · exact (s.withOdo_placed _).tracks
  · exact s.turn_tracks _

theorem State.restartRadio_placed (s : State) : Placed s s.restartRadio := (State.restartRadio_lawful s).placed

theorem State.restartAuthority_placed (s : State) : Placed s s.restartAuthority := (State.restartAuthority_lawful s).placed

theorem State.restartSet_placed (s : State) : Placed s s.restartSet := (State.restartSet_lawful s).placed

theorem State.restartCombiner_placed (s : State) : Placed s s.restartCombiner := (State.restartCombiner_lawful s).placed

theorem State.restartDoors_placed (s : State) : Placed s s.restartDoors := (State.restartDoors_lawful s).placed

theorem State.restart_tracks (s : State) : Tracks s s.restart.1 := by
  have turned : Tracks s s.restartRadio.restartOdometry :=
    s.restartRadio_placed.tracks.trans s.restartRadio_lawful (State.restartOdometry_tracks _)
  unfold State.restart
  split
  · exact (Placed.refl s).tracks
  · dsimp only
    exact (((((((turned.placed (State.restartAuthority_placed _)).placed (State.restartSet_placed _)).placed
      (State.restartCombiner_placed _)).placed (State.restartDoors_placed _)).placed (State.abandonProof_placed _)).placed
      (State.emptyTried_placed _)).placed (State.testProof_placed _))

/-! ### Every command -/

theorem State.serve_tracks (s : State) (x : RequestLine) (b : Bool) (k : RequestKind) (f : List Byte) :
    Tracks s (s.serve x b k f).1 := by
  have h := s.serve_lawful x b k f
  cases k with
  | locate => exact s.locate_tracks f
  | direction => exact s.selectDirection_tracks f
  | segment => exact s.deliver_tracks f
  | endOfLine => exact s.endOfLine_tracks f
  | configure => exact s.configure_tracks f
  | restart => exact s.restart_tracks
  | proveNow => exact s.proveNow_placed.tracks
  | status | readWindow | readAuthority | ackIntervention | driverBrake | park | resume | quiesce | doorRelease
  | doorOpenReleased | doorClose | doorIsolate | doorUnisolate => exact h.placed.tracks

theorem State.withPort_placed (s : State) (x : RequestLine) (p : Port) : Placed s (s.withPort x p) := by
  cases x <;> exact ⟨rfl, rfl, rfl, rfl, rfl, rfl, rfl, rfl⟩

theorem State.takeRequest_tracks (s : State) (x : RequestLine) (code : Byte) (f : List Byte) :
    Tracks s (s.takeRequest x code f) := by
  have heard := State.heardOn_lawful (r := []) (m := []) s x
  have answered : Tracks (s.heardOn x) ((s.heardOn x).answer x s.set.heard code f).1 := by
    rcases (s.heardOn x).answer_cases x s.set.heard code f with ⟨e, h⟩ | ⟨k, -, -, -, h⟩
    · rw [h]
      exact (Placed.refl _).tracks
    · rw [h]
      exact State.serve_tracks _ _ _ _ _
  obtain ⟨p, e, -⟩ := ((s.heardOn x).answer x s.set.heard code f).1.respond_eq x
    (frameOf (((s.heardOn x).answer x s.set.heard code f).1.responseBody code
      ((s.heardOn x).answer x s.set.heard code f).2))
  have done := (Tracks.trans heard.placed.tracks heard answered).placed (State.withPort_placed _ x p)
  unfold State.takeRequest
  dsimp only
  rw [e]
  split
  · exact done.placed (State.afterRemovals_lawful _ _ _).placed
  · exact done

theorem State.hand_tracks (s : State) (x : SerialLine) (body : List Byte) : Tracks s (s.hand x body) := by
  have line : ∀ y, Tracks s (s.takeFrame y body) := fun y => by
    unfold State.takeFrame
    split
    · exact (Placed.refl s).tracks
    · split
      · exact (s.withPort_placed _ _).tracks
      · exact s.takeRequest_tracks _ _ _
  cases x with
  | cab => exact line .cab
  | crew => exact line .crew
  | radio => exact (s.takeDownlink_lawful body).placed.tracks

theorem State.withFramer_placed (s : State) (x : SerialLine) (kept : List Byte) : Placed s (s.withFramer x kept) := by
  cases x <;> exact ⟨rfl, rfl, rfl, rfl, rfl, rfl, rfl, rfl⟩

theorem State.received_tracks (s : State) (x : SerialLine) (y : List (List Byte) × List Byte) : Tracks s (s.received x y) := by
  have frames : ∀ (l : List (List Byte)) (s : State), Tracks s (l.foldl (fun s body => s.hand x body) s) := by
    intro l
    induction l with
    | nil => exact fun s => (Placed.refl s).tracks
    | cons body l ih => exact fun s => (s.hand_tracks x body).trans (s.hand_orderly x body) (ih _)
  exact (s.withFramer_placed x y.2).tracks.trans (s.withFramer_orderly x y.2) (frames y.1 _)

theorem State.frame_tracks (s : State) (x : SerialLine) (body : List Byte) : Tracks s (s.frame x body) :=
  (s.withFramer_placed x []).tracks.trans (s.withFramer_orderly x []) (State.hand_tracks _ x body)

/-- The window is empty at the reset tables, so POWER_ON_RESET counts nothing and asks for nothing (R39). -/
theorem State.powerOn_window (s : State) (p : PinLevels) : (s.powerOn p).Counted ∧ (s.powerOn p).Asked := by
  have h : Placed ((State.atReset p).withPending s.pending) (s.powerOn p) := by
    unfold State.powerOn
    rw [State.heldInReset_endReset]
    exact ((State.recompute_placed _).trans (State.testLoop_lawful _).placed).trans (State.testProof_placed _)
  exact ⟨h.counted ⟨rfl, rfl⟩, h.asked ⟨fun _ => rfl, fun n => absurd rfl n, fun _ n => absurd rfl n⟩⟩

theorem frame_step (s : State) (x : SerialLine) (body : List Byte) : Tracks s (s.frame x body) ∧ Orderly s (s.frame x body) :=
  ⟨s.frame_tracks x body, s.frame_orderly x body⟩

theorem received_step (s : State) (x : SerialLine) (y : List (List Byte) × List Byte) :
    Tracks s (s.received x y) ∧ Orderly s (s.received x y) :=
  ⟨s.received_tracks x y, s.received_orderly x y⟩

theorem Lawful.step (l : Lawful free r m s t) (hw : Block.window ∉ free := by decide) (ho : Block.odometry ∉ free := by decide)
    (hc : Block.settings ∉ free := by decide) : Tracks s t ∧ Orderly s t :=
  ⟨(l.placed hw ho hc).tracks, l.orderly⟩

/-- Every command answers a next state that keeps the counts and the request; but for POWER_ON_RESET it keeps every law and
leaves the clock and the waiting commands (log 23, log 29). -/
theorem exec_next (i : Instr) (s : State) :
    ∃ t, exec i s = .next t ∧ t.pending = s.pending ∧ Tracks s t ∧ ((∃ pins, i = .powerOnReset pins) ∨ Orderly s t) := by
  have reset : ∀ pins, ∃ t, exec (.powerOnReset pins) s = .next t ∧ t.pending = s.pending ∧ Tracks s t
      ∧ ((∃ p, Instr.powerOnReset pins = .powerOnReset p) ∨ Orderly s t) := fun pins =>
    have h := s.powerOn_window pins
    ⟨_, rfl, s.powerOn_pending pins, ⟨fun _ => h.1, fun _ _ _ _ => h.2⟩, .inl ⟨pins, rfl⟩⟩
  have other : ∀ t, exec i s = .next t → Tracks s t ∧ Orderly s t → ∃ t, exec i s = .next t ∧ t.pending = s.pending ∧ Tracks s t
      ∧ ((∃ p, i = .powerOnReset p) ∨ Orderly s t) := fun t e h => ⟨t, e, h.2.frame.pending, h.1, .inr h.2⟩
  cases i with
  | powerOnReset pins => exact reset pins
  | phaseChange a b => exact other _ rfl ⟨s.phaseChange_tracks a b, (s.phaseChange_lawful a b).orderly⟩
  | markerPulse => exact other _ rfl ⟨s.markerPulse_tracks, s.markerPulse_lawful.orderly⟩
  | standstillTimerExpiry => exact other _ rfl ⟨s.standstillExpiry_placed.tracks, s.standstillExpiry_lawful.orderly⟩
  | proofTimerExpiry => exact other _ rfl ⟨s.proofExpiry_placed.tracks, s.proofExpiry_lawful.orderly⟩
  | dwellTimerExpiry => exact other _ rfl ⟨s.dwellExpiry_placed.tracks, s.dwellExpiry_lawful.orderly⟩
  | scanComplete words => exact other _ rfl ⟨(s.scanComplete_placed words).tracks, (s.scanComplete_lawful words).orderly⟩
  | evaluationTimerExpiry => exact other _ rfl s.evaluationExpiry_lawful.step
  | loopOpens => exact other _ rfl s.loopOpens_lawful.step
  | loopCloses => exact other _ rfl (s.withLoop_lawful (r := []) (m := []) false).step
  | cabTimerExpiry => exact other _ rfl s.cabExpiry_lawful.step
  | periodEnd output => exact other _ rfl (s.outputEnds_lawful (r := []) (m := []) output).step
  | scanTimerExpiry => exact other _ rfl (s.scanExpiry_lawful (r := []) (m := [])).step
  | buttonPress door => exact other _ rfl (s.buttonPress_lawful door).step
  | buttonRelease door => exact other _ rfl (s.withPins_lawful door _).step
  | openSwitchMakes door => exact other _ rfl (s.openSwitchMakes_lawful door).step
  | openSwitchBreaks door => exact other _ rfl (s.withPins_lawful door _).step
  | closedSwitchMakes door => exact other _ rfl (s.closedSwitchMakes_lawful door).step
  | closedSwitchBreaks door => exact other _ rfl (s.closedSwitchBreaks_lawful door).step
  | motionTimerExpiry timer => exact other _ rfl (s.motionExpiry_lawful timer.door timer.limit).step
  | radioTimerExpiry => exact other _ rfl s.radioExpiry_lawful.step
  | positionTimerExpiry => exact other _ rfl (s.positionExpiry_lawful (r := []) (m := [])).step
  | transmitComplete => exact other _ rfl (s.transmitComplete_lawful (r := []) (m := [])).step
  | responseSent line =>
    exact other _ rfl ((s.responseSent_lawful (r := []) (m := []) line).step (by cases line <;> decide)
      (by cases line <;> decide) (by cases line <;> decide))
  | byteReceived line byte => exact other _ rfl (received_step s line _)
  | frameRejected line last => cases last <;> exact other _ rfl (received_step s line _)
  | locate | direction | restart | segment | endOfLine | readWindow | readAuthority | ackIntervention | driverBrake | park
  | proveNow | doorRelease | doorOpenReleased | doorClose | doorIsolate | doorUnisolate | requestDropped | unknownRequest | status
  | configure | resume | quiesce | downlinkDiscarded | authority | restrictionSet | restrictionClear | release | poll
  | ack => exact other _ rfl (frame_step s _ _)

theorem exec_tracks {i : Instr} (h : exec i s = .next t) : Tracks s t := by
  obtain ⟨u, e, -, k, -⟩ := exec_next i s
  obtain rfl : u = t := Host.Outcome.next.inj (e.symm.trans h)
  exact k

/-- Settles O15: every command leaves the window's places and the car alone, or has the window recomputed (`exec_tracks`). -/
theorem countsFollowTheFootprint : Obligations.CountsFollowTheFootprint :=
  ⟨fun _ _ _ h e => (exec_tracks e).counted h, fun _ _ _ a b c d e => (exec_tracks e).asked a b c d⟩

/-- Settles O6. -/
theorem everyCommandCompletes : Obligations.EveryCommandCompletes := by
  intro i s
  obtain ⟨t, e, pending, -, h⟩ := exec_next i s
  exact ⟨t, e, pending, h.imp_right fun l => l.frame.clock⟩

end Sys2Proof.Machine
end

section
/-! PROOFS. The short statements: the idle step (O2), the laws after reset (O4), the phase pair (O7), the marker
pulses (O10, O11). -/

namespace Sys2Proof.Machine

set_option Elab.async false

variable {free : List Block} {r m : List Cause} {s t u : State}

/-! ### The idle step -/

theorem dueAt_later {now : Nat} {x : Timer} (h : ∀ n, x = some n → now < n) (i : Instr) : dueAt now x i = none := by
  cases x with
  | none => rfl
  | some n => exact if_neg (by simpa [Timer.due] using h n rfl)

theorem dueAt_now {now n : Nat} (h : n ≤ now) (i : Instr) : dueAt now (some n) i = some i := if_pos (by simpa [Timer.due] using h)

/-- Settles O2. -/
theorem idleStepRunsTheClock : Obligations.IdleStepRunsTheClock := by
  intro s empty
  have idles : step s = idle s := by rw [step, empty]
  have waits : ∀ l : List (Timer × Instr), (∀ e ∈ l, ∀ n, e.1 = some n → s.clock < n) →
      l.findSome? (fun e => dueAt s.clock e.1 e.2) = none := fun l h =>
    List.findSome?_eq_none_iff.2 fun e he => dueAt_later (h e he) e.2
  rw [idles]
  unfold idle State.dueEvent
  refine ⟨fun h => by rw [waits _ h], fun before e after n list h due now => ?_⟩
  rw [list, List.findSome?_append, waits _ h, Option.none_or, List.findSome?_cons, due, dueAt_now now]

/-! ### After reset -/

theorem State.reset_rated : State.reset.Rated := ⟨rfl, fun _ h => absurd h (List.not_mem_nil)⟩

/-- Settles O4: `State.reset` is a state that POWER_ON_RESET gives, and every one of these keeps the laws. -/
theorem resetKeepsEveryLaw : Obligations.ResetKeepsEveryLaw := by
  have sound := State.reset.powerOn_sound PinLevels.atRest
  have ordered := State.reset.powerOn_ordered PinLevels.atRest
  have window := State.reset.powerOn_window PinLevels.atRest
  rw [State.powerOn_atRest] at sound ordered window
  exact ⟨sound, ordered, window.1, window.2, State.reset_rated⟩

/-! ### The phase pair -/

theorem phasePosition_lt (a b : Bool) : phasePosition a b < 4 := by cases a <;> cases b <;> decide

theorem phaseStep_none : ∀ x < 4, phaseStep x x = .none := by decide

theorem phaseStep_up : ∀ x < 4, phaseStep x ((x + 1) % 4) = .up := by decide

theorem phaseStep_invalid : ∀ x < 4, phaseStep x ((x + 2) % 4) = .invalid := by decide

theorem phaseStep_down : ∀ x < 4, phaseStep x ((x + 3) % 4) = .down := by decide

/-- Settles O7. -/
theorem phaseChangesAreClassified : Obligations.PhaseChangesAreClassified := by
  intro s a b
  have old := phasePosition_lt s.odo.phaseA s.odo.phaseB
  have run : ∀ t, s.phaseChange a b = t → exec (.phaseChange a b) s = .next t := fun t h => congrArg _ h
  refine ⟨fun h => run _ ?_, fun h n => run _ ?_, fun h n => run _ ?_, fun h => ?_⟩
  · unfold State.phaseChange
    rw [h, phaseStep_none _ old]
  · unfold State.phaseChange
    rw [h, phaseStep_up _ old]
    exact if_neg (by simp only [State.withOdo_odo]; omega)
  · unfold State.phaseChange
    rw [h, phaseStep_down _ old]
    exact if_neg (by simp only [State.withOdo_odo]; omega)
  · have made : s.phaseChange a b
        = (s.withOdo { s.odo with phaseA := a, phaseB := b, u := grown s.odo.u }).recomputeWindow false := by
      unfold State.phaseChange
      rw [h, phaseStep_invalid _ old]
      rfl
    have f := State.recomputeWindow_frame (s.withOdo { s.odo with phaseA := a, phaseB := b, u := grown s.odo.u }) false
    refine ⟨_, run _ made, f.odometry (by decide), f.slower (by decide), State.recomputeWindow_counted _ _, ?_⟩
    exact ((Frame.withOdo _).mono (by decide) (fun _ h => h) fun _ h => h).trans
      (f.mono (by decide) (fun _ h => h) fun _ h => h) (by decide)

/-! ### The inside flag -/

theorem State.reflag_flagged (s : State) : s.reflag.Flagged := ⟨rfl, rfl, rfl⟩

/-- The flag reads the ranges and the footprint. -/
theorem Frame.flagged (f : Frame free r m s t) (h : s.Flagged) (ha : Block.authority ∉ free := by decide)
    (ho : Block.odometry ∉ free := by decide) (hc : Block.settings ∉ free := by decide) : t.Flagged := by
  have c : t.cfg = s.cfg := f.settings hc
  have o := f.odometry ho
  unfold State.Flagged
  rw [f.authority ha, State.lo_eq, State.hi_eq, o, c]
  exact h

theorem State.recomputeInside_flagged (s : State) : s.recomputeInside.Flagged := by
  unfold State.recomputeInside
  split
  · exact (State.evaluate_lawful _).frame.flagged s.reflag_flagged
  · exact s.reflag_flagged

theorem State.recomputeInsideTooth_flagged (s : State) : s.recomputeInsideTooth.Flagged := by
  have raised : (if s.auth.inside && !s.reflag.auth.inside then s.reflag.raise .authorityOverrun s.reflag.capture
      else s.reflag).Flagged := by
    split
    · exact (State.raise_lawful (r := .authorityOverrun :: overspeeds) (m := [.overspeedService]) _ _ _).frame.flagged
        s.reflag_flagged
    · exact s.reflag_flagged
  unfold State.recomputeInsideTooth
  dsimp only
  split
  · exact (State.evaluate_lawful _).frame.flagged raised
  · exact raised

/-! ### Marker pulses -/

/-- A choice between two that always takes `m` where it is offered takes `m` of a list that offers it. -/
theorem foldl_choice {α : Type} {f : α → α → α} {p : α → Prop} {m : α} (either : ∀ a b, f a b = a ∨ f a b = b)
    (first : ∀ a, p a → f m a = m) (second : ∀ a, p a → f a m = m) (l : List α) :
    ∀ a, (∀ b ∈ a :: l, p b) → m ∈ a :: l → l.foldl f a = m := by
  induction l with
  | nil => exact fun a _ h => (List.mem_singleton.1 h).symm
  | cons b l ih =>
    intro a hp h
    have pa := hp a (by simp)
    have pb := hp b (by simp)
    refine ih (f a b) (fun c hc => ?_) ?_
    · rcases List.mem_cons.1 hc with rfl | hc
      · rcases either a b with e | e <;> rw [e] <;> assumption
      · exact hp c (by simp [hc])
    · rcases List.mem_cons.1 h with rfl | h
      · rw [first b pb]
        exact List.mem_cons_self
      · rcases List.mem_cons.1 h with rfl | h
        · rw [second a pa]
          exact List.mem_cons_self
        · exact List.mem_cons_of_mem _ h

/-- The better of two markers one of which is nearer, or equally near and preferred (R7). -/
theorem betterMarker_best {x : Direction} {p m n : Nat}
    (h : n ≠ m → gap m p < gap n p ∨ gap m p = gap n p ∧ (x = .down → m < n) ∧ (x ≠ .down → n < m)) :
    betterMarker x p m n = m ∧ betterMarker x p n m = m := by
  by_cases e : n = m
  · subst e
    simp [betterMarker]
  · rcases h e with near | ⟨same, down, up⟩
    · simp [betterMarker, near, Nat.not_lt.2 near.le]
    · cases x with
      | down => simp [betterMarker, preferLower, same, (down rfl).le]
      | up => simp [betterMarker, preferLower, same, (up (by decide)).le]
      | neutral => simp [betterMarker, preferLower, same, (up (by decide)).le]

/-- The pulse is taken for the nearest candidate (R7). -/
theorem State.chosenMarker_nearest {k : Nat} (mem : k ∈ s.win.markers) (near : gap k s.odo.p ≤ s.odo.u + 2)
    (best : ∀ n ∈ s.win.markers, n ≠ k → gap n s.odo.p ≤ s.odo.u + 2 →
      gap k s.odo.p < gap n s.odo.p
        ∨ gap k s.odo.p = gap n s.odo.p ∧ (s.odo.direction = .down → k < n) ∧ (s.odo.direction ≠ .down → n < k)) :
    s.chosenMarker = some k := by
  have offered : ∀ n ∈ s.win.markers.filter fun n => decide (gap n s.odo.p ≤ s.odo.u + Config.markerTolerance),
      n ∈ s.win.markers ∧ gap n s.odo.p ≤ s.odo.u + 2 := fun n h => by
    obtain ⟨a, b⟩ := List.mem_filter.1 h
    exact ⟨a, of_decide_eq_true b⟩
  have listed : k ∈ s.win.markers.filter fun n => decide (gap n s.odo.p ≤ s.odo.u + Config.markerTolerance) :=
    List.mem_filter.2 ⟨mem, decide_eq_true near⟩
  unfold State.chosenMarker
  split
  · rename_i e
    rw [e] at listed
    cases listed
  · rename_i a rest e
    rw [e] at listed offered
    refine congrArg some (foldl_choice (p := fun n => n ∈ s.win.markers ∧ gap n s.odo.p ≤ s.odo.u + 2)
      (betterMarker_mem _ _) (fun n h => ?_) (fun n h => ?_) rest a offered listed)
    · exact (betterMarker_best fun d => best n h.1 d h.2).1
    · exact (betterMarker_best fun d => best n h.1 d h.2).2

/-- Settles O10. -/
theorem markersCorrectThePosition : Obligations.MarkersCorrectThePosition := by
  intro s k mem near best
  have made : s.markerPulse
      = ((s.withOdo { s.odo with p := k, u := 0, slip := 0 }).evaluate.recomputeWindow false).recomputeInside := by
    rw [State.markerPulse, State.chosenMarker_nearest mem near best]
  have moved : Frame [.window, .authority] overspeeds [.overspeedService] (s.withOdo { s.odo with p := k, u := 0, slip := 0 })
      (((s.withOdo { s.odo with p := k, u := 0, slip := 0 }).evaluate.recomputeWindow false).recomputeInside) :=
    (((State.evaluate_lawful _).blocks.trans (State.recomputeWindow_lawful _ false).blocks).trans
      (State.recomputeInside_lawful _).blocks).frame
  refine ⟨_, congrArg Host.Outcome.next made, moved.odometry (by decide), moved.slower (by decide), ?_,
    State.recomputeInside_flagged _, ?_⟩
  · exact (State.recomputeInside_placed _).counted (State.recomputeWindow_counted _ _)
  · exact made ▸ s.markerPulse_lawful.frame

theorem State.chosenMarker_none (h : ∀ n ∈ s.win.markers, s.odo.u + 2 < gap n s.odo.p) : s.chosenMarker = none := by
  have none : s.win.markers.filter (fun n => decide (gap n s.odo.p ≤ s.odo.u + Config.markerTolerance)) = [] :=
    List.filter_eq_nil_iff.2 fun n hn k => Nat.not_le.2 (h n hn) (of_decide_eq_true k)
  rw [State.chosenMarker, none]

/-- At a full queue an event record takes the place of the first unsent POSITION record (R167). -/
theorem RadioUnit.queueEvent_replaces {q : RadioUnit} (full : Config.queueCapacity ≤ q.queue.length)
    {before after : List Report} {x : Report} (list : q.queue = before ++ x :: after) (fly : q.flying ≤ before.length)
    (hx : x.isPosition = true) (first : ∀ y ∈ before.drop q.flying, y.isPosition = false) (y : Report) :
    q.queueEvent y = { q with queue := before ++ after ++ [y] } := by
  have unsent : q.queue.drop q.flying = before.drop q.flying ++ x :: after := by
    rw [list, List.drop_append_of_le_length fly]
  have held : q.holdsUnsentPosition = true := by
    rw [RadioUnit.holdsUnsentPosition, unsent]
    simp [hx]
  have sent : q.queue.take q.flying = before.take q.flying := by rw [list, List.take_append_of_le_length fly]
  unfold RadioUnit.queueEvent
  rw [if_neg (Nat.not_lt.2 full), if_pos held, unsent, sent,
    List.eraseP_append_right _ (by simpa only [Bool.not_eq_true] using first),
    List.eraseP_cons_of_pos hx, ← List.append_assoc, List.take_append_drop]

theorem RadioUnit.queueEvent_loses {q : RadioUnit} (full : Config.queueCapacity ≤ q.queue.length)
    (none : ∀ y ∈ q.queue.drop q.flying, y.isPosition = false) (y : Report) :
    q.queueEvent y = { q with lost := min 255 (q.lost + 1) } := by
  have held : ¬q.holdsUnsentPosition = true := by
    simpa [RadioUnit.holdsUnsentPosition] using none
  rw [RadioUnit.queueEvent, if_neg (Nat.not_lt.2 full), if_neg held]

/-- Settles O11. -/
theorem strayMarkersAreReported : Obligations.StrayMarkersAreReported := by
  intro s stray
  have made : s.markerPulse = s.report (.markerUnknown s.odo.p s.odo.u) := by
    rw [State.markerPulse, State.chosenMarker_none stray]
  have run : ∀ t, s.report (.markerUnknown s.odo.p s.odo.u) = t → exec .markerPulse s = .next t := fun t h =>
    congrArg _ (made.trans h)
  refine ⟨fun quiet => run _ (if_pos quiet), fun speaks => ?_⟩
  have queued : ∀ q, s.radio.queueEvent { time := s.recordTime, body := .markerUnknown s.odo.p s.odo.u } = q →
      exec .markerPulse s = .next (s.withRadio q) := fun q h => run _ ((if_neg (by simp [speaks])).trans (congrArg _ h))
  refine ⟨fun room => queued _ (if_pos room), fun full =>
    ⟨fun before x after list fly hx first => queued _ ?_, fun none => queued _ ?_⟩⟩
  · exact RadioUnit.queueEvent_replaces full list fly hx first _
  · exact RadioUnit.queueEvent_loses full none _

end Sys2Proof.Machine
end

section
/-! PROOFS. What the owners of the requests refuse (O54), LOCATE (O13) and DIRECTION (O14). -/

namespace Sys2Proof.Machine

set_option Elab.async false

variable {free : List Block} {r m : List Cause} {s t u : State} {f : List Byte}

/-! ### Codes read as they are written -/

theorem directionOfCode_eq {n : Nat} {x : Direction} : directionOfCode n = some x ↔ n = directionCode x := by
  unfold directionOfCode
  split <;> cases x <;> simp_all [directionCode]

theorem verticalOfCode_eq {n : Nat} {x : Vertical} : verticalOfCode n = some x ↔ n = verticalCode x := by
  unfold verticalOfCode
  split <;> cases x <;> simp_all [verticalCode]

theorem sideOfCode_eq {n : Nat} {x : PlatformSide} : sideOfCode n = some x ↔ n = x.code := by
  unfold sideOfCode
  split <;> cases x <;> simp_all [PlatformSide.code]

theorem parkOfCode_eq {n : Nat} {x : ParkSetting} : parkOfCode n = some x ↔ n = x.code := by
  unfold parkOfCode
  split <;> cases x <;> simp_all [ParkSetting.code]

theorem doorOfCode_eq {n : Nat} {d : Door} : doorOfCode n = some d ↔ n = doorCode d := by
  unfold doorOfCode
  split <;> cases d <;> simp_all [doorCode]

theorem kindOfCode_eq {n : Nat} {k : TrackKind} : kindOfCode n = some k ↔ n = k.code := by
  unfold kindOfCode
  split <;> cases k <;> simp_all [TrackKind.code]

theorem directionOfCode_some {n : Nat} (h : n ≤ 2) : ∃ x, directionOfCode n = some x := by
  interval_cases n <;> exact ⟨_, rfl⟩

theorem directionOfCode_none {n : Nat} (h : 2 < n) : directionOfCode n = none :=
  Option.eq_none_iff_forall_ne_some.2 fun x e => by
    have := directionOfCode_eq.1 e
    cases x <;> simp only [directionCode] at this <;> omega

theorem itemOfCode_none {n : Nat} (h : n = 0 ∨ 47 < n) : itemOfCode n = none := by
  cases n with
  | zero => rfl
  | succ n =>
    have long : configItems.length ≤ n := by
      simp only [configItems, List.length_cons, List.length_nil]
      omega
    exact List.getElem?_eq_none long

/-! ### A request that changes nothing -/

/-- A request whose owner's step leaves the state is answered and changes nothing more. -/
theorem State.request_answersOnly {x : RequestLine} (k : RequestKind) (can : s.CanTake x) (on : k.servedOn x = true)
    (size : f.length = k.size) (n : k ≠ .ackIntervention) {reply : Reply}
    (h : (s.heardAt x).serve x s.set.heard k f = (s.heardAt x, reply)) : AnsweredOnly s (s.request x k f) x k.code reply := by
  obtain ⟨p, e, served⟩ := State.request_serves s x k f can on size n
  rw [h] at e served
  rw [e]
  exact ⟨served.answered, p, rfl⟩

/-- The same of a refusal, as the obligations name it. -/
theorem State.refuses {x : RequestLine} (k : RequestKind) (can : s.CanTake x) (size : f.length = k.size) {e : Reason}
    (h : (s.heardAt x).serve x s.set.heard k f = (s.heardAt x, .refused e)) (on : k.servedOn x = true := by rfl)
    (n : k ≠ .ackIntervention := by decide) : s.Refuses (k.command x f) x k.code e :=
  ⟨s.request x k f, by cases k <;> rfl, State.request_answersOnly k can on size n h⟩

/-! ### Each owner's checks, in their order -/

theorem State.locate_badField (h : Config.maxPosition < field f 0 3) : s.locate f = (s, .refused .badField) := if_pos h

theorem State.locate_moving (h : field f 0 3 ≤ Config.maxPosition) (k : s.odo.standstill = false) :
    s.locate f = (s, .refused .notStandstill) := by
  rw [State.locate, if_neg (Nat.not_lt.2 h), if_pos k]

theorem State.selectDirection_badField (h : 2 < field f 0 1) : s.selectDirection f = (s, .refused .badField) := by
  rw [State.selectDirection, directionOfCode_none h]

theorem State.selectDirection_moving (h : field f 0 1 ≤ 2) (k : s.odo.standstill = false) :
    s.selectDirection f = (s, .refused .notStandstill) := by
  obtain ⟨x, e⟩ := directionOfCode_some h
  rw [State.selectDirection, e]
  exact if_pos k

/-- The first three checks of R30 on a delivery. -/
theorem State.asks_iff {d : Delivery} :
    s.Asks d.number d.start d.length ↔ s.win.wanted.served = some d.number ∧ s.win.placed d = true := by
  unfold State.Asks Window.placed Wanted.served
  cases w : s.win.wanted with
  | none => simp
  | pinned n e => simp
  | byPosition n x =>
    simp only [Option.some.injEq, Bool.and_eq_true, decide_eq_true_eq]
    omega
  | byNumber n e =>
    cases e with
    | up =>
      cases s.win.last? with
      | none => simp
      | some l =>
        simp only [Option.some.injEq, Option.map_some, beq_iff_eq]
        omega
    | down =>
      cases s.win.first? with
      | none => simp
      | some l =>
        simp only [Option.some.injEq, beq_iff_eq]
        omega

theorem State.deliver_notWanted (h : ¬s.Asks (field f 0 2) (field f 2 3) (field f 5 2)) :
    s.deliver f = (s, .refused .notWanted) := by
  have k := mt (State.asks_iff (d := deliveryOf f)).2 h
  unfold State.deliver
  dsimp only
  split
  · rfl
  · rename_i n e
    split
    · rfl
    · rename_i same
      rw [e, Classical.not_not.1 same] at k
      rw [if_pos (by simpa using k)]

/-- Past the first three checks the record decides (R30). -/
theorem State.deliver_record (h : s.Asks (field f 0 2) (field f 2 3) (field f 5 2))
    (bad : ∀ g, (deliveryOf f).record = some g → s.win.spaced g = false) : s.deliver f = (s, .refused .badField) := by
  obtain ⟨served, placed⟩ := (State.asks_iff (d := deliveryOf f)).1 h
  unfold State.deliver
  rw [served]
  simp only [ne_eq, not_true_eq_false, if_false, placed, Bool.true_eq_false]
  split
  · rfl
  · rename_i g e
    rw [if_neg (by simp [bad g e])]

theorem platformOf_eq {y : Nat × Nat} {x : Platform} :
    platformOf y = some x ↔ 1 ≤ y.1 ∧ x.id = y.1 ∧ x.side.code = y.2 := by
  obtain ⟨id, side⟩ := x
  unfold platformOf
  split
  · rename_i zero
    simp [zero]
  · rename_i some
    simp only [Option.map_eq_some_iff, sideOfCode_eq, Platform.mk.injEq]
    constructor
    · rintro ⟨z, code, rfl, rfl⟩
      exact ⟨Nat.one_le_iff_ne_zero.2 some, rfl, code.symm⟩
    · rintro ⟨-, same, code⟩
      exact ⟨side, code.symm, same.symm, rfl⟩

/-- A record read of a delivery is delivered by its bytes (R20, 11.3). -/
theorem delivers_of_record {g : Segment} (h : (deliveryOf f).record = some g) : Delivers f g := by
  have present : (deliveryOf f).platform.isSome = (field f 14 1).testBit 0 := by
    unfold deliveryOf
    cases (field f 14 1).testBit 0 <;> rfl
  have marked : (deliveryOf f).marker.isSome = (field f 14 1).testBit 1 := by
    unfold deliveryOf
    cases (field f 14 1).testBit 1 <;> rfl
  unfold Delivery.record at h
  split at h
  · cases h
  rename_i k hk
  dsimp only at h
  split at h
  · rename_i c
    obtain ⟨-, l1, l2, l3, g1, g2, u1, u2, pl, mk⟩ := c
    obtain rfl := Option.some.inj h
    refine ⟨rfl, rfl, rfl, (kindOfCode_eq.1 hk).symm, rfl, rfl, rfl, ?_, fun x hx => ?_, marked.symm, fun o ho => ⟨?_, ?_⟩,
      ⟨l1, l2⟩, l3, ⟨g1, g2⟩, u1, u2⟩
    · rw [← present]
      cases e : (deliveryOf f).platform with
      | none => rfl
      | some y => exact ((e ▸ pl) rfl).symm
    · obtain ⟨y, hy, e⟩ := Option.bind_eq_some_iff.1 hx
      obtain ⟨one, id, side⟩ := platformOf_eq.1 e
      have same : y = (field f 15 1, field f 16 1) := by
        unfold deliveryOf at hy
        dsimp only at hy
        split at hy
        · exact (Option.some.inj hy).symm
        · cases hy
      subst same
      exact ⟨id, side, id ▸ one⟩
    · unfold deliveryOf at ho
      dsimp only at ho
      split at ho
      · exact (Option.some.inj ho).symm
      · cases ho
    · exact mk o (by rw [show (deliveryOf f).marker = some o from ho]; exact List.mem_singleton_self o)
  · cases h

theorem Delivers.marker_eq {g : Segment} (h : Delivers f g) : (deliveryOf f).marker = g.marker := by
  have here := h.marker
  unfold deliveryOf
  dsimp only
  cases e : g.marker with
  | none => rw [if_neg (by rw [here, e]; decide)]
  | some o => rw [if_pos (by rw [here, e]; rfl), (h.offset o e).1]

/-- A delivered record is read of its bytes, with the marker it has (R20, 11.3). -/
theorem record_of_delivers {g : Segment} (h : Delivers f g) :
    ∃ g', (deliveryOf f).record = some g' ∧ g'.start = g.start ∧ g'.marker = g.marker := by
  have kind : kindOfCode (deliveryOf f).kind = some g.kind := kindOfCode_eq.2 h.kind.symm
  have platform : (deliveryOf f).platform.isSome = true → ((deliveryOf f).platform.bind platformOf).isSome = true := by
    have here := h.platform
    unfold deliveryOf
    dsimp only
    intro on
    split at on
    · rename_i bit
      obtain ⟨x, e⟩ := Option.isSome_iff_exists.1 (here ▸ bit)
      obtain ⟨id, side, one⟩ := h.station x e
      rw [if_pos bit, Option.bind_some, platformOf_eq.2 ⟨id ▸ one, id, side⟩]
      rfl
    · cases on
  unfold Delivery.record
  rw [kind]
  dsimp only
  rw [if_pos]
  · exact ⟨_, rfl, h.start.symm, h.marker_eq⟩
  · have lengths := h.lengths
    have ends := h.ends
    have limits := h.limits
    have gradients := h.gradients
    rw [h.length] at lengths
    rw [h.start, h.length] at ends
    rw [h.limitUp, h.limitDown] at limits
    rw [h.gradient] at gradients
    refine ⟨?_, lengths.1, lengths.2, ends, gradients.1, gradients.2, limits.1, limits.2, platform,
      fun o ho => ?_⟩
    · show field f 2 3 ≤ 1048575
      omega
    · rw [h.marker_eq, Option.mem_toList] at ho
      exact lt_of_lt_of_eq (h.offset o ho).2 h.length

theorem State.endOfLine_notWanted (h : ∀ e, s.win.wanted ≠ .byNumber (field f 0 2) e) :
    s.endOfLine f = (s, .refused .notWanted) := by
  unfold State.endOfLine
  split
  · rename_i n e w
    exact if_pos fun k => h e (by rw [k, w])
  · rfl

theorem State.endOfLine_badField {e : Vertical} (h : s.win.wanted = .byNumber (field f 0 2) e)
    (k : field f 2 1 ≠ 1 ∧ field f 2 1 ≠ 2) : s.endOfLine f = (s, .refused .badField) := by
  have none : verticalOfCode (field f 2 1) = none := Option.eq_none_iff_forall_ne_some.2 fun x c => by
    have := verticalOfCode_eq.1 c
    cases x
    · exact k.1 this
    · exact k.2 this
  simp [State.endOfLine, h, none]

theorem State.endOfLine_otherEdge {e : Vertical} (h : s.win.wanted = .byNumber (field f 0 2) e)
    (k : field f 2 1 = verticalCode e.opposite) : s.endOfLine f = (s, .refused .notWanted) := by
  have other : e.opposite ≠ e := by cases e <;> decide
  simp [State.endOfLine, h, verticalOfCode_eq.2 k, other]

theorem State.configure_badState (h : s.line.opState ≠ .config) : s.configure f = (s, .refused .badState) := if_pos h

theorem State.configure_badField (h : s.line.opState = .config) (k : field f 0 1 = 0 ∨ 47 < field f 0 1) :
    s.configure f = (s, .refused .badField) := by
  rw [State.configure, if_neg (not_not.2 h), itemOfCode_none k]

theorem State.readWindow_badField (h : 31 < field f 0 1) : s.readWindow f = (s, .refused .badField) := if_pos h

theorem State.setPark_badField (h : field f 0 1 ≠ 1 ∧ field f 0 1 ≠ 2) : s.setPark f = (s, .refused .badField) := by
  have none : parkOfCode (field f 0 1) = none := Option.eq_none_iff_forall_ne_some.2 fun x c => by
    have := parkOfCode_eq.1 c
    cases x
    · exact h.1 this
    · exact h.2 this
  rw [State.setPark, none]

theorem State.setPark_badState (h : field f 0 1 = 2) (k : s.line.opState = .config) :
    s.setPark f = (s, .refused .badState) := by
  rw [State.setPark, h]
  exact if_pos ⟨rfl, k⟩

theorem State.resume_badState (h : s.line.opState = .run) : s.resume = (s, .refused .badState) := by
  rw [State.resume, h]

theorem State.resume_conflict (h : s.line.opState = .config)
    (k : 28 < s.cfg.aheadLow + s.cfg.behindHigh ∨ s.cfg.trainLength < s.cfg.carLength) :
    s.resume = (s, .refused .configConflict) := by
  have conflict : ¬s.cfg.consistent = true := by
    simp only [Settings.consistent, Bool.and_eq_true, decide_eq_true_eq]
    omega
  rw [State.resume, h]
  exact if_neg conflict

theorem State.quiesce_badState (h : s.line.opState = .config) : s.quiesce = (s, .refused .badState) := by
  rw [State.quiesce, h]

theorem State.restart_badState (h : s.line.opState ≠ .config) : s.restart = (s, .refused .badState) := if_pos h

theorem State.doorRelease_badField (h : field f 0 1 ≠ 1 ∧ field f 0 1 ≠ 2) : s.doorRelease f = (s, .refused .badField) := by
  unfold State.doorRelease
  split
  · rfl
  · rfl
  · rename_i x single c
    have := sideOfCode_eq.1 c
    cases x with
    | left => exact absurd this h.1
    | right => exact absurd this h.2
    | both => exact absurd rfl single

theorem State.doorRelease_checks {x : PlatformSide} (n : x ≠ .both) (h : field f 0 1 = x.code) :
    (s.odo.located = false → s.doorRelease f = (s, .refused .notLocated))
      ∧ (s.odo.located = true → s.odo.standstill = false → s.doorRelease f = (s, .refused .notStandstill))
      ∧ (s.odo.located = true → s.odo.standstill = true → s.platformCheck x = false →
          s.doorRelease f = (s, .refused .notPlatform)) := by
  unfold State.doorRelease
  rw [sideOfCode_eq.2 h]
  cases x with
  | both => exact absurd rfl n
  | left => simp_all
  | right => simp_all

theorem State.doorClose_badField (h : ∀ x : PlatformSide, field f 0 1 ≠ x.code) :
    s.doorClose f = (s, .refused .badField) := by
  have none : sideOfCode (field f 0 1) = none := Option.eq_none_iff_forall_ne_some.2 fun x c => h x (sideOfCode_eq.1 c)
  rw [State.doorClose, none]

theorem State.doors_badField (h : ∀ d, field f 0 1 ≠ doorCode d) :
    s.doorIsolate f = (s, .refused .badField) ∧ s.doorUnisolate f = (s, .refused .badField) := by
  have none : doorOfCode (field f 0 1) = none := Option.eq_none_iff_forall_ne_some.2 fun d c => h d (doorOfCode_eq.1 c)
  rw [State.doorIsolate, State.doorUnisolate, none]
  exact ⟨rfl, rfl⟩

theorem State.doors_moving {d : Door} (h : field f 0 1 = doorCode d) (k : s.odo.standstill = false) :
    s.doorIsolate f = (s, .refused .notStandstill) ∧ s.doorUnisolate f = (s, .refused .notStandstill) := by
  rw [State.doorIsolate, State.doorUnisolate, doorOfCode_eq.2 h]
  exact ⟨if_pos k, if_pos k⟩

theorem State.doorIsolate_doorState {d : Door} (h : field f 0 1 = doorCode d) (k : s.odo.standstill = true)
    (n : (s.doorAt d).state ≠ .locked) : s.doorIsolate f = (s, .refused .doorState) := by
  simp [State.doorIsolate, doorOfCode_eq.2 h, k, n]

theorem State.doorUnisolate_doorState {d : Door} (h : field f 0 1 = doorCode d) (k : s.odo.standstill = true)
    (n : (s.doorAt d).state ≠ .isolated) : s.doorUnisolate f = (s, .refused .doorState) := by
  simp [State.doorUnisolate, doorOfCode_eq.2 h, k, n]

/-- The platform check of the model is that of R136. -/
theorem State.atPlatform_of_check {x : PlatformSide} (h : s.platformCheck x = true) : s.AtPlatform x := by
  unfold State.platformCheck at h
  simp only [Bool.and_eq_true, List.all_eq_true] at h
  obtain ⟨⟨covers, sides⟩, ids⟩ := h
  have station : ∀ g ∈ s.win.overlapping s.carLo s.hi, ∃ p, g.platform = some p ∧ (p.side = x ∨ p.side = .both)
      ∧ (some (some p.id) : Option (Option Nat))
          = ((s.win.overlapping s.carLo s.hi).map fun g => g.platform.map Platform.id).head? := fun g hg => by
    have side := sides g hg
    have id := ids _ (List.mem_map_of_mem hg)
    cases e : g.platform with
    | none =>
      rw [e] at side
      cases side
    | some p =>
      rw [e] at side id
      simp only [PlatformSide.serves, Bool.or_eq_true, beq_iff_eq] at side
      exact ⟨p, rfl, side, by simpa using id⟩
  refine ⟨covers, ?_⟩
  cases h : s.win.overlapping s.carLo s.hi with
  | nil => exact ⟨0, fun g hg => absurd hg (by simp)⟩
  | cons a rest =>
    rw [h] at station
    obtain ⟨p, ha, -, -⟩ := station a (by simp)
    refine ⟨p.id, fun g hg => ?_⟩
    obtain ⟨q, hq, side, id⟩ := station g hg
    exact ⟨q, hq, by simpa [ha] using id, side⟩

/-- A delivered record with a marker too near another of the window is refused (R30, last check). -/
theorem State.deliver_crowded {g : Segment} {o k : Nat} (h : Delivers f g) (asks : s.Wants g) (mark : g.marker = some o)
    (hk : k ∈ s.win.markers) (near : gap (g.start + o) k < 20) : s.deliver f = (s, .refused .badField) := by
  unfold State.Wants at asks
  rw [h.number, h.start, h.length] at asks
  refine State.deliver_record asks fun g' e => Bool.eq_false_iff.2 fun spaced => ?_
  obtain ⟨g'', e', start, marker⟩ := record_of_delivers h
  obtain rfl : g'' = g' := Option.some.inj (e'.symm.trans e)
  have at' : g''.markerAt = some (g.start + o) := by rw [Segment.markerAt, marker, mark, start]; rfl
  exact absurd (Window.spaced_iff.1 spaced _ at' k hk) (Nat.not_le.2 near)

theorem State.deliver_outOfRange (h : s.Asks (field f 0 2) (field f 2 3) (field f 5 2)) (k : ∀ g, ¬Delivers f g) :
    s.deliver f = (s, .refused .badField) :=
  State.deliver_record h fun g e => absurd (delivers_of_record e) (k g)

/-- Settles O54: the owner sees the state after the hearing, which has what the checks read as it was. -/
theorem ownersRefuseWhatTheyMust : Obligations.OwnersRefuseWhatTheyMust := by
  intro s f
  refine ⟨fun can => ?_, fun can size => ?_⟩
  · obtain ⟨odo, win, -, -, -, -, -, -, -, -, op, cfg, -, -⟩ := s.heardAt_keeps .cab
    have asks : ∀ n start length, (s.heardAt .cab).Asks n start length ↔ s.Asks n start length := fun n start length => by
      rw [State.Asks, State.Asks, win]
    refine ⟨fun size => ⟨fun far => ?_, fun near moving => ?_⟩, fun size => ⟨fun no => ?_, fun yes no => ?_, ?_⟩,
      fun size => ⟨fun no => ?_, fun e w => ⟨fun edge => ?_, fun edge => ?_⟩, fun out => ?_, fun at' code => ?_⟩,
      fun size => ⟨fun code => ?_, fun code moving => ?_, fun far => ?_, fun code => ?_, fun code at' => ?_⟩,
      fun empty => ⟨fun at' => ?_, fun at' conflict => ?_, fun at' => ?_, fun out => ?_⟩⟩
    · exact State.refuses .locate can size (State.locate_badField far)
    · exact State.refuses .locate can size (State.locate_moving near (odo ▸ moving))
    · exact State.refuses .segment can size (State.deliver_notWanted (mt (asks _ _ _).1 no))
    · exact State.refuses .segment can size (State.deliver_outOfRange ((asks _ _ _).2 yes) no)
    · exact fun g o k delivers wants mark hk near => State.refuses .segment can size
        (State.deliver_crowded delivers ((asks _ _ _).2 wants) mark (win ▸ hk) near)
    · exact State.refuses .endOfLine can size (State.endOfLine_notWanted (win ▸ no))
    · exact State.refuses .endOfLine can size (State.endOfLine_badField (win ▸ w) edge)
    · exact State.refuses .endOfLine can size (State.endOfLine_otherEdge (win ▸ w) edge)
    · exact State.refuses .configure can size (State.configure_badState (op ▸ out))
    · exact State.refuses .configure can size (State.configure_badField (op.trans at') code)
    · exact State.refuses .direction can size (State.selectDirection_badField code)
    · exact State.refuses .direction can size (State.selectDirection_moving code (odo ▸ moving))
    · exact State.refuses .readWindow can size (State.readWindow_badField far)
    · exact State.refuses .park can size (State.setPark_badField code)
    · exact State.refuses .park can size (State.setPark_badState code (op.trans at'))
    · exact empty ▸ State.refuses .resume can rfl (State.resume_badState (op.trans at'))
    · exact empty ▸ State.refuses .resume can rfl (State.resume_conflict (op.trans at') (by rw [cfg]; exact conflict))
    · exact empty ▸ State.refuses .quiesce can rfl (State.quiesce_badState (op.trans at'))
    · exact empty ▸ State.refuses .restart can rfl (State.restart_badState (op ▸ out))
  · obtain ⟨odo, win, -, -, -, -, -, -, doors, -, -, cfg, -, -⟩ := s.heardAt_keeps .crew
    have platform : ∀ x, ¬s.AtPlatform x → (s.heardAt .crew).platformCheck x = false := fun x no =>
      Bool.eq_false_iff.2 fun yes => no (by
        have h := State.atPlatform_of_check yes
        rw [State.AtPlatform, State.carLo_eq, State.hi_eq, odo, win, cfg] at h
        rwa [State.AtPlatform, State.carLo_eq, State.hi_eq])
    have door : ∀ d, (s.heardAt .crew).doorAt d = s.doorAt d := fun d => by rw [State.doorAt, State.doorAt, doors]
    refine ⟨fun code => ?_, fun x single code => ?_, fun code => ?_, fun code => ?_, fun d code => ⟨fun moving => ?_,
      fun stands state => ?_, fun stands state => ?_⟩⟩
    · exact State.refuses .doorRelease can size (State.doorRelease_badField code)
    · obtain ⟨unlocated, moving, away⟩ := State.doorRelease_checks (s := s.heardAt .crew) single code
      rw [odo] at unlocated moving away
      exact ⟨fun a => State.refuses .doorRelease can size (unlocated a),
        fun a b => State.refuses .doorRelease can size (moving a b),
        fun a b c => State.refuses .doorRelease can size (away a b (platform x c))⟩
    · exact State.refuses .doorClose can size (State.doorClose_badField code)
    · exact ⟨State.refuses .doorIsolate can size (State.doors_badField code).1,
        State.refuses .doorUnisolate can size (State.doors_badField code).2⟩
    · exact ⟨State.refuses .doorIsolate can size (State.doors_moving code (odo ▸ moving)).1,
        State.refuses .doorUnisolate can size (State.doors_moving code (odo ▸ moving)).2⟩
    · exact State.refuses .doorIsolate can size (State.doorIsolate_doorState code (odo ▸ stands) (door d ▸ state))
    · exact State.refuses .doorUnisolate can size (State.doorUnisolate_doorState code (odo ▸ stands) (door d ▸ state))

/-! ### LOCATE -/

/-- A recomputation's notice leaves the window. -/
theorem State.recomputeWindow_win (s : State) (b : Bool) :
    (s.recomputeWindow b).win = s.recount.dropBehind.1.deriveWanted.1.win := by
  unfold State.recomputeWindow
  dsimp only
  split
  · exact (State.evaluate_lawful _).frame.window (by decide)
  · rfl

/-- An empty window of a located car counts nothing and asks by position (R23, R24). -/
theorem State.recomputeWindow_empty (b : Bool) (h : s.win.records = []) (k : s.odo.located = true) {l : LocatedAt}
    (e : s.win.located = some l) :
    (s.recomputeWindow b).win = { s.win with wanted := .byPosition l.number l.position, ahead := 0, behind := 0 } := by
  have counted : s.recount.win = { s.win with ahead := 0, behind := 0 } := by
    unfold State.recount State.aheadRecords State.behindRecords
    rw [h]
    cases s.odo.direction <;> rfl
  have dropped : s.recount.dropBehind.1 = s.recount := by
    unfold State.dropBehind
    split
    · rfl
    · rw [counted]
      simp
  rw [State.recomputeWindow_win, dropped, State.deriveWanted, counted]
  simp [h, e, k, State.recount]

/-- The car set where an accepted LOCATE puts it, and the window emptied, before the notices (R16, R38). -/
def State.relocated (s : State) (f : List Byte) : State :=
  (s.withOdo { s.odo with p := field f 0 3, u := field f 3 1, located := true, slip := 0, rollback := 0 }).withWin
    { s.win with
      records := [], endUp := false, endDown := false, located := some { number := field f 4 2, position := field f 0 3 } }

theorem State.locate_accepted (near : field f 0 3 ≤ Config.maxPosition) (stands : s.odo.standstill = true) :
    s.locate f = ((((s.relocated f).recomputeWindow !s.win.records.isEmpty).recomputeInside).evaluate,
      .done (bytesOf 3 (field f 0 3) ++ bytesOf 1 (field f 3 1))) := by
  rw [State.locate, if_neg (Nat.not_lt.2 near), if_neg (by rw [stands]; decide)]
  rfl

/-- What an accepted LOCATE leaves: at standstill no notice changes v (R11). -/
theorem State.relocated_noticed (stands : s.odo.standstill = true) (b : Bool) :
    ((((s.relocated f).recomputeWindow b).recomputeInside).evaluate).odo = (s.relocated f).odo
      ∧ ((((s.relocated f).recomputeWindow b).recomputeInside).evaluate).win
          = { records := [], endUp := false, endDown := false
              located := some { number := field f 4 2, position := field f 0 3 }
              wanted := .byPosition (field f 4 2) (field f 0 3), ahead := 0, behind := 0 }
      ∧ ((((s.relocated f).recomputeWindow b).recomputeInside).evaluate).Flagged := by
  have fr : Frame [.window, .authority] overspeeds [.overspeedService] (s.relocated f)
      ((((s.relocated f).recomputeWindow b).recomputeInside).evaluate) :=
    (((State.recomputeWindow_lawful _ b).blocks.trans (State.recomputeInside_lawful _).blocks).trans
      (State.evaluate_lawful _).blocks).frame
  refine ⟨?_, ?_, (State.evaluate_lawful _).frame.flagged (State.recomputeInside_flagged _)⟩
  · rw [fr.odometry (by decide), fr.still (by decide) stands]
  · rw [(State.evaluate_lawful _).frame.window (by decide), (State.recomputeInside_lawful _).frame.window (by decide),
      State.recomputeWindow_empty b rfl rfl rfl]
    rfl

/-- Settles O13. -/
theorem locateSetsThePosition : Obligations.LocateSetsThePosition := by
  intro s f can size near stands
  obtain ⟨p, made, served⟩ := State.request_serves s .cab .locate f can rfl size (by decide)
  obtain ⟨odo, -⟩ := s.heardAt_keeps .cab
  have stands' : (s.heardAt .cab).odo.standstill = true := odo ▸ stands
  have done : (s.heardAt .cab).serve .cab s.set.heard .locate f = _ := State.locate_accepted near stands'
  rw [done] at made served
  obtain ⟨o, w, flagged⟩ := State.relocated_noticed (f := f) stands' (!(s.heardAt .cab).win.records.isEmpty)
  refine ⟨_, congrArg Host.Outcome.next made, ?_, w, ?_, served⟩
  · rw [State.withPort_odo, o, State.relocated, State.withWin_odo, State.withOdo_odo, odo]
  · exact (State.withPort_frame (r := []) (m := []) _ .cab p).flagged flagged

/-! ### DIRECTION -/

/-- In NEUTRAL an evaluation makes L and P 0 (R60). -/
theorem State.evaluate_neutral (h : s.odo.direction = .neutral) :
    s.evaluate.sup.staticLimit = 0 ∧ s.evaluate.sup.permitted = 0 := by
  refine s.evaluate_fresh.1 fun t k => ?_
  have d : s.evaluate.odo.direction = .neutral := by rw [s.evaluate_placed.direction, h]
  rw [k.2.1] at d
  cases t <;> cases d

/-- What a change of direction at standstill leaves. -/
theorem State.turn_still (stands : s.odo.standstill = true) (x : Direction) :
    (s.turn x).odo = { s.odo with direction := x, rollback := 0 } ∧ (s.turn x).Counted
      ∧ (x = .neutral → (s.turn x).sup.staticLimit = 0 ∧ (s.turn x).sup.permitted = 0) := by
  have fr : Frame [.window] overspeeds [.overspeedService] (s.withOdo { s.odo with direction := x, rollback := 0 }) (s.turn x) :=
    ((State.recomputeWindow_lawful _ false).blocks.trans (State.evaluate_lawful _).blocks).frame
  refine ⟨?_, (State.evaluate_placed _).counted (State.recomputeWindow_counted _ _), fun neutral => ?_⟩
  · rw [fr.odometry (by decide), fr.still (by decide) stands]
    rfl
  · refine State.evaluate_neutral ?_
    rw [(State.recomputeWindow_frame _ false).odometry (by decide)]
    exact neutral

/-- Settles O14. -/
theorem directionTurnsTheCar : Obligations.DirectionTurnsTheCar := by
  intro s f x can size code stands
  obtain ⟨p, made, served⟩ := State.request_serves s .cab .direction f can rfl size (by decide)
  obtain ⟨odo, -⟩ := s.heardAt_keeps .cab
  have stands' : (s.heardAt .cab).odo.standstill = true := odo ▸ stands
  have done : (s.heardAt .cab).serve .cab s.set.heard .direction f
      = (if (s.heardAt .cab).odo.direction = x then s.heardAt .cab else (s.heardAt .cab).turn x,
          .done (bytesOf 1 (directionCode x))) := by
    show (s.heardAt .cab).selectDirection f = _
    rw [State.selectDirection, directionOfCode_eq.2 code]
    exact if_neg (by rw [stands']; decide)
  rw [done, odo] at made served
  refine ⟨_, congrArg Host.Outcome.next made, fun same => ?_, fun other => ?_⟩
  · rw [if_pos same] at served ⊢
    exact ⟨served.answered, p, rfl⟩
  · rw [if_neg other] at served ⊢
    obtain ⟨o, counted, neutral⟩ := State.turn_still stands' x
    exact ⟨by rw [State.withPort_odo, o, odo], (State.withPort_placed _ .cab p).counted counted, neutral, served⟩

end Sys2Proof.Machine
end

section
/-! PROOFS. What POWER_ON_RESET leaves, for every reading of the pins (O3): the combiner's first step, then the loop input, then
the test for a proof (log 5). -/

namespace Sys2Proof.Machine

set_option Elab.async false

variable {s : State} {p : PinLevels} {l : List Instr}

/-- A valve output in its first period, begun at HOLD_LEVEL 60, with another duty pending. -/
def Output.begun (duty : Nat) : Output := { Output.firstPeriod with pendingDuty := some duty, pendingOn := duty * 2000 / 100 }

/-- A feedback record that settles from the end of reset on (R113). -/
def Feedback.fresh : Feedback := { lastChange := 0, deviationStart := none }

/-- The reset tables and the combiner's first step in CONFIG: HOLD_LEVEL on every channel (R115). -/
def State.firstStep (p : PinLevels) (l : List Instr) : State :=
  { (State.atReset p).withPending l with
    comb :=
      { driver := 0, park := .apply, holding := true, service := 60, blend := none, emergency := false
        demand := { rb1 := 60, rb2 := 60, ab1 := 60, ab2 := 60 }, drive := { rb1 := 60, rb2 := 60, ab1 := 60, ab2 := 60 }
        springApplied := true
        feedback := { rb1 := Feedback.fresh, rb2 := Feedback.fresh, ab1 := Feedback.fresh, ab2 := Feedback.fresh } }
    drive :=
      { valve := { rb1 := Output.begun 60, rb2 := Output.begun 60, ab1 := Output.begun 60, ab2 := Output.begun 60 }
        motor := (State.atReset p).drive.motor, ganged := false } }

/-- The combiner's figures where no entry and no record of line is held and no proof holds a channel: the service demand on every
channel (R98, R101). -/
theorem State.plain_figures (h : s.set.entries = []) (k : s.win.records = []) (n : s.prov.proof = none) (c : Channel) :
    s.channelDemand c = s.serviceDemand ∧ s.driveValue c = s.serviceDemand := by
  have calm : s.set.hasLevel .emergency = false := by rw [InterventionSet.hasLevel, h]; rfl
  have out : s.blendKind = none := by rw [State.blendKind, Window.containing, k]; rfl
  have demand : s.channelDemand c = s.serviceDemand := by
    rw [State.channelDemand, calm, out]
    exact Nat.mul_div_cancel (m := s.serviceDemand) (n := 100) (by decide)
  exact ⟨demand, by rw [State.driveValue, calm, n]; exact demand⟩

theorem State.serviceDemand_config (h : s.line.opState = .config) (k : s.set.entries = []) (n : s.comb.driver = 0) :
    s.serviceDemand = s.cfg.holdLevel := by
  have holding : s.holdingRequest = true := by simp [State.holdingRequest, h]
  simp [State.serviceDemand, holding, InterventionSet.hasLevel, k, n]

theorem State.atReset_recombine : ((State.atReset p).withPending l).recombine false = State.firstStep p l := by
  have holding : ((State.atReset p).withPending l).holdingRequest = true := Bool.or_true _
  have service : ((State.atReset p).withPending l).serviceDemand = 60 := State.serviceDemand_config rfl rfl rfl
  have figures := State.plain_figures (s := (State.atReset p).withPending l) rfl rfl rfl
  have demand : ((State.atReset p).withPending l).channelDemand = fun _ => 60 := funext fun c => (figures c).1.trans service
  have drive : ((State.atReset p).withPending l).driveValue = fun _ => 60 := funext fun c => (figures c).2.trans service
  have engine : ((State.atReset p).drive.writeValves (State.atReset p).comb.drive (PerChannel.of fun _ => 60) false 2000 0)
      = (State.firstStep p l).drive := by
    rfl
  rw [State.recombine, holding, service, demand, drive]
  exact congrArg (fun e => (State.firstStep p l).withDrive e) engine

theorem State.atReset_recompute : ((State.atReset p).withPending l).recompute = State.firstStep p l := by
  rw [State.recompute, State.combine, State.atReset_recombine]
  rfl

/-- The first step with the proof of RB1 begun behind it (R123, R124). -/
def State.firstProof (p : PinLevels) (l : List Instr) : State :=
  { State.firstStep p l with
    comb := { (State.firstStep p l).comb with drive := { rb1 := 100, rb2 := 60, ab1 := 60, ab2 := 60 } }
    drive :=
      { (State.firstStep p l).drive with
        valve := { rb1 := Output.begun 100, rb2 := Output.begun 60, ab1 := Output.begun 60, ab2 := Output.begun 60 } }
    prov :=
      { (State.firstStep p l).prov with
        tried := [.rb1], proof := some { channel := .rb1, step := .rise, sample := 0 }, dwell := some 300000 } }

theorem State.firstStep_beginProof : (State.firstStep p l).beginProof .rb1 = State.firstProof p l := by
  obtain ⟨u, hu⟩ : ∃ u, u = ((State.firstStep p l).withProv (State.firstProof p l).prov).resettle .rb1 := ⟨_, rfl⟩
  have u' : u = (State.firstStep p l).withProv (State.firstProof p l).prov := hu
  have holding : u.holdingRequest = true := by rw [u']; exact Bool.or_true _
  have service : u.serviceDemand = 60 := by rw [u']; exact State.serviceDemand_config rfl rfl rfl
  have demand : u.channelDemand = fun _ => 60 := by
    funext c
    rw [u']
    exact ((State.plain_figures (s := State.firstStep p l) rfl rfl rfl c).1).trans (State.serviceDemand_config rfl rfl rfl)
  have drive : PerChannel.of u.driveValue = { rb1 := 100, rb2 := 60, ab1 := 60, ab2 := 60 } := by
    have other : ∀ c, c ≠ .rb1 → u.driveValue c = 60 := fun c h => by
      rw [State.driveValue, demand, u']
      exact if_neg (Ne.symm h)
    rw [PerChannel.of, other .rb2 (by decide), other .ab1 (by decide), other .ab2 (by decide), u']
    rfl
  have engine : ((State.firstStep p l).drive.writeValves (State.firstStep p l).comb.drive
        { rb1 := 100, rb2 := 60, ab1 := 60, ab2 := 60 } false 2000 0)
      = (State.firstProof p l).drive := by
    rfl
  have dwell : (State.firstStep p l).after Config.proofDwell = 300000 := Nat.zero_add _
  have step : (State.firstStep p l).beginProof .rb1 = u.recombine false := by rw [hu, State.beginProof, dwell]; rfl
  rw [step, State.recombine, holding, service, demand, drive, u']
  exact congrArg (fun e => (State.firstProof p l).withDrive e) engine

theorem State.firstStep_closed (h : p.loopOpen = false) :
    (State.firstStep p l).testLoop.testProof = State.firstProof p l := by
  have closed : (State.firstStep p l).set.loopOpen = false := h
  have shut : (State.firstStep p l).testLoop = State.firstStep p l := if_neg (by simp [closed])
  have ready : (State.firstStep p l).canProve = true := State.canProve_iff.mpr ⟨rfl, rfl, rfl, rfl⟩
  rw [shut, State.testProof, if_pos ready]
  exact State.firstStep_beginProof

/-- The first step with EMERGENCY_LOOP in the set and both its records queued, before the evaluation (R79, R82). -/
def State.firstLoop (p : PinLevels) (l : List Instr) : State :=
  { State.firstStep p l with
    set :=
      { entries :=
          [{ cause := .emergencyLoop, capture := { position := 0, speed := 0, permitted := 0 }, time := 0, heard := false }]
        loopOpen := p.loopOpen, breakOpen := true }
    radio :=
      { RadioUnit.atReset with
        queue :=
          [ { time := 0, body := .raised .emergencyLoop { position := 0, speed := 0, permitted := 0 } }
          , { time := 0, body := .position 0 255 0 0 .neutral true false } ] } }

/-- A valve output restarted at full on-time at the end of reset (R107). -/
def Output.restarted : Output := { Output.firstPeriod with activeOn := 2000, pendingDuty := some 100, pendingOn := 2000 }

/-- The first step behind an emergency: 100 on every channel, every valve restarted at full on-time (R100, R107). -/
def State.firstEmergency (p : PinLevels) (l : List Instr) : State :=
  { State.firstLoop p l with
    comb :=
      { (State.firstStep p l).comb with
        service := 60, emergency := true
        demand := { rb1 := 100, rb2 := 100, ab1 := 100, ab2 := 100 }
        drive := { rb1 := 100, rb2 := 100, ab1 := 100, ab2 := 100 } }
    drive :=
      { (State.firstStep p l).drive with
        valve := { rb1 := Output.restarted, rb2 := Output.restarted, ab1 := Output.restarted, ab2 := Output.restarted } } }

theorem State.firstLoop_evaluate : (State.firstLoop p l).evaluate = State.firstLoop p l := by
  have slow : (State.firstLoop p l).decayed = State.firstLoop p l := rfl
  have limit : (State.firstLoop p l).newLimit = 0 := rfl
  have permitted : (State.firstLoop p l).newPermitted = 0 := rfl
  have figures : (State.firstLoop p l).withFigures = State.firstLoop p l := by
    rw [State.withFigures, limit, permitted]
    rfl
  rw [State.evaluate, slow, figures]
  rfl

theorem State.firstLoop_recombine : (State.firstLoop p l).recombine false = State.firstEmergency p l := by
  have holding : (State.firstLoop p l).holdingRequest = true := Bool.or_true _
  have service : (State.firstLoop p l).serviceDemand = 60 := by
    rw [State.serviceDemand, holding]
    rfl
  have engine : ((State.firstLoop p l).drive.restartValves false 2000 0) = (State.firstEmergency p l).drive := by
    rfl
  rw [State.recombine, holding, service]
  exact congrArg (fun e => (State.firstEmergency p l).withDrive e) engine

theorem State.firstStep_loopEntry (x : Capture) (time : (State.firstStep p l).partTime = 0)
    (h : x = { position := 0, speed := 0, permitted := 0 }) :
    ((((State.firstStep p l).withSet ((State.firstStep p l).set.append
      { cause := .emergencyLoop, capture := x, time := (State.firstStep p l).partTime, heard := false })).report
        (.raised .emergencyLoop x)).reportPosition) = State.firstLoop p l := by
  have mark : ∀ i, ((State.firstStep p l).withSet i).recordTime = 0 := fun i => congrArg (· % 65536) time
  have second : ∀ i r, (((State.firstStep p l).withSet i).withRadio r).recordTime = 0 := fun i r => congrArg (· % 65536) time
  rw [State.report, if_neg (by exact Bool.false_ne_true), State.reportPosition, if_neg (by exact Bool.false_ne_true),
    mark, second, time, h]
  rfl

theorem State.firstStep_open (h : p.loopOpen = true) :
    (State.firstStep p l).testLoop.testProof = State.firstEmergency p l := by
  have combined : (State.firstLoop p l).combine State.evaluate false = State.firstEmergency p l := by
    rw [State.combine, State.firstLoop_recombine]
    rfl
  have time : (State.firstStep p l).partTime = 0 :=
    congrArg (· / 1000 % 4294967296) (show (State.firstStep p l).clock = 0 from rfl)
  have raised : (State.firstStep p l).raiseLoop = State.firstEmergency p l := by
    rw [State.raiseLoop, State.raise, State.raiseWith, if_neg (by exact Bool.false_ne_true)]
    simp only [State.firstStep_loopEntry (State.firstStep p l).capture time rfl, State.firstLoop_evaluate, combined]
    rfl
  have reading : (State.firstStep p l).testLoop = (State.firstStep p l).raiseLoop :=
    if_pos (show (State.firstStep p l).set.loopOpen = true from h)
  rw [reading, raised]
  rfl

/-- What POWER_ON_RESET leaves: with the loop closed the proof of RB1 in progress, with the loop open the emergency. -/
theorem State.powerOn_eq :
    s.powerOn p = if p.loopOpen then State.firstEmergency p s.pending else State.firstProof p s.pending := by
  rw [State.powerOn, State.heldInReset_endReset, State.atReset_recompute]
  cases loop : p.loopOpen with
  | true => exact State.firstStep_open loop
  | false => exact State.firstStep_closed loop

/-- The door hold at the end of reset: a door whose closed-and-locked switch is not made (R155). -/
theorem State.atReset_hold : (State.atReset p).doors.hold = true ↔ ∃ d, (p.door.get d).closedMade = false := by
  have some : (∃ d, (p.door.get d).closedMade = false) ↔ p.door.d1.closedMade = false ∨ p.door.d2.closedMade = false
      ∨ p.door.d3.closedMade = false ∨ p.door.d4.closedMade = false :=
    ⟨fun ⟨d, h⟩ => by cases d <;> simp_all [PerDoor.get], fun h => by
      obtain h | h | h | h := h
      exacts [⟨.d1, h⟩, ⟨.d2, h⟩, ⟨.d3, h⟩, ⟨.d4, h⟩]⟩
  rw [some]
  simp [State.atReset, or_assoc]

theorem DoorController.atReset_get (d : Door) : ((State.atReset p).doors.door.get d) = DoorRecord.fromPins (p.door.get d) := by
  cases d <;> rfl

/-- Settles O3: each table is read off the two states that the end of reset can come to, the loop closed or open. -/
theorem powerOnResetSetsEveryBlock : Obligations.PowerOnResetSetsEveryBlock := by
  intro p s
  refine ⟨⟨rfl, rfl⟩, s.powerOn p, rfl, State.powerOn_pending s p, State.powerOn_clock s p, ?_⟩
  rw [State.powerOn_eq]
  have doors := DoorController.atReset_get (p := p)
  have hold := State.atReset_hold (p := p)
  obtain ⟨a, b, loop, d⟩ := p
  cases loop with
  | true =>
    exact ⟨rfl, rfl, rfl, rfl, rfl, rfl, rfl, rfl, rfl, rfl, rfl, doors, rfl, rfl, hold, rfl, rfl⟩
  | false =>
    exact ⟨rfl, rfl, rfl, rfl, rfl, rfl, rfl, rfl, rfl, rfl, rfl, doors, rfl, rfl, hold, rfl, rfl⟩

end Sys2Proof.Machine
end

section
/-! PROOFS. Tooth events (O8, O9): the odometry state stays that of the tooth through every notice, since v is settled just after
it; the raisings of R15 and R44; and what the Door Controller makes of the end of standstill (R152). -/

namespace Sys2Proof.Machine

set_option Elab.async false

variable {free : List Block} {r m : List Cause} {s t u : State}

/-! ### Every brake -/

theorem InterventionSet.hasLevel_of_has {i : InterventionSet} {c : Cause} (h : i.has c = true) : i.hasLevel c.level = true := by
  obtain ⟨e, mem, eq⟩ := List.any_eq_true.1 h
  exact List.any_eq_true.2 ⟨e, mem, by rw [eq_of_beq eq]; exact beq_self_eq_true _⟩

/-- A lawful state with an EMERGENCY-level entry in the set has every brake on (R82, R100, R103, R107). -/
theorem State.Sound.fullBrake (h : s.Sound) {c : Cause} (level : c.level = .emergency) (present : s.set.has c = true) :
    s.FullBrake := by
  have emergency : s.set.hasLevel .emergency = true := level ▸ InterventionSet.hasLevel_of_has present
  obtain ⟨-, spring, -, brakes, -⟩ := h.2
  refine ⟨h.1.2.trans emergency, ?_, brakes emergency⟩
  rw [spring, State.springLaw, emergency]
  simp

/-! ### The odometry state behind a tooth -/

/-- Once v has decayed, the step leaves the odometry state and the clock as they are. -/
def KeepsOdometry (s t : State) : Prop := s.Settled → t.odo = s.odo ∧ t.clock = s.clock

theorem KeepsOdometry.refl (s : State) : KeepsOdometry s s := fun _ => ⟨rfl, rfl⟩

theorem KeepsOdometry.trans (f : KeepsOdometry s t) (g : KeepsOdometry t u) : KeepsOdometry s u := fun h => by
  obtain ⟨o, c⟩ := f h
  obtain ⟨o', c'⟩ := g (by rw [State.Settled, o, c]; exact h)
  exact ⟨o'.trans o, c'.trans c⟩

theorem KeepsOdometry.ite {p : Prop} [Decidable p] (f : KeepsOdometry s t) (g : KeepsOdometry s u) :
    KeepsOdometry s (if p then t else u) := by
  split
  · exact f
  · exact g

theorem KeepsOdometry.foldl {α : Type} (f : State → α → State) (l : List α) (h : ∀ s a, KeepsOdometry s (f s a)) (s : State) :
    KeepsOdometry s (l.foldl f s) := by
  induction l generalizing s with
  | nil => exact .refl s
  | cons a l ih => exact (h s a).trans (ih _)

theorem Steady.keepsOdometry (h : Steady s t) : KeepsOdometry s t := fun k => ⟨(h k).1, (h k).2.1⟩

theorem State.evaluate_keepsOdometry (s : State) : KeepsOdometry s s.evaluate := (evaluate_steady s).keepsOdometry

theorem State.raise_keepsOdometry (s : State) (c : Cause) (x : Capture) : KeepsOdometry s (s.raise c x) :=
  (steady_cascade.raiseWith evaluate_steady s c x).keepsOdometry

theorem State.evaluateTooth_keepsOdometry (s : State) : KeepsOdometry s s.evaluateTooth :=
  KeepsOdometry.trans (t := s.withFigures) (fun _ => ⟨rfl, rfl⟩) (steady_cascade.judge _).keepsOdometry

theorem State.dropBehind_odo (s : State) : s.dropBehind.1.odo = s.odo := by
  unfold State.dropBehind
  split
  · rfl
  · dsimp only
    split <;> rfl

theorem State.deriveWanted_odo (s : State) : s.deriveWanted.1.odo = s.odo := by
  unfold State.deriveWanted
  split
  · split <;> rfl
  · split
    · split
      · rfl
      · split <;> rfl
    · rfl

theorem State.recomputeWindow_keepsOdometry (s : State) (b : Bool) : KeepsOdometry s (s.recomputeWindow b) := by
  have derived : KeepsOdometry s s.recount.dropBehind.1.deriveWanted.1 := fun _ =>
    ⟨(State.deriveWanted_odo _).trans (State.dropBehind_odo _),
      (State.deriveWanted_frame (r := []) (m := []) _).clock.trans (State.dropBehind_frame (r := []) (m := []) s.recount).clock⟩
  unfold State.recomputeWindow
  exact KeepsOdometry.ite (derived.trans (State.evaluate_keepsOdometry _)) derived

theorem State.recomputeInsideTooth_keepsOdometry (s : State) : KeepsOdometry s s.recomputeInsideTooth := by
  have flag : KeepsOdometry s s.reflag := fun _ => ⟨rfl, rfl⟩
  have raised := KeepsOdometry.ite (p := (s.auth.inside && !s.reflag.auth.inside) = true)
    (flag.trans (s.reflag.raise_keepsOdometry .authorityOverrun s.reflag.capture)) flag
  unfold State.recomputeInsideTooth
  exact KeepsOdometry.ite (raised.trans (State.evaluate_keepsOdometry _)) raised

theorem State.recompute_keepsOdometry (s : State) : KeepsOdometry s s.recompute :=
  (steady_cascade.combine evaluate_steady s false).keepsOdometry

theorem State.rehold_keepsOdometry (s : State) : KeepsOdometry s s.rehold := by
  have held : KeepsOdometry s (s.withDoors { s.doors with hold := s.doors.anyUnlocked }) := fun _ => ⟨rfl, rfl⟩
  unfold State.rehold
  exact KeepsOdometry.ite held (held.trans (State.recompute_keepsOdometry _))

theorem State.testDoorRelease_keepsOdometry (s : State) : KeepsOdometry s s.testDoorRelease :=
  KeepsOdometry.ite (steady_cascade.removeWith evaluate_steady s .doorUnlockedMoving).keepsOdometry (.refl s)

theorem State.moveDoor_odo (s : State) (d : Door) (x : DoorState) : (s.moveDoor d x).odo = s.odo :=
  (State.moveDoor_still s d x).1

theorem State.stepDoor_keepsOdometry (s : State) (d : Door) (x : DoorState) : KeepsOdometry s (s.stepDoor d x) := by
  have moved : KeepsOdometry s (s.moveDoor d x) := fun _ =>
    ⟨s.moveDoor_odo d x, (State.moveDoor_frame (r := []) (m := []) s d x).clock⟩
  have told := moved.trans
    (steady_cascade.report (s.moveDoor d x) (.doorEvent d x ((s.moveDoor d x).doorAt d).closeFailed) fun _ => rfl).keepsOdometry
  rw [State.stepDoor_eq]
  unfold State.stepDoorHead
  exact (((KeepsOdometry.ite (told.trans (State.raise_keepsOdometry _ _ _)) told).trans (State.evaluate_keepsOdometry _)).trans
    (State.testDoorRelease_keepsOdometry _)).trans (State.rehold_keepsOdometry _)

theorem State.withdrawRelease_keepsOdometry (s : State) : KeepsOdometry s s.withdrawRelease :=
  KeepsOdometry.trans (t := s.withDoors { s.doors with releasedLeft := false, releasedRight := false }) (fun _ => ⟨rfl, rfl⟩)
    (KeepsOdometry.foldl _ _ (fun u d => KeepsOdometry.ite (u.stepDoor_keepsOdometry d .locked) (.refl u)) _)

theorem State.doorsTooth_keepsOdometry (s : State) (b : Bool) : KeepsOdometry s (s.doorsTooth b) := by
  have withdrawn : KeepsOdometry s (if b then s.withdrawRelease else s) :=
    KeepsOdometry.ite s.withdrawRelease_keepsOdometry (.refl s)
  unfold State.doorsTooth
  exact KeepsOdometry.ite (withdrawn.trans (State.raise_keepsOdometry _ _ _)) withdrawn

/-! ### A tooth event in its parts -/

/-- The odometry state of a tooth event, before any notice. -/
def State.toothMoved (s : State) (d : Vertical) : State :=
  s.withOdo (s.odo.tooth d (s.win.slipsAt (movedPosition s.odo.p d)) s.clock)

/-- The tooth with the raising of R15 behind it. -/
def State.toothRaised (s : State) (d : Vertical) : State :=
  if against s.odo.direction d && decide (s.cfg.rollbackLimit ≤ (s.toothMoved d).odo.rollback) then
    (s.toothMoved d).raise .rollback (s.toothMoved d).capture
  else s.toothMoved d

/-- The tooth with the evaluation and the recomputation of the window that its notice brings (R3). -/
def State.toothCounted (s : State) (d : Vertical) : State := (s.toothRaised d).evaluateTooth.recomputeWindow false

theorem State.toothHead_parts (s : State) (d : Vertical) : s.toothHead d = (s.toothCounted d).recomputeInsideTooth := rfl

theorem State.toothMoved_settled (s : State) (d : Vertical) : (s.toothMoved d).Settled := State.settled_now rfl

theorem State.toothMoved_frame (s : State) (d : Vertical) : Frame [.odometry] r m s (s.toothMoved d) := Frame.withOdo _

theorem State.toothRaised_lawful (s : State) (d : Vertical) :
    Lawful [] (.rollback :: overspeeds) [.overspeedService] (s.toothMoved d) (s.toothRaised d) :=
  Lawful.ite (fun _ => State.raise_lawful _ _ _) fun _ => Lawful.refl

theorem State.toothCounted_lawful (s : State) (d : Vertical) :
    Lawful [.window] (.rollback :: overspeeds) [.overspeedService] (s.toothMoved d) (s.toothCounted d) :=
  (((s.toothRaised_lawful d).blocks).trans (State.evaluateTooth_lawful _).mono).trans (State.recomputeWindow_lawful _ false).mono

theorem State.toothCounted_keepsOdometry (s : State) (d : Vertical) : KeepsOdometry (s.toothMoved d) (s.toothCounted d) := by
  have raised : KeepsOdometry (s.toothMoved d) (s.toothRaised d) :=
    KeepsOdometry.ite (State.raise_keepsOdometry _ _ _) (.refl _)
  exact (raised.trans (State.evaluateTooth_keepsOdometry _)).trans (State.recomputeWindow_keepsOdometry _ _)

/-- After a tooth event the odometry state is that of the tooth, whatever its notices bring. -/
theorem State.toothEvent_odo (s : State) (d : Vertical) : (s.toothEvent d).odo = (s.toothMoved d).odo := by
  rw [State.toothEvent_eq, State.toothHead_parts]
  exact ((((s.toothCounted_keepsOdometry d).trans (State.recomputeInsideTooth_keepsOdometry _)).trans
    (State.doorsTooth_keepsOdometry _ _)).trans ((steady_cascade.abandonProof _).keepsOdometry.trans
      (steady_cascade.emptyTried _).keepsOdometry) (s.toothMoved_settled d)).1

/-- The notices behind the raising of R15. -/
theorem State.toothRest_frame (s : State) (d : Vertical) :
    Frame toothBlocks toothCauses doorRemovals (s.toothRaised d) (s.toothEvent d) := by
  have counted := ((State.evaluateTooth_lawful (s.toothRaised d)).mono (free' := headBlocks) (r' := toothCauses)
    (m' := doorRemovals)).trans (State.recomputeWindow_lawful _ false).mono
  have flagged := counted.trans (State.recomputeInsideTooth_lawful _).mono
  rw [State.toothEvent_eq]
  exact (((flagged.frame.mono (by decide) (fun _ h => h) fun _ h => h).trans
    ((State.doorsTooth_lawful _ _).frame.mono (by decide) (by decide) (by decide))).trans
      ((State.abandonProof_frame _).mono (by decide) (fun _ h => h) fun _ h => h)).trans
        ((State.emptyTried_frame _).mono (by decide) (fun _ h => h) fun _ h => h)

/-- The notices behind the inside flag. -/
theorem State.toothDoors_frame (s : State) (d : Vertical) :
    Frame doorBlocks toothCauses doorRemovals (s.toothHead d) (s.toothEvent d) := by
  rw [State.toothEvent_eq]
  exact ((((State.doorsTooth_lawful _ _).frame.mono (by decide) (by decide) (by decide))).trans
      ((State.abandonProof_frame _).mono (by decide) (fun _ h => h) fun _ h => h)).trans
        ((State.emptyTried_frame _).mono (by decide) (fun _ h => h) fun _ h => h)

/-! ### The raisings of a tooth -/

/-- A raising of a cause that is not present leaves its entry in the set (R79, R80). -/
theorem State.raise_entry {c : Cause} (x : Capture) (hc : c ≠ .overspeedService) (absent : s.set.has c = false) :
    s.entryOf c x ∈ (s.raise c x).set.entries := by
  have e := State.evaluate_evaluator
  have n : c ∉ [Cause.overspeedService] := by simpa using hc
  have added : s.entryOf c x ∈ (s.withSet (s.set.append (s.entryOf c x))).set.entries :=
    List.mem_append_right _ List.mem_cons_self
  have told : Frame [] overspeeds [.overspeedService] (s.withSet (s.set.append (s.entryOf c x)))
      (((s.withSet (s.set.append (s.entryOf c x))).report (.raised c x)).reportPosition) :=
    (State.report_frame _ _).trans (State.reportPosition_frame _)
  have noticed := (told.trans (e.frame _)).trans (State.combine_frame e _)
  rw [State.raise, State.raiseWith, if_neg (by simp [absent])]
  split
  · exact (noticed.trans (State.abandonProof_frame _)).kept (by decide) _ added n
  · exact noticed.kept (by decide) _ added n

/-- A cause that no step of the frame raises stays absent. -/
theorem Frame.absent {c : Cause} (f : Frame free r m s t) (h : s.set.has c = false) (hc : c ∉ r := by decide)
    (he : Block.entries ∉ free := by decide) : t.set.has c = false := by
  rw [InterventionSet.has, List.any_eq_false] at *
  intro e mem eq
  rcases f.added he e mem with old | new
  · exact h e old eq
  · exact hc (eq_of_beq eq ▸ new)

theorem State.recomputeInsideTooth_auth (s : State) : s.recomputeInsideTooth.auth = s.reflag.auth := by
  have raised : (if s.auth.inside && !s.reflag.auth.inside then s.reflag.raise .authorityOverrun s.reflag.capture
      else s.reflag).auth = s.reflag.auth := by
    split
    · exact (State.raise_lawful (r := .authorityOverrun :: overspeeds) (m := [.overspeedService]) _ _ _).frame.authority
        (by decide)
    · rfl
  unfold State.recomputeInsideTooth
  dsimp only
  split
  · exact ((State.evaluate_lawful _).frame.authority (by decide)).trans raised
  · exact raised

/-- The flag that turns from true to false raises AUTHORITY_OVERRUN, and an evaluation may follow (R43, R44). -/
theorem State.recomputeInsideTooth_leaves (inside : s.auth.inside = true) (outside : s.reflag.auth.inside = false) :
    Frame [] overspeeds [.overspeedService] (s.reflag.raise .authorityOverrun s.reflag.capture) s.recomputeInsideTooth := by
  have raised : (if s.auth.inside && !s.reflag.auth.inside then s.reflag.raise .authorityOverrun s.reflag.capture else s.reflag)
      = s.reflag.raise .authorityOverrun s.reflag.capture := if_pos (by rw [inside, outside]; rfl)
  unfold State.recomputeInsideTooth
  dsimp only
  rw [raised]
  split
  · exact (State.evaluate_lawful _).frame
  · exact Frame.refl

/-- What O9 says of one of the two causes. -/
def State.Raised (s t : State) (c : Cause) : Prop :=
  t.set.has c = true ∧ t.FullBrake
    ∧ (s.set.has c = false → ∃ e ∈ t.set.entries, e.cause = c ∧ e.capture.position = t.odo.p ∧ e.capture.speed = t.odo.v
        ∧ e.time = s.partTime)

/-- A raising inside a step whose further notices leave v and the cause. -/
theorem State.Raised.of_raise {before : State} {c : Cause} {free' : List Block} {r' m' : List Cause} (f : Frame free r m s before)
    (g : Frame free' r' m' (before.raise c before.capture) t) (sound : t.Sound) (level : c.level = .emergency)
    (odo : t.odo = before.odo) (hr : c ∉ r := by decide) (hm : c ∉ m' := by decide) (he : Block.entries ∉ free := by decide)
    (he' : Block.entries ∉ free' := by decide) : s.Raised t c := by
  have hc : c ≠ .overspeedService := fun e => absurd (e ▸ level) (by decide)
  have present := g.has_kept hm (State.raise_has before c before.capture hc) he'
  refine ⟨present, sound.fullBrake level present, fun absent => ?_⟩
  refine ⟨before.entryOf c before.capture, g.kept he' _ (State.raise_entry _ hc (f.absent absent hr he)) hm, rfl, ?_, ?_, ?_⟩
  · rw [odo]; rfl
  · rw [odo]; rfl
  · show before.partTime = s.partTime
    rw [State.partTime, State.partTime, f.clock]

theorem State.toothEvent_rollback (sound : s.Sound) {d : Vertical} (way : s.odo.direction.travel ≠ some d)
    (full : s.cfg.rollbackLimit ≤ min 255 (s.odo.rollback + 1)) : s.Raised (s.toothEvent d) .rollback := by
  have turned : against s.odo.direction d = true := by simpa [against] using way
  have tally : (s.toothMoved d).odo.rollback = min 255 (s.odo.rollback + 1) := if_pos turned
  have raised : s.toothRaised d = (s.toothMoved d).raise .rollback (s.toothMoved d).capture :=
    if_pos (by rw [turned, tally]; simpa using full)
  have rest := s.toothRest_frame d
  rw [raised] at rest
  exact .of_raise (s.toothMoved_frame (r := []) (m := []) d) rest ((s.toothEvent_lawful d).sound sound) rfl (s.toothEvent_odo d)

theorem State.toothEvent_inside (s : State) (d : Vertical) :
    (s.toothEvent d).auth.inside = (s.toothCounted d).reflag.auth.inside := by
  rw [(s.toothDoors_frame d).authority (by decide), State.toothHead_parts, State.recomputeInsideTooth_auth]

theorem State.toothEvent_overrun (sound : s.Sound) {d : Vertical} (inside : s.auth.inside = true)
    (outside : (s.toothEvent d).auth.inside = false) : s.Raised (s.toothEvent d) .authorityOverrun := by
  have counted : Frame headBlocks (.rollback :: overspeeds) [.overspeedService] s (s.toothCounted d).reflag :=
    (((s.toothMoved_frame d).mono (by decide) (fun _ h => h) fun _ h => h).trans (s.toothCounted_lawful d).blocks.frame).trans
      ((State.reflag_lawful _).blocks.frame)
  have was : (s.toothCounted d).auth.inside = true := by rw [(s.toothCounted_lawful d).frame.authority (by decide)]; exact inside
  have leaves := State.recomputeInsideTooth_leaves was ((s.toothEvent_inside d).symm.trans outside)
  rw [← State.toothHead_parts] at leaves
  have odo : (s.toothEvent d).odo = (s.toothCounted d).reflag.odo :=
    (s.toothEvent_odo d).trans (s.toothCounted_keepsOdometry d (s.toothMoved_settled d)).1.symm
  exact .of_raise counted ((leaves.mono (free' := doorBlocks) (raised' := toothCauses) (removed' := doorRemovals) (by decide)
    (by decide) (by decide)).trans (s.toothDoors_frame d)) ((s.toothEvent_lawful d).sound sound) rfl odo

/-! ### The phase pair that completes a tooth -/

/-- The new levels of the phase pair (R1). -/
def State.withPhases (s : State) (a b : Bool) : State := s.withOdo { s.odo with phaseA := a, phaseB := b }

theorem State.withPhases_sound (h : s.Sound) (a b : Bool) : (s.withPhases a b).Sound :=
  (State.withOdo_lawful (r := []) (m := []) s { s.odo with phaseA := a, phaseB := b } (fun h => h.odometry) rfl rfl
    (.inl rfl)).sound h

/-- The fourth quarter step of a direction is a tooth event (R1). -/
theorem State.CompletesTooth.phaseChange {a b : Bool} {d : Vertical} (h : s.CompletesTooth a b d) :
    s.phaseChange a b = (s.withPhases a b).toothEvent d := by
  have old := phasePosition_lt s.odo.phaseA s.odo.phaseB
  unfold State.phaseChange
  cases d with
  | up =>
    obtain ⟨pair, count⟩ := h
    rw [pair, phaseStep_up _ old]
    exact if_pos (by simp only [State.withOdo_odo]; omega)
  | down =>
    obtain ⟨pair, count⟩ := h
    rw [pair, phaseStep_down _ old]
    exact if_pos (by simp only [State.withOdo_odo]; omega)

/-- Settles O9. -/
theorem teethRaiseRollbackAndOverrun : Obligations.TeethRaiseRollbackAndOverrun := by
  intro s a b d sound completes
  refine ⟨_, congrArg Host.Outcome.next completes.phaseChange, fun way full => ?_, fun inside outside => ?_⟩
  · exact State.toothEvent_rollback (State.withPhases_sound sound a b) way full
  · exact State.toothEvent_overrun (State.withPhases_sound sound a b) inside outside

end Sys2Proof.Machine
end

section
/-! PROOFS. Tooth events (O8): the doors at the end of standstill (R152), and the whole of a tooth. -/

namespace Sys2Proof.Machine

set_option Elab.async false

variable {free : List Block} {r m : List Cause} {s t u : State}

/-! ### The release is withdrawn -/

/-- A RELEASED door is locked (R152). -/
def State.lockReleased (s : State) (d : Door) : State := if (s.doorAt d).state = .released then s.stepDoor d .locked else s

theorem State.withdrawRelease_eq (s : State) :
    s.withdrawRelease
      = allDoors.foldl State.lockReleased (s.withDoors { s.doors with releasedLeft := false, releasedRight := false }) := rfl

/-- A door's record once a release has been withdrawn. -/
def DoorRecord.withdrawn (x : DoorRecord) : DoorRecord :=
  if x.state = .released then { x with state := .locked, motion := none } else x

theorem DoorRecord.withdrawn_withdrawn (x : DoorRecord) : x.withdrawn.withdrawn = x.withdrawn := by
  unfold DoorRecord.withdrawn
  split <;> simp_all

theorem State.lockReleased_doorAt (s : State) (d e : Door) :
    (s.lockReleased d).doorAt e = if e = d then (s.doorAt d).withdrawn else s.doorAt e := by
  unfold State.lockReleased DoorRecord.withdrawn
  by_cases same : e = d
  · subst same
    split
    · rw [State.stepDoor_rest s e .locked rfl, if_pos rfl]
    · rw [if_pos rfl]
  · rw [if_neg same]
    split
    · rw [State.stepDoor_doorAt, State.moveDoor_other s d e _ same]
    · rfl

theorem State.lockReleased_motor (s : State) (d : Door) : (s.lockReleased d).drive.motor = s.drive.motor := by
  unfold State.lockReleased
  split
  · rename_i released
    exact State.stepDoor_keepsMotors s d .locked rfl (by rw [released]; rfl)
  · rfl

/-- A step for each door of a list, that changes the record of its own door alone and once and for all, changes the records of
these doors. -/
theorem foldl_doorAt {f : State → Door → State} {g : DoorRecord → DoorRecord}
    (own : ∀ s d e, (f s d).doorAt e = if e = d then g (s.doorAt d) else s.doorAt e) (once : ∀ x, g (g x) = g x) (l : List Door)
    (s : State) (e : Door) : (l.foldl f s).doorAt e = if e ∈ l then g (s.doorAt e) else s.doorAt e := by
  induction l generalizing s with
  | nil => rfl
  | cons d l ih =>
    refine (ih (f s d)).trans ?_
    rw [own]
    by_cases same : e = d
    · subst same
      simp [once]
    · simp [same]

theorem State.lockReleased_motors (l : List Door) (s : State) : (l.foldl State.lockReleased s).drive.motor = s.drive.motor := by
  induction l generalizing s with
  | nil => rfl
  | cons d l ih => exact (ih _).trans (s.lockReleased_motor d)

theorem mem_allDoors (d : Door) : d ∈ allDoors := by cases d <;> decide

theorem State.withdrawRelease_doors (s : State) :
    s.withdrawRelease.drive.motor = s.drive.motor ∧ ∀ e, s.withdrawRelease.doorAt e = (s.doorAt e).withdrawn := by
  rw [State.withdrawRelease_eq]
  refine ⟨State.lockReleased_motors _ _, fun e => ?_⟩
  rw [foldl_doorAt State.lockReleased_doorAt DoorRecord.withdrawn_withdrawn, if_pos (mem_allDoors e)]
  rfl

/-! ### The Door Controller's part of a tooth -/

/-- The doors and the motors after the Door Controller's part: a raising touches neither. -/
theorem State.doorsTooth_doors (s : State) (b : Bool) :
    (s.doorsTooth b).doors = (if b then s.withdrawRelease else s).doors ∧ (s.doorsTooth b).drive.motor = s.drive.motor := by
  have motors : (if b then s.withdrawRelease else s).drive.motor = s.drive.motor := by
    split
    · exact s.withdrawRelease_doors.1
    · rfl
  unfold State.doorsTooth
  dsimp only
  generalize (if b = true then s.withdrawRelease else s) = u at *
  split
  · have f := (State.raiseDoorMoving_lawful u).frame
    exact ⟨f.doors (by decide), (f.motors (by decide)).trans motors⟩
  · exact ⟨rfl, motors⟩

theorem State.doorsTooth_has (s : State) (b : Bool) {d : Door} (ajar : ((s.doorsTooth b).doorAt d).state.ajar = true) :
    (s.doorsTooth b).set.has .doorUnlockedMoving = true := by
  have found : allDoors.any (fun d => ((if b then s.withdrawRelease else s).doorAt d).state.ajar) = true := by
    rw [State.doorAt, (s.doorsTooth_doors b).1] at ajar
    exact List.any_eq_true.2 ⟨d, mem_allDoors d, ajar⟩
  rw [State.doorsTooth, if_pos found]
  exact State.raise_has _ _ _ (by decide)

/-! ### A tooth event as a whole -/

/-- A frame lets the motors go where they are seen to stay. -/
theorem Frame.withoutMotors (f : Frame (.motors :: free) r m s t) (h : t.drive.motor = s.drive.motor) : Frame free r m s t := by
  have out : ∀ {b}, b ∉ free → b ≠ .motors → b ∉ Block.motors :: free := fun h n k => (List.mem_cons.1 k).elim n h
  exact {
    clock := f.clock
    pending := f.pending
    odometry := fun k => f.odometry (out k (by decide))
    slower := fun k => f.slower (out k (by decide))
    still := fun k => f.still (out k (by decide))
    window := fun k => f.window (out k (by decide))
    authority := fun k => f.authority (out k (by decide))
    evaluationTimer := fun k => f.evaluationTimer (out k (by decide))
    loop := fun k => f.loop (out k (by decide))
    driver := fun k => f.driver (out k (by decide))
    park := fun k => f.park (out k (by decide))
    motors := fun _ => h
    scan := fun k => f.scan (out k (by decide))
    settling := fun k => f.settling (out k (by decide))
    owed := fun k => f.owed (out k (by decide))
    health := fun k => f.health (out k (by decide))
    capability := fun k => f.capability (out k (by decide))
    proofTimer := fun k => f.proofTimer (out k (by decide))
    doors := fun k => f.doors (out k (by decide))
    radio := fun k => f.radio (out k (by decide))
    records := fun k => f.records (out k (by decide))
    listening := fun k j => f.listening (out k (by decide)) (out j (by decide))
    opState := fun k => f.opState (out k (by decide))
    cabTimer := fun k j => f.cabTimer (out k (by decide)) (out j (by decide))
    settings := fun k => f.settings (out k (by decide))
    cabPort := fun k => f.cabPort (out k (by decide))
    crewPort := fun k => f.crewPort (out k (by decide))
    kept := fun k => f.kept (out k (by decide))
    added := fun k => f.added (out k (by decide)) }

/-- What follows the Door Controller's part: the proof in progress ends (R123, R128). -/
theorem State.proofEnds_frame (s : State) : Frame [] r m s s.abandonProof.emptyTried :=
  (State.abandonProof_frame s).trans (State.emptyTried_frame _)

theorem State.toothEvent_doors (s : State) (d : Vertical) :
    (s.toothEvent d).doors = ((s.toothHead d).doorsTooth s.odo.standstill).doors
      ∧ (s.toothEvent d).drive.motor = s.drive.motor := by
  have f := State.proofEnds_frame (r := []) (m := []) ((s.toothHead d).doorsTooth s.odo.standstill)
  refine ⟨f.doors (by decide), (f.motors (by decide)).trans ?_⟩
  exact (State.doorsTooth_doors _ _).2.trans ((s.toothHead_lawful d).frame.motors (by decide))

/-- R152 at a tooth: a car that moved already keeps its doors; one that stood has the release withdrawn. -/
theorem State.toothEvent_doors_moving (d : Vertical) (h : s.odo.standstill = false) : (s.toothEvent d).doors = s.doors := by
  rw [(s.toothEvent_doors d).1, (State.doorsTooth_doors _ _).1, h]
  exact (s.toothHead_lawful d).frame.doors (by decide)

theorem State.toothEvent_doors_standing (d : Vertical) (h : s.odo.standstill = true) :
    (s.toothEvent d).doors.releasedLeft = false ∧ (s.toothEvent d).doors.releasedRight = false
      ∧ ∀ e, (s.toothEvent d).doorAt e = (s.doorAt e).withdrawn := by
  have doors : (s.toothEvent d).doors = (s.toothHead d).withdrawRelease.doors := by
    rw [(s.toothEvent_doors d).1, (State.doorsTooth_doors _ _).1, h]
    rfl
  have before : (s.toothHead d).doors = s.doors := (s.toothHead_lawful d).frame.doors (by decide)
  obtain ⟨left, right, -⟩ := (s.toothHead d).withdrawRelease_sides
  refine ⟨by rw [doors, left], by rw [doors, right], fun e => ?_⟩
  have at_e := (s.toothHead d).withdrawRelease_doors.2 e
  unfold State.doorAt at *
  rw [doors, at_e, before]

theorem State.toothEvent_counted (s : State) (d : Vertical) : (s.toothEvent d).Counted := by
  rw [State.toothEvent_eq, State.toothHead_parts]
  refine Placed.counted (((State.recomputeInsideTooth_lawful _).placed.trans (State.doorsTooth_lawful _ _).placed).trans
    (State.proofEnds_frame (r := []) (m := []) _).placed) (State.recomputeWindow_counted _ _)

theorem State.toothEvent_flagged (s : State) (d : Vertical) : (s.toothEvent d).Flagged :=
  (s.toothDoors_frame d).flagged (State.recomputeInsideTooth_flagged _)

theorem State.toothEvent_has (s : State) {d : Vertical} {e : Door} (ajar : ((s.toothEvent d).doorAt e).state.ajar = true) :
    (s.toothEvent d).set.has .doorUnlockedMoving = true := by
  have f := State.proofEnds_frame (r := []) (m := []) ((s.toothHead d).doorsTooth s.odo.standstill)
  refine f.has_kept (by decide) (State.doorsTooth_has _ _ (d := e) ?_)
  rw [State.doorAt, (s.toothEvent_doors d).1] at ajar
  exact ajar

theorem State.toothEvent_frame (s : State) (d : Vertical) :
    Frame [.odometry, .window, .authority, .doors] toothCauses doorRemovals s (s.toothEvent d) :=
  ((s.toothEvent_lawful d).frame.mono (by decide) (fun _ h => h) fun _ h => h).withoutMotors (s.toothEvent_doors d).2

/-! ### The odometry state of a tooth -/

/-- The slip tally and u after a tooth (R5). -/
theorem slipAfter_cases (slips : Bool) (slip u : Nat) :
    (slips = true ∧ 31 ≤ slip → (slipAfter slips slip u).1 = 0 ∧ (slipAfter slips slip u).2 = min 255 (u + 1))
      ∧ (slips = true ∧ slip < 31 → (slipAfter slips slip u).1 = slip + 1 ∧ (slipAfter slips slip u).2 = u)
      ∧ (slips = false → (slipAfter slips slip u).1 = slip ∧ (slipAfter slips slip u).2 = u) := by
  have teeth : Config.slipTeeth = 32 := rfl
  unfold slipAfter grown
  refine ⟨fun ⟨on, full⟩ => ?_, fun ⟨on, room⟩ => ?_, fun off => ?_⟩
  · rw [if_pos on, if_pos (by omega)]
    exact ⟨rfl, rfl⟩
  · rw [if_pos on, if_neg (by omega)]
    exact ⟨rfl, rfl⟩
  · rw [if_neg (by simp [off])]
    exact ⟨rfl, rfl⟩

/-- v and the interval where standstill ends or the direction changes (R10, log 21). -/
theorem Odometry.measured_anew {o : Odometry} {d : Vertical} (h : o.standstill = true ∨ o.lastDir ≠ some d) (now : Nat) :
    o.measured d now = (50, 2000000) :=
  if_pos (by rcases h with h | h <;> simp [h])

theorem Odometry.measured_since {o : Odometry} {d : Vertical} (moving : o.standstill = false) (same : o.lastDir = some d)
    {last : Nat} (tooth : o.lastToothAt = some last) (now : Nat) :
    o.measured d now
      = (min 20000 (100000000 / max 1 (min 4194303 (now - last))), max 1 (min 4194303 (now - last))) := by
  have since : o.interval now = max 1 (min 4194303 (now - last)) := by
    rw [Odometry.interval, tooth]
    rfl
  rw [Odometry.measured, if_neg (by simp [moving, same]), since]
  rfl

theorem rollbackAfter_with {x : Direction} {d : Vertical} (h : x.travel = some d) (n : Nat) : rollbackAfter x d n = n - 1 :=
  if_neg (by simp [against, h])

theorem rollbackAfter_against {x : Direction} {d : Vertical} (h : x.travel ≠ some d) (n : Nat) :
    rollbackAfter x d n = min 255 (n + 1) := if_pos (by simpa [against] using h)

/-- Settles O8. -/
theorem toothEventsMoveTheCar : Obligations.ToothEventsMoveTheCar := by
  intro s a b d completes
  have odo := (s.withPhases a b).toothEvent_odo d
  have frame := ((Frame.withOdo (s := s) _).mono (by decide) (fun _ h => h) fun _ h => h).trans
    (State.toothEvent_frame (s.withPhases a b) d)
  have counted := (s.withPhases a b).toothEvent_counted d
  have flagged := (s.withPhases a b).toothEvent_flagged d
  have moving : s.odo.standstill = false → _ := (s.withPhases a b).toothEvent_doors_moving d
  have standing : s.odo.standstill = true → _ := (s.withPhases a b).toothEvent_doors_standing d
  have unlocked := fun e => (s.withPhases a b).toothEvent_has (d := d) (e := e)
  have ended : ((s.withPhases a b).toothEvent d).prov.proof = none := State.abandonProof_none _
  have emptied : ((s.withPhases a b).toothEvent d).prov.tried = [] := rfl
  refine ⟨_, congrArg Host.Outcome.next completes.phaseChange, ?_⟩
  generalize (s.withPhases a b).toothEvent d = t at *
  rw [odo]
  refine ⟨rfl, ?_, slipAfter_cases _ _ _, fun anew => ?_, fun moves same last tooth => ?_, fun way => rollbackAfter_with way _,
    fun way => rollbackAfter_against way _, counted, flagged, moving, standing, fun e ajar => unlocked e ?_,
    ended, emptied, frame⟩
  · cases d <;> rfl
  · have measured := Odometry.measured_anew anew s.clock
    exact ⟨congrArg Prod.fst measured, congrArg (some ∘ Prod.snd) measured⟩
  · have measured := Odometry.measured_since moves same tooth s.clock
    exact ⟨congrArg Prod.fst measured, congrArg (some ∘ Prod.snd) measured⟩
  · generalize (t.doorAt e).state = x at ajar ⊢
    cases x <;> simp_all [DoorState.ajar]

end Sys2Proof.Machine
end

section
/-! PROOFS. The evaluation timer (O23): what an evaluation leaves of v, the figures, the overspeed causes, the state and the
permit. -/

namespace Sys2Proof.Machine

set_option Elab.async false

variable {free : List Block} {r m : List Cause} {s t u : State}

/-! ### v, the causes and the state -/

/-- v stays where the decay has no tooth or interval to go by (R11). -/
theorem Odometry.decayedSpeed_kept {o : Odometry} (h : o.standstill = true ∨ o.lastToothAt = none ∨ o.lastInterval = none)
    (now : Nat) : o.decayedSpeed now = o.v := by
  unfold Odometry.decayedSpeed
  rcases h with h | h | h
  · rw [if_pos h]
  · rw [h]; split <;> rfl
  · rw [h]; split
    · rfl
    · split <;> simp_all

theorem Odometry.decayedSpeed_since {o : Odometry} {tooth interval : Nat} (moving : o.standstill = false)
    (last : o.lastToothAt = some tooth) (h : o.lastInterval = some interval) (now : Nat) :
    o.decayedSpeed now
      = if interval < min (now - tooth) 4194303 then min o.v (100000000 / min (now - tooth) 4194303) else o.v := by
  unfold Odometry.decayedSpeed
  rw [moving, last, h]
  rfl

/-- v above I_s leaves OVERSPEED_SERVICE in the set, unless the car stands (R70, R71). -/
theorem State.evaluate_overService (moving : s.evaluate.odo.standstill = false)
    (h : s.evaluate.sup.permitted + s.evaluate.sup.permitted / 16 + 150 < s.evaluate.odo.v) :
    s.evaluate.set.has .overspeedService = true := by
  have above : ¬s.evaluate.odo.v ≤ s.evaluate.sup.permitted - s.evaluate.sup.permitted / 16 := by omega
  have fast : serviceMargin s.evaluate.sup.permitted < s.evaluate.odo.v := h
  rw [State.evaluate_has]
  simp [above, fast, moving]

/-- v above I_e leaves OVERSPEED_EMERGENCY in the set (R70). -/
theorem State.evaluate_overEmergency (h : s.evaluate.sup.permitted + s.evaluate.sup.permitted / 8 + 400 < s.evaluate.odo.v) :
    s.evaluate.set.has .overspeedEmergency = true := by
  have fast : emergencyMargin s.evaluate.sup.permitted < s.evaluate.odo.v := h
  rw [State.evaluate_has]
  simp [fast]

/-- v well under P, or at 0 with the car at standstill, leaves no OVERSPEED_SERVICE (R71). -/
theorem State.evaluate_underService (h : s.evaluate.odo.v + s.evaluate.sup.permitted / 16 ≤ s.evaluate.sup.permitted
      ∨ s.evaluate.odo.standstill = true ∧ s.evaluate.odo.v = 0) :
    s.evaluate.set.has .overspeedService = false := by
  have under : ¬serviceMargin s.evaluate.sup.permitted < s.evaluate.odo.v := by
    unfold serviceMargin
    omega
  have released : (decide (s.evaluate.odo.v ≤ s.evaluate.sup.permitted - s.evaluate.sup.permitted / 16)
      || s.evaluate.odo.standstill) = true := by
    rcases h with h | h
    · rw [decide_eq_true (by omega), Bool.true_or]
    · rw [h.1, Bool.or_true]
  rw [State.evaluate_has, released]
  simp [under]

/-! ### The permit -/

theorem DoorState.unlocked_iff {x : DoorState} : x.unlocked = false ↔ x = .locked ∨ x = .isolated := by cases x <;> decide

theorem State.anyUnlocked_iff :
    s.doors.anyUnlocked = false ↔ ∀ d, (s.doorAt d).state = .locked ∨ (s.doorAt d).state = .isolated := by
  rw [DoorController.anyUnlocked, List.any_eq_false]
  simp only [Bool.not_eq_true, DoorState.unlocked_iff]
  exact ⟨fun h d => h d (mem_allDoors d), fun h d _ => h d⟩

theorem State.permitHolds_iff {x : Supervision} :
    s.permitHolds x = true ↔ s.line.opState = .run ∧ s.odo.located = true ∧ s.odo.direction ≠ .neutral ∧ s.set.entries = []
      ∧ (∀ d, (s.doorAt d).state = .locked ∨ (s.doorAt d).state = .isolated) ∧ s.comb.springApplied = false
      ∧ x ≠ .intervening := by
  rw [← State.anyUnlocked_iff]
  simp [State.permitHolds, and_assoc]

/-! ### The expiry -/

/-- The state of an evaluation timer that has just restarted. -/
def State.retimed (s : State) : State := s.withSup { s.sup with timer := some (s.after Config.evaluationTime) }

theorem State.evaluationExpiry_expires (h : s.sup.timer.Elapsing s.clock 100000) : s.evaluationExpiry = s.retimed.evaluate :=
  if_pos (Timer.Elapsing.expires h)

/-- Settles O23. -/
theorem evaluationsFollowTheLine : Obligations.EvaluationsFollowTheLine := by
  intro s
  refine ⟨fun rests => congrArg Host.Outcome.next (if_neg (Bool.eq_false_iff.1 (Timer.Resting.stays rests))),
    fun sound elapses => ?_⟩
  have made := State.evaluationExpiry_expires elapses
  have odo : s.retimed.evaluate.odo = { s.odo with v := s.odo.decayedSpeed s.clock } := State.evaluate_odo _
  have safe : s.retimed.evaluate.Sound := made ▸ s.evaluationExpiry_lawful.sound sound
  have rest : s.retimed.evaluate.odo.standstill = true → s.retimed.evaluate.odo.v = 0 := safe.timers.2.1
  refine ⟨_, congrArg Host.Outcome.next made, (State.evaluate_lawful _).frame.evaluationTimer (by decide), State.evaluate_fresh _,
    fun still => ?_, fun tooth interval moving last h => ?_, fun fast => ?_, fun fast => ?_, fun under => ?_, ?_, ?_, ?_⟩
  · rw [odo, Odometry.decayedSpeed_kept still]
  · rw [odo, Odometry.decayedSpeed_since moving last h]
  · refine State.evaluate_overService ?_ fast
    by_contra stands
    have := rest (by simpa using stands)
    omega
  · have present := State.evaluate_overEmergency fast
    exact ⟨present, safe.fullBrake rfl present⟩
  · exact State.evaluate_underService (under.imp_right fun stands => ⟨stands, rest stands⟩)
  · exact State.judge_judged _
  · rw [safe.permit]
    exact State.permitHolds_iff
  · exact made ▸ s.evaluationExpiry_lawful.frame

end Sys2Proof.Machine
end

section
/-! PROOFS. What a cascade keeps of the set and of the report queue: a property that reads whether the car stands, v, the set, the
Radio Unit and the clock alone, and that new records and an evaluation keep, is kept by the notices of every operation
(`Persists`). -/

namespace Sys2Proof.Machine

set_option Elab.async false

variable {free : List Block} {r m : List Cause} {s t u : State} {P : State → Prop} {ev : State → State}

/-! ### What stays beside the notices -/

/-- Whether the car stands, v, the set, the Radio Unit and the clock stay. -/
structure Beside (s t : State) : Prop where
  standstill : t.odo.standstill = s.odo.standstill := by rfl
  speed : t.odo.v = s.odo.v := by rfl
  set : t.set = s.set := by rfl
  radio : t.radio = s.radio := by rfl
  clock : t.clock = s.clock := by rfl

theorem Beside.refl (s : State) : Beside s s := {}

theorem Beside.trans (f : Beside s t) (g : Beside t u) : Beside s u :=
  ⟨g.standstill.trans f.standstill, g.speed.trans f.speed, g.set.trans f.set, g.radio.trans f.radio, g.clock.trans f.clock⟩

theorem State.recombine_beside (s : State) (b : Bool) : Beside s (s.recombine b) := {}

theorem State.setOpState_beside (s : State) (x : OpState) : Beside s (s.setOpState x) := {}

theorem State.emptyTried_beside (s : State) : Beside s s.emptyTried := {}

theorem State.testProof_beside (s : State) : Beside s s.testProof := by
  unfold State.testProof
  split
  · split <;> exact {}
  · exact {}

theorem State.abandonProof_beside (s : State) : Beside s s.abandonProof := by
  unfold State.abandonProof
  split <;> exact {}

/-- The property reads no more than that, and records that join the queue leave it. -/
structure Reads (P : State → Prop) : Prop where
  beside : ∀ {s t}, Beside s t → P s → P t
  report : ∀ {s} b, P s → P (s.report b)
  reportPosition : ∀ {s}, P s → P s.reportPosition

namespace Reads

theorem springNotice (k : Reads P) (e : ∀ s, P s → P (ev s)) (h : P s) (a : Bool) : P (s.springNotice ev a) := by
  have judged := e s h
  unfold State.springNotice
  dsimp only
  cases a with
  | false => exact k.beside ((State.abandonProof_beside _).trans (State.emptyTried_beside _)) judged
  | true =>
    have tested := k.beside (State.testProof_beside _) judged
    rw [if_pos rfl]
    split
    · exact k.beside (State.recombine_beside _ _) (e _ (k.beside (State.setOpState_beside _ _) tested))
    · exact tested

theorem combine (k : Reads P) (e : ∀ s, P s → P (ev s)) (h : P s) (b : Bool) : P (s.combine ev b) := by
  have combined := k.beside (s.recombine_beside b) h
  unfold State.combine
  dsimp only
  split
  · exact combined
  · exact k.springNotice e combined _

/-- A raising, where the property outlives the entry that joins. -/
theorem raiseWith (k : Reads P) (e : ∀ s, P s → P (ev s)) {c : Cause} {x : Capture} (present : s.set.has c = true → P s)
    (joins : s.set.has c = false → P (s.withSet (s.set.append (s.entryOf c x)))) : P (s.raiseWith ev c x) := by
  rw [State.raiseWith]
  split
  · exact present ‹_›
  · rename_i absent
    have noticed := k.combine e (e _ (k.reportPosition (k.report (.raised c x) (joins (by simpa using absent))))) false
    dsimp only
    split
    · exact k.beside (State.abandonProof_beside _) noticed
    · exact noticed

/-- A removal, where the property outlives the entry that leaves. -/
theorem removeWith (k : Reads P) (e : ∀ s, P s → P (ev s)) (h : P s) {c : Cause}
    (leaves : s.set.has c = true → P (s.withSet (s.set.erase c))) : P (s.removeWith ev c) := by
  rw [State.removeWith]
  split
  · exact k.beside (State.testProof_beside _) (k.combine e (e _ (k.report (.cleared c) (leaves ‹_›))) false)
  · exact h

/-- An evaluation keeps a property that does not read v and that the overspeed entries leave. -/
theorem evaluate (k : Reads P) (figures : ∀ s b, P s → P (s.decayed.withFigures.withSupervision b))
    (joins : ∀ s c x, c ∈ overspeeds → P s → P (s.withSet (s.set.append (s.entryOf c x))))
    (leaves : ∀ s, P s → P (s.withSet (s.set.erase .overspeedService))) (h : P s) : P s.evaluate :=
  have quiet : ∀ s, P s → P s.evaluateQuiet := fun s h => figures s _ h
  State.judge_keeps P (fun b => figures s b h)
    (fun u _ hc h => k.raiseWith quiet (fun _ => h) fun _ => joins u _ _ hc h)
    fun u h => k.removeWith quiet h fun _ => leaves u h

end Reads

/-- The property outlives an evaluation, too. -/
structure Persists (P : State → Prop) : Prop extends Reads P where
  evaluate : ∀ {s}, P s → P s.evaluate

namespace Persists

theorem recompute (k : Persists P) (h : P s) : P s.recompute := k.toReads.combine (fun _ => k.evaluate) h false

theorem changeOpState (k : Persists P) (h : P s) (x : OpState) : P (s.changeOpState x) :=
  k.toReads.combine (fun _ => k.evaluate) (k.evaluate (k.beside (s.setOpState_beside x) h)) _

theorem testQuiesced (k : Persists P) (h : P s) : P s.testQuiesced := by
  unfold State.testQuiesced
  split
  · exact k.changeOpState h _
  · exact h

theorem testDoorRelease (k : Persists P) (h : P s)
    (leaves : s.set.has .doorUnlockedMoving = true → P (s.withSet (s.set.erase .doorUnlockedMoving))) : P s.testDoorRelease := by
  unfold State.testDoorRelease
  split
  · exact k.toReads.removeWith (fun _ => k.evaluate) h leaves
  · exact h

theorem rehold (k : Persists P) (h : P s) : P s.rehold := by
  have held : P (s.withDoors { s.doors with hold := s.doors.anyUnlocked }) := k.beside {} h
  unfold State.rehold
  dsimp only
  split
  · exact held
  · exact k.recompute held

end Persists

/-! ### At rest -/

/-- The car stands, and v is 0 with it (R12). -/
def State.AtRest (s : State) : Prop := s.odo.standstill = true ∧ s.odo.v = 0

theorem State.AtRest.of_frame (f : Frame free r m s t) (h : s.AtRest) (ho : Block.odometry ∉ free := by decide) : t.AtRest :=
  ⟨(f.standstill ho).trans h.1, (f.still ho h.1).trans h.2⟩

theorem State.AtRest.beside (f : Beside s t) (h : s.AtRest) : t.AtRest := ⟨f.standstill.trans h.1, f.speed.trans h.2⟩

theorem State.AtRest.figures (h : s.AtRest) (b : Bool) : (s.decayed.withFigures.withSupervision b).AtRest :=
  ⟨h.1, (Odometry.decayedSpeed_still h.1 _).trans h.2⟩

/-- A property of the car at rest and its set, which records do not touch. -/
theorem Reads.atRest (Q : InterventionSet → Prop) : Reads fun s => s.AtRest ∧ Q s.set where
  beside := fun f h => ⟨h.1.beside f, f.set ▸ h.2⟩
  report := fun {s} b h => by
    unfold State.report
    split <;> exact h
  reportPosition := fun {s} h => by
    unfold State.reportPosition
    split <;> exact h

/-- At rest the supervisor raises nothing, and OVERSPEED_SERVICE stays out of the set (R70, R71). -/
theorem unhurried_persists : Persists fun s => s.AtRest ∧ s.set.has .overspeedService = false where
  toReads := Reads.atRest fun i => i.has .overspeedService = false
  evaluate := fun {s} h => by
    have rest := h.1.of_frame (State.evaluate_lawful s).frame
    exact ⟨rest, State.evaluate_underService (.inr rest)⟩

end Sys2Proof.Machine
end

section
/-! PROOFS. The entry into standstill (O12): the overspeed entry and DOOR_UNLOCKED_MOVING leave the set, QUIESCING ends, and the
proof that R124 asks for has begun and is left alone by the notices behind it. -/

namespace Sys2Proof.Machine

set_option Elab.async false

variable {free : List Block} {r m : List Cause} {s t u : State}

/-! ### The proof that R124 asks for -/

theorem Proving.next_eq (x : Proving) : x.next = firstOwing x.owed x.tried := by
  have same : (fun c => decide (1 ≤ x.owed.get c) && !x.tried.contains c) = fun c => decide (1 ≤ x.owed.get c ∧ c ∉ x.tried) := by
    funext c
    simp
  rw [Proving.next, same]
  rfl

/-- A channel settled in this moment stays so through a recomputation (R113). -/
theorem State.recombine_settled {c : Channel} (b : Bool)
    (h : s.comb.feedback.get c = { lastChange := s.clock, deviationStart := none }) :
    (s.recombine b).comb.feedback.get c = { lastChange := s.clock, deviationStart := none } :=
  (s.recombine_settling b c).elim id fun kept => kept.2.trans h

theorem State.beginProof_settled (s : State) (c : Channel) :
    (s.beginProof c).comb.feedback.get c = { lastChange := s.clock, deviationStart := none } :=
  State.recombine_settled false (PerChannel.get_put_same _ _ _)

/-- Where the conditions of R123 hold, the test for a proof begins the one that R124 asks for, or none is owed. -/
theorem State.testProof_round (h : s.canProve = true) (dwell : s.prov.dwell = none) :
    s.testProof.Round s.prov.owed s.prov.tried := by
  rw [State.Round, State.testProof, if_pos h, ← Proving.next_eq]
  cases s.prov.next with
  | none => exact ⟨(State.canProve_iff.1 h).2.2.2, dwell, rfl⟩
  | some c => exact ⟨rfl, rfl, rfl, s.beginProof_settled c⟩

/-- A second test finds the proof in progress, or no channel to take. -/
theorem State.testProof_testProof (s : State) : s.testProof.testProof = s.testProof := by
  by_cases can : s.canProve = true
  · cases owing : s.prov.next with
    | none =>
      have none : s.testProof = s := by rw [State.testProof, if_pos can, owing]
      rw [none, none]
    | some c =>
      have begun : s.testProof = s.beginProof c := by rw [State.testProof, if_pos can, owing]
      have busy : (s.beginProof c).canProve = false := Bool.and_false _
      rw [begun, State.testProof, if_neg (by simp [busy])]
  · have idle : s.testProof = s := by rw [State.testProof, if_neg can]
    rw [idle, idle]

/-- A round stays through a step that leaves the proof, the scan and the clock. -/
theorem State.Round.of_frame {owed : PerChannel Nat} {tried : List Channel} (h : s.Round owed tried) (f : Frame free r m s t)
    (proof : t.prov = s.prov) (hs : Block.scan ∉ free := by decide) : t.Round owed tried := by
  unfold State.Round at *
  cases owing : firstOwing owed tried with
  | none =>
    rw [owing] at h
    exact proof ▸ h
  | some c =>
    rw [owing] at h
    obtain ⟨step, dwell, list, settled⟩ := h
    refine ⟨by rw [proof, f.scan hs, step], by rw [proof, f.clock, dwell], by rw [proof, list], ?_⟩
    rcases f.settling hs c with fresh | kept
    · exact fresh
    · rw [kept.2, settled, f.clock]

/-! ### Quiet states -/

/-- The car stands with the spring applied, as the law of the spring has it, and no EMERGENCY-level entry is in the set; the
Proving Unit's state is `x`. -/
structure State.Quiet (s : State) (x : Proving) : Prop where
  rest : s.AtRest
  spring : s.comb.springApplied = true
  law : s.springLaw s.comb.park = true
  calm : s.set.hasLevel .emergency = false
  prov : s.prov = x

namespace State.Quiet

variable {x : Proving}

theorem canProve (h : s.Quiet x) (n : x.proof = none) : s.canProve = true :=
  State.canProve_iff.2 ⟨h.rest.1, h.spring, h.calm, by rw [h.prov, n]⟩

theorem report (h : s.Quiet x) (b : ReportBody) : (s.report b).Quiet x := by
  unfold State.report
  split
  · exact h
  · exact ⟨h.rest, h.spring, h.law, h.calm, h.prov⟩

theorem erase (h : s.Quiet x) (c : Cause) : (s.withSet (s.set.erase c)).Quiet x := by
  have calm : (s.set.erase c).hasLevel .emergency = false := by
    have none := h.calm
    rw [InterventionSet.hasLevel, List.any_eq_false] at *
    exact fun e mem => none e (List.mem_of_mem_filter mem)
  have law := h.law
  unfold State.springLaw at law
  rw [h.calm] at law
  refine ⟨h.rest, h.spring, ?_, calm, h.prov⟩
  show (!((s.line.opState == .run || s.line.opState == .quiescing) && s.comb.park == .release
    && !(s.set.erase c).hasLevel .emergency)) = true
  rw [calm]
  exact law

/-- Decay, figures, supervision state and permit (R59). -/
theorem figures (h : s.Quiet x) (b : Bool) : (s.decayed.withFigures.withSupervision b).Quiet x :=
  ⟨⟨h.rest.1, (Odometry.decayedSpeed_still h.rest.1 _).trans h.rest.2⟩, h.spring, h.law, h.calm, h.prov⟩

theorem recombine (h : s.Quiet x) (b : Bool) : (s.recombine b).Quiet x := by
  have law : s.springLaw (if b then .apply else s.comb.park) = true := by
    cases b with
    | false => exact h.law
    | true => simp [State.springLaw]
  exact ⟨h.rest, law, law, h.calm, h.prov⟩

/-- The spring stays applied, so a recomputation hands no spring notice (R99). -/
theorem combine (h : s.Quiet x) (ev : State → State) (b : Bool) : s.combine ev b = s.recombine b :=
  if_pos ((h.recombine b).spring.trans h.spring.symm)

/-- With a proof in progress or no channel to take, the test for a proof does nothing (R123). -/
theorem testProof (h : s.Quiet x) (settled : x.proof ≠ none ∨ x.next = none) : s.testProof = s := by
  unfold State.testProof
  split
  · rename_i can
    rw [h.prov]
    rcases settled with busy | none
    · exact absurd (h.prov ▸ (State.canProve_iff.1 can).2.2.2) busy
    · rw [none]
  · rfl

theorem evaluate (h : s.Quiet x) (n : s.set.has .overspeedService = false) : s.evaluate.Quiet x := by
  obtain ⟨b, calm⟩ := State.evaluate_calm (s := s) (State.calm_rest h.rest.2) (.inl n)
  rw [calm]
  exact h.figures b

/-- A removal leaves the Proving Unit to its proof. -/
theorem remove (h : s.Quiet x) (n : s.set.has .overspeedService = false) (settled : x.proof ≠ none ∨ x.next = none) (c : Cause) :
    (s.remove c).Quiet x := by
  have off : ((s.withSet (s.set.erase c)).report (.cleared c)).set.has .overspeedService = false := by
    rw [State.report_set]
    exact (InterventionSet.has_erase _ _ _).trans (by rw [n]; rfl)
  have noticed := ((h.erase c).report (.cleared c)).evaluate off
  rw [State.remove, State.removeWith]
  split
  · dsimp only
    rw [noticed.combine, (noticed.recombine false).testProof settled]
    exact noticed.recombine false
  · exact h

theorem testDoorRelease (h : s.Quiet x) (n : s.set.has .overspeedService = false) (settled : x.proof ≠ none ∨ x.next = none) :
    s.testDoorRelease.Quiet x := by
  unfold State.testDoorRelease
  split
  · exact h.remove n settled _
  · exact h

theorem setConfig (h : s.Quiet x) : (s.setOpState .config).Quiet x := ⟨h.rest, h.spring, rfl, h.calm, h.prov⟩

theorem testQuiesced (h : s.Quiet x) (n : s.set.has .overspeedService = false) : s.testQuiesced.Quiet x := by
  unfold State.testQuiesced
  split
  · have entered := h.setConfig.evaluate n
    rw [State.changeOpState, entered.combine]
    exact entered.recombine _
  · exact h

/-- An evaluation may take OVERSPEED_SERVICE away, with its own test for a proof; a test behind it finds the same. -/
theorem evaluate_testProof (h : s.Quiet x) : ∃ u : State, u.Quiet x ∧ s.evaluate.testProof = u.testProof := by
  have quiet := State.calm_rest (s := s) h.rest.2
  show ∃ u : State, u.Quiet x ∧ s.decayed.withFigures.judge.testProof = u.testProof
  unfold State.judge State.judgeWith State.raiseOverspeeds
  simp only [quiet.1, quiet.2, Bool.false_eq_true, if_false]
  have judged := h.figures
  split
  · rw [State.removeWith]
    split
    · have noticed := fun b => (((judged b).erase .overspeedService).report (.cleared .overspeedService)).figures
      dsimp only [State.evaluateQuiet]
      rw [(noticed _ _).combine, State.testProof_testProof]
      exact ⟨_, (noticed _ _).recombine false, rfl⟩
    · exact ⟨_, judged _, rfl⟩
  · exact ⟨_, judged _, rfl⟩

end State.Quiet

theorem State.Quiet.testProof_quiet {x : Proving} (h : s.Quiet x) : s.testProof.Quiet s.testProof.prov := by
  have same : s.Quiet s.prov := ⟨h.rest, h.spring, h.law, h.calm, rfl⟩
  unfold State.testProof
  split
  · split
    · exact same
    · rename_i c _
      have begun : ∀ y, ((s.withProv y).resettle c).Quiet y := fun y => ⟨h.rest, h.spring, h.law, h.calm, rfl⟩
      exact (begun _).recombine false
  · exact same

/-- Behind the test a proof is in progress, or no channel is left to take. -/
theorem State.testProof_done (h : s.canProve = true) : s.testProof.prov.proof ≠ none ∨ s.testProof.prov.next = none := by
  cases owing : s.prov.next with
  | none => exact .inr (by rw [State.testProof, if_pos h, owing]; exact owing)
  | some c => exact .inl (by rw [State.testProof, if_pos h, owing]; exact Option.some_ne_none _)

/-! ### The expiry -/

/-- The car stands: what the expiry of the standstill timer makes of the odometry state, before its notices (R12). -/
def State.stood (s : State) : State := s.withOdo { s.odo with v := 0, standstill := true, standstillTimer := none }

/-- The notices of the expiry up to the Line Unit's test (R12). -/
def State.stoodNoticed (s : State) : State := s.stood.evaluate.testProof.testDoorRelease

theorem State.standstillExpiry_expires (h : s.odo.standstillTimer.Elapsing s.clock 2000000) :
    s.standstillExpiry = s.stoodNoticed.testQuiesced := if_pos (Timer.Elapsing.expires h)

theorem State.stood_lawful (s : State) : Lawful [.odometry] overspeeds doorRemovals s s.stood := by
  refine State.withOdo_lawful s _ (fun q => ?_) rfl rfl (.inr rfl)
  obtain ⟨-, -, h3, h4, -, h6⟩ := q.odometry
  exact ⟨rfl, fun _ => rfl, h3, h4, Nat.zero_le _, h6⟩

theorem State.stoodNoticed_lawful (s : State) : Lawful [] overspeeds doorRemovals s.stood s.stoodNoticed :=
  ((State.evaluate_lawful _).mono.trans (State.testProof_lawful _)).trans (State.testDoorRelease_lawful _)

theorem State.stood_rest (s : State) : s.stood.AtRest := ⟨rfl, rfl⟩

/-- OVERSPEED_SERVICE leaves the set at rest, and no notice brings it back (R71). -/
theorem State.stoodNoticed_lifts (s : State) : s.stoodNoticed.AtRest ∧ s.stoodNoticed.set.has .overspeedService = false := by
  have evaluated : s.stood.evaluate.AtRest ∧ s.stood.evaluate.set.has .overspeedService = false := by
    have rest := s.stood_rest.of_frame (State.evaluate_lawful _).frame
    exact ⟨rest, State.evaluate_underService (.inr rest)⟩
  have tested := unhurried_persists.beside (State.testProof_beside _) evaluated
  exact unhurried_persists.testDoorRelease tested fun _ =>
    ⟨tested.1, (InterventionSet.has_erase _ _ _).trans (by rw [tested.2]; rfl)⟩

theorem State.stood_lifts (s : State) : s.stoodNoticed.testQuiesced.set.has .overspeedService = false :=
  (unhurried_persists.testQuiesced s.stoodNoticed_lifts).2

/-- After a removal the cause is gone, but for the overspeed causes, which an evaluation may raise (R81). -/
theorem State.remove_absent (s : State) {c : Cause} (hc : c ∉ overspeeds) : (s.remove c).set.has c = false := by
  have e := State.evaluate_evaluator
  rw [State.remove, State.removeWith]
  split
  · have gone : (s.withSet (s.set.erase c)).set.has c = false := (InterventionSet.has_erase _ _ _).trans (by simp)
    have told : Frame [] overspeeds [.overspeedService] (s.withSet (s.set.erase c))
        ((s.withSet (s.set.erase c)).report (.cleared c)) :=
      State.report_frame _ _
    exact (((told.trans (e.frame _)).trans (State.combine_frame e _)).trans (State.testProof_frame _)).absent gone hc
  · rename_i absent
    simpa using absent

theorem State.stood_unlocked (h : s.doors.anyUnlocked = false) :
    s.stoodNoticed.testQuiesced.set.has .doorUnlockedMoving = false := by
  have f := (State.evaluate_lawful s.stood).frame.trans (State.testProof_frame (r := overspeeds) (m := [.overspeedService]) _)
  have shut : (!s.stood.evaluate.testProof.doors.anyUnlocked && s.stood.evaluate.testProof.odo.standstill) = true := by
    rw [f.doors (by decide), f.standstill (by decide)]
    exact congrArg (fun b => !b && true) h
  refine (State.testQuiesced_frame _).absent ?_ (by decide)
  rw [State.stoodNoticed, State.testDoorRelease, if_pos shut]
  exact State.remove_absent _ (by decide)

/-- A spring that is applied stays so where no EMERGENCY-level entry leaves the set: in QUIESCING the setting of PARK stays, and
in CONFIG the law asks for it (R103). -/
theorem Frame.spring (f : Frame free r doorRemovals s t) (hs : s.Sound) (ht : t.Sound) (applied : s.comb.springApplied = true)
    (quiescing : t.line.opState = .quiescing) (ho : Block.opState ∉ free := by decide) (hp : Block.park ∉ free := by decide)
    (he : Block.entries ∉ free := by decide) : t.comb.springApplied = true := by
  have was : s.line.opState = .quiescing := by
    rcases f.opState ho with same | ⟨-, config⟩
    · exact same ▸ quiescing
    · rw [config] at quiescing
      cases quiescing
  have park : t.comb.park = s.comb.park := by
    rcases f.park hp with same | ⟨-, config⟩
    · exact same
    · rw [config] at quiescing
      cases quiescing
  have level : s.set.hasLevel .emergency = true → t.set.hasLevel .emergency = true := fun h => by
    obtain ⟨e, mem, high⟩ := List.any_eq_true.1 h
    refine List.any_eq_true.2 ⟨e, f.kept he e mem ?_, high⟩
    intro low
    rcases (by simpa using low : e.cause = .doorUnlockedMoving ∨ e.cause = .overspeedService) with low | low <;>
      · rw [low] at high
        cases high
  rw [hs.brakes.2.1, State.springLaw, was] at applied
  rw [ht.brakes.2.1, State.springLaw, quiescing, park]
  cases emergency : s.set.hasLevel .emergency with
  | true => simp [level emergency]
  | false =>
    rw [emergency] at applied
    revert applied
    cases s.comb.park <;> simp

theorem State.stood_config (sound : s.Sound) (quiescing : s.line.opState = .quiescing) (applied : s.comb.springApplied = true) :
    s.stoodNoticed.testQuiesced.line.opState = .config := by
  have f := s.stood_lawful.trans s.stoodNoticed_lawful.blocks
  rcases f.frame.opState (by decide) with same | ⟨-, config⟩
  · have still : s.stoodNoticed.odo.standstill = true := s.stoodNoticed_lawful.frame.standstill (by decide)
    have spring := f.frame.spring sound (f.sound sound) applied (same.trans quiescing)
    rw [State.testQuiesced, if_pos (State.quiesced_iff.2 ⟨same.trans quiescing, still, spring⟩)]
    exact State.changeOpState_config _
  · exact (State.testQuiesced_frame _).config config

theorem State.stood_round (sound : s.Sound) (applied : s.comb.springApplied = true) (calm : s.set.hasLevel .emergency = false)
    (idle : s.prov.proof = none) : s.stoodNoticed.testQuiesced.Round s.prov.owed s.prov.tried := by
  have law : s.stood.springLaw s.stood.comb.park = true := sound.brakes.2.1.symm.trans applied
  have dwell : s.prov.dwell = none := by simpa [idle] using sound.timers.2.2.2.2
  obtain ⟨u, quiet, same⟩ := State.Quiet.evaluate_testProof (s := s.stood) (x := s.prov) ⟨s.stood_rest, applied, law, calm, rfl⟩
  have can := quiet.canProve idle
  have round := State.testProof_round can (by rw [quiet.prov, dwell])
  have done := State.testProof_done can
  have begun := quiet.testProof_quiet
  have off : s.stood.evaluate.testProof.set.has .overspeedService = false := by
    rw [State.testProof_set]
    exact State.evaluate_underService (.inr (s.stood_rest.of_frame (State.evaluate_lawful _).frame))
  rw [quiet.prov, ← same] at round
  rw [← same] at done begun
  have released := begun.testDoorRelease off done
  have ended := released.testQuiesced s.stoodNoticed_lifts.2
  exact round.of_frame ((State.testDoorRelease_lawful _).frame.trans
    ((State.testQuiesced_frame _).mono (by decide) (by decide) (by decide))) ended.prov

/-- Settles O12. -/
theorem standstillIsEntered : Obligations.StandstillIsEntered := by
  intro s
  refine ⟨fun rests => congrArg Host.Outcome.next (if_neg (Bool.eq_false_iff.1 (Timer.Resting.stays rests))), fun elapses => ?_⟩
  have made := State.standstillExpiry_expires elapses
  have f := s.stoodNoticed_lawful.frame.trans ((State.testQuiesced_frame _).mono (by decide) (by decide) (by decide))
  refine ⟨_, congrArg Host.Outcome.next made, ?_, s.stood_lifts, State.stood_unlocked, State.stood_config,
    fun sound applied calm idle => State.stood_round sound applied ?_ idle, made ▸ s.standstillExpiry_lawful.frame⟩
  · rw [f.odometry (by decide), f.still (by decide) rfl]
    rfl
  · simpa [InterventionSet.hasLevel] using calm

end Sys2Proof.Machine
end

section
/-! PROOFS. RESTART block by block (O58): what each block's step keeps of the set and of the queue (`Persists`). -/

namespace Sys2Proof.Machine

set_option Elab.async false

variable {free : List Block} {r m : List Cause} {s t u : State} {P : State → Prop}

/-! ### Further operations beside the set and the queue -/

theorem State.dropBehind_beside (s : State) : Beside s s.dropBehind.1 := by
  unfold State.dropBehind
  split
  · exact {}
  · dsimp only
    split <;> exact {}

theorem State.deriveWanted_beside (s : State) : Beside s s.deriveWanted.1 := by
  unfold State.deriveWanted
  split
  · split <;> exact {}
  · split
    · split
      · exact {}
      · split <;> exact {}
    · exact {}

theorem State.moveDoor_beside (s : State) (d : Door) (x : DoorState) : Beside s (s.moveDoor d x) := by
  have driven : ∀ (u : State) y, Beside u (u.driveDoor d y) := fun u y => by
    unfold State.driveDoor
    dsimp only
    split <;> exact {}
  unfold State.moveDoor
  dsimp only
  split
  · exact Beside.trans (t := s.withDoor d _) {} (driven _ _)
  · exact Beside.trans (t := s.withDoor d _) {} (driven _ _)
  · split <;> exact {}

/-- The property outlives the raising and the removal that the Door Controller may hand, too. -/
structure DoorPersists (P : State → Prop) : Prop extends Persists P where
  joins : ∀ {s : State} {x}, s.odo.standstill = false → P s → P (s.withSet (s.set.append (s.entryOf .doorUnlockedMoving x)))
  leaves : ∀ {s : State}, s.set.has .doorUnlockedMoving = true → P s → P (s.withSet (s.set.erase .doorUnlockedMoving))

namespace Persists

theorem recomputeWindow (k : Persists P) (h : P s) (b : Bool) : P (s.recomputeWindow b) := by
  have derived : P s.recount.dropBehind.1.deriveWanted.1 :=
    k.beside (Beside.trans (t := s.recount) {} ((State.dropBehind_beside _).trans (State.deriveWanted_beside _))) h
  unfold State.recomputeWindow
  dsimp only
  split
  · exact k.evaluate derived
  · exact derived

theorem restartOdometry (k : Persists P) (h : P s) : P s.restartOdometry := by
  unfold State.restartOdometry
  split
  · exact k.beside (s := s) {} h
  · exact k.evaluate (k.recomputeWindow (k.beside (s := s) {} h) false)

theorem restartAuthority (k : Persists P) (h : P s) : P s.restartAuthority := by
  have cleared : P (s.withAuth { s.auth with a := { low := 1, high := 0 }, b := { low := 1, high := 0 }, id := 0 }).reflag :=
    k.beside (s := s) {} h
  unfold State.restartAuthority
  dsimp only
  split
  · exact k.evaluate cleared
  · exact cleared

theorem restartCombiner (k : Persists P) (h : P s) : P s.restartCombiner := k.recompute (k.beside (s := s) {} h)

end Persists

namespace DoorPersists

theorem stepDoor (k : DoorPersists P) (h : P s) (d : Door) (x : DoorState) : P (s.stepDoor d x) := by
  have told := k.report (.doorEvent d x ((s.moveDoor d x).doorAt d).closeFailed) (k.beside (s.moveDoor_beside d x) h)
  have head : P (s.stepDoorHead d x) := by
    unfold State.stepDoorHead
    dsimp only
    split
    · rename_i moving
      refine k.toReads.raiseWith (fun _ => k.evaluate) (fun _ => told) fun _ => k.joins ?_ told
      simp only [Bool.and_eq_true, Bool.not_eq_true'] at moving
      exact moving.1
    · exact told
  rw [State.stepDoor_eq]
  exact k.rehold (k.testDoorRelease (k.evaluate head) fun has => k.leaves has (k.evaluate head))

theorem restartDoor (k : DoorPersists P) (h : P s) (d : Door) : P (s.restartDoor d) := by
  have cleared : P (s.withDoor d (s.doorAt d).cleared) := k.beside (s := s) {} h
  unfold State.restartDoor
  dsimp only
  generalize (if (s.doorAt d).pins.closedMade = true then DoorState.locked else DoorState.fault) = x
  split
  · exact h
  · split
    · exact cleared
    · exact k.stepDoor cleared d x

theorem restartDoors (k : DoorPersists P) (h : P s) : P s.restartDoors := by
  have all : ∀ (l : List Door) (u : State), P u → P (l.foldl State.restartDoor u) := fun l => by
    induction l with
    | nil => exact fun _ h => h
    | cons d l ih => exact fun u h => ih _ (k.restartDoor h d)
  exact all _ _ (k.beside (s := s) {} h)

end DoorPersists

/-! ### The blocks' steps -/

/-- The set emptied, before its notice (R94). -/
def State.emptied (s : State) : State := s.withSet { s.set with entries := [], breakOpen := false }

/-- The set's notice, where an entry has left (R94). -/
def State.emptiedNoticed (s : State) : State :=
  if s.set.entries.isEmpty then s.emptied else s.emptied.evaluate.recompute.testProof

/-- The steps of the blocks before the set's (R192, log 18). -/
def State.restartFirst (s : State) : State := s.restartRadio.restartOdometry.restartAuthority

/-- The steps of the blocks behind the set's, with the end of a proof in progress (R192, R123). -/
def State.restartRest (s : State) : State := s.restartCombiner.restartDoors.abandonProof.emptyTried

/-- All but the test for a proof, which comes last (R133). -/
def State.restarted (s : State) : State := s.restartFirst.restartSet.restartRest

theorem State.restart_config (h : s.line.opState = .config) : s.restart = (s.restarted.testProof, .done []) :=
  if_neg (by simp [h])

theorem Persists.emptiedNoticed (k : Persists P) (h : P s.emptied) : P s.emptiedNoticed := by
  unfold State.emptiedNoticed
  split
  · exact h
  · exact k.beside (State.testProof_beside _) (k.recompute (k.evaluate h))

/-- The loop input, which raises its entry in a set that does not hold it yet (R94). -/
theorem Persists.testLoop (k : Persists P) (stays : s.set.loopOpen = false ∨ s.set.has .emergencyLoop = true → P s)
    (joins : s.set.loopOpen = true → P (s.withSet (s.set.append (s.entryOf .emergencyLoop s.capture)))) : P s.testLoop := by
  unfold State.testLoop
  split
  · rename_i opens
    exact k.toReads.raiseWith (fun _ => k.evaluate) (fun present => stays (.inr present)) fun _ => joins opens
  · rename_i closed
    exact stays (.inl (by simpa using closed))

theorem DoorPersists.restartRest (k : DoorPersists P) (h : P s) : P s.restartRest :=
  k.beside ((State.abandonProof_beside _).trans (State.emptyTried_beside _)) (k.restartDoors (k.restartCombiner h))

end Sys2Proof.Machine
end

section
/-! PROOFS. What RESTART leaves (O58): the entries and the records are those made at this step, and each block's table of R192. -/

namespace Sys2Proof.Machine

set_option Elab.async false

variable {free : List Block} {r m : List Cause} {s t u : State}

/-! ### Records and entries of this step -/

/-- Every queued record was made at this moment (R165). -/
def State.Stamped (s : State) : Prop := ∀ x ∈ s.radio.queue, x.time = s.recordTime

theorem RadioUnit.queueEvent_from {q : RadioUnit} {x y : Report} (h : y ∈ (q.queueEvent x).queue) : y ∈ q.queue ∨ y = x := by
  unfold RadioUnit.queueEvent at h
  split at h
  · simpa using h
  · split at h
    · simp only [List.mem_append, List.mem_singleton] at h
      rcases h with (sent | unsent) | new
      · exact .inl (List.mem_of_mem_take sent)
      · exact .inl (List.mem_of_mem_drop (List.mem_of_mem_eraseP unsent))
      · exact .inr new
    · exact .inl h

theorem RadioUnit.queuePosition_from {q : RadioUnit} {x y : Report} (h : y ∈ (q.queuePosition x).queue) :
    y ∈ q.queue ∨ y = x := by
  unfold RadioUnit.queuePosition at h
  split at h
  · simp only [List.mem_append, List.mem_map] at h
    rcases h with sent | ⟨z, unsent, replaced⟩
    · exact .inl (List.mem_of_mem_take sent)
    · split at replaced
      · exact .inr replaced.symm
      · exact .inl (replaced ▸ List.mem_of_mem_drop unsent)
  · split at h
    · simpa using h
    · exact .inl h

theorem State.stamped_reads : Reads State.Stamped where
  beside := fun f h x mem => by
    rw [State.recordTime, State.partTime, f.clock]
    exact h x (f.radio ▸ mem)
  report := fun {s} b h => by
    unfold State.report
    split
    · exact h
    · exact fun x mem => (RadioUnit.queueEvent_from mem).elim (h x) fun new => by subst new; rfl
  reportPosition := fun {s} h => by
    unfold State.reportPosition
    split
    · exact h
    · exact fun x mem => (RadioUnit.queuePosition_from mem).elim (h x) fun new => by subst new; rfl

theorem State.stamped_persists : DoorPersists State.Stamped where
  toReads := State.stamped_reads
  evaluate := State.stamped_reads.evaluate (fun _ _ h => h) (fun _ _ _ _ h => h) fun _ h => h
  joins := fun _ h => h
  leaves := fun _ h => h

/-- Every entry was raised at this moment, and the cab has not been heard since (R79, R89). -/
def State.RaisedNow (s : State) : Prop := ∀ e ∈ s.set.entries, e.time = s.partTime ∧ e.heard = false

theorem State.RaisedNow.append (h : s.RaisedNow) (c : Cause) (x : Capture) :
    (s.withSet (s.set.append (s.entryOf c x))).RaisedNow :=
  fun e mem => (List.mem_append.1 mem).elim (h e) fun new => by rw [List.mem_singleton.1 new]; exact ⟨rfl, rfl⟩

theorem State.RaisedNow.erase (h : s.RaisedNow) (c : Cause) : (s.withSet (s.set.erase c)).RaisedNow :=
  fun e mem => h e (List.mem_of_mem_filter mem)

theorem State.raisedNow_reads : Reads State.RaisedNow where
  beside := fun f h e mem => by
    rw [State.partTime, f.clock]
    exact h e (f.set ▸ mem)
  report := fun {s} b h => by
    unfold State.report
    split <;> exact h
  reportPosition := fun {s} h => by
    unfold State.reportPosition
    split <;> exact h

theorem State.raisedNow_persists : DoorPersists State.RaisedNow where
  toReads := State.raisedNow_reads
  evaluate := State.raisedNow_reads.evaluate (fun _ _ h => h) (fun _ _ _ _ h => h.append _ _) fun _ h => h.erase _
  joins := fun _ h => h.append _ _
  leaves := fun _ h => h.erase _

/-- At rest the causes stay those of a set that holds neither OVERSPEED_SERVICE nor DOOR_UNLOCKED_MOVING. -/
theorem State.causes_persists {l : List Cause} (h1 : .overspeedService ∉ l) (h2 : .doorUnlockedMoving ∉ l) :
    DoorPersists fun s => s.AtRest ∧ s.set.entries.map Entry.cause = l where
  toReads := Reads.atRest fun i => i.entries.map Entry.cause = l
  evaluate := fun {s} h => by
    have off : s.set.has .overspeedService = false := by
      rw [Bool.eq_false_iff, ne_eq, InterventionSet.has_iff, h.2]
      exact h1
    obtain ⟨b, calm⟩ := State.evaluate_calm (s := s) (State.calm_rest h.1.2) (.inl off)
    rw [calm]
    exact ⟨h.1.figures b, h.2⟩
  joins := fun moving h => absurd (moving.symm.trans h.1.1) (by decide)
  leaves := fun {s} has h => by
    rw [InterventionSet.has_iff, h.2] at has
    exact absurd has h2

/-! ### The frames of the steps -/

/-- The Radio Unit as RESTART clears it (R181). -/
def State.radioCleared (s : State) : State :=
  s.withRadio
    { RadioUnit.atReset with
      transmitter := s.radio.transmitter
      positionTimer := some (s.after (s.cfg.positionInterval * 1000)) }

theorem State.restartRadio_eq (s : State) :
    s.restartRadio = if s.radio.link = .silent then s.radioCleared else s.radioCleared.evaluate := rfl

theorem State.restartRadio_frame (s : State) : NoticesOnly s.radioCleared s.restartRadio := by
  rw [State.restartRadio_eq]
  split
  · exact Frame.refl
  · exact (State.evaluate_lawful _).frame

theorem State.restartFirst_frame (s : State) :
    Frame [.odometry, .window, .authority] overspeeds [.overspeedService] s.radioCleared s.restartFirst :=
  ((s.restartRadio_frame.mono (by decide) (fun _ h => h) fun _ h => h).trans (State.restartOdometry_lawful _).blocks.frame).trans
    (State.restartAuthority_lawful _).blocks.frame

theorem State.emptiedNoticed_frame (s : State) : NoticesOnly s.emptied s.emptiedNoticed := by
  unfold State.emptiedNoticed
  split
  · exact Frame.refl
  · exact (((State.evaluate_lawful _).trans (State.recompute_lawful _)).trans (State.testProof_lawful _)).frame

theorem State.restartRest_lawful (s : State) :
    Lawful [.driver, .doors, .motors] doorCauses doorRemovals s s.restartRest :=
  (((State.restartCombiner_lawful s).mono.trans (State.restartDoors_lawful _).mono).trans
    (State.abandonProof_lawful _).blocks).trans (State.emptyTried_lawful _).blocks

/-- The steps behind the emptied set. -/
theorem State.restarted_frame (s : State) :
    Frame [.driver, .doors, .motors] restartCauses doorRemovals s.restartFirst.emptied s.restarted :=
  (((State.emptiedNoticed_frame _).mono (by decide) (by decide) (by decide)).trans
    ((State.testLoop_lawful _).frame.mono (by decide) (by decide) (by decide))).trans
      ((State.restartRest_lawful _).frame.mono (fun _ h => h) (by decide) fun _ h => h)

theorem State.restarted_sound (h : s.Sound) : s.restarted.Sound :=
  (State.restartRest_lawful _).sound ((State.restartSet_lawful _).sound ((State.restartAuthority_lawful _).sound
    ((State.restartOdometry_lawful _).sound ((State.restartRadio_lawful s).sound h))))

/-! ### The queue -/

theorem State.restarted_stamped (s : State) : s.restarted.Stamped := by
  have k := State.stamped_persists
  have cleared : s.radioCleared.Stamped := fun x mem => absurd mem List.not_mem_nil
  have first : s.restartRadio.Stamped := by
    rw [State.restartRadio_eq]
    split
    · exact cleared
    · exact k.evaluate cleared
  have emptied : s.restartFirst.emptied.Stamped := k.restartAuthority (k.restartOdometry first)
  have noticed := k.emptiedNoticed emptied
  exact k.restartRest (k.testLoop (fun _ => noticed) fun _ => noticed)

end Sys2Proof.Machine
end

section
/-! PROOFS. RESTART as a whole (O58). -/

namespace Sys2Proof.Machine

set_option Elab.async false

variable {free : List Block} {r m : List Cause} {s t u : State}

/-! ### Odometry, window and authority -/

/-- The direction becomes NEUTRAL and the rollback tally 0; nothing else of the odometry state changes but v, which may
fall (R19). -/
theorem State.restartOdometry_odo (s : State) :
    s.restartOdometry.odo = { s.odo with direction := .neutral, rollback := 0, v := s.restartOdometry.odo.v }
      ∧ s.restartOdometry.odo.v ≤ s.odo.v := by
  unfold State.restartOdometry
  split
  · rename_i neutral
    exact ⟨by rw [← neutral]; rfl, le_refl _⟩
  · have f := (State.recomputeWindow_lawful (s.withOdo { s.odo with direction := .neutral, rollback := 0 }) false).trans
      (State.evaluate_lawful _).blocks
    exact ⟨f.frame.odometry (by decide), f.frame.slower (by decide)⟩

theorem State.dropBehind_neutral (h : s.odo.direction = .neutral) : s.dropBehind.1 = s := by
  rw [State.dropBehind, h]
  rfl

/-- A derived request changes nothing else of the window where no record need make room, as in NEUTRAL (R24, R27). -/
theorem State.deriveWanted_neutral (h : s.odo.direction = .neutral) : ∃ x, s.deriveWanted.1.win = { s.win with wanted := x } := by
  unfold State.deriveWanted
  split
  · split <;> exact ⟨_, rfl⟩
  · rw [State.neededNext, h]
    exact ⟨_, rfl⟩

/-- In NEUTRAL no record leaves the window (R26, R40). -/
theorem State.restartOdometry_win (s : State) :
    s.restartOdometry.win.records = s.win.records ∧ s.restartOdometry.win.endUp = s.win.endUp
      ∧ s.restartOdometry.win.endDown = s.win.endDown ∧ s.restartOdometry.win.located = s.win.located := by
  unfold State.restartOdometry
  split
  · exact ⟨rfl, rfl, rfl, rfl⟩
  · obtain ⟨x, made⟩ := State.deriveWanted_neutral
      (s := (s.withOdo { s.odo with direction := .neutral, rollback := 0 }).recount) rfl
    have win : (s.turn .neutral).win
        = { (s.withOdo { s.odo with direction := .neutral, rollback := 0 }).recount.win with wanted := x } := by
      rw [State.turn, (State.evaluate_lawful _).frame.window (by decide), State.recomputeWindow_win,
        State.dropBehind_neutral (by rfl), made]
    rw [win]
    exact ⟨rfl, rfl, rfl, rfl⟩

/-- The empty range contains no footprint (R41). -/
theorem Range.holds_empty {lo hi : Int} (h : lo ≤ hi) : Range.holds { low := 1, high := 0 } lo hi = false := by
  simp only [Range.holds, Bool.and_eq_false_iff, decide_eq_false_iff_not]
  omega

theorem State.lo_le_hi (s : State) : s.lo ≤ s.hi := by
  rw [State.lo_eq, State.hi_eq]
  omega

theorem State.restartAuthority_auth (s : State) :
    s.restartAuthority.auth
      = { s.auth with a := { low := 1, high := 0 }, b := { low := 1, high := 0 }, id := 0, inside := false, inA := false
                      inB := false } := by
  have flags : (s.withAuth { s.auth with a := { low := 1, high := 0 }, b := { low := 1, high := 0 }, id := 0 }).reflag.auth
      = { s.auth with a := { low := 1, high := 0 }, b := { low := 1, high := 0 }, id := 0, inside := false, inA := false
                      inB := false } := by
    have empty := Range.holds_empty
      (s.withAuth { s.auth with a := { low := 1, high := 0 }, b := { low := 1, high := 0 }, id := 0 }).lo_le_hi
    simp only [State.reflag, State.withAuth_auth, empty, Bool.and_false, Bool.or_false]
  unfold State.restartAuthority
  dsimp only
  split
  · exact ((State.evaluate_lawful _).frame.authority (by decide)).trans flags
  · exact flags

/-! ### The blocks after RESTART -/

theorem State.restarted_eq (s : State) : s.restarted = s.restartFirst.emptiedNoticed.testLoop.restartRest := rfl

/-- The steps behind the emptied set, with the test for a proof at the end. -/
theorem State.restartDone_frame (s : State) :
    Frame [.driver, .doors, .motors] restartCauses doorRemovals s.restartFirst.emptied s.restarted.testProof :=
  s.restarted_frame.trans ((State.testProof_frame _).mono (by decide) (fun _ h => h) fun _ h => h)

/-- The steps behind the Odometry Unit's. -/
theorem State.restartTurned_frame (s : State) :
    Frame [.authority, .entries, .driver, .doors, .motors] restartCauses doorRemovals s.restartRadio.restartOdometry
      s.restarted.testProof :=
  (((State.restartAuthority_lawful _).frame.mono (by decide) (by decide) (by decide)).trans
    ((State.emptySet_frame _).mono (by decide) (fun _ h => h) fun _ h => h)).trans
      (s.restartDone_frame.mono (by decide) (fun _ h => h) fun _ h => h)

theorem State.restartDone_odo (s : State) :
    s.restarted.testProof.odo = { s.odo with direction := .neutral, rollback := 0, v := s.restarted.testProof.odo.v }
      ∧ s.restarted.testProof.odo.v ≤ s.odo.v := by
  have radio := s.restartRadio_frame
  obtain ⟨turned, slower⟩ := s.restartRadio.restartOdometry_odo
  have rest := s.restartTurned_frame
  refine ⟨(rest.odometry (by decide)).trans ?_, (rest.slower (by decide)).trans (slower.trans (radio.slower (by decide)))⟩
  rw [turned, radio.odometry (by decide)]
  rfl

theorem State.restartDone_win (s : State) :
    s.restarted.testProof.win.records = s.win.records ∧ s.restarted.testProof.win.endUp = s.win.endUp
      ∧ s.restarted.testProof.win.endDown = s.win.endDown ∧ s.restarted.testProof.win.located = s.win.located := by
  have same : s.restarted.testProof.win = s.restartRadio.restartOdometry.win :=
    (s.restartDone_frame.window (by decide)).trans ((State.restartAuthority_lawful _).frame.window (by decide))
  have first : s.restartRadio.win = s.win := s.restartRadio_frame.window (by decide)
  rw [same, ← first]
  exact State.restartOdometry_win _

theorem State.restartDone_auth (s : State) :
    s.restarted.testProof.auth
      = { s.auth with a := { low := 1, high := 0 }, b := { low := 1, high := 0 }, id := 0, inside := false, inA := false
                      inB := false } := by
  have first : s.restartRadio.restartOdometry.auth = s.auth :=
    ((State.restartOdometry_lawful _).frame.authority (by decide)).trans (s.restartRadio_frame.authority (by decide))
  rw [s.restartDone_frame.authority (by decide), ← first]
  exact State.restartAuthority_auth _

theorem State.restartDone_radio (s : State) :
    s.restarted.testProof.radio
        = { s.radioCleared.radio with queue := s.restarted.testProof.radio.queue, lost := s.restarted.testProof.radio.lost }
      ∧ (s.restarted.testProof.radio.lost = 0 ∨ 32 ≤ s.restarted.testProof.radio.queue.length) := by
  have f : Frame [.odometry, .window, .authority, .entries, .driver, .doors, .motors] restartCauses doorRemovals s.radioCleared
      s.restarted.testProof :=
    ((s.restartFirst_frame.mono (by decide) (by decide) (by decide)).trans
      ((State.emptySet_frame _).mono (by decide) (fun _ h => h) fun _ h => h)).trans
        (s.restartDone_frame.mono (by decide) (fun _ h => h) fun _ h => h)
  exact ⟨f.radio (by decide), (f.records (by decide)).counted⟩

/-! ### The set -/

theorem State.emptiedNoticed_loop (s : State) : s.emptiedNoticed.set.loopOpen = s.set.loopOpen :=
  s.emptiedNoticed_frame.loop (by decide)

theorem State.emptiedNoticed_absent (s : State) {c : Cause} (hc : c ∉ overspeeds) : s.emptiedNoticed.set.has c = false :=
  s.emptiedNoticed_frame.absent (by rfl) hc

/-- EMERGENCY_LOOP is present exactly where the loop reads open (R83, R94). -/
theorem State.restarted_loop (s : State) : s.restarted.set.has .emergencyLoop = s.set.loopOpen := by
  have reads : s.restartFirst.emptiedNoticed.set.loopOpen = s.set.loopOpen :=
    (State.emptiedNoticed_loop _).trans (s.restartFirst_frame.loop (by decide))
  have before : s.restartFirst.emptiedNoticed.set.has .emergencyLoop = false := State.emptiedNoticed_absent _ (by decide)
  have f := (State.restartRest_lawful s.restartFirst.restartSet).frame
  have set : s.restartFirst.restartSet = s.restartFirst.emptiedNoticed.testLoop := rfl
  rw [State.testLoop, reads] at set
  cases opens : s.set.loopOpen with
  | true =>
    rw [opens, if_pos rfl] at set
    exact f.has_kept (by decide) (by rw [set]; exact State.raise_has _ _ _ (by decide))
  | false =>
    rw [opens, if_neg (by decide)] at set
    exact f.absent (by rw [set]; exact before)

theorem State.restarted_raisedNow (s : State) : s.restarted.RaisedNow := by
  have k := State.raisedNow_persists
  have emptied : s.restartFirst.emptied.RaisedNow := fun e mem => absurd mem List.not_mem_nil
  have noticed := k.emptiedNoticed emptied
  exact k.restartRest (k.testLoop (fun _ => noticed) fun _ => noticed.append _ _)

/-- At standstill the loop's entry is the only one (R94). -/
theorem State.restarted_causes (rest : s.AtRest) :
    s.restarted.AtRest ∧ s.restarted.set.entries.map Entry.cause = if s.set.loopOpen then [.emergencyLoop] else [] := by
  have still : s.restartFirst.emptied.AtRest := by
    have f := (State.restartAuthority_lawful s.restartRadio.restartOdometry).frame.mono (free' := [.authority, .entries])
      (by decide) (fun _ h => h) (fun _ h => h)
    obtain ⟨turned, slower⟩ := s.restartRadio.restartOdometry_odo
    have radio := rest.of_frame (s := s.radioCleared) s.restartRadio_frame
    have odometry : s.restartRadio.restartOdometry.AtRest := ⟨by rw [turned]; exact radio.1, Nat.le_zero.1 (radio.2 ▸ slower)⟩
    exact odometry.of_frame (f.trans ((State.emptySet_frame s.restartFirst).mono (by decide) (fun _ h => h) fun _ h => h))
  have noticed := (State.causes_persists (l := []) (by decide) (by decide)).emptiedNoticed ⟨still, rfl⟩
  have reads : s.restartFirst.emptiedNoticed.set.loopOpen = s.set.loopOpen :=
    (State.emptiedNoticed_loop _).trans (s.restartFirst_frame.loop (by decide))
  have absent := s.restartFirst.emptiedNoticed_absent (c := .emergencyLoop) (by decide)
  rw [State.restarted_eq]
  generalize s.restartFirst.emptiedNoticed = u at *
  cases opens : s.set.loopOpen with
  | true =>
    have k := State.causes_persists (l := [.emergencyLoop]) (by decide) (by decide)
    refine k.restartRest (k.testLoop (fun h => ?_) fun _ => ⟨noticed.1, ?_⟩)
    · rw [reads, opens, absent] at h
      exact absurd h (by decide)
    · exact (List.map_append ..).trans (congrArg (· ++ [Cause.emergencyLoop]) noticed.2)
  | false =>
    have k := State.causes_persists (l := []) (by decide) (by decide)
    refine k.restartRest (k.testLoop (fun _ => noticed) fun h => ?_)
    rw [reads, opens] at h
    exact absurd h (by decide)

theorem State.restarted_among (s : State) :
    ∀ e ∈ s.restarted.set.entries, e.cause ∈ [.emergencyLoop, .overspeedService, .overspeedEmergency, .doorUnlockedMoving] :=
  fun e mem => by
  rcases s.restarted_frame.added (by decide) e mem with none | raised
  · exact absurd none List.not_mem_nil
  · revert raised
    generalize e.cause = c
    cases c <;> decide

end Sys2Proof.Machine
end

section
/-! PROOFS. RESTART (O58): the doors, the proof that begins, and what of the Radio Unit it does not read. -/

namespace Sys2Proof.Machine

set_option Elab.async false

variable {free : List Block} {r m : List Cause} {s t u : State}

/-! ### The doors -/

/-- A door's record after RESTART (R156). -/
def DoorRecord.restarted (x : DoorRecord) : DoorRecord :=
  if x.state = .isolated then x else { x.cleared with state := if x.pins.closedMade then .locked else .fault }

theorem DoorRecord.restarted_restarted (x : DoorRecord) : x.restarted.restarted = x.restarted := by
  by_cases apart : x.state = .isolated
  · simp [DoorRecord.restarted, apart]
  · cases shut : x.pins.closedMade <;> simp [DoorRecord.restarted, apart, DoorRecord.cleared, shut]

theorem State.restartDoor_doorAt (s : State) (d e : Door) :
    (s.restartDoor d).doorAt e = if e = d then (s.doorAt d).restarted else s.doorAt e := by
  have still : (if (s.doorAt d).pins.closedMade then DoorState.locked else DoorState.fault).moving = false := by split <;> rfl
  unfold State.restartDoor DoorRecord.restarted
  dsimp only
  generalize (if (s.doorAt d).pins.closedMade = true then DoorState.locked else DoorState.fault) = x at *
  split
  · split
    · rw [‹e = d›]
    · rfl
  · split
    · rename_i same
      rw [State.doorAt_withDoor, ← same]
      rfl
    · by_cases own : e = d
      · rw [own, State.stepDoor_rest _ d x still, State.doorAt_withDoor_same, if_pos rfl]
        rfl
      · rw [State.stepDoor_doorAt, State.moveDoor_other _ d e _ own, State.doorAt_withDoor, if_neg own, if_neg own]

theorem State.restartDoors_doorAt (s : State) (d : Door) : s.restartDoors.doorAt d = (s.doorAt d).restarted := by
  rw [State.restartDoors, foldl_doorAt State.restartDoor_doorAt DoorRecord.restarted_restarted, if_pos (mem_allDoors d)]
  rfl

/-- The doors and the driver demand as the Door Controller finds them. -/
theorem State.restartCombined_frame (s : State) :
    Frame [.radio, .queue, .odometry, .window, .authority, .entries, .driver] (.emergencyLoop :: overspeeds) [.overspeedService] s
      s.restartFirst.restartSet.restartCombiner :=
  ((((State.restartRadio_lawful s).mono.trans (State.restartOdometry_lawful _).mono).trans
    (State.restartAuthority_lawful _).mono).frame.trans
      ((State.restartSet_lawful _).frame.mono (by decide) (fun _ h => h) fun _ h => h)).trans
        ((State.restartCombiner_lawful _).frame.mono (by decide) (by decide) fun _ h => h)

/-- The notices behind the doors. -/
theorem State.restartEnd_frame (s : State) :
    Frame [] r m s.restartFirst.restartSet.restartCombiner.restartDoors s.restarted.testProof :=
  (State.proofEnds_frame _).trans (State.testProof_frame _)

theorem State.restartDone_doors (s : State) :
    s.restarted.testProof.doors.releasedLeft = false ∧ s.restarted.testProof.doors.releasedRight = false
      ∧ ∀ d, s.restarted.testProof.doorAt d = (s.doorAt d).restarted := by
  have ends := (s.restartEnd_frame (r := []) (m := [])).doors (by decide)
  have before : s.restartFirst.restartSet.restartCombiner.doors = s.doors := s.restartCombined_frame.doors (by decide)
  obtain ⟨left, right, -⟩ := s.restartFirst.restartSet.restartCombiner.restartDoors_states
  refine ⟨by rw [ends, left], by rw [ends, right], fun d => ?_⟩
  have own := s.restartFirst.restartSet.restartCombiner.restartDoors_doorAt d
  unfold State.doorAt at *
  rw [ends, own, before]

/-- The driver demand is 0 (R116). -/
theorem State.restartDone_driver (s : State) : s.restarted.testProof.comb.driver = 0 := by
  rw [(s.restartEnd_frame (r := []) (m := [])).driver (by decide), (State.restartDoors_lawful _).frame.driver (by decide)]
  exact (State.recompute_lawful _).frame.driver (by decide)

/-! ### The proof -/

theorem State.proofEnds_idle (s : State) :
    s.abandonProof.emptyTried.prov.proof = none ∧ s.abandonProof.emptyTried.prov.tried = [] :=
  ⟨s.abandonProof_none, rfl⟩

theorem State.restarted_parts (s : State) :
    s.restarted = s.restartFirst.restartSet.restartCombiner.restartDoors.abandonProof.emptyTried := rfl

theorem State.restarted_idle (s : State) : s.restarted.prov.proof = none ∧ s.restarted.prov.tried = [] := by
  rw [State.restarted_parts]
  exact State.proofEnds_idle _

/-- Everything but the test for a proof. -/
theorem State.restarted_all_frame (s : State) : Frame restartBlocks restartCauses doorRemovals s s.restarted := by
  rw [State.restarted_parts]
  exact ((s.restartCombined_frame.mono (by decide) (by decide) (by decide)).trans
    ((State.restartDoors_lawful _).frame.mono (by decide) (by decide) fun _ h => h)).trans
      ((State.proofEnds_frame _).mono (by decide) (fun _ h => h) fun _ h => h)

theorem State.restarted_standstill (s : State) : s.restarted.odo.standstill = s.odo.standstill := by
  have same : s.restarted.testProof.odo.standstill = s.restarted.odo.standstill :=
    (State.testProof_beside _).standstill
  rw [← same, s.restartDone_odo.1]

/-- While the car moves, or with the loop open, no proof begins (R123). -/
theorem State.restartDone_idle (h : s.odo.standstill = false ∨ s.set.loopOpen = true) :
    s.restarted.testProof.prov.proof = none ∧ s.restarted.testProof.prov.tried = [] := by
  have never : ¬s.restarted.canProve = true := fun can => by
    obtain ⟨still, -, calm, -⟩ := State.canProve_iff.1 can
    rcases h with moving | opens
    · rw [s.restarted_standstill, moving] at still
      cases still
    · have emergency := InterventionSet.hasLevel_of_has (s.restarted_loop.trans opens)
      exact absurd (calm.symm.trans emergency) (by decide)
  rw [State.testProof, if_neg never]
  exact s.restarted_idle

/-- A car that stands with its loop closed begins a round at once (R123, R133). -/
theorem State.restartDone_round (sound : s.Sound) (config : s.line.opState = .config) (still : s.odo.standstill = true)
    (closed : s.set.loopOpen = false) : s.restarted.testProof.Round s.prov.owed [] := by
  have after := s.restarted_sound sound
  have f := s.restarted_all_frame
  have owed : s.restarted.prov.owed = s.prov.owed := f.owed (by decide)
  have op : s.restarted.line.opState = .config := (f.opState (by decide)).elim (fun same => same.trans config) And.right
  have spring : s.restarted.comb.springApplied = true := State.config_spring after.braked op
  have calm : s.restarted.set.hasLevel .emergency = false := by
    have none := (s.restarted_causes ⟨still, sound.timers.2.1 still⟩).2
    rw [closed] at none
    rw [InterventionSet.hasLevel, List.map_eq_nil_iff.1 none]
    rfl
  have stands := s.restarted_standstill.trans still
  obtain ⟨idle, tried⟩ := s.restarted_idle
  generalize s.restarted = u at *
  have dwell : u.prov.dwell = none := by simpa [idle] using after.timers.2.2.2.2
  have round := State.testProof_round (State.canProve_iff.2 ⟨stands, spring, calm, idle⟩) dwell
  rw [owed, tried] at round
  exact round

/-! ### The old Radio Unit -/

/-- Of the Radio Unit the step reads the link state and the transmitter alone (R181). -/
theorem State.restart_withRadio {q : RadioUnit} (link : q.link = s.radio.link) (sends : q.transmitter = s.radio.transmitter)
    (config : s.line.opState = .config) : (s.withRadio q).restart = s.restart := by
  have cleared : (s.withRadio q).radioCleared = s.radioCleared := by
    have same : (s.withRadio q).radioCleared
        = s.withRadio { RadioUnit.atReset with
            transmitter := q.transmitter, positionTimer := some (s.after (s.cfg.positionInterval * 1000)) } := rfl
    rw [same, sends]
    rfl
  have radio : (s.withRadio q).restartRadio = s.restartRadio := by
    rw [State.restartRadio_eq, State.restartRadio_eq, cleared, State.withRadio_radio, link]
  rw [State.restart_config config, State.restart_config (s := s.withRadio q) config]
  unfold State.restarted State.restartFirst
  rw [radio]

theorem State.heardAt_withRadio (s : State) (q : RadioUnit) : (s.withRadio q).heardAt .cab = (s.heardAt .cab).withRadio q := by
  unfold State.heardAt State.heardOn State.hearCab
  dsimp only
  split <;> split <;> first | rfl | contradiction

theorem State.restart_request (can : s.CanTake .cab) {q : RadioUnit} (link : q.link = s.radio.link)
    (sends : q.transmitter = s.radio.transmitter) (config : s.line.opState = .config) :
    (s.withRadio q).request .cab .restart [] = s.request .cab .restart [] := by
  obtain ⟨-, -, -, -, -, -, -, -, -, radio, op, -⟩ := s.heardAt_keeps .cab
  have served : ((s.withRadio q).heardAt .cab).restart = (s.heardAt .cab).restart := by
    rw [State.heardAt_withRadio]
    exact State.restart_withRadio (link.trans (congrArg RadioUnit.link radio).symm)
      (sends.trans (congrArg RadioUnit.transmitter radio).symm) (op.trans config)
  have one := State.request_eq s .cab .restart [] can rfl rfl
  have two := State.request_eq (s.withRadio q) .cab .restart [] can rfl rfl
  rw [one, two, if_neg (by decide), if_neg (by decide)]
  unfold State.served State.serve
  dsimp only
  rw [served]

end Sys2Proof.Machine
end

section
/-! PROOFS. RESTART (O58): the request as it is served. -/

namespace Sys2Proof.Machine

set_option Elab.async false

variable {free : List Block} {r m : List Cause} {s t u : State}

theorem State.heardAt_sound (h : s.Sound) (x : RequestLine) : (s.heardAt x).Sound :=
  (State.heardOn_lawful (r := []) (m := []) _ x).sound ((State.withFramer_orderly s (serialOf x) []).sound h)

/-- The step of RESTART on the state that has heard the request. -/
theorem State.restart_served (can : s.CanTake .cab) (config : s.line.opState = .config) :
    ∃ p, s.request .cab .restart [] = (s.heardAt .cab).restarted.testProof.withPort .cab p
      ∧ Served s ((s.heardAt .cab).restarted.testProof.withPort .cab p) .cab 0x0E#8 (.done []) restartBlocks restartCauses
          doorRemovals := by
  obtain ⟨-, -, -, -, -, -, -, -, -, -, op, -⟩ := s.heardAt_keeps .cab
  obtain ⟨p, made, served⟩ := State.request_serves s .cab .restart [] can rfl rfl (by decide)
  have step : (s.heardAt .cab).serve .cab s.set.heard .restart [] = ((s.heardAt .cab).restarted.testProof, .done []) :=
    State.restart_config (op.trans config)
  rw [step] at made served
  dsimp only at made served
  exact ⟨p, made, served⟩

/-- Settles O58. -/
theorem restartKeepsThePosition : Obligations.RestartKeepsThePosition := by
  intro s can config
  obtain ⟨p, made, served⟩ := State.restart_served can config
  obtain ⟨odo, win, auth, -, -, -, -, prov, doors, radio, op, cfg, loop, -⟩ := s.heardAt_keeps .cab
  have clock := s.heardAt_clock .cab
  have alone : ∀ q : RadioUnit, q.link = s.radio.link → q.transmitter = s.radio.transmitter →
      exec (.restart .cab []) (s.withRadio q) = .next ((s.heardAt .cab).restarted.testProof.withPort .cab p) :=
    fun q link sends => congrArg Host.Outcome.next ((State.restart_request can link sends config).trans made)
  have sound : s.Sound → (s.heardAt .cab).Sound := fun h => State.heardAt_sound h .cab
  have heard := op.trans config
  refine ⟨_, congrArg Host.Outcome.next made, ?_⟩
  generalize s.heardAt .cab = h at *
  have f := h.restart_lawful.frame
  rw [State.restart_config heard] at f
  have loopReads := h.restarted_loop
  have now := State.raisedNow_persists.beside (State.testProof_beside _) h.restarted_raisedNow
  have stamped := State.stamped_persists.beside (State.testProof_beside _) h.restarted_stamped
  have causes : s.Sound → s.odo.standstill = true → _ := fun k still =>
    (State.restarted_causes (s := h) ⟨odo ▸ still, (sound k).timers.2.1 (odo ▸ still)⟩).2
  have among := h.restarted_among
  obtain ⟨odometry, slower⟩ := h.restartDone_odo
  obtain ⟨records, endUp, endDown, located⟩ := h.restartDone_win
  have table := h.restartDone_auth
  obtain ⟨unit, lost⟩ := h.restartDone_radio
  have driver := h.restartDone_driver
  obtain ⟨left, right, leaves⟩ := h.restartDone_doors
  have round : s.Sound → _ := fun k => State.restartDone_round (sound k) heard
  have idle := State.restartDone_idle (s := h)
  rw [← State.testProof_set] at loopReads causes among
  generalize h.restarted.testProof = u at *
  rw [odo] at odometry slower idle round
  rw [win] at records endUp endDown located
  rw [auth] at table
  rw [loop] at loopReads causes idle round
  rw [prov] at round
  have part : u.partTime = s.partTime := by rw [State.partTime, State.partTime, f.clock, clock]
  have cleared : u.radio = { s.radioCleared.radio with queue := u.radio.queue, lost := u.radio.lost } := by
    have same : h.radioCleared.radio = s.radioCleared.radio := by
      unfold State.radioCleared State.after
      rw [radio, clock, cfg]
      rfl
    rw [← same]
    exact unit
  have door : ∀ d, u.doorAt d = (s.doorAt d).restarted := fun d => by
    rw [leaves d, State.doorAt, doors]
    rfl
  refine ⟨odometry, slower, records, endUp, endDown, located, table, (f.loop (by decide)).trans loop, by rw [← loopReads]; rfl,
    fun e mem => ?_, causes, among, driver, (f.owed (by decide)).trans (by rw [prov]),
    (f.health (by decide)).trans (by rw [prov]),
    fun k still closed => (round k still closed).of_frame (State.withPort_frame (r := []) (m := []) u .cab p) rfl, idle,
    congrArg RadioUnit.link cleared, congrArg RadioUnit.timer cleared, congrArg RadioUnit.inFlight cleared,
    congrArg RadioUnit.number cleared, congrArg RadioUnit.carriedTally cleared, congrArg RadioUnit.carriedLost cleared,
    fun x mem => ?_, lost, alone, congrArg RadioUnit.resend cleared, congrArg RadioUnit.wasLost cleared,
    congrArg RadioUnit.framer cleared, (congrArg RadioUnit.transmitter cleared).trans rfl,
    congrArg RadioUnit.positionTimer cleared,
    left, right, fun d apart => ?_, fun d apart => ?_, served⟩
  · exact part ▸ now e mem
  · exact (stamped x mem).trans (congrArg (· % 65536) part)
  · exact (door d).trans (if_pos apart)
  · exact (door d).trans (if_neg apart)

end Sys2Proof.Machine
end

section
/-! PROOFS. What a request or a downlink does to a property that reads only the window, the ratings, the items and the report queue
(`Outlives`): the owner's step decides. -/

namespace Sys2Proof.Machine

set_option Elab.async false

variable {free : List Block} {r m : List Cause} {but : List Law} {s t : State} {P : State → Prop}

/-- The property outlives every step that touches neither the window, the ratings, the report queue nor the items. -/
structure Outlives (P : State → Prop) : Prop where
  frame : ∀ {free r m s t}, Frame free r m s t → (∀ b ∈ plainBlocks, b ∉ free) → P s → P t

namespace Outlives

theorem lawful (k : Outlives P) (f : Lawful free r m s t but) (h : P s) (n : ∀ b ∈ plainBlocks, b ∉ free := by decide) : P t :=
  k.frame f.frame n h

theorem withFramer (k : Outlives P) (x : SerialLine) (kept : List Byte) (h : P s) : P (s.withFramer x kept) := by
  cases x with
  | cab => exact k.frame (State.withPort_frame (r := []) (m := []) s .cab _) (by decide) h
  | crew => exact k.frame (State.withPort_frame (r := []) (m := []) s .crew _) (by decide) h
  | radio => exact k.lawful (State.withRadio_lawful (r := []) (m := []) s _ fun q => q.radio.2.2.2) h

theorem takeRequest (k : Outlives P) (x : RequestLine) {code : Byte} {f : List Byte}
    (serves : ∀ j, requestOfCode code = some j → ∀ u b, P u → P (u.serve x b j f).1) (h : P s) :
    P (s.takeRequest x code f) := by
  have heard := k.lawful (State.heardOn_lawful (r := []) (m := []) s x) h
  have answered : P ((s.heardOn x).answer x s.set.heard code f).1 := by
    rcases (s.heardOn x).answer_cases x s.set.heard code f with ⟨e, a⟩ | ⟨j, e, -, -, a⟩
    · rwa [a]
    · rw [a]
      exact serves j e _ _ heard
  obtain ⟨p, e, -⟩ := ((s.heardOn x).answer x s.set.heard code f).1.respond_eq x
    (frameOf (((s.heardOn x).answer x s.set.heard code f).1.responseBody code
      ((s.heardOn x).answer x s.set.heard code f).2))
  have done := k.frame (State.withPort_frame (r := []) (m := []) _ x p) (by cases x <;> decide) answered
  unfold State.takeRequest
  dsimp only
  rw [e]
  split
  · exact k.lawful (State.afterRemovals_lawful _ _ _) done
  · exact done

theorem takeFrame (k : Outlives P) (x : RequestLine) {body : List Byte}
    (serves : ∀ code f, body = code :: f → ∀ j, requestOfCode code = some j → ∀ u b, P u → P (u.serve x b j f).1) (h : P s) :
    P (s.takeFrame x body) := by
  unfold State.takeFrame
  split
  · exact h
  · split
    · exact k.frame (State.withPort_frame (r := []) (m := []) s x _) (by cases x <;> decide) h
    · exact k.takeRequest x (serves _ _ rfl) h

/-- A request given whole is served by the owner of its kind. -/
theorem request (k : Outlives P) (x : RequestLine) {j : RequestKind} {f : List Byte}
    (serves : ∀ u b, P u → P (u.serve x b j f).1) (h : P s) : P (s.request x j f) := by
  have e : s.request x j f = (s.withFramer (serialOf x) []).takeFrame x (j.code :: f) := by cases x <;> rfl
  rw [e]
  refine k.takeFrame x (fun code g body i hi => ?_) (k.withFramer _ _ h)
  obtain ⟨rfl, rfl⟩ := List.cons.inj body
  obtain rfl := Option.some.inj ((requestOfCode_code j).symm.trans hi)
  exact serves

/-- A downlink given whole is heard by link supervision and, where it is accepted, handed to the owner of its kind. -/
theorem downlink (k : Outlives P) {j : DownlinkKind} (d : BitVec 16) {f : List Byte}
    (hands : ∀ u, P u → P (u.dispatchDownlink j f)) (h : P s) : P (s.downlink j d f) := by
  have heard := k.lawful (State.linkUp_lawful _) (k.withFramer .radio [] h)
  have code : downlinkOfCode j.code = some j := by cases j <;> rfl
  show P (State.takeDownlink _ (_ :: _ :: j.code :: f))
  unfold State.takeDownlink
  dsimp only
  rw [code]
  dsimp only
  split
  · exact hands _ heard
  · exact heard

end Outlives

end Sys2Proof.Machine
end

section
/-! PROOFS. Every step keeps every law (O5): each operation has its lemma in Laws/, and a record leaves the queue only by an
acknowledgement or a reset (`RadioUnit.Grows`). -/

namespace Sys2Proof.Machine

set_option Elab.async false

variable {free : List Block} {r m : List Cause} {but : List Law} {s t : State} {q u : RadioUnit}

/-! ### What joins the report queue -/

/-- Event records stay in the queue, in order, with new ones behind them; the lost tally does not fall and rises only at a full
queue (R167, R170). Unlike `RadioUnit.Queues` it leaves the burst in flight open. -/
structure RadioUnit.Grows (q u : RadioUnit) : Prop where
  events : q.eventRecords <+: u.eventRecords
  longer : q.queue.length ≤ u.queue.length
  tally : min 255 q.lost ≤ u.lost
  counted : u.lost = q.lost ∨ 32 ≤ u.queue.length

theorem RadioUnit.Queues.grows (h : q.Queues u) : q.Grows u := ⟨h.events, h.longer, h.tally, h.counted⟩

theorem RadioUnit.Grows.trans {v : RadioUnit} (h : q.Grows u) (k : u.Grows v) : q.Grows v where
  events := h.events.trans k.events
  longer := h.longer.trans k.longer
  tally := by
    have a := h.tally
    have b := k.tally
    omega
  counted := by
    have a := h.counted
    have b := k.counted
    have c := k.longer
    omega

theorem RadioUnit.Grows.of_same (hq : u.queue = q.queue) (hl : u.lost = q.lost) : q.Grows u where
  events := by rw [RadioUnit.eventRecords, RadioUnit.eventRecords, hq]
  longer := (congrArg List.length hq).ge
  tally := hl ▸ min_le_right _ _
  counted := .inl hl

theorem Frame.grows (f : Frame free r m s t) (h : Block.queue ∉ free := by decide) : s.radio.Grows t.radio := (f.records h).grows

theorem Lawful.grows (f : Lawful free r m s t but) (h : Block.queue ∉ free := by decide) : s.radio.Grows t.radio := f.frame.grows h

theorem RadioUnit.grows_outlives (q : RadioUnit) : Outlives fun s => q.Grows s.radio :=
  ⟨fun f n h => h.trans (f.grows (n _ (by decide)))⟩

/-- A POLL takes no record from the queue (R171 to R173). -/
theorem State.takePoll_grows (s : State) : s.radio.Grows s.takePoll.radio := by
  have same : s.takePoll.radio.queue = s.radio.queue ∧ s.takePoll.radio.lost = s.radio.lost := by
    unfold State.takePoll
    repeat' split
    all_goals exact ⟨rfl, rfl⟩
  exact .of_same same.1 same.2

/-- Of the request kinds RESTART alone may take records from the queue (R181). -/
theorem State.request_grows (s : State) (x : RequestLine) {k : RequestKind} (f : List Byte) (n : k ≠ .restart := by decide) :
    s.radio.Grows (s.request x k f).radio := by
  have h : Block.queue ∉ k.touches := by
    revert n
    cases k <;> decide
  exact s.radio.grows_outlives.request x (fun u b g => g.trans ((u.serve_lawful x b k f).grows h)) (.of_same rfl rfl)

/-- Of the downlinks ACK alone may (R174). -/
theorem State.downlink_grows (s : State) {k : DownlinkKind} (d : BitVec 16) (f : List Byte) (n : k ≠ .ack := by decide) :
    s.radio.Grows (s.downlink k d f).radio := by
  refine s.radio.grows_outlives.downlink d (fun u g => g.trans ?_) (.of_same rfl rfl)
  cases k with
  | poll => exact u.takePoll_grows
  | ack => exact absurd rfl n
  | authority => exact (u.takeAuthority_lawful f).grows
  | release => exact (u.takeRelease_lawful f).grows
  | restrictionSet => exact (u.takeRestrictionSet_lawful f).grows
  | restrictionClear => exact (u.takeRestrictionClear_lawful f).grows

/-- A command that does not retire records only lets records join (R167, R170). -/
theorem exec_grows {i : Instr} (n : mayRetire i = false) (h : exec i s = .next t) : s.radio.Grows t.radio := by
  have of : ∀ u, exec i s = .next u → s.radio.Grows u.radio → s.radio.Grows t.radio := fun u e g =>
    Host.Outcome.next.inj (e.symm.trans h) ▸ g
  cases i with
  | powerOnReset | restart | ack | downlinkDiscarded | requestDropped | unknownRequest | byteReceived | frameRejected =>
    simp [mayRetire] at n
  | phaseChange a b => exact of _ rfl (s.phaseChange_lawful a b).grows
  | markerPulse => exact of _ rfl s.markerPulse_lawful.grows
  | standstillTimerExpiry => exact of _ rfl s.standstillExpiry_lawful.grows
  | evaluationTimerExpiry => exact of _ rfl s.evaluationExpiry_lawful.grows
  | loopOpens => exact of _ rfl s.loopOpens_lawful.grows
  | loopCloses => exact of _ rfl (s.withLoop_lawful (r := []) (m := []) false).grows
  | cabTimerExpiry => exact of _ rfl s.cabExpiry_lawful.grows
  | periodEnd output => exact of _ rfl (s.outputEnds_lawful (r := []) (m := []) output).grows
  | scanTimerExpiry => exact of _ rfl (s.scanExpiry_lawful (r := []) (m := [])).grows
  | scanComplete words => exact of _ rfl (s.scanComplete_lawful words).grows
  | proofTimerExpiry => exact of _ rfl s.proofExpiry_lawful.grows
  | dwellTimerExpiry => exact of _ rfl s.dwellExpiry_lawful.grows
  | buttonPress door => exact of _ rfl (s.buttonPress_lawful door).grows
  | buttonRelease door => exact of _ rfl (s.withPins_lawful door _).grows
  | openSwitchMakes door => exact of _ rfl (s.openSwitchMakes_lawful door).grows
  | openSwitchBreaks door => exact of _ rfl (s.withPins_lawful door _).grows
  | closedSwitchMakes door => exact of _ rfl (s.closedSwitchMakes_lawful door).grows
  | closedSwitchBreaks door => exact of _ rfl (s.closedSwitchBreaks_lawful door).grows
  | motionTimerExpiry timer => exact of _ rfl (s.motionExpiry_lawful timer.door timer.limit).grows
  | radioTimerExpiry => exact of _ rfl s.radioExpiry_lawful.grows
  | positionTimerExpiry => exact of _ rfl (s.positionExpiry_lawful (r := []) (m := [])).grows
  | transmitComplete => exact of _ rfl (s.transmitComplete_lawful (r := []) (m := [])).grows
  | responseSent line =>
    exact of _ rfl ((s.responseSent_lawful (r := []) (m := []) line).grows (by cases line <;> decide))
  | poll d f | authority d f | release d f | restrictionSet d f | restrictionClear d f => exact of _ rfl (s.downlink_grows d f)
  | locate x f | direction x f | segment x f | endOfLine x f | readWindow x f | readAuthority x f | ackIntervention x f
  | driverBrake x f | park x f | proveNow x f | doorRelease x f | doorOpenReleased x f | doorClose x f | doorIsolate x f
  | doorUnisolate x f | status x f | configure x f | resume x f | quiesce x f => exact of _ rfl (s.request_grows x f)

/-! ### Every step -/

theorem exec_keepsTheLaws {i : Instr} (h : s.Sound) (e : exec i s = .next t) : t.Sound ∧ (s.Ordered → t.Ordered) := by
  obtain ⟨u, e', -, -, k⟩ := exec_next i s
  obtain rfl : u = t := Host.Outcome.next.inj (e'.symm.trans e)
  rcases k with ⟨pins, rfl⟩ | k
  · obtain rfl : s.powerOn pins = u := Host.Outcome.next.inj e
    exact ⟨s.powerOn_sound pins, fun _ => s.powerOn_ordered pins⟩
  · exact ⟨k.sound h, fun o => o.step k h⟩

/-- The waiting commands are no matter of the laws, nor is the clock. -/
theorem State.Sound.withPending (h : s.Sound) (l : List Instr) : (s.withPending l).Sound := ⟨h.1, h.2, h.3, h.4, h.5, h.6, h.7⟩

theorem State.Ordered.withPending (h : s.Ordered) (l : List Instr) : (s.withPending l).Ordered := ⟨h.1, h.2, h.3, h.4, h.5⟩

theorem State.Sound.withClock (h : s.Sound) (n : Nat) : (s.withClock n).Sound := ⟨h.1, h.2, h.3, h.4, h.5, h.6, h.7⟩

theorem State.Ordered.withClock (h : s.Ordered) (n : Nat) : (s.withClock n).Ordered := ⟨h.1, h.2, h.3, h.4, h.5⟩

theorem step_keepsTheLaws (h : s.Sound) (e : step s = .next t) : t.Sound ∧ (s.Ordered → t.Ordered) := by
  unfold step at e
  split at e
  · unfold idle at e
    split at e
    · exact exec_keepsTheLaws h e
    · obtain rfl := Host.Outcome.next.inj e
      exact ⟨h.withClock _, fun o => o.withClock _⟩
  · rename_i rest _
    obtain ⟨sound, ordered⟩ := exec_keepsTheLaws (h.withPending rest) e
    exact ⟨sound, fun o => ordered (o.withPending rest)⟩

/-- Settles O5. -/
theorem everyStepKeepsTheLaws : Obligations.EveryStepKeepsTheLaws :=
  ⟨fun _ _ => step_keepsTheLaws, fun _ _ _ n e =>
    have g := exec_grows n e
    ⟨g.events, g.tally, g.counted⟩⟩

end Sys2Proof.Machine
end

section
/-! PROOFS. Capability and barred flags follow the ratings (O39): what touches neither, and what takes records from the window, leaves
them those of the ratings; every change of a rating sets them anew (R34, R121). -/

namespace Sys2Proof.Machine

set_option Elab.async false

variable {free : List Block} {r m : List Cause} {but : List Law} {s t u : State} {g : Segment}

/-! ### Records and their flags -/

/-- The flags of a record are those of this capability (R34). -/
def Segment.FlagsOf (g : Segment) (cap : PerKind Nat) : Prop :=
  g.barredUp = g.isBarred cap .up ∧ g.barredDown = g.isBarred cap .down

theorem State.rated_iff : s.Rated ↔
    s.prov.capability = capabilityOf s.cfg.nominal s.prov.health ∧ ∀ g ∈ s.win.records, g.FlagsOf s.prov.capability := Iff.rfl

theorem Segment.withBarring_flagsOf (g : Segment) (cap : PerKind Nat) : (g.withBarring cap).FlagsOf cap := ⟨rfl, rfl⟩

theorem State.dropBehind_mem (h : g ∈ s.dropBehind.1.win.records) : g ∈ s.win.records := by
  unfold State.dropBehind at h
  split at h
  · exact h
  · dsimp only at h
    split at h
    · exact h
    · exact Window.drop_mem (w := s.win) h

theorem State.deriveWanted_mem (h : g ∈ s.deriveWanted.1.win.records) : g ∈ s.win.records := by
  unfold State.deriveWanted at h
  split at h
  · split at h <;> exact h
  · split at h
    · split at h
      · exact h
      · split at h
        · exact Window.drop_mem (w := s.win) h
        · exact h
    · exact h

/-- A recomputation of the window only takes records out (R26, R27). -/
theorem State.recomputeWindow_mem {b : Bool} (h : g ∈ (s.recomputeWindow b).win.records) : g ∈ s.win.records := by
  rw [State.recomputeWindow_win] at h
  exact State.dropBehind_mem (s := s.recount) (State.deriveWanted_mem h)

/-! ### What leaves the ratings alone -/

/-- The step keeps capability and barred flags those of the ratings. -/
abbrev Rates (s t : State) : Prop := s.Rated → t.Rated

theorem Rates.trans (f : Rates s t) (g : Rates t u) : Rates s u := g ∘ f

theorem State.rated_ite {c : Prop} [Decidable c] (f : t.Rated) (g : u.Rated) : (if c then t else u).Rated := by
  split
  · exact f
  · exact g

theorem Rates.foldl {α : Type} (f : State → α → State) (l : List α) (h : ∀ s a, Rates s (f s a)) (s : State) :
    Rates s (l.foldl f s) := by
  induction l generalizing s with
  | nil => exact id
  | cons a l ih => exact (h s a).trans (ih _)

/-- A step beside ratings and items leaves them, where every record it leaves was there or has its flags. -/
theorem Frame.rates_of (f : Frame free r m s t) (k : ∀ g ∈ t.win.records, g ∈ s.win.records ∨ g.FlagsOf s.prov.capability)
    (hr : Block.ratings ∉ free := by decide) (hc : Block.settings ∉ free := by decide) : Rates s t := by
  intro h
  have c : t.cfg = s.cfg := f.settings hc
  rw [State.rated_iff, f.capability hr, f.health hr, c]
  exact ⟨h.1, fun g hg => (k g hg).elim (h.2 g) id⟩

theorem Frame.rates (f : Frame free r m s t) (hw : Block.window ∉ free := by decide) (hr : Block.ratings ∉ free := by decide)
    (hc : Block.settings ∉ free := by decide) : Rates s t :=
  f.rates_of (fun g hg => .inl (by rwa [f.window hw] at hg)) hr hc

theorem Lawful.rates (f : Lawful free r m s t but) (hw : Block.window ∉ free := by decide)
    (hr : Block.ratings ∉ free := by decide) (hc : Block.settings ∉ free := by decide) : Rates s t := f.frame.rates hw hr hc

theorem State.rated_outlives : Outlives State.Rated :=
  ⟨fun f n => f.rates (n _ (by decide)) (n _ (by decide)) (n _ (by decide))⟩

theorem State.recomputeWindow_rates (s : State) (b : Bool) : Rates s (s.recomputeWindow b) :=
  (s.recomputeWindow_frame b).rates_of fun _ h => .inl (State.recomputeWindow_mem h)

/-- Another odometry state. -/
theorem State.withOdo_rates (s : State) (o : Odometry) : Rates s (s.withOdo o) :=
  (Frame.withOdo (raised := []) (removed := []) o).rates

/-! ### What changes a rating -/

/-- A recomputed capability brings the flags with it (R34, R121). -/
theorem State.recap_rated (s : State) : s.recap.Rated := by
  refine State.rated_iff.2 ⟨rfl, fun g hg => ?_⟩
  obtain ⟨x, -, rfl⟩ := List.mem_map.1 hg
  exact x.withBarring_flagsOf _

theorem State.rate_rated (s : State) (c : Channel) (h : Health) : (s.rate c h).Rated := State.recap_rated _

/-- Another state of the Proving Unit, with the ratings and the capability it had. -/
theorem State.withProv_rates (s : State) (x : Proving) (h1 : x.health = s.prov.health := by rfl)
    (h2 : x.capability = s.prov.capability := by rfl) : Rates s (s.withProv x) := fun h =>
  State.rated_iff.2 ⟨(h2.trans h.1).trans (congrArg _ h1.symm), fun g hg => h2 ▸ h.2 g hg⟩

theorem State.report_rates (s : State) (b : ReportBody) : Rates s (s.report b) := by
  unfold State.report
  split <;> exact id

theorem State.noticeIfCapabilityChanged_rates (s old : State) : Rates s (s.noticeIfCapabilityChanged old) :=
  (s.noticeIfCapabilityChanged_lawful old).rates

theorem State.testProof_rates (s : State) : Rates s s.testProof := (State.testProof_lawful (r := []) (m := []) s).rates

theorem State.emptyTried_rates (s : State) : Rates s s.emptyTried := (State.emptyTried_lawful (r := []) (m := []) s).rates

theorem State.resettle_rates (s : State) (c : Channel) : Rates s (s.resettle c) :=
  (State.resettle_lawful (r := []) (m := []) s c).rates

theorem State.recompute_rates (s : State) : Rates s s.recompute := s.recompute_lawful.rates

theorem State.evaluate_rates (s : State) : Rates s s.evaluate := s.evaluate_lawful.rates

theorem State.changeHealth_rated (s : State) (c : Channel) (h : Health) : (s.changeHealth c h).Rated :=
  State.noticeIfCapabilityChanged_rates _ _ (State.report_rates _ _ (s.rate_rated c h))

theorem State.degradeOwing_rates (s : State) : Rates s s.degradeOwing :=
  Rates.foldl _ _ (fun s c h => by
    split
    · exact s.changeHealth_rated c _
    · exact h) s

theorem State.concludeProof_rated (s : State) (c : Channel) (o : ProofOutcome) : (s.concludeProof c o).Rated := by
  unfold State.concludeProof
  dsimp only
  have judged := fun (u : State) x y b => State.report_rates _ b ((u.withProv x).rate_rated c y)
  exact State.testProof_rates _ (State.rated_ite (judged _ _ _ _)
    (State.noticeIfCapabilityChanged_rates _ _ (State.report_rates _ _ (judged _ _ _ _))))

theorem State.judgeProof_rates (s : State) (x : Proof) : Rates s (s.judgeProof x) := by
  unfold State.judgeProof
  dsimp only
  split
  · split
    · exact (s.withProv_rates _).trans (State.recombine_lawful (r := []) (m := []) _).rates
    · exact fun _ => s.concludeProof_rated _ _
  · exact fun _ => s.concludeProof_rated _ _

theorem State.dwellExpiry_rates (s : State) : Rates s s.dwellExpiry := by
  unfold State.dwellExpiry
  split
  · exact id
  · split
    · exact s.judgeProof_rates _
    · exact id

/-- What the proof timer and PROVE_NOW do alike: the counts, the degrading they ask for, the tried list (R118, R130). -/
theorem State.owe_rates (s : State) (o : PerChannel Nat) :
    Rates s (s.withProv { s.prov with owed := o }).degradeOwing.emptyTried :=
  ((s.withProv_rates _).trans (State.degradeOwing_rates _)).trans (State.emptyTried_rates _)

theorem State.proofExpiry_rates (s : State) : Rates s s.proofExpiry := by
  unfold State.proofExpiry
  split
  · exact ((s.owe_rates _).trans (State.withProv_rates _ _)).trans (State.testProof_rates _)
  · exact id

theorem State.proveNow_rates (s : State) : Rates s s.proveNow.1 := (s.owe_rates _).trans (State.testProof_rates _)

theorem State.failChannel_rated (s : State) (c : Channel) : (s.failChannel c).Rated := by
  unfold State.failChannel
  dsimp only
  have failed := fun (u : State) x => State.report_rates _ (.channelState c .failed)
    (State.testProof_rates _ ((u.withProv x).rate_rated c .failed))
  exact State.noticeIfCapabilityChanged_rates _ _
    ((State.raise_lawful (r := feedbackCauses) (m := [.overspeedService]) _ .brakeFeedback _).rates (by decide) (by decide)
      (by decide) (failed _ _))

theorem State.scanComplete_rates (s : State) (w : ScanWords) : Rates s (s.scanComplete w) := by
  have sampled := (State.withScan_lawful (r := []) (m := []) s (s.scan.take w)).rates.trans (State.recompute_rates _)
  have tracked := Rates.foldl State.trackDeviation channels
    (fun u c => (State.trackDeviation_lawful (r := []) (m := []) u c).rates) (s.withScan (s.scan.take w)).recompute
  have checked := Rates.foldl State.failChannel (channels.filter (s.withScan (s.scan.take w)).recompute.failsCheck)
    (fun u c _ => u.failChannel_rated c) (channels.foldl State.trackDeviation (s.withScan (s.scan.take w)).recompute)
  exact (((sampled.trans tracked).trans checked).trans (State.takeStepSample_lawful (r := []) (m := []) _).rates).trans
    (Rates.foldl _ _ (fun u d => (u.scanDoor_lawful d).rates) _)

/-! ### The car moves -/

theorem State.toothEvent_rates (s : State) (d : Vertical) : Rates s (s.toothEvent d) := by
  rw [State.toothEvent_eq]
  have head : Rates s (s.toothHead d) := by
    unfold State.toothHead
    dsimp only
    refine Rates.trans ?_ (State.recomputeInsideTooth_lawful _).rates
    refine Rates.trans ?_ (State.recomputeWindow_rates _ _)
    refine Rates.trans ?_ (State.evaluateTooth_lawful _).rates
    split
    · exact (s.withOdo_rates _).trans
        (State.raise_lawful (r := .rollback :: overspeeds) (m := [.overspeedService]) _ .rollback _).rates
    · exact s.withOdo_rates _
  exact ((head.trans (State.doorsTooth_lawful _ _).rates).trans (State.abandonProof_lawful (r := []) (m := []) _).rates).trans
    (State.emptyTried_rates _)

theorem State.phaseChange_rates (s : State) (a b : Bool) : Rates s (s.phaseChange a b) := by
  have keep := s.withOdo_rates { s.odo with phaseA := a, phaseB := b }
  unfold State.phaseChange
  dsimp only
  generalize s.withOdo { s.odo with phaseA := a, phaseB := b } = u at *
  split
  · exact keep
  · exact (keep.trans (State.withOdo_rates _ _)).trans (State.recomputeWindow_rates _ _)
  · split
    · exact keep.trans (State.toothEvent_rates _ _)
    · exact keep.trans (State.withOdo_rates _ _)
  · split
    · exact keep.trans (State.toothEvent_rates _ _)
    · exact keep.trans (State.withOdo_rates _ _)

theorem State.markerPulse_rates (s : State) : Rates s s.markerPulse := by
  unfold State.markerPulse
  split
  · exact s.report_rates _
  · exact (((s.withOdo_rates _).trans (State.evaluate_rates _)).trans (State.recomputeWindow_rates _ _)).trans
      (State.recomputeInside_lawful _).rates

theorem State.turn_rates (s : State) (x : Direction) : Rates s (s.turn x) :=
  ((s.withOdo_rates _).trans (State.recomputeWindow_rates _ _)).trans (State.evaluate_rates _)

theorem State.selectDirection_rates (s : State) (f : List Byte) : Rates s (s.selectDirection f).1 := by
  unfold State.selectDirection
  split
  · exact id
  · split
    · exact id
    · dsimp only
      split
      · exact id
      · exact s.turn_rates _

/-! ### The window's requests -/

/-- A window whose records were there or have their flags. -/
theorem State.withWin_rates (s : State) (w : Window)
    (k : ∀ g ∈ w.records, g ∈ s.win.records ∨ g.FlagsOf s.prov.capability) : Rates s (s.withWin w) :=
  (Frame.withWin (raised := []) (removed := []) w).rates_of k

theorem State.locate_rates (s : State) (f : List Byte) : Rates s (s.locate f).1 := by
  unfold State.locate
  dsimp only
  split
  · exact id
  · split
    · exact id
    · refine ((((s.withOdo_rates _).trans (State.withWin_rates _ _ ?_)).trans (State.recomputeWindow_rates _ _)).trans
        (State.recomputeInside_lawful _).rates).trans (State.evaluate_rates _)
      exact fun _ h => absurd h List.not_mem_nil

theorem Window.join_mem {w : Window} {x : Segment} (h : x ∈ (w.join g).records) : x ∈ w.records ∨ x = g := by
  unfold Window.join at h
  split at h
  · simpa using h
  · exact (List.mem_cons.1 h).symm
  · exact .inr (List.mem_singleton.1 h)

/-- A record joins with the flags of the present capability (R34). -/
theorem State.deliver_rates (s : State) (f : List Byte) : Rates s (s.deliver f).1 := by
  unfold State.deliver
  dsimp only
  split
  case h_1 notWanted => exact id
  split
  case isTrue otherNumber => exact id
  split
  case isTrue otherPlace => exact id
  split
  case h_1 badField => exact id
  split
  case isFalse crowded => exact id
  refine (s.withWin_rates _ fun x hx => ?_).trans (State.recomputeWindow_rates _ _)
  rcases Window.join_mem hx with old | rfl
  · exact .inl old
  · exact .inr (Segment.withBarring_flagsOf _ _)

theorem Window.endAt_records (w : Window) (e : Vertical) : (w.endAt e).records = w.records := by cases e <;> rfl

theorem State.endOfLine_rates (s : State) (f : List Byte) : Rates s (s.endOfLine f).1 := by
  unfold State.endOfLine
  split
  case h_2 notWanted => exact id
  split
  case isTrue otherNumber => exact id
  split
  case h_1 badField => exact id
  split
  case isTrue otherEdge => exact id
  refine (s.withWin_rates _ fun x hx => .inl ?_).trans (State.recomputeWindow_rates _ _)
  rwa [Window.endAt_records] at hx

/-! ### CONFIGURE and RESTART -/

theorem State.withItem_rates (s : State) {i : ConfigItem} (n : ∀ k, i ≠ .nominal k) (v : Nat) : Rates s (s.withItem i v) := by
  have same : (s.cfg.put i v).nominal = s.cfg.nominal := by
    cases i with
    | nominal k => exact absurd rfl (n k)
    | _ => rfl
  exact fun h => ⟨h.1.trans (congrArg (capabilityOf · s.prov.health) same.symm), h.2⟩

/-- An item other than a NOMINAL is taken up with the capability as it is, or with a rating set anew. -/
theorem State.takeUp_rates (s : State) {i : ConfigItem} (n : ∀ k, i ≠ .nominal k) : Rates s (s.takeUp i) := by
  cases i with
  | nominal k => exact absurd rfl (n k)
  | carLength | aheadLow | behindHigh => exact s.recomputeWindow_rates false
  | trainLength => exact (s.recomputeWindow_rates false).trans (State.evaluate_rates _)
  | maxSpeed | barredCreep | radioLossSpeed | react => exact s.evaluate_rates
  | rbShare | abShare | holdLevel | valvePeriod | motorPeriod | gangRack => exact s.recompute_rates
  | fullPressure c => exact (s.resettle_rates c).trans (State.recompute_rates _)
  | feedbackTol =>
    exact ((((s.resettle_rates .rb1).trans (State.resettle_rates _ .rb2)).trans (State.resettle_rates _ .ab1)).trans
      (State.resettle_rates _ .ab2)).trans (State.recompute_rates _)
  | proofPeriod => exact s.withProv_rates _
  | owedDegrade => exact s.degradeOwing_rates
  | radioTimeout =>
    simp only [State.takeUp]
    split <;> exact id
  | positionInterval | carAddress | groupMask | openDir | doorDuty | compGain | obstructLimit | rollbackLimit | burstCap
  | answerEmpty | listenOnly | summaryMask | cabTimeout => exact id

/-- A NOMINAL item taken up recomputes the capability (R121, R190). -/
theorem State.setItem_rates (s : State) (i : ConfigItem) (v : Nat) : Rates s ((s.withItem i v).takeUp i) := by
  by_cases n : ∃ k, i = .nominal k
  · obtain ⟨k, rfl⟩ := n
    exact fun _ => (State.noticeCapability_lawful _ _).rates (by decide) (by decide) (by decide) (State.recap_rated _)
  · have n : ∀ k, i ≠ .nominal k := fun k e => n ⟨k, e⟩
    exact (s.withItem_rates n v).trans (State.takeUp_rates _ n)

theorem State.configure_rates (s : State) (f : List Byte) : Rates s (s.configure f).1 := by
  unfold State.configure
  split
  · exact id
  · split
    · exact id
    · dsimp only
      split
      · dsimp only
        split
        · exact id
        · exact s.setItem_rates _ _
      · exact id

theorem State.restart_rates (s : State) : Rates s s.restart.1 := by
  have turned : Rates s s.restartRadio.restartOdometry := s.restartRadio_lawful.rates.trans (by
    unfold State.restartOdometry
    split
    · exact State.withOdo_rates _ _
    · exact State.turn_rates _ _)
  unfold State.restart
  split
  · exact id
  · dsimp only
    exact ((((((turned.trans (State.restartAuthority_lawful _).rates).trans (State.restartSet_lawful _).rates).trans
      (State.restartCombiner_lawful _).rates).trans (State.restartDoors_lawful _).rates).trans
      (State.abandonProof_lawful (r := []) (m := []) _).rates).trans (State.emptyTried_rates _)).trans (State.testProof_rates _)

/-! ### Every command -/

theorem State.serve_rates (s : State) (x : RequestLine) (b : Bool) (k : RequestKind) (f : List Byte) :
    Rates s (s.serve x b k f).1 := by
  have h := s.serve_lawful x b k f
  cases k with
  | locate => exact s.locate_rates f
  | direction => exact s.selectDirection_rates f
  | segment => exact s.deliver_rates f
  | endOfLine => exact s.endOfLine_rates f
  | configure => exact s.configure_rates f
  | restart => exact s.restart_rates
  | proveNow => exact s.proveNow_rates
  | status | readWindow | readAuthority | ackIntervention | driverBrake | park | resume | quiesce | doorRelease
  | doorOpenReleased | doorClose | doorIsolate | doorUnisolate => exact h.rates

theorem State.hand_rates (s : State) (x : SerialLine) (body : List Byte) : Rates s (s.hand x body) := by
  have line : ∀ y, Rates s (s.takeFrame y body) := fun y =>
    State.rated_outlives.takeFrame y fun _ _ _ _ _ u b => u.serve_rates y b _ _
  cases x with
  | cab => exact line .cab
  | crew => exact line .crew
  | radio => exact (s.takeDownlink_lawful body).rates

theorem State.received_rates (s : State) (x : SerialLine) (y : List (List Byte) × List Byte) : Rates s (s.received x y) :=
  Rates.trans (State.rated_outlives.withFramer x y.2) (Rates.foldl _ y.1 (fun u body => u.hand_rates x body) _)

theorem State.frame_rates (s : State) (x : SerialLine) (body : List Byte) : Rates s (s.frame x body) :=
  Rates.trans (State.rated_outlives.withFramer x []) (State.hand_rates _ x body)

/-- The reset tables hold the capability of four DEGRADED channels (R132). -/
theorem State.powerOn_rated (s : State) (p : PinLevels) : (s.powerOn p).Rated := by
  have tables : capabilityOf Settings.default.nominal { rb1 := .degraded, rb2 := .degraded, ab1 := .degraded, ab2 := .degraded }
      = { rack := 2000, adhesion := 550, entry := 1100 } := rfl
  unfold State.powerOn
  rw [State.heldInReset_endReset]
  exact State.testProof_rates _ ((State.testLoop_lawful _).rates (by decide) (by decide) (by decide)
    (State.recompute_rates _ ⟨tables.symm, fun _ h => absurd h List.not_mem_nil⟩))

theorem exec_rates {i : Instr} (h : exec i s = .next t) : Rates s t := by
  have of : ∀ u, exec i s = .next u → Rates s u → Rates s t := fun u e k =>
    Host.Outcome.next.inj (e.symm.trans h) ▸ k
  cases i with
  | powerOnReset pins => exact of _ rfl fun _ => s.powerOn_rated pins
  | phaseChange a b => exact of _ rfl (s.phaseChange_rates a b)
  | markerPulse => exact of _ rfl s.markerPulse_rates
  | proofTimerExpiry => exact of _ rfl s.proofExpiry_rates
  | dwellTimerExpiry => exact of _ rfl s.dwellExpiry_rates
  | scanComplete words => exact of _ rfl (s.scanComplete_rates words)
  | standstillTimerExpiry => exact of _ rfl s.standstillExpiry_lawful.rates
  | evaluationTimerExpiry => exact of _ rfl s.evaluationExpiry_lawful.rates
  | loopOpens => exact of _ rfl s.loopOpens_lawful.rates
  | loopCloses => exact of _ rfl (s.withLoop_lawful (r := []) (m := []) false).rates
  | cabTimerExpiry => exact of _ rfl s.cabExpiry_lawful.rates
  | periodEnd output => exact of _ rfl (s.outputEnds_lawful (r := []) (m := []) output).rates
  | scanTimerExpiry => exact of _ rfl (s.scanExpiry_lawful (r := []) (m := [])).rates
  | buttonPress door => exact of _ rfl (s.buttonPress_lawful door).rates
  | buttonRelease door => exact of _ rfl (s.withPins_lawful door _).rates
  | openSwitchMakes door => exact of _ rfl (s.openSwitchMakes_lawful door).rates
  | openSwitchBreaks door => exact of _ rfl (s.withPins_lawful door _).rates
  | closedSwitchMakes door => exact of _ rfl (s.closedSwitchMakes_lawful door).rates
  | closedSwitchBreaks door => exact of _ rfl (s.closedSwitchBreaks_lawful door).rates
  | motionTimerExpiry timer => exact of _ rfl (s.motionExpiry_lawful timer.door timer.limit).rates
  | radioTimerExpiry => exact of _ rfl s.radioExpiry_lawful.rates
  | positionTimerExpiry => exact of _ rfl (s.positionExpiry_lawful (r := []) (m := [])).rates
  | transmitComplete => exact of _ rfl (s.transmitComplete_lawful (r := []) (m := [])).rates
  | responseSent line =>
    exact of _ rfl ((s.responseSent_lawful (r := []) (m := []) line).rates (by cases line <;> decide)
      (by cases line <;> decide) (by cases line <;> decide))
  | byteReceived line byte => exact of _ rfl (s.received_rates line _)
  | frameRejected line last => cases last <;> exact of _ rfl (s.received_rates line _)
  | locate | direction | restart | segment | endOfLine | readWindow | readAuthority | ackIntervention | driverBrake | park
  | proveNow | doorRelease | doorOpenReleased | doorClose | doorIsolate | doorUnisolate | requestDropped | unknownRequest | status
  | configure | resume | quiesce | downlinkDiscarded | authority | restrictionSet | restrictionClear | release | poll
  | ack => exact of _ rfl (s.frame_rates _ _)

/-! ### The formulas of R34 and R121 -/

/-- The barred flag of a way of travel, as R34 computes it. -/
theorem Segment.isBarred_iff (g : Segment) (cap : PerKind Nat) (t : Vertical) :
    g.isBarred cap t = true
      ↔ (cap.get g.kind : Int) - ((max 0 (descendingGrade g.gradient t) * 9807 + 999) / 1000) < 100 := by
  unfold Segment.isBarred gravity Config.decelFloor
  rw [decide_eq_true_eq]
  generalize descendingGrade g.gradient t = grade
  generalize cap.get g.kind = c
  omega

theorem Health.quarters_eq (x : Health) : x.quarters = match x with | .healthy => 2 | .degraded => 1 | .failed => 0 := by
  cases x <;> rfl

/-- Settles O39. -/
theorem capabilityFollowsTheRatings : Obligations.CapabilityFollowsTheRatings := by
  refine ⟨fun _ _ _ h e => exec_rates e h, fun s h => ?_⟩
  obtain ⟨capability, flags⟩ := State.rated_iff.1 h
  refine ⟨?_, ?_, ?_, fun g hg => ?_⟩
  · rw [capability]; simp only [capabilityOf, quartersOf, Health.quarters_eq]; rfl
  · rw [capability]; simp only [capabilityOf, quartersOf, Health.quarters_eq]; rfl
  · rw [capability]; simp only [capabilityOf, quartersOf, Health.quarters_eq]; rfl
  · obtain ⟨up, down⟩ := flags g hg
    exact ⟨by rw [up]; exact g.isBarred_iff _ .up, by rw [down]; exact g.isBarred_iff _ .down⟩

end Sys2Proof.Machine
end

section
/-! PROOFS. The 19 bytes of a record read back as they are delivered (O17): each field of the layout of 11.3 stands at its
offset. -/

namespace Sys2Proof.Machine

set_option Elab.async false

variable {g : Segment}

/-! ### Fields of a layout -/

/-- A field behind the first bytes of a layout. -/
theorem field_skip {a l : List Byte} {o k : Nat} (h : a.length ≤ o) : field (a ++ l) o k = field l (o - a.length) k := by
  simp [field, List.drop_append, List.drop_eq_nil_of_le h]

theorem field_bytesOf (k n : Nat) (l : List Byte) : field (bytesOf k n ++ l) 0 k = n % 256 ^ k := by
  rw [← valueOf_bytesOf, field, List.drop_zero, List.take_left' (bytesOf_length k n)]

theorem field_bytesOf_last (k n : Nat) : field (bytesOf k n) 0 k = n % 256 ^ k := by
  simpa using field_bytesOf k n []

/-! ### The layout of a record -/

/-- The platform's id and side code as READ_WINDOW sends them, 0 for an absent part (R196). -/
def Segment.station (g : Segment) : Nat × Nat :=
  match g.platform with
  | none => (0, 0)
  | some x => (x.id, x.side.code)

/-- The byte of marks at offset 14: platform and marker present, the two barred flags. -/
def Segment.marks (g : Segment) : Nat :=
  bit g.platform.isSome + 2 * bit g.marker.isSome + 4 * bit g.barredUp + 8 * bit g.barredDown

/-- A record's bytes are its numbers, each of its size, in the order of 11.3. -/
theorem Segment.bytes_eq (g : Segment) : g.bytes =
    bytesOf 2 g.number ++ (bytesOf 3 g.start ++ (bytesOf 2 g.length ++ (bytesOf 1 g.kind.code
      ++ (bytesOf 2 (g.gradient % 65536).toNat ++ (bytesOf 2 g.limitUp ++ (bytesOf 2 g.limitDown ++ (bytesOf 1 g.marks
      ++ (bytesOf 1 g.station.1 ++ (bytesOf 1 g.station.2 ++ bytesOf 2 (g.marker.getD 0)))))))))) := by
  have byte : ∀ n, bytesOf 1 n = [byteOf n] := fun n => by simp [bytesOf, byteOf]
  simp only [byte]
  unfold Segment.bytes signedBytes Segment.station Segment.marks
  simp only [List.append_assoc]
  cases g.platform <;> rfl

theorem Segment.bytes_length (g : Segment) : g.bytes.length = 19 := by
  simp only [Segment.bytes_eq, List.length_append, bytesOf_length]

/-- Each field of a record's bytes is its number, as far as its size goes. -/
theorem Segment.bytes_fields (g : Segment) :
    field g.bytes 0 2 = g.number % 256 ^ 2 ∧ field g.bytes 2 3 = g.start % 256 ^ 3 ∧ field g.bytes 5 2 = g.length % 256 ^ 2
      ∧ field g.bytes 7 1 = g.kind.code % 256 ^ 1 ∧ field g.bytes 8 2 = (g.gradient % 65536).toNat % 256 ^ 2
      ∧ field g.bytes 10 2 = g.limitUp % 256 ^ 2 ∧ field g.bytes 12 2 = g.limitDown % 256 ^ 2
      ∧ field g.bytes 14 1 = g.marks % 256 ^ 1 ∧ field g.bytes 15 1 = g.station.1 % 256 ^ 1
      ∧ field g.bytes 16 1 = g.station.2 % 256 ^ 1 ∧ field g.bytes 17 2 = g.marker.getD 0 % 256 ^ 2 := by
  rw [Segment.bytes_eq]
  simp (disch := simp [bytesOf_length]) only [field_skip, bytesOf_length, field_bytesOf, field_bytesOf_last, Nat.reduceSub,
    and_self]

theorem TrackKind.code_lt (k : TrackKind) : k.code < 256 := by cases k <;> decide

theorem PlatformSide.code_lt (x : PlatformSide) : x.code < 256 := by cases x <;> decide

/-- Bits 0 and 1 of the marks say whether a platform and a marker are present. -/
theorem marks_testBit : ∀ a b c d : Bool, ((bit a + 2 * bit b + 4 * bit c + 8 * bit d) % 256 ^ 1).testBit 0 = a
    ∧ ((bit a + 2 * bit b + 4 * bit c + 8 * bit d) % 256 ^ 1).testBit 1 = b := by decide

/-- A gradient of R20 reads back from its two's complement. -/
theorem signed16_of_gradient {n : Int} (h : -500 ≤ n) (k : n ≤ 500) : signed16 ((n % 65536).toNat % 256 ^ 2) = n := by
  unfold signed16
  split <;> omega

/-- Settles O17. -/
theorem recordsReadAsTheyAreDelivered : Obligations.RecordsReadAsTheyAreDelivered := by
  intro g number short long ends steepDown steepUp up down station offset
  obtain ⟨f0, f2, f5, f7, f8, f10, f12, f14, f15, f16, f17⟩ := g.bytes_fields
  obtain ⟨present, marked⟩ := marks_testBit g.platform.isSome g.marker.isSome g.barredUp g.barredDown
  refine ⟨g.bytes_length, ?_⟩
  constructor
  case number => omega
  case start => omega
  case length => omega
  case kind => rw [f7, pow_one, Nat.mod_eq_of_lt g.kind.code_lt]
  case gradient => rw [f8, signed16_of_gradient steepDown steepUp]
  case limitUp => omega
  case limitDown => omega
  case platform => rw [f14]; exact present
  case station =>
    intro x e
    obtain ⟨one, byte⟩ := station x e
    have side := x.side.code_lt
    rw [f15, f16, Segment.station, e]
    dsimp only
    exact ⟨by omega, by omega, one⟩
  case marker => rw [f14]; exact marked
  case offset =>
    intro o e
    have inside := offset o e
    rw [f17, e, Option.getD_some]
    exact ⟨by omega, inside⟩
  case lengths => exact ⟨short, long⟩
  case ends => exact ends
  case gradients => exact ⟨steepDown, steepUp⟩
  case limits => exact ⟨up, down⟩

end Sys2Proof.Machine
end

section
/-! PROOFS. What a recomputation leaves of the records and end-flags it found (R24 to R28), and with it SEGMENT and END_OF_LINE
at the wanted edge (O16, O18). -/

namespace Sys2Proof.Machine

set_option Elab.async false

variable {s u : State} {v w x : Window} {f : List Byte} {g : Segment}

/-! ### Records that leave at the trailing edge -/

/-- What is left of the window `v` when the `k` records farthest at the trailing edge leave it: a record that leaves clears the
end-flag of its edge (R26, R28). -/
structure State.Sheds (s : State) (k : Nat) (v w : Window) : Prop where
  records : w.records = s.without k v.records
  endUp : w.endUp = (v.endUp && !decide (s.odo.direction = .down ∧ k ≠ 0))
  endDown : w.endDown = (v.endDown && !decide (s.odo.direction = .up ∧ k ≠ 0))
  located : w.located = v.located

theorem State.without_zero (s : State) (l : List Segment) : s.without 0 l = l := by
  unfold State.without
  split <;> simp

theorem State.without_without (s : State) (j k : Nat) (l : List Segment) : s.without k (s.without j l) = s.without (j + k) l := by
  unfold State.without
  split
  · exact List.drop_drop
  · rw [List.length_take, List.take_take]
    congr 1
    omega
  · rfl

theorem State.Sheds.refl (s : State) (v : Window) : s.Sheds 0 v v :=
  ⟨(s.without_zero _).symm, by simp, by simp, rfl⟩

/-- No record left an edge in two steps together: in neither of them. -/
theorem not_left_and_not_left (edge : Prop) [Decidable edge] (j k : Nat) :
    (!decide (edge ∧ j ≠ 0) && !decide (edge ∧ k ≠ 0)) = !decide (edge ∧ j + k ≠ 0) := by
  by_cases at' : edge
  · cases j <;> simp [at']
  · simp [at']

theorem State.Sheds.trans {j k : Nat} (a : s.Sheds j v w) (b : s.Sheds k w x) : s.Sheds (j + k) v x where
  records := by rw [b.records, a.records, s.without_without]
  endUp := by rw [b.endUp, a.endUp, Bool.and_assoc, not_left_and_not_left]
  endDown := by rw [b.endDown, a.endDown, Bool.and_assoc, not_left_and_not_left]
  located := b.located.trans a.located

theorem State.Sheds.of_same {k : Nat} (h : s.Sheds k v w) (hr : x.records = w.records) (hu : x.endUp = w.endUp)
    (hd : x.endDown = w.endDown) (hl : x.located = w.located) : s.Sheds k v x :=
  ⟨hr.trans h.records, hu.trans h.endUp, hd.trans h.endDown, hl.trans h.located⟩

/-- Which records leave hangs on the position, the direction and the settings alone. -/
theorem State.without_congr (o : u.odo = s.odo) : u.without = s.without := by
  funext k l
  rw [State.without, State.without, o]

theorem State.behindAmong_congr (o : u.odo = s.odo) (c : u.cfg = s.cfg) : u.behindAmong = s.behindAmong := by
  funext l
  rw [State.behindAmong, State.behindAmong, o, c]

theorem State.Sheds.congr {k : Nat} (h : u.Sheds k v w) (o : u.odo = s.odo) : s.Sheds k v w :=
  ⟨State.without_congr o ▸ h.records, o ▸ h.endUp, o ▸ h.endDown, h.located⟩

theorem State.Retains.congr {l : List Segment} {a b : Bool} (h : u.Retains l a b w) (o : u.odo = s.odo) (c : u.cfg = s.cfg) :
    s.Retains l a b w := by
  unfold State.Retains at h ⊢
  rwa [State.without_congr o, State.behindAmong_congr o c, o, c] at h

theorem Window.drop_sheds {t : Vertical} (h : s.odo.direction.travel = some t) (v : Window) (k : Nat) :
    s.Sheds k v (v.drop t.opposite k) := by
  unfold Window.drop
  split
  case isTrue zero => exact zero ▸ State.Sheds.refl s v
  case isFalse some =>
    have way := Direction.travel_eq_some.1 h
    cases t <;> constructor <;> simp_all [Vertical.opposite, State.without]

theorem State.behindRecords_length (s : State) : s.behindRecords.length = s.behindAmong s.win.records := by
  unfold State.behindRecords State.behindAmong
  cases s.odo.direction <;> rfl

/-! ### The steps of a recomputation -/

theorem State.dropBehind_withWin (s : State) : s.dropBehind.1 = s.withWin s.dropBehind.1.win := by
  unfold State.dropBehind
  split
  · rfl
  · dsimp only
    split <;> rfl

/-- The records behind beyond BEHIND_HIGH leave (R26). -/
theorem State.dropBehind_sheds (c : s.win.behind = s.behindAmong s.win.records) :
    s.Sheds (s.behindAmong s.win.records - s.cfg.behindHigh) s.win s.dropBehind.1.win := by
  unfold State.dropBehind
  split
  case h_1 still =>
    have none : s.behindAmong s.win.records = 0 := by
      unfold State.behindAmong
      cases d : s.odo.direction <;> simp_all [Direction.travel]
    simpa [none] using State.Sheds.refl s s.win
  case h_2 t way =>
    rw [← c]
    dsimp only
    split
    case isTrue zero => rw [zero]; exact State.Sheds.refl s s.win
    case isFalse => exact (Window.drop_sheds way s.win _).of_same rfl rfl rfl rfl

/-- What deriving the request leaves: the window with the request, or one record fewer of a full window (R24, R27). -/
theorem State.deriveWanted_cases (s : State) :
    (∃ r, s.deriveWanted.1.win = { s.win with wanted := r } ∧ (∀ n e, r = .byNumber n e → s.neededNext = some (n, e))
        ∧ ∀ n e, r = .pinned n e → s.neededNext = some (n, e) ∧ 32 ≤ s.win.records.length ∧ s.win.behind = 0)
      ∨ ∃ n e, s.neededNext = some (n, e) ∧ 32 ≤ s.win.records.length ∧ 1 ≤ s.win.behind
        ∧ s.deriveWanted.1.win.wanted = .byNumber n e ∧ s.Sheds 1 s.win s.deriveWanted.1.win := by
  unfold State.deriveWanted
  split
  · refine .inl ?_
    split <;> exact ⟨_, rfl, by simp, by simp⟩
  · split
    case h_1 n e t needed way =>
      split
      case isTrue room =>
        exact .inl ⟨_, rfl, by simpa using needed, by simp⟩
      case isFalse full =>
        have full : 32 ≤ s.win.records.length := Nat.not_lt.1 full
        split
        case isTrue one =>
          exact .inr ⟨n, e, needed, full, one, rfl, (Window.drop_sheds way s.win 1).of_same rfl rfl rfl rfl⟩
        case isFalse none =>
          exact .inl ⟨_, rfl, by simp, fun m d h => by simp_all⟩
    case h_2 => exact .inl ⟨_, rfl, by simp, by simp⟩

theorem State.neededNext_open {n : Nat} {e : Vertical} (h : s.neededNext = some (n, e)) : s.win.endFlag e = false := by
  unfold State.neededNext at h
  split at h
  · cases h
  · dsimp only at h
    split at h
    case h_1 reaches =>
      cases h
      simp_all
    case h_2 =>
      split at h
      case isTrue ahead =>
        obtain ⟨_, -, same⟩ := Option.map_eq_some_iff.1 h
        cases same
        exact ahead.2
      case isFalse => cases h

/-- An end-flag that is clear stays clear while records leave. -/
theorem State.Sheds.endFlag_clear {k : Nat} (h : s.Sheds k v w) {e : Vertical} (clear : v.endFlag e = false) :
    w.endFlag e = false := by
  cases e with
  | up => exact h.endUp.trans (Bool.and_eq_false_iff.2 (.inl clear))
  | down => exact h.endDown.trans (Bool.and_eq_false_iff.2 (.inl clear))

/-- Nothing is asked for at an edge whose end-flag is set (R24, R32). -/
theorem State.deriveWanted_open {n : Nat} {e : Vertical}
    (h : s.deriveWanted.1.win.wanted = .byNumber n e ∨ s.deriveWanted.1.win.wanted = .pinned n e) :
    s.deriveWanted.1.win.endFlag e = false := by
  obtain ⟨r, win, byNumber, pinned⟩ | ⟨m, d, needed, -, -, wanted, sheds⟩ := s.deriveWanted_cases
  · rw [win] at h ⊢
    have needed : s.neededNext = some (n, e) := h.elim (byNumber n e) fun p => (pinned n e p).1
    have clear := State.neededNext_open needed
    cases e <;> exact clear
  · rw [wanted] at h
    obtain ⟨rfl, rfl⟩ : m = n ∧ d = e := by simpa using h
    exact sheds.endFlag_clear (State.neededNext_open needed)

/-! ### A recomputation taken whole -/

/-- A recomputation leaves what R26 to R28 say, whatever the window held. -/
theorem State.recomputeWindow_retains (s : State) (b : Bool) :
    s.Retains s.win.records s.win.endUp s.win.endDown (s.recomputeWindow b).win
      ∧ (s.recomputeWindow b).win.located = s.win.located := by
  rw [State.recomputeWindow_win]
  have first : s.Sheds (s.behindAmong s.win.records - s.cfg.behindHigh) s.win s.recount.dropBehind.1.win := by
    have h := State.dropBehind_sheds (s := s.recount) s.behindRecords_length
    rw [State.behindAmong_congr (s := s) (u := s.recount) rfl rfl] at h
    obtain ⟨records, endUp, endDown, located⟩ := h.congr (s := s) rfl
    exact ⟨records, endUp, endDown, located⟩
  have counted := State.dropBehind_behind (s := s.recount) rfl
  rw [State.behindRecords_length] at counted
  rw [State.dropBehind_withWin] at counted ⊢
  generalize s.recount.dropBehind.1.win = w at first counted ⊢
  have behind : w.behind = s.behindAmong w.records := counted
  obtain ⟨r, win, -, pinned⟩ | ⟨n, e, -, full, one, wanted, shed⟩ := (s.withWin w).deriveWanted_cases
  · have win : ((s.recount.withWin w).deriveWanted).1.win = { w with wanted := r } := win
    rw [win]
    refine ⟨⟨_, first.records, .inl rfl, first.endUp, first.endDown, fun n e h => ?_⟩, first.located⟩
    obtain ⟨-, full, none⟩ := pinned n e h
    exact ⟨full, behind.symm.trans none⟩
  · have both : s.Sheds _ s.win (s.recount.withWin w).deriveWanted.1.win := first.trans (shed.congr (s := s) rfl)
    refine ⟨⟨_, both.records, .inr ⟨rfl, ?_, ?_, n, e, wanted⟩, both.endUp, both.endDown, fun m d h => ?_⟩, both.located⟩
    · exact first.records ▸ full
    · exact first.records ▸ behind ▸ one
    · exact absurd (h.symm.trans wanted) (by simp)

theorem State.recomputeWindow_open {b : Bool} {n : Nat} {e : Vertical}
    (h : (s.recomputeWindow b).win.wanted = .byNumber n e ∨ (s.recomputeWindow b).win.wanted = .pinned n e) :
    (s.recomputeWindow b).win.endFlag e = false := by
  rw [State.recomputeWindow_win] at h ⊢
  exact State.deriveWanted_open h

/-! ### SEGMENT -/

/-- The bytes of a record say everything but its barred flags. -/
theorem Delivers.withBarring_eq {h : Segment} (a : Delivers f g) (b : Delivers f h) (c : PerKind Nat) :
    g.withBarring c = h.withBarring c := by
  have kind : g.kind = h.kind := Option.some.inj ((kindOfCode_eq.2 a.kind.symm).symm.trans (kindOfCode_eq.2 b.kind.symm))
  have platform : g.platform = h.platform := by
    have present := a.platform.symm.trans b.platform
    cases e : g.platform with
    | none => rw [e] at present; exact (Option.isSome_eq_false_iff.1 present.symm |> Option.isNone_iff_eq_none.1).symm
    | some x =>
      obtain ⟨y, k⟩ := Option.isSome_iff_exists.1 (present.symm.trans (by rw [e]; rfl))
      obtain ⟨id, side, one⟩ := a.station x e
      obtain ⟨id', side', -⟩ := b.station y k
      have first : 1 ≤ field f 15 1 := id ▸ one
      have same := (platformOf_eq (y := (_, _)).2 ⟨first, id, side⟩).symm.trans (platformOf_eq.2 ⟨first, id', side'⟩)
      rw [k, ← Option.some.inj same]
  have marker : g.marker = h.marker := a.marker_eq.symm.trans b.marker_eq
  have bars : ∀ t, g.isBarred c t = h.isBarred c t := fun t => by
    rw [Segment.isBarred, Segment.isBarred, kind, a.gradient, b.gradient]
  simp only [Segment.withBarring, bars, kind, platform, marker, a.number, b.number, a.start, b.start, a.length, b.length,
    a.gradient, b.gradient, a.limitUp, b.limitUp, a.limitDown, b.limitDown]

/-- A delivery that passes the checks of R30 joins, and the window recomputes (R31). -/
theorem State.deliver_accepted (d : Delivers f g) (asks : s.Wants g)
    (far : ∀ o ∈ g.marker, ∀ m ∈ s.win.markers, 20 ≤ gap (g.start + o) m) :
    s.deliver f
      = ((s.withWin (s.win.join (g.withBarring s.prov.capability))).recomputeWindow true,
          .done ([byteOf (bit (g.withBarring s.prov.capability).barredUp),
            byteOf (bit (g.withBarring s.prov.capability).barredDown),
            byteOf ((s.withWin (s.win.join (g.withBarring s.prov.capability))).recomputeWindow true).win.records.length])) := by
  unfold State.Wants at asks
  rw [d.number, d.start, d.length] at asks
  obtain ⟨served, placed⟩ := (State.asks_iff (d := deliveryOf f)).1 asks
  obtain ⟨r, record, start, marker⟩ := record_of_delivers d
  have spaced : s.win.spaced r = true := Window.spaced_iff.2 fun m at' n hn => by
    rw [Segment.markerAt, marker, start] at at'
    obtain ⟨o, ho, rfl⟩ := Option.map_eq_some_iff.1 at'
    exact far o ho n hn
  unfold State.deliver
  rw [served]
  simp only [ne_eq, not_true_eq_false, if_false, placed, Bool.true_eq_false, record, spaced, if_true,
    (delivers_of_record record).withBarring_eq d]
  simp [bytesOf, byteOf]

/-- Settles O16. -/
theorem deliveredSegmentsJoinTheWindow : Obligations.DeliveredSegmentsJoinTheWindow := by
  intro s f g can size delivers wants far h joined
  obtain ⟨p, made, served⟩ := State.request_serves s .cab .segment f can rfl size (by decide)
  obtain ⟨odo, win, -, -, -, -, -, prov, -, -, -, cfg, -, -⟩ := s.heardAt_keeps .cab
  have wants' : (s.heardAt .cab).Wants g := by
    unfold State.Wants State.Asks at wants ⊢
    rwa [win]
  have done : (s.heardAt .cab).serve .cab s.set.heard .segment f = _ :=
    State.deliver_accepted delivers wants' (win ▸ far)
  rw [prov, win] at done
  rw [done] at made served
  have join : (s.win.join h).records = joined := by
    simp only [joined, Window.join]
    cases s.win.wanted with
    | byNumber n e => cases e <;> rfl
    | none | byPosition n x | pinned n e => rfl
  have kept : (s.win.join h).endUp = s.win.endUp ∧ (s.win.join h).endDown = s.win.endDown
      ∧ (s.win.join h).located = s.win.located := by
    unfold Window.join
    split <;> exact ⟨rfl, rfl, rfl⟩
  obtain ⟨retains, located⟩ := ((s.heardAt .cab).withWin (s.win.join h)).recomputeWindow_retains true
  rw [State.withWin_win, join, kept.1, kept.2.1] at retains
  refine ⟨_, congrArg Host.Outcome.next made, retains.congr odo cfg, ?_,
    (State.withPort_placed _ .cab p).counted (State.recomputeWindow_counted _ _), served⟩
  exact located.trans kept.2.2

/-! ### END_OF_LINE -/

theorem State.endOfLine_accepted {e : Vertical} (w : s.win.wanted = .byNumber (field f 0 2) e)
    (edge : field f 2 1 = verticalCode e) :
    s.endOfLine f = ((s.withWin (s.win.endAt e)).recomputeWindow true, .done []) := by
  simp [State.endOfLine, w, verticalOfCode_eq.2 edge]

/-- Settles O18. -/
theorem endOfLineClosesTheEdge : Obligations.EndOfLineClosesTheEdge := by
  intro s f n e can size wanted number edge
  obtain ⟨p, made, served⟩ := State.request_serves s .cab .endOfLine f can rfl size (by decide)
  obtain ⟨odo, win, -, -, -, -, -, -, -, -, -, cfg, -, -⟩ := s.heardAt_keeps .cab
  have done : (s.heardAt .cab).serve .cab s.set.heard .endOfLine f = _ :=
    State.endOfLine_accepted (by rw [win, wanted, number]) edge
  rw [done, win] at made served
  have flags : (s.win.endAt e).records = s.win.records ∧ (s.win.endAt e).endUp = (s.win.endUp || decide (e = .up))
      ∧ (s.win.endAt e).endDown = (s.win.endDown || decide (e = .down)) ∧ (s.win.endAt e).located = s.win.located := by
    cases e <;> simp [Window.endAt]
  obtain ⟨records, up, down, located⟩ := flags
  obtain ⟨retains, same⟩ := ((s.heardAt .cab).withWin (s.win.endAt e)).recomputeWindow_retains true
  rw [State.withWin_win, records, up, down] at retains
  refine ⟨_, congrArg Host.Outcome.next made, retains.congr odo cfg, fun set m => ⟨fun asked => ?_, fun asked => ?_⟩,
    same.trans located, (State.withPort_placed _ .cab p).counted (State.recomputeWindow_counted _ _), served⟩
  · exact Bool.false_ne_true ((State.recomputeWindow_open (.inl asked)).symm.trans set)
  · exact Bool.false_ne_true ((State.recomputeWindow_open (.inr asked)).symm.trans set)

end Sys2Proof.Machine
end

section
/-! PROOFS. The three readings answer and change nothing (O55). -/

namespace Sys2Proof.Machine

set_option Elab.async false

variable {s t : State} {f : List Byte} {x : RequestLine}

/-! ### What stands behind the header of STATUS -/

theorem byte_eq (n : Nat) : bytesOf 1 n = [byteOf n] := by simp [bytesOf, byteOf]

theorem Entry.bytes_length (e : Entry) : e.bytes.length = 12 := by
  simp [Entry.bytes, bytesOf_length]

theorem State.statusFixed_length (s : State) (x : RequestLine) : (s.statusFixed x).length = 42 := by
  simp [State.statusFixed, bytesOf_length, channels, allDoors]

/-- The oldest six entries take 12 bytes each. -/
theorem oldestEntries_length (l : List Entry) : ((l.take 6).flatMap Entry.bytes).length = 12 * min l.length 6 := by
  rw [List.length_flatMap, List.map_congr_left fun e _ => e.bytes_length, List.map_const', List.sum_replicate,
    List.length_take, smul_eq_mul, Nat.min_comm, Nat.mul_comm]

/-- The hearing marks entries and removes none (R89). -/
theorem State.heardAt_entries_length (s : State) (x : RequestLine) :
    (s.heardAt x).set.entries.length = s.set.entries.length := by
  cases x with
  | cab =>
    obtain ⟨-, -, -, -, -, -, -, -, -, -, -, -, set, -⟩ := State.hearCab_keeps (s.withFramer .cab [])
    exact (congrArg (fun i => i.entries.length) set).trans (List.length_map _)
  | crew => rfl

/-- A response leaves the overflow tally of its line. -/
theorem Port.Given.overflow {p q : Port} {now : Nat} {frame : List Byte} (h : p.Given q x now frame) :
    q.overflow = p.overflow := by
  unfold Port.Given at h
  split at h <;> rw [h]

/-- STATUS reads of the port no more than its overflow tally. -/
theorem State.statusFixed_withPort (s : State) (x : RequestLine) {p : Port} (h : p.overflow = (s.line.port x).overflow) :
    (s.withPort x p).statusFixed x = s.statusFixed x := by
  have tally : (((s.withPort x p).line).port x).overflow = (s.line.port x).overflow := by
    rw [State.withPort_line, LineUnit.port_withPort, if_pos rfl, h]
  have op : (s.withPort x p).line.opState = s.line.opState := LineUnit.withPort_opState _ _ _
  unfold State.statusFixed State.statusByte
  rw [tally, op]
  rfl

/-- STATUS as the state after it stands (R194, R197). -/
theorem State.status_answersOnly (can : s.CanTake x) :
    AnsweredOnly s (s.request x .status []) x 0x01#8
        (.done ((s.request x .status []).statusFixed x ++ ((s.request x .status []).set.entries.take 6).flatMap Entry.bytes))
      ∧ (s.request x .status []).set.entries.length = s.set.entries.length := by
  have only := State.request_answersOnly .status can (by cases x <;> rfl) rfl (by decide)
    (show (s.heardAt x).serve x s.set.heard .status [] = (s.heardAt x, _) from rfl)
  obtain ⟨p, made⟩ := only.kept
  have tally : p.overflow = ((s.heardAt x).line.port x).overflow := by
    have given := Port.Given.overflow only.answered
    rw [made, State.withPort_line, LineUnit.port_withPort, if_pos rfl] at given
    rw [State.heardAt_port, given]
  have set : (s.request x .status []).set = (s.heardAt x).set := by rw [made, State.withPort_set]
  have fixed : (s.request x .status []).statusFixed x = (s.heardAt x).statusFixed x := by
    rw [made, State.statusFixed_withPort _ x tally]
  rw [fixed, set]
  exact ⟨only, s.heardAt_entries_length x⟩

/-! ### READ_WINDOW and READ_AUTHORITY -/

/-- A slot of the window as READ_WINDOW returns it. -/
def Window.slot (w : Window) (i : Nat) : List Byte :=
  match w.records[i]? with
  | none => List.replicate 20 0#8
  | some g => 1#8 :: g.bytes

theorem State.readWindow_slot (h : field f 0 1 ≤ 31) : s.readWindow f = (s, .done (s.win.slot (field f 0 1)
    ++ [byteOf s.win.records.length, byteOf s.win.ahead, byteOf s.win.behind
      , byteOf (bit s.win.endUp + 2 * bit s.win.endDown)])) := by
  rw [State.readWindow, if_neg (Nat.not_lt.2 h), Window.slot]
  simp only [byte_eq, List.append_assoc]
  cases s.win.records[field f 0 1]? <;> rfl

theorem State.readAuthority_bytes (s : State) : s.readAuthority = (s, .done
    (bytesOf 3 s.auth.a.low ++ bytesOf 3 s.auth.a.high ++ bytesOf 3 s.auth.b.low ++ bytesOf 3 s.auth.b.high
      ++ [byteOf s.auth.id, byteOf (bit s.auth.inside + 2 * bit s.auth.inA + 4 * bit s.auth.inB)
         , byteOf s.auth.restrictions.length]
      ++ s.auth.restrictions.flatMap Restriction.bytes)) := by
  simp only [State.readAuthority, byte_eq, List.append_assoc]
  rfl

/-- Settles O55. -/
theorem readingsChangeNothing : Obligations.ReadingsChangeNothing := by
  intro s f
  refine ⟨fun x can => ?_, fun can size inside => ?_, fun can => ?_⟩
  · obtain ⟨only, count⟩ := State.status_answersOnly can
    refine ⟨s.request x .status [], rfl, ?_⟩
    generalize s.request x .status [] = t at only count ⊢
    intro channel door entry fields
    have layout : fields = t.statusFixed x := by
      simp only [fields, State.statusFixed, Proving.proofByte, List.append_assoc]
      cases t.comb.park <;> cases t.prov.proof <;> rfl
    have bytes : entry = Entry.bytes := by
      funext e
      simp only [entry, Entry.bytes]
      cases e.cause.level <;> rfl
    rw [layout, bytes]
    refine ⟨t.statusFixed_length x, only, ?_⟩
    rw [State.responseBody, Reply.fields, List.length_append, List.length_append, t.statusFixed_length, oldestEntries_length,
      count]
    simp only [State.responseHeader, List.length_append, bytesOf_length, List.length_cons, List.length_nil]
    omega
  · obtain ⟨-, win, -⟩ := s.heardAt_keeps .cab
    refine ⟨s.request .cab .readWindow f, s.win.slot (field f 0 1), rfl, fun g e => ?_, fun short => ?_,
      State.request_answersOnly .readWindow can rfl size (by decide) ?_⟩
    · rw [Window.slot, e]
    · rw [Window.slot, List.getElem?_eq_none short]
    · exact win ▸ State.readWindow_slot inside
  · obtain ⟨-, -, auth, -⟩ := s.heardAt_keeps .cab
    refine ⟨s.request .cab .readAuthority [], rfl, State.request_answersOnly .readAuthority can rfl rfl (by decide) ?_⟩
    exact auth ▸ State.readAuthority_bytes (s.heardAt .cab)

end Sys2Proof.Machine
end

section
/-! PROOFS. The Authority Table's downlinks: AUTHORITY (O19), RESTRICTION_SET (O20), RESTRICTION_CLEAR (O21). Each is a frame
that link supervision hears first (`State.linkedAt`) and the table then takes. -/

namespace Sys2Proof.Machine

set_option Elab.async false

variable {s t : State} {f : List Byte}

/-! ### A downlink given whole -/

theorem downlinkOfCode_code (k : DownlinkKind) : downlinkOfCode k.code = some k := by cases k <;> decide

/-- The two destination bytes of a frame read back as the destination (R162, R196). -/
theorem bytesOf_two_append (d : BitVec 16) : ∃ hi lo : Byte, bytesOf 2 d.toNat = [hi, lo] ∧ hi ++ lo = d := by
  refine ⟨_, _, rfl, BitVec.eq_of_toNat_eq ?_⟩
  have low : (BitVec.ofNat 8 (d.toNat / 256 ^ 0)).toNat < 2 ^ 8 := BitVec.isLt _
  rw [BitVec.toNat_append, ← Nat.shiftLeft_add_eq_or_of_lt low, Nat.shiftLeft_eq, BitVec.toNat_ofNat, BitVec.toNat_ofNat]
  have := d.isLt
  norm_num
  omega

theorem State.linkedAt_frame (s : State) : Frame [.radio] overspeeds [.overspeedService] s s.linkedAt :=
  have framed : Frame [.radio] overspeeds [.overspeedService] s (s.withFramer .radio []) :=
    Frame.withRadioBeside { s.radio with framer := [] } (.of_same rfl rfl rfl rfl rfl id id)
  framed.trans (State.linkUp_lawful _).frame

theorem State.linkedAt_cfg (s : State) : s.linkedAt.cfg = s.cfg := s.linkedAt_frame.settings (by decide)

theorem State.linkedAt_auth (s : State) : s.linkedAt.auth = s.auth := s.linkedAt_frame.authority (by decide)

theorem State.linkedAt_recordTime (s : State) : s.linkedAt.recordTime = s.recordTime :=
  congrArg (fun n => n / 1000 % 4294967296 % 65536) s.linkedAt_frame.clock

/-- After any good frame the link is UP with its timer restarted (R164). -/
theorem State.linkedAt_heard (s : State) :
    s.linkedAt.radio.link = .up ∧ s.linkedAt.radio.timer = some (s.clock + s.cfg.radioTimeout * 1000) := by
  unfold State.linkedAt State.linkUp
  dsimp only
  split
  · exact ⟨rfl, rfl⟩
  · rw [(State.evaluate_lawful _).frame.radio (by decide)]
    exact ⟨rfl, rfl⟩

/-- While the link is UP a good frame hands no link notice, so no record joins the queue (R164). -/
theorem State.linkedAt_queue (h : s.radio.link = .up) : s.linkedAt.radio.queue = s.radio.queue := by
  have up : (s.withFramer .radio []).radio.link = .up := h
  rw [State.linkedAt, State.linkUp, if_pos up]
  rfl

/-- A downlink of the right size to an accepted destination goes to its owner once link supervision has taken it (R162 to
R164). -/
theorem State.downlink_accepted {k : DownlinkKind} {d : BitVec 16} (size : f.length = k.size)
    (accepted : s.cfg.accepts k d = true) : s.downlink k d f = s.linkedAt.dispatchDownlink k f := by
  obtain ⟨hi, lo, bytes, whole⟩ := bytesOf_two_append d
  have given : s.downlink k d f = (s.withFramer .radio []).takeDownlink (hi :: lo :: k.code :: f) := by
    rw [State.downlink, bytes]
    rfl
  rw [given, State.takeDownlink]
  simp only [downlinkOfCode_code]
  exact if_pos ⟨size, by rw [whole]; exact s.linkedAt_cfg ▸ accepted⟩

/-- RESTRICTION_SET and RESTRICTION_CLEAR are accepted by the group mask (R162, R163). -/
theorem Settings.accepts_grouped {g : Settings} {k : DownlinkKind} {d : BitVec 16} (grouped : k.isGrouped = true)
    (h : (d ^^^ g.carAddress) &&& g.groupMask = 0#16) : g.accepts k d = true := by
  rw [Settings.accepts, if_pos grouped, h]
  rfl

/-- What the table changes, after link supervision has changed the radio state. -/
theorem Frame.afterLink (h : Frame [.authority] overspeeds [.overspeedService] s.linkedAt t) :
    Frame [.radio, .authority] overspeeds [.overspeedService] s t :=
  (s.linkedAt_frame.mono (by decide) (fun _ h => h) fun _ h => h).trans
    (h.mono (by decide) (fun _ h => h) fun _ h => h)

/-! ### AUTHORITY -/

theorem exec_authority (size : f.length = 13) :
    exec (.authority s.cfg.carAddress f) s = .next (s.linkedAt.takeAuthority f) :=
  congrArg Host.Outcome.next (State.downlink_accepted size (by simp [Settings.accepts, DownlinkKind.isGrouped]))

/-- The two ranges of an AUTHORITY frame with its id, the flag recomputed for them (R42, R46). -/
def State.authorized (s : State) (f : List Byte) : State :=
  (s.withAuth { s.auth with
    a := { low := field f 1 3, high := field f 4 3 }, b := { low := field f 7 3, high := field f 10 3 }, id := field f 0 1 }).reflag

/-- AUTHORITY with every position in range: the ranges, the record, then the authority notice (R46, R47). -/
theorem State.takeAuthority_inRange (h : ∀ o ∈ [1, 4, 7, 10], field f o 3 ≤ 1048575) :
    s.takeAuthority f
      = ((s.authorized f).report (.authorityTaken (s.authorized f).auth.id (s.authorized f).auth.inside)).evaluate := by
  refine if_pos ⟨?_, ?_, ?_, ?_⟩ <;> exact h _ (by decide)

theorem State.takeAuthority_outOfRange (h : ∃ o ∈ [1, 4, 7, 10], 1048575 < field f o 3) : s.takeAuthority f = s := by
  obtain ⟨o, mem, high⟩ := h
  refine if_neg ?_
  rintro ⟨p, q, p', q'⟩
  dsimp only [Config.maxPosition] at p q p' q'
  simp only [List.mem_cons, List.not_mem_nil, or_false] at mem
  rcases mem with rfl | rfl | rfl | rfl <;> omega

/-- The record and the notice leave the table as AUTHORITY has set it. -/
theorem State.takeAuthority_frame (h : ∀ o ∈ [1, 4, 7, 10], field f o 3 ≤ 1048575) :
    Frame [] overspeeds [.overspeedService] (s.authorized f) (s.takeAuthority f) := by
  rw [State.takeAuthority_inRange h]
  exact (State.report_lawful _ _).frame.trans (State.evaluate_lawful _).frame

/-- Settles O19. -/
theorem authorityIsTaken : Obligations.AuthorityIsTaken := by
  intro s f size
  refine ⟨fun inRange => ⟨_, exec_authority size, ?_⟩, fun high => ?_⟩
  · have frame := State.takeAuthority_frame (s := s.linkedAt) inRange
    have table := frame.authority (by decide)
    have taken := State.takeAuthority_lawful s.linkedAt f
    obtain ⟨link, timer⟩ := s.linkedAt_heard
    have radio := taken.frame.radio (by decide)
    refine ⟨?_, ?_, ?_, ?_, frame.flagged (State.reflag_flagged _), ?_, fun up speaks room => ?_, ?_, ?_, taken.frame.afterLink⟩
    · rw [table]; rfl
    · rw [table]; rfl
    · rw [table]; rfl
    · rw [table, ← s.linkedAt_auth]; rfl
    · rw [State.takeAuthority_inRange inRange]
      exact State.evaluate_fresh _
    · have fits : (s.linkedAt.authorized f).radio.queue.length < Config.queueCapacity := (State.linkedAt_queue up).symm ▸ room
      have queued := State.report_mem (s.linkedAt.authorized f)
        (.authorityTaken (field f 0 1) (s.linkedAt.authorized f).auth.inside) (s.linkedAt_cfg ▸ speaks) fits
      rw [table, State.takeAuthority_inRange inRange, ← s.linkedAt_recordTime]
      exact evaluate_remembers _ _ queued rfl
    · rw [radio]; exact link
    · rw [radio]; exact timer
  · rw [exec_authority size, State.takeAuthority_outOfRange high]

/-! ### RESTRICTION_SET -/

theorem exec_restrictionSet {d : BitVec 16} (size : f.length = 10)
    (mine : (d ^^^ s.cfg.carAddress) &&& s.cfg.groupMask = 0#16) :
    exec (.restrictionSet d f) s = .next (s.linkedAt.takeRestrictionSet f) :=
  congrArg Host.Outcome.next (State.downlink_accepted size (Settings.accepts_grouped rfl mine))

theorem appliesOfCode_code (x : Applies) : appliesOfCode x.code = some x := by cases x <;> rfl

theorem code_of_appliesOfCode {n : Nat} {x : Applies} (h : appliesOfCode n = some x) : n = x.code := by
  unfold appliesOfCode at h
  split at h
  · cases h; rfl
  · cases h; rfl
  · cases h; rfl
  · cases h

/-- The fields that lay a restriction (R50). -/
theorem restrictionOf_valid {x : Applies} (id : field f 0 1 ≠ 0) (low : field f 1 3 ≤ 1048575) (high : field f 4 3 ≤ 1048575)
    (code : field f 9 1 = x.code) :
    restrictionOf f = some
      { id := field f 0 1, low := field f 1 3, high := field f 4 3, speed := min 20000 (field f 7 2), direction := x } := by
  rw [restrictionOf, code, appliesOfCode_code]
  exact if_neg (not_or.2 ⟨id, not_or.2 ⟨Nat.not_lt.2 low, Nat.not_lt.2 high⟩⟩)

/-- The fields that are refused whatever the table holds (R50, first case). -/
theorem restrictionOf_invalid
    (h : field f 0 1 = 0 ∨ 1048575 < field f 1 3 ∨ 1048575 < field f 4 3 ∨ ∀ x : Applies, field f 9 1 ≠ x.code) :
    restrictionOf f = none := by
  unfold restrictionOf
  split
  · rfl
  · rename_i x code
    refine if_pos ?_
    rcases h with id | low | high | unknown
    · exact .inl id
    · exact .inr (.inl low)
    · exact .inr (.inr high)
    · exact absurd (code_of_appliesOfCode code) (unknown x)

section Lay

variable {rs : List Restriction} {r : Restriction}

theorem layRestriction_replaces (h : ∃ y ∈ rs, y.id = r.id) :
    layRestriction rs r = some (rs.map fun y => if y.id = r.id then r else y) :=
  if_pos (by simpa using h)

theorem layRestriction_appends (h : ∀ y ∈ rs, y.id ≠ r.id) (room : rs.length < 8) : layRestriction rs r = some (rs ++ [r]) :=
  (if_neg (by simpa using h)).trans (if_pos room)

theorem layRestriction_refuses (h : ∀ y ∈ rs, y.id ≠ r.id) (full : 8 ≤ rs.length) : layRestriction rs r = none :=
  (if_neg (by simpa using h)).trans (if_neg (Nat.not_lt.2 full))

end Lay

/-- A table that RESTRICTION_SET or RESTRICTION_CLEAR changes: its entries, then the authority notice (R57). -/
theorem State.evaluate_restrictions (s : State) (rs : List Restriction) :
    (s.withAuth { s.auth with restrictions := rs }).evaluate.auth = { s.auth with restrictions := rs } :=
  (State.evaluate_lawful _).frame.authority (by decide)

theorem State.takeRestrictionSet_lays {rs : List Restriction}
    (h : (restrictionOf f).bind (layRestriction s.auth.restrictions) = some rs) :
    s.takeRestrictionSet f = (s.withAuth { s.auth with restrictions := rs }).evaluate := by
  rw [State.takeRestrictionSet, h]

theorem State.takeRestrictionSet_refuses (h : (restrictionOf f).bind (layRestriction s.auth.restrictions) = none) :
    s.takeRestrictionSet f = s.report (.restrictionRefused (field f 0 1)) := by
  rw [State.takeRestrictionSet, h]

/-- A RESTRICTION_SET that is not refused changes the table's entries alone, and the supervisor's figures follow (R50, R57). -/
theorem exec_restrictionSet_lays {d : BitVec 16} {rs : List Restriction} (size : f.length = 10)
    (mine : (d ^^^ s.cfg.carAddress) &&& s.cfg.groupMask = 0#16)
    (h : (restrictionOf f).bind (layRestriction s.auth.restrictions) = some rs) :
    ∃ t, exec (.restrictionSet d f) s = .next t ∧ t.auth = { s.auth with restrictions := rs } ∧ t.Fresh
      ∧ Frame [.radio, .authority] overspeeds [.overspeedService] s t := by
  rw [← s.linkedAt_auth] at h ⊢
  refine ⟨_, exec_restrictionSet size mine, ?_, ?_, (State.takeRestrictionSet_lawful _ f).frame.afterLink⟩
  · rw [State.takeRestrictionSet_lays h, State.evaluate_restrictions]
  · rw [State.takeRestrictionSet_lays h]
    exact State.evaluate_fresh _

theorem exec_restrictionSet_refuses {d : BitVec 16} (size : f.length = 10)
    (mine : (d ^^^ s.cfg.carAddress) &&& s.cfg.groupMask = 0#16)
    (h : (restrictionOf f).bind (layRestriction s.auth.restrictions) = none) :
    exec (.restrictionSet d f) s = .next (s.linkedAt.report (.restrictionRefused (field f 0 1))) := by
  rw [← s.linkedAt_auth] at h
  rw [exec_restrictionSet size mine, State.takeRestrictionSet_refuses h]

/-- Settles O20. -/
theorem restrictionsAreLaid : Obligations.RestrictionsAreLaid := by
  intro s dest f size mine
  refine ⟨fun x id low high code => ?_, fun invalid => ?_⟩
  · intro r
    have asked : (restrictionOf f).bind (layRestriction s.auth.restrictions) = layRestriction s.auth.restrictions r := by
      rw [restrictionOf_valid id low high code]
      rfl
    exact ⟨fun present => exec_restrictionSet_lays size mine (asked.trans (layRestriction_replaces present)),
      fun absent room => exec_restrictionSet_lays size mine (asked.trans (layRestriction_appends absent room)),
      fun absent full => exec_restrictionSet_refuses size mine (asked.trans (layRestriction_refuses absent full))⟩
  · exact exec_restrictionSet_refuses size mine (by rw [restrictionOf_invalid invalid]; rfl)

/-! ### RESTRICTION_CLEAR -/

theorem exec_restrictionClear {d : BitVec 16} (size : f.length = 1)
    (mine : (d ^^^ s.cfg.carAddress) &&& s.cfg.groupMask = 0#16) :
    exec (.restrictionClear d f) s = .next (s.linkedAt.takeRestrictionClear f) :=
  congrArg Host.Outcome.next (State.downlink_accepted size (Settings.accepts_grouped rfl mine))

/-- The entries that a RESTRICTION_CLEAR of an id leaves: none for id 0, else those of the other ids (R52). -/
def keptRestrictions (rs : List Restriction) (id : Nat) : List Restriction := rs.filter fun r => id != 0 && r.id != id

theorem keptRestrictions_eq (rs : List Restriction) (id : Nat) :
    keptRestrictions rs id = if id = 0 then [] else rs.filter fun r => r.id != id := by
  unfold keptRestrictions
  by_cases zero : id = 0
  · simp [zero]
  · simp only [bne_iff_ne.2 zero, Bool.true_and, if_neg zero]

theorem keptRestrictions_all {rs : List Restriction} {id : Nat} (h : ∀ r ∈ rs, id ≠ 0 ∧ r.id ≠ id) :
    keptRestrictions rs id = rs :=
  List.filter_eq_self.2 (by simpa using h)

theorem State.takeRestrictionClear_eq (s : State) (f : List Byte) :
    s.takeRestrictionClear f
      = if keptRestrictions s.auth.restrictions (field f 0 1) = s.auth.restrictions then s
        else (s.withAuth { s.auth with restrictions := keptRestrictions s.auth.restrictions (field f 0 1) }).evaluate := by
  rw [keptRestrictions_eq]
  rfl

theorem State.takeRestrictionClear_auth (s : State) (f : List Byte) :
    (s.takeRestrictionClear f).auth
      = { s.auth with restrictions := keptRestrictions s.auth.restrictions (field f 0 1) } := by
  rw [State.takeRestrictionClear_eq]
  split
  · rename_i same
    rw [same]
  · exact State.evaluate_restrictions _ _

/-- A RESTRICTION_CLEAR that removes an entry has the supervisor evaluate (R57). -/
theorem State.takeRestrictionClear_fresh (h : (s.takeRestrictionClear f).auth ≠ s.auth) : (s.takeRestrictionClear f).Fresh := by
  rw [State.takeRestrictionClear_eq] at h ⊢
  split at h
  · exact absurd rfl h
  · rename_i removes
    rw [if_neg removes]
    exact State.evaluate_fresh _

/-- Settles O21. -/
theorem restrictionsAreLifted : Obligations.RestrictionsAreLifted := by
  intro s dest f size mine
  have run := exec_restrictionClear size mine
  refine ⟨⟨_, run, ?_, fun changed => ?_, (State.takeRestrictionClear_lawful _ f).frame.afterLink⟩, fun none => ?_⟩
  · rw [State.takeRestrictionClear_auth, s.linkedAt_auth]
    rfl
  · exact State.takeRestrictionClear_fresh (s.linkedAt_auth.symm ▸ changed)
  · have kept : keptRestrictions s.linkedAt.auth.restrictions (field f 0 1) = s.linkedAt.auth.restrictions :=
      keptRestrictions_all (s.linkedAt_auth.symm ▸ none)
    rw [run, State.takeRestrictionClear_eq, if_pos kept]

end Sys2Proof.Machine
end

section
/-! PROOFS. The curve of a target (O24): the digit-by-digit root is the exact one (R67), and the distance, a_eff and the reaction
distance are those of R63 to R66. -/

namespace Sys2Proof.Machine

set_option Elab.async false

variable {s : State} {t : Vertical} {x : Target} {g : Segment}

/-! ### The exact root -/

/-- The root of `n` lies in the `w` numbers from `r` on. -/
def RootWithin (n r w : Nat) : Prop := r * r ≤ n ∧ n < (r + w) * (r + w)

/-- One binary digit halves the interval that holds the root. -/
theorem RootWithin.digit {n r b : Nat} (h : RootWithin n r (2 * b)) : RootWithin n (rootDigit n r b) b := by
  obtain ⟨low, high⟩ := h
  unfold rootDigit
  split
  · rename_i fits
    exact ⟨fits, by rwa [Nat.add_assoc, ← Nat.two_mul]⟩
  · rename_i exceeds
    exact ⟨low, Nat.lt_of_not_le exceeds⟩

theorem RootWithin.digits {n : Nat} (k : Nat) : ∀ r, RootWithin n r (2 ^ k) →
    RootWithin n (((List.range k).reverse.map (2 ^ ·)).foldl (rootDigit n) r) 1 := by
  induction k with
  | zero => exact fun r h => h
  | succ k ih =>
    intro r h
    rw [List.range_succ, List.reverse_concat, List.map_cons, List.foldl_cons]
    exact ih _ (RootWithin.digit (by rwa [← Nat.pow_succ']))

/-- Fifteen digits find the root of every number below 2³⁰. -/
theorem floorSqrt_eq_sqrt {n : Nat} (h : n < 2 ^ 30) : floorSqrt n = Nat.sqrt n := by
  have start : RootWithin n 0 (2 ^ 15) := ⟨Nat.zero_le n, by omega⟩
  exact Nat.eq_sqrt.2 (RootWithin.digits 15 0 start)

/-- d_eff of a target: its distance less the reaction distance, mm (R66, R67). -/
def State.effectiveDistance (s : State) (t : Vertical) (x : Target) : Int :=
  s.distance t x.position * 100 - (s.reactionDistance t : Int)

/-- S of a target (R67). -/
def State.curveSquare (s : State) (t : Vertical) (x : Target) : Nat :=
  x.speed * x.speed + (if s.effectiveDistance t x ≤ 0 then 0
    else 2 * s.effectiveDeceleration t x.position * (s.effectiveDistance t x).toNat)

/-- The curve speed is the root of S, capped (R67). -/
theorem State.curve_eq (s : State) (t : Vertical) (x : Target) :
    s.curve t x = if 400000000 ≤ s.curveSquare t x then 20000 else Nat.sqrt (s.curveSquare t x) := by
  have square : s.curve t x
      = if 400000000 ≤ s.curveSquare t x then 20000 else floorSqrt (s.curveSquare t x) := by
    unfold State.curve curveSpeed State.curveSquare State.effectiveDistance
    split <;> rfl
  rw [square]
  split
  · rfl
  · exact floorSqrt_eq_sqrt (by omega)

theorem State.curve_capped (h : 400000000 ≤ s.curveSquare t x) : s.curve t x = 20000 := by
  rw [State.curve_eq, if_pos h]

theorem State.curve_root (h : s.curveSquare t x < 400000000) : s.curve t x = Nat.sqrt (s.curveSquare t x) := by
  rw [State.curve_eq, if_neg (Nat.not_le.2 h)]

/-- With no distance left to brake in, the curve is the target's own speed (R67). -/
theorem State.curve_reached (h : s.effectiveDistance t x ≤ 0) (k : x.speed ≤ 20000) : s.curve t x = x.speed := by
  have square : s.curveSquare t x = x.speed * x.speed := by rw [State.curveSquare, if_pos h, Nat.add_zero]
  by_cases top : x.speed = 20000
  · rw [State.curve_capped (by rw [square, top]), top]
  · have below : x.speed * x.speed ≤ 19999 * 19999 := Nat.mul_self_le_mul_self (by omega)
    rw [State.curve_root (by omega), square, Nat.sqrt_eq]

/-- P lies at or below every curve of a target (R68). -/
theorem State.newPermitted_le_curve (travels : s.odo.direction.travel = some t) (h : x ∈ s.targets t) :
    s.newPermitted ≤ s.curve t x := by
  rw [State.newPermitted, travels]
  dsimp only
  split
  · exact (foldl_min_le _ _).2 _ (List.mem_map_of_mem h)
  · exact Nat.zero_le _

/-! ### The terms of a curve -/

theorem State.front_eq (s : State) (t : Vertical) : s.front t = s.frontAt t := by cases t <;> rfl

/-- d runs from the front to the target (R63). -/
theorem State.distance_eq (s : State) (t : Vertical) (n : Int) :
    s.distance t n = (match t with | .up => n - s.frontAt .up | .down => s.frontAt .down - n) := by cases t <;> rfl

theorem Segment.overlaps_iff (g : Segment) (a b : Int) :
    g.overlaps a b = true ↔ (g.start : Int) ≤ b ∧ a ≤ (g.start : Int) + g.length - 1 := by
  simp [Segment.overlaps, Segment.last]

/-- The records crossed are those of R65. -/
theorem State.mem_crossed {n : Int} : g ∈ s.crossed t n ↔ s.Crosses t n g := by
  unfold State.crossed State.Crosses
  rw [State.distance_eq]
  cases t <;> dsimp only <;> split
  case up.isTrue near | down.isTrue near =>
    simp only [List.not_mem_nil, false_iff]
    rintro ⟨-, ahead, -⟩
    omega
  case up.isFalse far =>
    have ahead : s.frontAt .up < n := by omega
    have hi : s.hi = s.frontAt .up := rfl
    rw [Window.overlapping, List.mem_filter, Segment.overlaps_iff, hi]
    simp [ahead]
  case down.isFalse far =>
    have ahead : n < s.frontAt .down := by omega
    have lo : s.lo = s.frontAt .down := rfl
    rw [Window.overlapping, List.mem_filter, Segment.overlaps_iff, lo]
    simp [ahead]

/-- a_seg as R64 gives it. -/
theorem State.deceleration_eq (s : State) (t : Vertical) (g : Segment) :
    g.deceleration s.prov.capability t = s.braking t g := by cases t <;> rfl

/-- The record of the front is the one the window names (R22). -/
theorem State.FrontIn.record (h : s.FrontIn t g) : s.frontRecord t = some g := by
  refine Eq.trans ?_ h
  rw [State.frontRecord, State.front_eq]
  exact congrArg (s.win.records.find? ·) (funext fun _ => (Bool.decide_and _ _).symm)

/-- a_eff is the least a_seg of the records crossed (R65). -/
theorem State.effectiveDeceleration_least {n : Int} (h : ∃ g, s.Crosses t n g) :
    Least (fun a => ∃ g, s.Crosses t n g ∧ a = s.braking t g) (s.effectiveDeceleration t n) := by
  simp only [← State.mem_crossed] at h ⊢
  obtain ⟨first, mem⟩ := h
  unfold State.effectiveDeceleration
  cases crossed : s.crossed t n with
  | nil => exact absurd mem (by simp [crossed])
  | cons g rest =>
    simp only [State.deceleration_eq]
    refine least_foldl fun a => ?_
    simp only [List.mem_cons, List.mem_map, or_and_right, exists_or, exists_eq_left, eq_comm (a := a)]

/-- Where the front crosses none, a_eff is that of the record that contains it (R65). -/
theorem State.effectiveDeceleration_front {n : Int} (front : s.FrontIn t g) (none : ∀ h, ¬s.Crosses t n h) :
    s.effectiveDeceleration t n = s.braking t g := by
  have empty : s.crossed t n = [] := List.eq_nil_iff_forall_not_mem.2 fun h mem => none h (State.mem_crossed.1 mem)
  rw [State.effectiveDeceleration, empty, front.record]
  exact s.deceleration_eq t g

/-- The reaction distance is v × t_r / 1,000 rounded up (R66). -/
theorem State.reactionDistance_ceil (front : s.FrontIn t g) :
    s.odo.v * s.cfg.react.get g.kind ≤ 1000 * s.reactionDistance t
      ∧ 1000 * s.reactionDistance t < s.odo.v * s.cfg.react.get g.kind + 1000 := by
  rw [State.reactionDistance, front.record]
  dsimp only
  omega

/-- Settles O24: the digits of the root by halving intervals, the terms by what the window answers. -/
theorem curvesTakeTheExactRoot : Obligations.CurvesTakeTheExactRoot := by
  intro s t x
  refine ⟨State.curve_capped, fun small => ?_, State.curve_reached, State.newPermitted_le_curve, s.distance_eq t x.position,
    State.effectiveDeceleration_least, fun g front =>
      ⟨State.effectiveDeceleration_front front, State.reactionDistance_ceil front⟩⟩
  rw [State.curve_root small]
  exact Nat.eq_sqrt.1 rfl

end Sys2Proof.Machine
end

section
/-! PROOFS. Link supervision (O49): a good frame that no downlink takes is heard and does nothing more (R162, R164), and the radio
timer's expiry (R164, R177). Both give the Radio Unit another link state, with a notice where it differs (`State.relinked`). -/

namespace Sys2Proof.Machine

set_option Elab.async false

variable {s : State} {x : RadioUnit} {body fields : List Byte} {hi lo code : Byte}

/-! ### A change of the link state -/

/-- The Radio Unit takes another state, with a link notice where the link state differs (R164). -/
def State.relinked (s : State) (x : RadioUnit) : State :=
  if s.radio.link = x.link then s.withRadio x else (s.withRadio x).evaluate

theorem State.relinked_same (h : s.radio.link = x.link) : s.relinked x = s.withRadio x := if_pos h

theorem State.relinked_other (h : s.radio.link ≠ x.link) : s.relinked x = (s.withRadio x).evaluate := if_neg h

/-- Only records may join what the Radio Unit has taken. -/
theorem State.relinked_radio (s : State) (x : RadioUnit) :
    (s.relinked x).radio = { x with queue := (s.relinked x).radio.queue, lost := (s.relinked x).radio.lost } := by
  by_cases same : s.radio.link = x.link
  · rw [State.relinked_same same]
    rfl
  · rw [State.relinked_other same]
    exact (State.evaluate_lawful _).frame.radio (by decide)

/-- A change of the link state has the supervisor evaluate (R57, R164). -/
theorem State.relinked_fresh (h : s.radio.link ≠ x.link) : (s.relinked x).Fresh := by
  rw [State.relinked_other h]
  exact State.evaluate_fresh _

/-! ### A good frame -/

/-- The Radio Unit once a good frame is heard: the framer hunts, the link is UP, the timer starts again (R164). -/
def State.hearing (s : State) : RadioUnit :=
  { s.radio with framer := [], link := .up, timer := some (s.clock + s.cfg.radioTimeout * 1000) }

theorem State.linkedAt_eq (s : State) : s.linkedAt = (s.withFramer .radio []).relinked s.hearing := rfl

theorem State.linkedAt_quiet (h : s.radio.link = .up) : s.linkedAt = s.withRadio s.hearing := by
  rw [State.linkedAt_eq, State.relinked_same (x := s.hearing) (s := s.withFramer .radio []) h]
  rfl

theorem State.linkedAt_fresh (h : s.radio.link ≠ .up) : s.linkedAt.Fresh := by
  rw [State.linkedAt_eq]
  exact State.relinked_fresh h

theorem code_of_downlinkOfCode {k : DownlinkKind} (h : downlinkOfCode code = some k) : k.code = code :=
  beq_iff_eq.1 (List.find?_some (p := fun k : DownlinkKind => k.code == code) h)

/-- A body without destination and kind is heard and no more (R162). -/
theorem State.frame_short (h : body.length < 3) : s.frame .radio body = s.linkedAt := by
  match body with
  | [] | [_] | [_, _] => rfl
  | _ :: _ :: _ :: _ =>
    simp only [List.length_cons] at h
    omega

/-- A body of no kind, of a wrong length or for another car is heard and no more (R162). -/
theorem State.frame_unserved
    (h : ∀ k : DownlinkKind, k.code = code → fields.length = k.size → s.cfg.accepts k (hi ++ lo) = false) :
    s.frame .radio (hi :: lo :: code :: fields) = s.linkedAt := by
  show (s.withFramer .radio []).takeDownlink (hi :: lo :: code :: fields) = s.linkedAt
  rw [State.takeDownlink]
  cases kind : downlinkOfCode code with
  | none => rfl
  | some k =>
    refine if_neg fun ⟨size, accepted⟩ => ?_
    have accepted : s.linkedAt.cfg.accepts k (hi ++ lo) = true := accepted
    rw [s.linkedAt_cfg, h k (code_of_downlinkOfCode kind) size] at accepted
    cases accepted

/-! ### The expiry -/

/-- The Radio Unit once its timer has expired (R164, R177). -/
def State.losing (s : State) : RadioUnit :=
  { s.radio with link := .lost, timer := none, wasLost := true, carriedLost := false }

theorem State.radioExpiry_elapsing (h : s.radio.timer.Elapsing s.clock (s.cfg.radioTimeout * 1000)) :
    s.radioExpiry = s.relinked s.losing := if_pos h.expires

theorem State.radioExpiry_resting (h : s.radio.timer.Resting s.clock (s.cfg.radioTimeout * 1000)) : s.radioExpiry = s :=
  if_neg (by rw [h.stays]; decide)

/-- Settles O49: a discarded frame leaves what link supervision leaves, and nothing is dispatched. -/
theorem linkFollowsTheFrames : Obligations.LinkFollowsTheFrames := by
  intro s
  refine ⟨fun body discarded => ⟨s.linkedAt, ?_, ?_, fun up => ?_, State.linkedAt_fresh, s.linkedAt_frame⟩, fun resting => ?_,
    fun elapsing => ⟨s.radioExpiry, rfl, ?_, fun found => ?_, s.radioExpiry_lawful.frame⟩⟩
  · refine congrArg Host.Outcome.next ?_
    obtain short | ⟨hi, lo, code, fields, rfl, unserved⟩ := discarded
    · exact State.frame_short short
    · exact State.frame_unserved unserved
  · rw [State.linkedAt_eq]
    exact State.relinked_radio _ _
  · rw [State.linkedAt_quiet up]
    exact ⟨rfl, rfl, rfl⟩
  · exact congrArg Host.Outcome.next (State.radioExpiry_resting resting)
  · rw [State.radioExpiry_elapsing elapsing]
    exact State.relinked_radio _ _
  · rw [State.radioExpiry_elapsing elapsing]
    exact State.relinked_fresh found

end Sys2Proof.Machine
end

section
/-! PROOFS. CONFIGURE (O56): what taking up a change of each item leaves unchanged, and what it sets, from the operation of the block
that takes it up (R190, 10.4). -/

namespace Sys2Proof.Machine

set_option Elab.async false

variable {free : List Block} {r m : List Cause} {s t : State} {f : List Byte} {i : ConfigItem} {v : Nat}

/-! ### What a change may touch -/

/-- The blocks of the window, the ratings, the proof timer and the radio are all that take a change up. -/
theorem ConfigItem.blocks_subset (i : ConfigItem) : i.blocks ⊆ [.window, .ratings, .proofTimer, .radio] := by
  cases i <;> simp [ConfigItem.blocks]

theorem ConfigItem.not_mem_blocks {b : Block} (h : b ∉ [Block.window, .ratings, .proofTimer, .radio] := by decide) :
    b ∉ i.blocks := fun k => h (i.blocks_subset k)

/-- Every block but an item's own is left as a notice leaves it (R190). -/
theorem State.takeUp_frame (s : State) (i : ConfigItem) : Frame i.blocks overspeeds [.overspeedService] s (s.takeUp i) := by
  cases i with
  | carLength | aheadLow | behindHigh => exact s.recomputeWindow_frame false
  | trainLength => exact (s.recomputeWindow_frame false).trans (State.evaluate_lawful _).blocks.frame
  | maxSpeed | barredCreep | radioLossSpeed | react => exact s.evaluate_lawful.frame
  | rbShare | abShare | holdLevel | valvePeriod | motorPeriod | gangRack => exact s.recompute_lawful.frame
  | nominal k =>
    have rated : Frame [.window, .ratings] overspeeds [.overspeedService] s (s.takeUp (.nominal k)) :=
      (s.recap_lawful.blocks.trans (State.noticeCapability_lawful _ s).blocks).frame
    exact rated
  | fullPressure c => exact (s.resettle_frame c).trans (State.recompute_lawful _).frame
  | feedbackTol =>
    exact ((((s.resettle_frame .rb1).trans (State.resettle_frame _ .rb2)).trans (State.resettle_frame _ .ab1)).trans
      (State.resettle_frame _ .ab2)).trans (State.recompute_lawful _).frame
  | proofPeriod => exact (s.withProofTimer_lawful _).frame
  | owedDegrade => exact s.degradeOwing_lawful.blocks.frame
  | radioTimeout =>
    simp only [State.takeUp]
    split
    · exact Frame.refl
    · exact Frame.withRadioBeside _ (.of_same rfl rfl rfl rfl rfl id id)
  | positionInterval => exact Frame.withRadioBeside _ (.of_same rfl rfl rfl rfl rfl id id)
  | carAddress | groupMask | openDir | doorDuty | compGain | obstructLimit | rollbackLimit | burstCap | answerEmpty | listenOnly
  | summaryMask | cabTimeout => exact Frame.refl

theorem State.takeUp_cfg (s : State) (i : ConfigItem) : (s.takeUp i).cfg = s.cfg :=
  (s.takeUp_frame i).settings ConfigItem.not_mem_blocks

/-! ### Ratings -/

/-- A NOMINAL item recomputes the capability and leaves counts and health (R121). -/
theorem State.takeUp_nominal (s : State) (k : TrackKind) :
    (s.takeUp (.nominal k)).prov.owed = s.prov.owed ∧ (s.takeUp (.nominal k)).prov.health = s.prov.health
      ∧ (s.takeUp (.nominal k)).prov.capability = capabilityOf s.cfg.nominal s.prov.health :=
  have notice := (s.recap.noticeCapability_lawful s).frame
  ⟨notice.owed (by decide), notice.health (by decide), notice.capability (by decide)⟩

/-- No item changes a count (R119, R190). -/
theorem State.takeUp_owed (s : State) (i : ConfigItem) : (s.takeUp i).prov.owed = s.prov.owed := by
  cases i with
  | nominal k => exact (s.takeUp_nominal k).1
  | owedDegrade => exact (State.degrading_ratings channels s (by decide)).1
  | _ => exact (s.takeUp_frame _).owed (by simp [ConfigItem.blocks])

/-- OWED_DEGRADE alone changes a rating: of the HEALTHY channels that owe it (R117, R119). -/
theorem State.takeUp_health (s : State) (i : ConfigItem) (c : Channel) :
    (s.takeUp i).prov.health.get c
      = if i = .owedDegrade ∧ s.prov.health.get c = .healthy ∧ s.cfg.owedDegrade ≤ s.prov.owed.get c then .degraded
        else s.prov.health.get c := by
  by_cases degrades : i = .owedDegrade
  · subst degrades
    have listed : c ∈ channels := by cases c <;> decide
    refine ((State.degrading_ratings channels s (by decide)).2.2 c).trans ?_
    simp [listed]
  · have same : (s.takeUp i).prov.health = s.prov.health := by
      cases i with
      | owedDegrade => exact absurd rfl degrades
      | nominal k => exact (s.takeUp_nominal k).2.1
      | _ => exact (s.takeUp_frame _).health (by simp [ConfigItem.blocks])
    rw [same, if_neg fun h => degrades h.1]

/-! ### Feedback -/

/-- The feedback of a channel settles from now on (R113). -/
def State.SettlesAfresh (s : State) (c : Channel) : Prop :=
  s.comb.feedback.get c = { lastChange := s.clock, deviationStart := none }

/-- Only a scan ends it in the same moment. -/
theorem Frame.settlesAfresh {c : Channel} (f : Frame free r m s t) (h : s.SettlesAfresh c)
    (hs : Block.scan ∉ free := by decide) : t.SettlesAfresh c := by
  obtain afresh | ⟨-, kept⟩ := f.settling hs c
  · exact afresh
  · rw [State.SettlesAfresh, kept, f.clock]
    exact h

theorem State.resettle_settlesAfresh (s : State) (c : Channel) : (s.resettle c).SettlesAfresh c :=
  PerChannel.get_put_same _ _ _

theorem State.SettlesAfresh.resettle {c : Channel} (h : s.SettlesAfresh c) (d : Channel) : (s.resettle d).SettlesAfresh c :=
  (State.resettle_frame (r := []) (m := []) s d).settlesAfresh h

theorem State.SettlesAfresh.recompute {c : Channel} (h : s.SettlesAfresh c) : s.recompute.SettlesAfresh c :=
  s.recompute_lawful.frame.settlesAfresh h

/-- A FULL_PRESSURE settles its channel, FEEDBACK_TOL every one (R113, R190). -/
theorem State.takeUp_settlesAfresh (s : State) {c : Channel} (h : i = .fullPressure c ∨ i = .feedbackTol) :
    (s.takeUp i).SettlesAfresh c := by
  obtain rfl | rfl := h
  · exact (s.resettle_settlesAfresh c).recompute
  · refine State.SettlesAfresh.recompute ?_
    cases c with
    | rb1 => exact (((s.resettle_settlesAfresh .rb1).resettle .rb2).resettle .ab1).resettle .ab2
    | rb2 => exact ((State.resettle_settlesAfresh _ .rb2).resettle .ab1).resettle .ab2
    | ab1 => exact (State.resettle_settlesAfresh _ .ab1).resettle .ab2
    | ab2 => exact State.resettle_settlesAfresh _ .ab2

/-! ### Window, brakes, supervisor and radio -/

theorem State.takeUp_counted (s : State) (h : i ∈ [.carLength, .trainLength, .aheadLow, .behindHigh]) :
    (s.takeUp i).Counted := by
  simp only [List.mem_cons, List.not_mem_nil, or_false] at h
  obtain rfl | rfl | rfl | rfl := h
  case inr.inl => exact (State.evaluate_placed _).counted (s.recomputeWindow_counted false)
  all_goals exact s.recomputeWindow_counted false

theorem State.takeUp_blended (s : State) (h : (∃ k, i = .rbShare k ∨ i = .abShare k) ∨ i = .holdLevel) :
    (s.takeUp i).Blended := by
  obtain ⟨k, rfl | rfl⟩ | rfl := h <;> exact s.recompute_combined.1

/-- The figures are those of the state after every change that the supervisor reads (R57). -/
theorem State.takeUp_figured (s : State)
    (h : (∃ k, i = .react k ∨ i = .nominal k) ∨ i ∈ [.trainLength, .maxSpeed, .barredCreep, .radioLossSpeed]) :
    (s.takeUp i).Figured := by
  simp only [List.mem_cons, List.not_mem_nil, or_false] at h
  obtain ⟨k, rfl | rfl⟩ | rfl | rfl | rfl | rfl := h <;> exact State.evaluate_figured _

/-- A running radio timer starts again; a stopped one stays stopped (R165). -/
theorem State.takeUp_radioTimeout (s : State) :
    (s.takeUp .radioTimeout).radio
      = { s.radio with timer := s.radio.timer.map fun _ => s.clock + s.cfg.radioTimeout * 1000 } := by
  simp only [State.takeUp]
  split <;> rename_i timer <;> rw [timer]
  · show s.radio = { s.radio with timer := none }
    rw [← timer]
  · rfl

/-! ### An item put and taken up -/

/-- Only a new OWED_DEGRADE changes a rating (R119). -/
theorem State.setItem_health (s : State) (i : ConfigItem) (v : Nat) (c : Channel) :
    ((s.withItem i v).takeUp i).prov.health.get c
      = if i = .owedDegrade ∧ s.prov.health.get c = .healthy ∧ v ≤ s.prov.owed.get c then .degraded
        else s.prov.health.get c := by
  refine (State.takeUp_health _ i c).trans ?_
  by_cases degrades : i = .owedDegrade
  · subst degrades
    rfl
  · simp only [degrades, false_and, if_false]
    rfl

/-- The feedback of the channels concerned settles from this step on (R113). -/
theorem State.setItem_feedback (s : State) (v : Nat) {c : Channel} (h : i = .fullPressure c ∨ i = .feedbackTol) :
    ((s.withItem i v).takeUp i).comb.feedback.get c = { lastChange := s.clock, deviationStart := none } := by
  have settles := State.takeUp_settlesAfresh (s.withItem i v) h
  rwa [State.SettlesAfresh, (State.takeUp_frame _ i).clock] at settles

/-- A NOMINAL makes the capability that of R121 anew. -/
theorem State.setItem_capability (s : State) (k : TrackKind) (v : Nat) :
    ((s.withItem (.nominal k) v).takeUp (.nominal k)).prov.capability
      = capabilityOf ((s.withItem (.nominal k) v).takeUp (.nominal k)).cfg.nominal
          ((s.withItem (.nominal k) v).takeUp (.nominal k)).prov.health := by
  obtain ⟨-, health, capability⟩ := State.takeUp_nominal (s.withItem (.nominal k) v) k
  rw [State.takeUp_cfg, health, capability]

/-! ### The request -/

/-- The step of an accepted CONFIGURE (R190). -/
def State.configured (s : State) (i : ConfigItem) (v : Nat) : State :=
  if s.cfg.get i = v then s else (s.withItem i v).takeUp i

theorem State.configured_same (h : s.cfg.get i = v) : s.configured i v = s := if_pos h

theorem State.configured_other (h : s.cfg.get i ≠ v) : s.configured i v = (s.withItem i v).takeUp i := if_neg h

theorem ConfigItem.admits_iff : i.admits v = true ↔ i.isCoded = false ∨ i.range.1 ≤ v ∧ v ≤ i.range.2 := by
  simp [ConfigItem.admits]

theorem State.configure_accepted (config : s.line.opState = .config) (item : itemOfCode (field f 0 1) = some i)
    (admitted : i.admits (field f 1 2) = true) :
    s.configure f = (s.configured i (i.clamp (field f 1 2)),
      .done (byteOf (field f 0 1) :: bytesOf 2 (i.clamp (field f 1 2)))) := by
  rw [State.configure, if_neg (not_not.2 config), item]
  simp only [admitted, if_true, byte_eq]
  rfl

theorem State.configure_outOfRange (config : s.line.opState = .config) (item : itemOfCode (field f 0 1) = some i)
    (coded : i.isCoded = true) (out : field f 1 2 < i.range.1 ∨ i.range.2 < field f 1 2) :
    s.configure f = (s, .refused .badField) := by
  have barred : ¬i.admits (field f 1 2) = true := by
    rw [ConfigItem.admits_iff, coded]
    simp only [Bool.true_eq_false, false_or]
    omega
  rw [State.configure, if_neg (not_not.2 config), item]
  exact if_neg barred

theorem State.configured_cfg (s : State) (inRange : i.range.1 ≤ v ∧ v ≤ i.range.2) :
    (s.configured i v).cfg.get i = v ∧ ∀ j, j ≠ i → (s.configured i v).cfg.get j = s.cfg.get j := by
  by_cases same : s.cfg.get i = v
  · rw [State.configured_same same]
    exact ⟨same, fun _ _ => rfl⟩
  · rw [State.configured_other same, State.takeUp_cfg]
    exact ⟨Settings.get_put_same _ _ _ inRange.1 inRange.2, fun j other => Settings.get_put_other _ _ _ _ other⟩

theorem State.configured_frame (s : State) (i : ConfigItem) (v : Nat) :
    Frame (.settings :: i.blocks) overspeeds [.overspeedService] s (s.configured i v) := by
  by_cases same : s.cfg.get i = v
  · rw [State.configured_same same]
    exact Frame.refl
  · rw [State.configured_other same]
    have put : Frame (.settings :: i.blocks) overspeeds [.overspeedService] s (s.withItem i v) :=
      (s.withItem_frame i v).mono (by simp) (fun _ h => h) fun _ h => h
    refine put.trans ((State.takeUp_frame _ i).mono (fun _ h => List.mem_cons_of_mem _ h) (fun _ h => h) fun _ h => h) fun op => ?_
    exact absurd op (by simp [ConfigItem.not_mem_blocks])

/-! ### The response leaves what the change has set -/

theorem State.Figured.withPort (h : s.Figured) (p : Port) : (s.withPort .cab p).Figured := by
  obtain ⟨limit, permitted⟩ := State.figures_congr (s := s) (t := s.withPort .cab p) rfl rfl rfl rfl rfl rfl
  rw [State.Figured, limit, permitted]
  exact h

theorem State.Blended.withPort (h : s.Blended) (p : Port) : (s.withPort .cab p).Blended := h

/-- Settles O56: the change is taken up between the hearing of the request and its response, and the response leaves all it set. -/
theorem configureTakesTheValue : Obligations.ConfigureTakesTheValue := by
  intro s f i can size config item
  obtain ⟨-, -, -, -, -, -, -, prov, -, radio, op, cfg, -, -⟩ := s.heardAt_keeps .cab
  have config' : (s.heardAt .cab).line.opState = .config := op.trans config
  refine ⟨fun admitted => ?_, fun coded out => ⟨_, rfl, State.request_answersOnly .configure can rfl size (by decide)
    (State.configure_outOfRange config' item coded out)⟩⟩
  have done : (s.heardAt .cab).serve .cab s.set.heard .configure f = _ :=
    State.configure_accepted config' item (ConfigItem.admits_iff.2 admitted)
  obtain ⟨p, made, served⟩ := State.request_serves s .cab .configure f can rfl size (by decide)
  rw [done] at made served
  dsimp only at made served
  have inRange := i.clamp_range (field f 1 2)
  have clock := s.heardAt_clock .cab
  generalize value : i.clamp (field f 1 2) = v at made served inRange
  obtain ⟨taken, others⟩ := (s.heardAt .cab).configured_cfg inRange
  refine ⟨_, v, congrArg Host.Outcome.next made, value.symm, taken, fun j other => ?_, ⟨served.answered, ?_⟩, fun same => ?_,
    fun changes => ?_⟩
  · exact (others j other).trans (by rw [cfg])
  · exact (((s.heardAt .cab).configured_frame i v).mono (fun _ h => List.mem_cons_of_mem _ h) (fun _ h => h) fun _ h => h).trans
      ((State.withPort_frame _ .cab p).mono (by simp) (fun _ h => h) fun _ h => h)
      fun k => absurd k (by simp [ConfigItem.not_mem_blocks])
  · rw [State.configured_same (by rw [cfg, same])] at served ⊢
    exact ⟨served.answered, p, rfl⟩
  · rw [State.configured_other (by rwa [cfg]), ← prov, ← radio, ← clock]
    generalize s.heardAt .cab = h
    refine ⟨fun e => ?_, fun e => ?_, fun e => ?_, State.takeUp_owed _ i, h.setItem_health i v, fun c e => h.setItem_feedback v e,
      fun e => (State.withPort_placed _ .cab p).counted (State.takeUp_counted _ e), fun ⟨k, e⟩ => ?_,
      fun e => (State.takeUp_blended _ e).withPort p, fun e => ((State.takeUp_figured _ e).withPort p).fresh⟩
    · subst e
      rfl
    · subst e
      exact State.takeUp_radioTimeout _
    · subst e
      rfl
    · subst e
      exact h.setItem_capability k v

end Sys2Proof.Machine
end

section
/-! PROOFS. Short statements about the set, the inputs and the lines: levels that change alone (O26), the brakes of an
EMERGENCY-level entry (O29), the cab timer's expiry (O28), and the requests that no owner takes (O53). -/

namespace Sys2Proof.Machine

set_option Elab.async false

variable {s z : State} {x : RequestLine} {f : List Byte}

/-! ### Levels alone -/

/-- Settles O26: the three meanings are the change of the level, with no notice behind it. -/
theorem releasedInputsKeepTheirLevel : Obligations.ReleasedInputsKeepTheirLevel := fun _ _ => ⟨rfl, rfl, rfl⟩

/-! ### Emergencies -/

theorem InterventionSet.hasLevel_iff {i : InterventionSet} {l : Level} :
    i.hasLevel l = true ↔ ∃ e ∈ i.entries, e.cause.level = l := by simp [InterventionSet.hasLevel]

theorem InterventionSet.has_of_mem {i : InterventionSet} {e : Entry} (h : e ∈ i.entries) : i.has e.cause = true :=
  (i.has_iff e.cause).2 (List.mem_map_of_mem h)

/-- Settles O29: every step leaves a lawful state (O5), and the laws put every brake on with an EMERGENCY-level entry. -/
theorem emergenciesPutEveryBrakeOn : Obligations.EmergenciesPutEveryBrakeOn := by
  intro s t sound ran
  have safe := (step_keepsTheLaws sound ran).1
  refine ⟨by rw [safe.interventions.2, InterventionSet.hasLevel_iff], fun ⟨e, mem, level⟩ => ?_⟩
  obtain ⟨output, spring, brakes⟩ := safe.fullBrake level (InterventionSet.has_of_mem mem)
  exact ⟨fun c => (brakes c).1, spring, output⟩

/-! ### Cab silence -/

/-- A raising of a cause that is not present recomputes the combiner (R80, R99). -/
theorem State.raise_blended {c : Cause} (x : Capture) (absent : s.set.has c = false) : (s.raise c x).Blended := by
  have combined := fun u : State => State.combine_combined State.evaluate_combined u false
  rw [State.raise, State.raiseWith, if_neg (by simp [absent])]
  dsimp only
  split
  · exact (State.abandonProof_combined (combined _)).1
  · exact (combined _).1

/-- With a SERVICE-level entry present D is 100 (R97). -/
theorem State.Blended.service_full (h : s.Blended) (ranges : s.RangeLaw) (present : s.set.hasLevel .service = true) :
    s.comb.service = 100 := by
  have le := State.serviceDemand_le ranges
  have ge : 100 ≤ s.serviceDemand := by
    rw [State.serviceDemand, if_pos present]
    exact le_trans (le_max_right _ _) (le_max_left _ _)
  exact (State.blended_iff.1 h).2.1.trans (le_antisymm le ge)

/-- The state of a cab timer that has just stopped (R193). -/
def State.cabStopped (s : State) : State := s.withLine { s.line with cabTimer := none }

theorem State.cabExpiry_expires (h : s.line.cabTimer.Elapsing s.clock (s.cfg.cabTimeout * 1000)) :
    s.cabExpiry = s.cabStopped.raise .cabSilent s.capture := if_pos (Timer.Elapsing.expires h)

/-- Settles O28. -/
theorem cabSilenceBrakesTheCar : Obligations.CabSilenceBrakesTheCar := by
  intro s
  refine ⟨fun rests => congrArg Host.Outcome.next (if_neg (Bool.eq_false_iff.1 (Timer.Resting.stays rests))),
    fun sound elapses => ?_⟩
  have made := State.cabExpiry_expires elapses
  have safe := made ▸ s.cabExpiry_lawful.sound sound
  have present := State.raise_has s.cabStopped .cabSilent s.capture (by decide)
  refine ⟨_, congrArg Host.Outcome.next made, ?_, present, fun absent => ⟨?_, ?_⟩, made ▸ s.cabExpiry_lawful.frame⟩
  · exact (State.raise_lawful (r := .cabSilent :: overspeeds) (m := [.overspeedService]) _ _ _).frame.cabStopped rfl
  · exact (State.raise_blended (s := s.cabStopped) s.capture absent).service_full safe.ranges
      (InterventionSet.hasLevel_of_has present)
  · exact State.raise_entry s.capture (by decide) absent

/-! ### Requests that no owner takes -/

theorem State.afterRemovals_self (t s : State) : t.afterRemovals s s = t := if_neg (Nat.lt_irrefl _)

/-- The response of a state that still has the port of the hearing, with its clock (R183). -/
theorem State.respond_answers (kind : Byte) (reply : Reply) (port : z.line.port x = { s.line.port x with framer := [] })
    (clock : z.clock = s.clock) :
    ∃ p, z.respond x (frameOf (z.responseBody kind reply)) = z.withPort x p ∧ Answered s (z.withPort x p) x kind reply := by
  obtain ⟨p, made, given, framer⟩ := z.respond_eq x (frameOf (z.responseBody kind reply))
  refine ⟨p, made, ?_⟩
  have own : (z.withPort x p).line.port x = p := by rw [State.withPort_line, LineUnit.port_withPort, if_pos rfl]
  have body : (z.withPort x p).responseBody kind reply = z.responseBody kind reply := rfl
  rw [Answered, own, body]
  unfold Port.Given at *
  rw [port] at given framer
  rw [clock] at given
  dsimp only at given framer ⊢
  split at given <;> exact given

/-- A frame that a check of R182 refuses is answered, and nothing changes after the hearing. -/
theorem State.frame_refused {code : Byte} {e : Reason} (can : s.CanTake x)
    (h : (s.heardAt x).answer x s.set.heard code f = (s.heardAt x, .refused e)) :
    ∃ p, s.frame (serialOf x) (code :: f) = (s.heardAt x).withPort x p
      ∧ AnsweredOnly s ((s.heardAt x).withPort x p) x code (.refused e) := by
  have room : (s.withFramer (serialOf x) []).isFull x = false := by
    rw [State.isFull, State.withFramer_port_waiting, decide_eq_false_iff_not, not_le]
    exact can
  have taken : s.frame (serialOf x) (code :: f) = (s.withFramer (serialOf x) []).takeRequest x code f := by
    have handed : s.frame (serialOf x) (code :: f) = (s.withFramer (serialOf x) []).takeFrame x (code :: f) := by
      cases x <;> rfl
    rw [handed, State.takeFrame, room]
    rfl
  obtain ⟨p, made, answered⟩ :=
    State.respond_answers code (.refused e) (s.heardAt_port x) (s.heardAt_clock x)
  refine ⟨p, ?_, answered, p, rfl⟩
  rw [taken, State.takeRequest, State.withFramer_set, show (s.withFramer (serialOf x) []).heardOn x = s.heardAt x from rfl, h]
  dsimp only
  rw [State.afterRemovals_self, ite_self, made]

/-! ### The checks of R182 -/

theorem requestOfCode_none {code : Byte} (h : code ∉ requestCodes) : requestOfCode code = none := by
  rw [requestOfCode, List.find?_eq_none]
  intro k _ same
  refine h (eq_of_beq same ▸ ?_)
  cases k <;> decide

theorem State.answer_unknown {code : Byte} (h : code ∉ requestCodes) (b : Bool) :
    s.answer x b code f = (s, .refused .badKind) := by rw [State.answer, requestOfCode_none h]

theorem State.answer_unserved {k : RequestKind} (h : k.servedOn x = false) (b : Bool) :
    s.answer x b k.code f = (s, .refused .badKind) := by
  rw [State.answer, requestOfCode_code]
  exact if_pos h

theorem State.answer_wrongSize {k : RequestKind} (h : k.servedOn x = true) (size : f.length ≠ k.size) (b : Bool) :
    s.answer x b k.code f = (s, .refused .badField) := by
  rw [State.answer, requestOfCode_code]
  dsimp only
  rw [if_neg (by simp [h]), if_pos size]

/-- A kind's command is its frame given whole (log 9). -/
theorem exec_command (k : RequestKind) (x : RequestLine) (f : List Byte) (s : State) :
    exec (k.command x f) s = .next (s.frame (serialOf x) (k.code :: f)) := by cases k <;> rfl

/-- Hearing a cab request starts the cab timer in RUN (R182, R193). -/
theorem State.heardAt_cabTimer (s : State) (x : RequestLine) :
    (s.heardAt x).line.cabTimer
      = if x = .cab ∧ s.line.opState = .run then some (s.clock + s.cfg.cabTimeout * 1000) else s.line.cabTimer := by
  cases x with
  | crew => rfl
  | cab =>
    by_cases run : s.line.opState = .run
    · have heard : (s.withFramer .cab []).line.opState = .run := run
      rw [if_pos ⟨rfl, run⟩, State.heardAt, State.heardOn, State.hearCab, serialOf, if_pos heard]
      rfl
    · have heard : ¬(s.withFramer .cab []).line.opState = .run := run
      rw [if_neg fun both => run both.2, State.heardAt, State.heardOn, State.hearCab, serialOf, if_neg heard]
      rfl

/-- Hearing a cab request sets the cab heard mark (R89). -/
theorem State.heardAt_set (s : State) (x : RequestLine) :
    (s.heardAt x).set = match x with | .cab => s.set.hear | .crew => s.set := by
  cases x with
  | crew => rfl
  | cab =>
    obtain ⟨-, -, -, -, -, -, -, -, -, -, -, -, set, -⟩ := State.hearCab_keeps (s.withFramer .cab [])
    exact set

/-- Settles O53. -/
theorem badRequestsAreRefused : Obligations.BadRequestsAreRefused := by
  intro s x f can
  refine ⟨fun kind unknown => ?_, fun k unserved => ?_, fun k on size => ?_⟩
  · obtain ⟨p, made, answered⟩ := State.frame_refused can (State.answer_unknown (f := f) unknown _)
    refine ⟨_, congrArg Host.Outcome.next made, answered, ?_, ?_⟩
    · rw [State.withPort_line, LineUnit.withPort_cabTimer, State.heardAt_cabTimer]
    · rw [State.withPort_set, State.heardAt_set]
      cases x <;> simp [InterventionSet.hear]
  · obtain ⟨p, made, answered⟩ := State.frame_refused can (State.answer_unserved (f := f) unserved _)
    exact ⟨_, (exec_command k x f s).trans (congrArg _ made), answered⟩
  · obtain ⟨p, made, answered⟩ := State.frame_refused can (State.answer_wrongSize on size _)
    exact ⟨_, (exec_command k x f s).trans (congrArg _ made), answered⟩

end Sys2Proof.Machine
end

section
/-! PROOFS. The loop input that opens (O25): its raising's record and entry, and that an EMERGENCY-level entry ends a proof with the
tried list emptied, whichever raising or notice of the step abandons it. -/

namespace Sys2Proof.Machine

set_option Elab.async false

variable {s t : State} {c : Cause} {ev : State → State}

/-! ### The record of a raising -/

/-- A raising of a cause that is not present queues its record, and its notices leave it there (R80, R167). -/
theorem State.raise_reports (x : Capture) (absent : s.set.has c = false) (speaks : s.cfg.listenOnly = false)
    (room : s.radio.queue.length < Config.queueCapacity) :
    { time := s.recordTime, body := .raised c x } ∈ (s.raise c x).radio.queue := by
  have queued := State.report_mem (s.withSet (s.set.append (s.entryOf c x))) (.raised c x) speaks room
  have k := remembers_cascade
  have noticed : Remembers ((s.withSet (s.set.append (s.entryOf c x))).report (.raised c x)) (s.raise c x) := by
    have combined := k.trans (k.trans (k.reportPosition ((s.withSet (s.set.append (s.entryOf c x))).report (.raised c x)))
      (evaluate_remembers _)) (k.combine evaluate_remembers _ false)
    rw [State.raise, State.raiseWith, if_neg (by simp [absent])]
    dsimp only
    split
    · exact k.trans combined (k.abandonProof _)
    · exact combined
  exact noticed _ queued rfl

/-! ### The end of a proof in an emergency -/

/-- An EMERGENCY-level entry is present, and a proof is in progress or the tried list is empty: a proof that ends from here on is
abandoned (R123, R128). -/
def State.Halted (s : State) : Prop := s.set.hasLevel .emergency = true ∧ (s.prov.proof = none → s.prov.tried = [])

theorem State.Halted.congr (h : s.Halted) (set : t.set = s.set) (prov : t.prov = s.prov) : t.Halted := by
  rwa [State.Halted, set, prov]

namespace State.Halted

theorem abandonProof (h : s.Halted) : s.abandonProof.Halted := by
  unfold State.abandonProof
  split
  · exact h
  · exact ⟨h.1, fun _ => rfl⟩

/-- No proof begins (R123). -/
theorem testProof (h : s.Halted) : s.testProof = s := by
  refine if_neg fun can => ?_
  obtain ⟨-, -, calm, -⟩ := State.canProve_iff.1 can
  exact absurd (calm.symm.trans h.1) (by decide)

theorem springNotice (h : s.Halted) (keeps : ∀ u : State, u.Halted → (ev u).Halted) (a : Bool) :
    (s.springNotice ev a).Halted := by
  have judged := keeps s h
  unfold State.springNotice
  dsimp only
  cases a with
  | false => exact ⟨judged.abandonProof.1, fun _ => rfl⟩
  | true =>
    rw [if_pos rfl, judged.testProof]
    split
    · exact (keeps _ (judged.congr (t := (ev s).setOpState .config) rfl rfl)).congr rfl rfl
    · exact judged

theorem combine (h : s.Halted) (keeps : ∀ u : State, u.Halted → (ev u).Halted) (b : Bool) : (s.combine ev b).Halted := by
  have combined : (s.recombine b).Halted := h.congr rfl rfl
  unfold State.combine
  dsimp only
  split
  · exact combined
  · exact combined.springNotice keeps _

theorem report (h : s.Halted) (b : ReportBody) : (s.report b).Halted := by
  unfold State.report
  split <;> exact h

theorem reportPosition (h : s.Halted) : s.reportPosition.Halted := by
  unfold State.reportPosition
  split <;> exact h

theorem append (h : s.Halted) (e : Entry) : (s.withSet (s.set.append e)).Halted :=
  ⟨(InterventionSet.append_hasLevel _ _ _).trans (by rw [h.1]; rfl), h.2⟩

/-- What a raising does behind its new entry. -/
theorem raised {x : Capture} (h : (s.withSet (s.set.append (s.entryOf c x))).Halted) (absent : s.set.has c = false)
    (keeps : ∀ u : State, u.Halted → (ev u).Halted) : (s.raiseWith ev c x).Halted := by
  have combined := (keeps _ (h.report (.raised c x)).reportPosition).combine keeps false
  rw [State.raiseWith, if_neg (by simp [absent])]
  dsimp only
  split
  · exact combined.abandonProof
  · exact combined

theorem raiseWith (h : s.Halted) (keeps : ∀ u : State, u.Halted → (ev u).Halted) (c : Cause) (x : Capture) :
    (s.raiseWith ev c x).Halted := by
  by_cases present : s.set.has c = true
  · rwa [State.raiseWith_present present]
  · exact (h.append _).raised (by simpa using present) keeps

/-- A SERVICE-level entry that leaves does not end the emergency. -/
theorem erase (h : s.Halted) (service : c.level ≠ .emergency) : (s.withSet (s.set.erase c)).Halted := by
  obtain ⟨e, mem, level⟩ := InterventionSet.hasLevel_iff.1 h.1
  refine ⟨InterventionSet.hasLevel_iff.2 ⟨e, List.mem_filter.2 ⟨mem, bne_iff_ne.2 ?_⟩, level⟩, h.2⟩
  rintro rfl
  exact service level

theorem removeWith (h : s.Halted) (keeps : ∀ u : State, u.Halted → (ev u).Halted) (service : c.level ≠ .emergency) :
    (s.removeWith ev c).Halted := by
  unfold State.removeWith
  split
  · have combined := (keeps _ ((h.erase service).report (.cleared c))).combine keeps false
    dsimp only
    rwa [combined.testProof]
  · exact h

theorem evaluate (s : State) (h : s.Halted) : s.evaluate.Halted :=
  have quiet : ∀ u : State, u.Halted → u.evaluateQuiet.Halted := fun _ k => k
  State.judge_keeps State.Halted (fun _ => h) (fun _ _ _ k => k.raiseWith quiet _ _) fun _ k => k.removeWith quiet (by decide)

end State.Halted

/-- A raising at EMERGENCY level abandons the proof in progress, and the tried list is empty then (R80, R123, R128). -/
theorem State.raise_abandons (x : Capture) (absent : s.set.has c = false) (level : c.level = .emergency) :
    (s.raise c x).prov.proof = none ∧ (s.prov.proof ≠ none → (s.raise c x).prov.tried = []) := by
  have idle : (s.raise c x).prov.proof = none := by
    rw [State.raise, State.raiseWith, if_neg (by simp [absent])]
    dsimp only
    rw [if_pos level]
    exact State.abandonProof_none _
  refine ⟨idle, fun busy => ?_⟩
  have joined : (s.withSet (s.set.append (s.entryOf c x))).Halted :=
    ⟨(InterventionSet.append_hasLevel _ _ _).trans (by simp [State.entryOf, level]), fun none => absurd none busy⟩
  exact (joined.raised absent State.Halted.evaluate).2 idle

/-! ### The loop input -/

/-- The loop input's level as it opens (R83). -/
def State.loopOpened (s : State) : State := s.withSet { s.set with loopOpen := true }

theorem State.loopOpens_opens (closed : s.set.loopOpen = false) :
    s.loopOpens = s.loopOpened.raise .emergencyLoop s.capture := if_neg (by simp [closed])

/-- Settles O25. -/
theorem openLoopRaisesTheEmergency : Obligations.OpenLoopRaisesTheEmergency := by
  intro s sound
  refine ⟨fun already => congrArg Host.Outcome.next (if_pos already), fun closed present => congrArg Host.Outcome.next ?_,
    fun closed absent => ?_⟩
  · have stays : s.loopOpened.raise .emergencyLoop s.capture = s.loopOpened := State.raiseWith_present (s := s.loopOpened) present _
    exact (State.loopOpens_opens closed).trans stays
  · have made := State.loopOpens_opens closed
    have absent' : s.loopOpened.set.has .emergencyLoop = false := absent
    obtain ⟨idle, emptied⟩ := State.raise_abandons s.capture absent' rfl
    refine ⟨_, congrArg Host.Outcome.next made, ?_, ?_, idle, emptied, ?_, fun speaks room => ?_, ?_⟩
    · exact (State.raise_lawful (r := .emergencyLoop :: overspeeds) (m := [.overspeedService]) _ _ _).frame.loop (by decide)
    · exact (made ▸ s.loopOpens_lawful.sound sound).fullBrake (c := .emergencyLoop) rfl (State.raise_has _ _ _ (by decide))
    · exact State.raise_entry s.capture (by decide) absent'
    · exact State.raise_reports s.capture absent' speaks room
    · exact made ▸ s.loopOpens_lawful.frame

end Sys2Proof.Machine
end

section
/-! PROOFS. The button of a RELEASED door (O41): the step of R135 queues its record, and in motion raises DOOR_UNLOCKED_MOVING. -/

namespace Sys2Proof.Machine

set_option Elab.async false

variable {s : State} {d : Door} {x : DoorState}

/-! ### The record and the raising of a door's step -/

theorem State.driveDoor_radio (s : State) (d : Door) (y : Sense) : (s.driveDoor d y).radio = s.radio := by
  unfold State.driveDoor
  dsimp only
  split <;> rfl

/-- The move of a door hands no record (R135). -/
theorem State.moveDoor_radio (s : State) (d : Door) (x : DoorState) : (s.moveDoor d x).radio = s.radio := by
  unfold State.moveDoor
  dsimp only
  split
  · exact State.driveDoor_radio _ _ _
  · exact State.driveDoor_radio _ _ _
  · split <;> rfl

theorem State.testDoorRelease_remembers (s : State) : Remembers s s.testDoorRelease := by
  unfold State.testDoorRelease
  split
  · exact remembers_cascade.removeWith evaluate_remembers _ _
  · exact remembers_cascade.refl _

theorem State.rehold_remembers (s : State) : Remembers s s.rehold := by
  have held : Remembers s (s.withDoors { s.doors with hold := s.doors.anyUnlocked }) := .of rfl
  unfold State.rehold
  dsimp only
  split
  · exact held
  · exact remembers_cascade.trans held (remembers_cascade.combine evaluate_remembers _ false)

/-- The record of a door's step, whose notices leave it in the queue (R135, R167). -/
theorem State.stepDoor_reports (speaks : s.cfg.listenOnly = false) (room : s.radio.queue.length < Config.queueCapacity) :
    { time := s.recordTime, body := .doorEvent d x (s.doorAt d).closeFailed } ∈ (s.stepDoor d x).radio.queue := by
  have k := remembers_cascade
  have moved := State.moveDoor_frame (r := []) (m := []) s d x
  have queued := State.report_mem (s.moveDoor d x) (.doorEvent d x ((s.moveDoor d x).doorAt d).closeFailed)
    (moved.settings (by decide) ▸ speaks) (s.moveDoor_radio d x ▸ room)
  have raised : Remembers ((s.moveDoor d x).report (.doorEvent d x ((s.moveDoor d x).doorAt d).closeFailed))
      (s.stepDoorHead d x) := by
    unfold State.stepDoorHead
    dsimp only
    split
    · exact k.raiseWith evaluate_remembers _ _ _
    · exact k.refl _
  have stepped := k.trans raised (k.trans (k.trans (evaluate_remembers _) (State.testDoorRelease_remembers _))
    (State.rehold_remembers _)) _ queued rfl
  have time : (s.moveDoor d x).recordTime = s.recordTime := congrArg (fun n => n / 1000 % 4294967296 % 65536) moved.clock
  have flag : ((s.moveDoor d x).doorAt d).closeFailed = (s.doorAt d).closeFailed := by rw [State.moveDoor_kept]
  rwa [time, flag] at stepped

/-- In motion a door that is not known to be shut leaves DOOR_UNLOCKED_MOVING in the set (R135). -/
theorem State.stepDoor_raises (moving : s.odo.standstill = false) (ajar : x.ajar = true) :
    (s.stepDoor d x).set.has .doorUnlockedMoving = true := by
  obtain ⟨odo, -⟩ := s.moveDoor_still d x
  have rolling : ((s.moveDoor d x).report (.doorEvent d x ((s.moveDoor d x).doorAt d).closeFailed)).odo.standstill = false := by
    rw [(State.report_frame (r := []) (m := []) _ _).standstill (by decide), odo, moving]
  refine State.stepDoor_has moving d x ?_
  unfold State.stepDoorHead
  dsimp only
  rw [rolling, ajar, if_pos (by decide)]
  exact State.raise_has _ _ _ (by decide)

/-! ### The button -/

/-- The level of a button that is pressed (R134). -/
def State.pressed (s : State) (d : Door) : State := s.withPins d { (s.doorAt d).pins with pressed := true }

theorem State.pressed_doorAt (s : State) (d : Door) :
    (s.pressed d).doorAt d = { s.doorAt d with pins := { (s.doorAt d).pins with pressed := true } } :=
  s.doorAt_withDoor_same d _

/-- A press opens a RELEASED door and is else a change of level alone (R134, R138). -/
theorem State.buttonPress_eq (free : (s.doorAt d).pins.pressed = false) :
    s.buttonPress d = if (s.doorAt d).state = .released then (s.pressed d).openDoor d else s.pressed d :=
  if_neg (by simp [free])

/-- Settles O41. -/
theorem buttonsOpenReleasedDoors : Obligations.ButtonsOpenReleasedDoors := by
  intro s d sound
  refine ⟨fun free released short => ?_, fun free other => congrArg Host.Outcome.next ?_⟩
  · have short' : ((s.pressed d).doorAt d).pins.openMade = false := by rw [State.pressed_doorAt]; exact short
    have made : s.buttonPress d = (s.pressed d).stepDoor d .opening := by
      rw [State.buttonPress_eq free, if_pos released, State.openDoor_short short']
    have only : OnlyDoor d s (s.pressed d) := s.withDoor_only d _
    refine ⟨_, congrArg Host.Outcome.next made, ?_, fun e other => ?_, ?_, fun speaks room => ?_, fun moving => ?_,
      made ▸ (s.buttonPress_lawful d).frame⟩
    · rw [State.stepDoor_opening, State.pressed_doorAt, only.limit]
      rfl
    · exact (only.trans ((s.pressed d).stepDoor_only d _)).doors e other
    · rw [← only.duty]
      exact State.stepDoor_drives (s := s.pressed d) sound.doorDuty d .open
    · have reported := State.stepDoor_reports (s := s.pressed d) (d := d) (x := .opening) speaks room
      rwa [State.pressed_doorAt] at reported
    · exact State.stepDoor_raises (s := s.pressed d) moving rfl
  · rw [State.buttonPress_eq free, if_neg other]
    rfl

end Sys2Proof.Machine
end

section
/-! PROOFS. Removals in the step of an ACK_INTERVENTION or a RELEASE: entries only leave the set, and the record of a removal stays
queued. With them RELEASE (O22). -/

namespace Sys2Proof.Machine

set_option Elab.async false

variable {s : State} {c : Cause} {i j : InterventionSet} {f : List Byte}

/-! ### Entries leave -/

theorem InterventionSet.has_of_sublist (h : i.entries.Sublist j.entries) (present : i.has c = true) : j.has c = true :=
  (j.has_iff c).2 ((h.map Entry.cause).subset ((i.has_iff c).1 present))

theorem InterventionSet.erase_absent (h : i.has c = false) : (i.erase c).entries = i.entries := by
  rw [InterventionSet.has, List.any_eq_false] at h
  exact List.filter_eq_self.2 fun e mem => by simpa using h e mem

theorem State.evaluateAside_sublist (s : State) : s.evaluateAside.set.entries.Sublist s.set.entries := by
  rcases s.evaluateAside_set with same | erased
  · rw [same]
  · rw [erased]
    exact List.filter_sublist

/-- That the entries are some of these, in order. -/
theorem Reads.within (l : List Entry) : Reads fun s => s.set.entries.Sublist l where
  beside := fun f h => f.set ▸ h
  report := fun b h => by rwa [State.report_set]
  reportPosition := fun h => by rwa [State.reportPosition_set]

/-- A removal inside the step leaves of the set what the entry's leaving leaves, or less (R71, R81, R91). -/
theorem State.removeAside_within (s : State) (c : Cause) : (s.removeAside c).set.entries.Sublist (s.set.erase c).entries := by
  have k := Reads.within (s.set.erase c).entries
  have noticed : ∀ u : State, u.set.entries.Sublist (s.set.erase c).entries →
      u.evaluateAside.set.entries.Sublist (s.set.erase c).entries := fun u h => u.evaluateAside_sublist.trans h
  rw [State.removeAside, State.removeWith]
  split
  · exact k.beside (State.testProof_beside _)
      (k.combine noticed (noticed _ (k.report (s := s.withSet (s.set.erase c)) (.cleared c) (List.Sublist.refl _))) false)
  · rename_i absent
    rw [InterventionSet.erase_absent (by simpa using absent)]

theorem State.removeAside_sublist (s : State) (c : Cause) : (s.removeAside c).set.entries.Sublist s.set.entries :=
  (s.removeAside_within c).trans List.filter_sublist

theorem State.removeAside_absent (s : State) (c : Cause) : (s.removeAside c).set.has c = false := by
  by_contra present
  have erased := InterventionSet.has_of_sublist (j := s.set.erase c) (s.removeAside_within c) (by simpa using present)
  rw [InterventionSet.has_erase] at erased
  simp at erased

/-! ### The record of a removal -/

theorem evaluateAside_remembers : KeptBy Remembers State.evaluateAside := fun s =>
  remembers_cascade.trans (Remembers.of (t := s.decayed.withFigures) rfl) (remembers_cascade.judgeWith (State.raising_id _))

/-- A removal inside the step queues its record, and its notices leave it there (R81, R167). -/
theorem State.removeAside_reports (present : s.set.has c = true) (speaks : s.cfg.listenOnly = false)
    (room : s.radio.queue.length < Config.queueCapacity) :
    { time := s.recordTime, body := .cleared c } ∈ (s.removeAside c).radio.queue := by
  have queued := State.report_mem (s.withSet (s.set.erase c)) (.cleared c) speaks room
  have k := remembers_cascade
  rw [State.removeAside, State.removeWith, if_pos present]
  exact k.trans (k.trans (evaluateAside_remembers _) (k.combine evaluateAside_remembers _ false)) (k.testProof _) _ queued rfl

theorem State.afterRemovals_remembers (t before after : State) : Remembers t (t.afterRemovals before after) := by
  unfold State.afterRemovals
  split
  · exact remembers_cascade.raiseOverspeeds _ _
  · exact remembers_cascade.refl _

/-! ### RELEASE -/

theorem causeOfCode_overrun {n : Nat} : causeOfCode n = some .authorityOverrun ↔ n = 3 := by
  constructor
  · unfold causeOfCode
    split <;> simp
  · rintro rfl
    rfl

/-- RELEASE is accepted by the car's own address alone (R162, R163). -/
theorem exec_release_other {dest : BitVec 16} (other : dest ≠ s.cfg.carAddress) : exec (.release dest f) s = .next s.linkedAt := by
  obtain ⟨hi, lo, bytes, whole⟩ := bytesOf_two_append dest
  refine congrArg Host.Outcome.next ?_
  rw [State.downlink, bytes]
  refine State.frame_unserved (code := DownlinkKind.release.code) fun k code _ => ?_
  have kind : k = .release :=
    Option.some.inj ((downlinkOfCode_code k).symm.trans (code ▸ downlinkOfCode_code DownlinkKind.release))
  rw [kind, whole]
  exact beq_false_of_ne other

theorem exec_release (size : f.length = 1) : exec (.release s.cfg.carAddress f) s = .next (s.linkedAt.takeRelease f) :=
  congrArg Host.Outcome.next (State.downlink_accepted size (by simp [Settings.accepts, DownlinkKind.isGrouped]))

/-- A RELEASE that finds no such entry, names another cause or comes in motion does nothing (R90). -/
theorem State.takeRelease_idle (h : field f 0 1 ≠ 3 ∨ s.odo.standstill = false ∨ s.set.has .authorityOverrun = false) :
    s.takeRelease f = s := by
  unfold State.takeRelease
  split
  · rename_i named
    rcases h with other | moving | absent
    · exact absurd (causeOfCode_overrun.1 named.1) other
    · exact absurd (moving.symm.trans named.2) (by decide)
    · rw [State.removeAside, State.removeWith_absent absent, State.afterRemovals_self]
  · rfl

/-- Settles O22. -/
theorem releaseLiftsTheOverrun : Obligations.ReleaseLiftsTheOverrun := by
  intro s dest f size
  have linked := s.linkedAt_frame
  refine ⟨?_, fun idle => ?_⟩
  · rintro rfl named stands present
    have present' : s.linkedAt.set.has .authorityOverrun = true := linked.has_kept (by decide) present
    have taken : s.linkedAt.takeRelease f = (s.linkedAt.removeAside .authorityOverrun).afterRemovals s.linkedAt
        (s.linkedAt.removeAside .authorityOverrun) :=
      if_pos ⟨causeOfCode_overrun.2 named, (linked.standstill (by decide)).trans stands⟩
    refine ⟨_, exec_release size, ?_, fun speaks room => ?_, ?_⟩
    · rw [taken]
      exact (State.afterRemovals_lawful _ _ _).frame.absent (State.removeAside_absent _ _)
    · have reported := State.removeAside_reports present' (s.linkedAt_cfg ▸ speaks) room
      rw [taken, ← s.linkedAt_recordTime]
      exact State.afterRemovals_remembers _ _ _ _ reported rfl
    · exact (linked.mono (fun _ h => h) (fun _ h => h) (by decide)).trans
        ((State.takeRelease_lawful _ f).frame.mono (by decide) (fun _ h => h) fun _ h => h)
  · by_cases own : dest = s.cfg.carAddress
    · subst own
      rw [exec_release size, State.takeRelease_idle]
      rcases idle with other | named | moving | absent
      · exact absurd rfl other
      · exact .inl named
      · exact .inr (.inl ((linked.standstill (by decide)).trans moving))
      · exact .inr (.inr (linked.absent absent))
    · exact exec_release_other own

end Sys2Proof.Machine
end

section
/-! PROOFS. Which entries an ACK_INTERVENTION removes (O27), from the release conditions (R84, R86), and which join the set after its
response (R87, R91). -/

namespace Sys2Proof.Machine

set_option Elab.async false

variable {s t u : State} {c : Cause} {b : Bool} {e : Entry}

/-! ### The removals one by one -/

/-- What each removal of the step keeps holds at its end (R86). -/
theorem State.acknowledge_keeps (P : State → Prop) (b : Bool) (start : P s)
    (lift : ∀ u c, P u → u.releasable b c = true → P (u.removeAside c)) : P (s.acknowledge b).1 := by
  refine List.foldlRecOn _ _ start fun u h c _ => ?_
  split
  · exact lift u c h ‹_›
  · exact h

/-- The causes that ACK_INTERVENTION can remove: all but AUTHORITY_OVERRUN (R84, R90). -/
abbrev acknowledged : List Cause :=
  [.overspeedService, .overspeedEmergency, .rollback, .doorUnlockedMoving, .cabSilent, .emergencyLoop, .brakeFeedback]

theorem State.mem_acknowledged (lifts : s.releasable b c = true) : c ∈ acknowledged := by
  cases c with
  | authorityOverrun => exact absurd lifts (by simp [State.releasable])
  | _ => decide

theorem State.removeAside_frame {m : List Cause} (s : State) (hc : c ∈ m) (hm : Cause.overspeedService ∈ m) :
    Frame [] overspeeds m s (s.removeAside c) :=
  State.removeWith_frame State.evaluateAside_evaluator s c (fun _ h => h) hc hm

theorem State.acknowledge_frame (s : State) (b : Bool) : Frame [] overspeeds acknowledged s (s.acknowledge b).1 :=
  State.acknowledge_keeps (Frame [] overspeeds acknowledged s) b Frame.refl fun u _ f lifts =>
    f.trans (u.removeAside_frame (State.mem_acknowledged lifts) (by decide))

theorem State.acknowledge_sublist (s : State) (b : Bool) : (s.acknowledge b).1.set.entries.Sublist s.set.entries :=
  State.acknowledge_keeps (fun u => u.set.entries.Sublist s.set.entries) b (List.Sublist.refl _) fun u c h _ =>
    (u.removeAside_sublist c).trans h

/-- An entry whose release condition never holds in the step stays (R86). -/
theorem State.acknowledge_leaves (mem : e ∈ s.set.entries) (other : e.cause ≠ .overspeedService)
    (stays : ∀ u, Frame [] overspeeds acknowledged s u → u.releasable b e.cause = false) :
    e ∈ (s.acknowledge b).1.set.entries := by
  refine (State.acknowledge_keeps (fun u => Frame [] overspeeds acknowledged s u ∧ e ∈ u.set.entries) b ⟨Frame.refl, mem⟩
    fun u c ⟨f, here⟩ lifts => ⟨f.trans (u.removeAside_frame (State.mem_acknowledged lifts) (by decide)), ?_⟩).2
  refine (u.removeAside_frame (m := [c, .overspeedService]) (by simp) (by simp)).kept (by decide) e here ?_
  have differs : e.cause ≠ c := fun same => by simp [← same, stays u f] at lifts
  simp [differs, other]

/-- A cause whose release condition holds throughout the step is gone at its end (R86). -/
theorem State.acknowledge_lifts (lifts : ∀ u, Frame [] overspeeds acknowledged s u → u.releasable b c = true) :
    (s.acknowledge b).1.set.has c = false := by
  have fold : ∀ (l : List Cause) (u : State), Frame [] overspeeds acknowledged s u → (u.set.has c = true → c ∈ l) →
      (l.foldl (fun s c => if s.releasable b c then s.removeAside c else s) u).set.has c = false := by
    intro l
    induction l with
    | nil => exact fun u _ listed => by simpa using listed
    | cons d l ih =>
      intro u f listed
      rw [List.foldl_cons]
      split
      · rename_i lifted
        refine ih _ (f.trans (u.removeAside_frame (State.mem_acknowledged lifted) (by decide))) fun present => ?_
        refine (List.mem_cons.1 (listed (InterventionSet.has_of_sublist (u.removeAside_sublist d) present))).resolve_left ?_
        rintro rfl
        exact absurd (present.symm.trans (u.removeAside_absent c)) (by decide)
      · rename_i stays
        refine ih u f fun present => (List.mem_cons.1 (listed present)).resolve_left ?_
        rintro rfl
        exact stays (lifts u f)
  exact fold _ s Frame.refl (s.set.has_iff c).1

/-! ### At standstill -/

/-- At standstill the release conditions stay what they are through the step (R84). -/
theorem State.releasable_still {r m : List Cause} (f : Frame [] r m s u) (stands : s.odo.standstill = true) (c : Cause) :
    u.releasable b c = s.releasable b c := by
  have stands' := (f.standstill (by decide)).trans stands
  cases c <;>
    simp [State.releasable, State.belowService, stands, stands', f.doors (by decide), f.loop (by decide)]

/-- At standstill the step leaves exactly the entries whose release condition does not hold, in order (R84, R86). -/
theorem State.acknowledge_still (law : s.InterventionLaw) (stands : s.odo.standstill = true) (b : Bool) :
    (s.acknowledge b).1.set.entries = s.set.entries.filter fun e => !s.releasable b e.cause := by
  have within := s.acknowledge_sublist b
  have gone : (s.acknowledge b).1.set.entries.filter (fun e => !s.releasable b e.cause) = (s.acknowledge b).1.set.entries := by
    refine List.filter_eq_self.2 fun e mem => ?_
    by_contra lifts
    have absent := State.acknowledge_lifts (s := s) (b := b) (c := e.cause) fun u f => by
      rw [State.releasable_still f stands]
      simpa using lifts
    exact absurd ((InterventionSet.has_of_mem mem).symm.trans absent) (by decide)
  have sub := gone ▸ within.filter fun e : Entry => !s.releasable b e.cause
  have left : s.set.entries.filter (fun e => !s.releasable b e.cause) ⊆ (s.acknowledge b).1.set.entries := by
    intro e mem
    obtain ⟨here, stays⟩ := List.mem_filter.1 mem
    have stays : s.releasable b e.cause = false := by simpa using stays
    refine State.acknowledge_leaves here ?_ fun u f => (State.releasable_still f stands _).trans stays
    intro overspeed
    simp [overspeed, State.releasable, State.belowService, stands] at stays
  have distinct : (s.set.entries.filter fun e => !s.releasable b e.cause).Nodup := law.1.of_map.filter _
  exact sub.eq_of_length_le (distinct.subperm left).length_le

/-! ### In motion -/

/-- In motion only OVERSPEED_SERVICE and CAB_SILENT can be released (R71, R84). -/
theorem State.releasable_moving (moving : s.odo.standstill = false) (overspeed : c ≠ .overspeedService) (silent : c ≠ .cabSilent) :
    s.releasable b c = false := by
  cases c <;> simp_all [State.releasable]

/-! ### The cab heard mark -/

/-- The mark that a cab request sets on the entry of CAB_SILENT (R89). -/
def Entry.hear (e : Entry) : Entry := if e.cause = .cabSilent then { e with heard := true } else e

theorem Entry.hear_cause (e : Entry) : e.hear.cause = e.cause := by
  unfold Entry.hear
  split <;> rfl

/-- With one entry of a cause the mark of the set is that of its CAB_SILENT entry (R79, R89). -/
theorem InterventionSet.heard_eq {i : InterventionSet} (law : (i.entries.map Entry.cause).Nodup) (mem : e ∈ i.entries)
    (silent : e.cause = .cabSilent) : i.heard = e.heard := by
  have only : ∀ d ∈ i.entries, d.cause = .cabSilent → d = e := fun d there same =>
    List.inj_on_of_nodup_map law there mem (same.trans silent.symm)
  rw [Bool.eq_iff_iff, InterventionSet.heard, List.any_eq_true]
  constructor
  · rintro ⟨d, there, marked⟩
    obtain ⟨same, heard⟩ := Bool.and_eq_true_iff.1 marked
    exact only d there (eq_of_beq same) ▸ heard
  · exact fun heard => ⟨e, mem, by simp [silent, heard]⟩

/-! ### Raisings after the response -/

/-- The entry that joins for an overspeed the evaluations of the step have found, if none of its cause is present (R79, R91). -/
def State.joining (u : State) (shrunk : Prop) [Decidable shrunk] (c : Cause) (limit : Nat) : List Entry :=
  if shrunk ∧ limit < u.odo.v ∧ u.set.has c = false then [u.entryOf c u.capture] else []

/-- A raising of the supervisor is one entry at the end of the set, or nothing at all (R79). -/
theorem State.raiseIf_entries (fast : Bool) (s : State) (c : Cause) (x : Capture) :
    (if fast then s.raiseWith State.evaluateQuiet c x else s).set.entries
      = s.set.entries ++ if fast = true ∧ s.set.has c = false then [s.entryOf c x] else [] := by
  cases fast with
  | false => simp
  | true =>
    rw [if_pos rfl, State.raiseWith_set State.evaluateQuiet_set, State.raisedSet]
    by_cases present : s.set.has c = true
    · simp [present]
    · rw [if_neg present, if_pos ⟨rfl, by simpa using present⟩]
      rfl

theorem State.raiseIf_present {fast : Bool} (h : fast = true → s.set.has c = true) (x : Capture) :
    (if fast then s.raiseWith State.evaluateQuiet c x else s) = s := by
  cases fast with
  | false => rfl
  | true => exact State.raiseWith_present (h rfl) x

/-- The raising of one cause leaves the clock and the presence of every other. -/
theorem State.raiseIf_leaves (fast : Bool) (s : State) (x : Capture) {d : Cause} (other : d ≠ .overspeedService) :
    (if fast then s.raiseWith State.evaluateQuiet .overspeedService x else s).clock = s.clock
      ∧ (if fast then s.raiseWith State.evaluateQuiet .overspeedService x else s).set.has d = s.set.has d := by
  cases fast with
  | false => exact ⟨rfl, rfl⟩
  | true =>
    have f := State.raiseWith_frame (r := overspeeds) (m := [.overspeedService]) State.evaluateQuiet_evaluator s .overspeedService x
      (fun _ h => h) (by decide) (by decide)
    refine ⟨f.clock, ?_⟩
    rw [if_pos rfl, State.raiseWith_set State.evaluateQuiet_set, State.raisedSet_has]
    simp [other.symm]

/-- The raisings that wait for the end of the step, by v, the figures and the set as the step leaves them (R70, R91). -/
theorem State.afterRemovals_entries (before : State) (set : t.set = u.set) (clock : t.clock = u.clock) :
    (t.afterRemovals before u).set.entries
      = u.set.entries
          ++ u.joining (u.set.entries.length < before.set.entries.length) .overspeedService u.sup.serviceSpeed
          ++ u.joining (u.set.entries.length < before.set.entries.length) .overspeedEmergency u.sup.emergencySpeed := by
  have entry : ∀ w : State, w.clock = u.clock → ∀ c, w.entryOf c u.capture = u.entryOf c u.capture := fun w h c => by
    rw [State.entryOf, State.partTime, h]
    rfl
  unfold State.afterRemovals State.joining
  by_cases shrunk : u.set.entries.length < before.set.entries.length
  · obtain ⟨clock', has⟩ := State.raiseIf_leaves u.overService t u.capture (d := .overspeedEmergency) (by decide)
    rw [if_pos shrunk, State.raiseOverspeeds, State.raiseIf_entries, State.raiseIf_entries, has,
      entry _ (clock'.trans clock), entry t clock, set]
    simp [State.overService, State.overEmergency, shrunk]
  · simp [shrunk, set]

/-- Where no entry joins, nothing happens after the response. -/
theorem State.afterRemovals_quiet (before : State) (set : t.set = u.set)
    (service : u.joining (u.set.entries.length < before.set.entries.length) .overspeedService u.sup.serviceSpeed = [])
    (emergency : u.joining (u.set.entries.length < before.set.entries.length) .overspeedEmergency u.sup.emergencySpeed = []) :
    t.afterRemovals before u = t := by
  unfold State.afterRemovals
  split
  · rename_i shrunk
    have present : ∀ {c limit}, u.joining (u.set.entries.length < before.set.entries.length) c limit = [] → limit < u.odo.v →
        t.set.has c = true := fun {c limit} none fast => by
      by_contra absent
      rw [set] at absent
      simp [State.joining, shrunk, fast, absent] at none
    rw [State.raiseOverspeeds,
      State.raiseIf_present (fast := u.overService) fun fast => present service (of_decide_eq_true fast)]
    exact State.raiseIf_present (fast := u.overEmergency) (fun fast => present emergency (of_decide_eq_true fast)) _
  · rfl

end Sys2Proof.Machine
end

section
/-! PROOFS. What the removals of an ACK_INTERVENTION bring with them (O27): the figures of the last evaluation, and the round of
proofs where the spring stays applied (R123, R124). -/

namespace Sys2Proof.Machine

set_option Elab.async false

variable {r m : List Cause} {s t u : State} {c : Cause} {x : Proving} {ev : State → State}

/-! ### The figures -/

theorem State.evaluateAside_settled (s : State) : s.evaluateAside.Settled := by
  rw [State.Settled, s.evaluateAside_odo, (State.evaluateAside_evaluator.frame s).clock]
  exact Odometry.decayedSpeed_idem s.odo s.clock

/-- A removal leaves the figures of its evaluation (R59, R81). -/
theorem State.removeAside_figured (present : s.set.has c = true) : (s.removeAside c).Figured := by
  have k := steady_cascade
  have noticed := fun w : State => k.trans (k.combine evaluateAside_steady w false) (k.testProof _)
  rw [State.removeAside, State.removeWith, if_pos present]
  exact (noticed _ (State.evaluateAside_settled _)).2.2 (State.evaluateAside_figured _)

theorem State.acknowledge_figured (s : State) (b : Bool) :
    (s.acknowledge b).1.set.entries.length < s.set.entries.length → (s.acknowledge b).1.Figured := by
  refine State.acknowledge_keeps (fun u => u.set.entries.length < s.set.entries.length → u.Figured) b
    (fun shorter => absurd shorter (Nat.lt_irrefl _)) fun u c h _ => ?_
  by_cases present : u.set.has c = true
  · exact fun _ => State.removeAside_figured present
  · rwa [State.removeAside, State.removeWith_absent (by simpa using present)]

/-! ### A car that awaits its round -/

/-- The law of the spring lets it go (R103). -/
def State.Freed (s : State) : Prop := s.springLaw s.comb.park = false

/-- The car stands with the spring applied, as the law has it; no proof was in progress in `x`, and either the Proving Unit is still
that of `x`, or no EMERGENCY-level entry is left and the round that `x` asks for has begun (R123, R124). -/
structure State.Awaits (s : State) (x : Proving) : Prop where
  rest : s.AtRest
  spring : s.comb.springApplied = true
  law : s.springLaw s.comb.park = true
  owed : s.prov.owed = x.owed
  idle : x.proof = none ∧ x.dwell = none
  round : s.prov = x ∨ s.set.hasLevel .emergency = false ∧ s.Round x.owed x.tried

/-- A spring that is let go stays so, and a car that awaits its round awaits it still or has its spring let go. -/
def Awaiting (x : Proving) (s t : State) : Prop := (s.Freed → t.Freed) ∧ (s.Awaits x → t.Freed ∨ t.Awaits x)

theorem Awaiting.refl (x : Proving) (s : State) : Awaiting x s s := ⟨id, .inr⟩

theorem Awaiting.trans (f : Awaiting x s t) (g : Awaiting x t u) : Awaiting x s u :=
  ⟨fun h => g.1 (f.1 h), fun h => (f.2 h).elim (fun k => .inl (g.1 k)) g.2⟩

theorem State.freed_iff : s.Freed ↔ (s.line.opState = .run ∨ s.line.opState = .quiescing) ∧ s.comb.park = .release
    ∧ s.set.hasLevel .emergency = false := by
  simp [State.Freed, State.springLaw, and_assoc, or_iff_not_imp_left]

/-- What leaves the combiner, the Line Unit and the Proving Unit, and brings no EMERGENCY-level entry. -/
theorem Awaiting.of_same (f : Frame [] r m s t) (comb : t.comb = s.comb) (line : t.line = s.line) (prov : t.prov = s.prov)
    (calm : s.set.hasLevel .emergency = false → t.set.hasLevel .emergency = false) : Awaiting x s t := by
  refine ⟨fun freed => ?_, fun h => ?_⟩
  · rw [State.freed_iff, comb, line]
    exact (State.freed_iff.1 freed).imp_right fun k => k.imp_right calm
  · cases law : t.springLaw t.comb.park with
    | false => exact .inl law
    | true =>
      refine .inr ⟨h.rest.of_frame f, comb ▸ h.spring, law, prov ▸ h.owed, h.idle, h.round.imp (prov ▸ ·) fun k => ?_⟩
      exact ⟨calm k.1, k.2.of_frame f prov⟩

theorem State.report_awaiting (s : State) (b : ReportBody) (event : b.IsEvent := by exact fun _ => rfl) :
    Awaiting x s (s.report b) := by
  have f := State.report_frame (r := []) (m := []) s b event
  refine .of_same f ?_ ?_ ?_ fun h => by rwa [State.report_set]
  all_goals
    unfold State.report
    split <;> rfl

theorem State.erase_awaiting (s : State) (c : Cause) : Awaiting x s (s.withSet (s.set.erase c)) := by
  refine .of_same (State.erase_frame (r := []) (m := [c]) s c (by simp)) rfl rfl rfl fun calm => ?_
  rw [InterventionSet.hasLevel, List.any_eq_false] at *
  exact fun e mem => calm e (List.mem_of_mem_filter mem)

theorem State.figures_awaiting (s : State) (b : Bool) : Awaiting x s (s.decayed.withFigures.withSupervision b) :=
  have f : Frame [] [] [] s (s.decayed.withFigures.withSupervision b) :=
    (s.decayed_frame.trans (State.withFigures_frame _)).trans (State.withSupervision_frame _ _)
  .of_same f rfl rfl rfl id

theorem State.recombine_awaiting (s : State) : Awaiting x s (s.recombine false) :=
  ⟨id, fun h => .inr ⟨h.rest, h.law, h.law, h.owed, h.idle, h.round.imp id fun k =>
    ⟨k.1, k.2.of_frame (State.recombine_frame (r := []) (m := []) s) rfl⟩⟩⟩

/-! ### The test for a proof -/

/-- A round that has begun is left alone: its proof is in progress, or no channel is left to take (R123, R124). -/
theorem State.Round.testProof (h : s.Round x.owed x.tried) (owed : s.prov.owed = x.owed) : s.testProof = s := by
  unfold State.testProof
  split
  · rename_i can
    obtain ⟨-, -, -, idle⟩ := State.canProve_iff.1 can
    rw [State.Round] at h
    rw [Proving.next_eq, owed]
    cases owing : firstOwing x.owed x.tried with
    | none =>
      rw [owing] at h
      obtain ⟨-, -, tried⟩ := h
      rw [tried, owing]
    | some c =>
      rw [owing] at h
      obtain ⟨busy, -⟩ := h
      exact absurd (idle.symm.trans busy) (by simp)
  · rfl

namespace State.Awaits

/-- With no EMERGENCY-level entry left the test for a proof begins the round (R123, R124). -/
theorem begins (h : s.Awaits x) (calm : s.set.hasLevel .emergency = false) : s.testProof.Round x.owed x.tried := by
  rcases h.round with same | ⟨-, round⟩
  · have can : s.canProve = true := State.canProve_iff.2 ⟨h.rest.1, h.spring, calm, by rw [same, h.idle.1]⟩
    have begun := State.testProof_round can (by rw [same, h.idle.2])
    rwa [same] at begun
  · rwa [round.testProof h.owed]

theorem testProof (h : s.Awaits x) : s.testProof.Awaits x := by
  cases level : s.set.hasLevel .emergency with
  | true =>
    have emergency : s.testProof = s := by
      refine if_neg fun can => ?_
      obtain ⟨-, -, calm, -⟩ := State.canProve_iff.1 can
      exact absurd (calm.symm.trans level) (by decide)
    rwa [emergency]
  | false =>
    have quiet : s.Quiet s.prov := ⟨h.rest, h.spring, h.law, level, rfl⟩
    have q := quiet.testProof_quiet
    exact ⟨q.rest, q.spring, q.law, ((State.testProof_frame (r := []) (m := []) s).owed (by decide)).trans h.owed, h.idle,
      .inr ⟨q.calm, h.begins level⟩⟩

end State.Awaits

theorem State.testProof_freed (s : State) : s.testProof.Freed ↔ s.Freed := by
  unfold State.testProof
  split
  · split <;> exact Iff.rfl
  · exact Iff.rfl

theorem State.testProof_awaiting (s : State) : Awaiting x s s.testProof :=
  ⟨s.testProof_freed.2, fun h => .inr h.testProof⟩

/-! ### The notices of a removal -/

theorem State.recombine_freed (h : s.Freed) : (s.recombine false).Freed := h

theorem State.abandonProof_freed (h : s.Freed) : s.abandonProof.Freed := by
  unfold State.abandonProof
  split
  · exact h
  · rename_i proof _
    have ended : ((s.withProv { s.prov with proof := none, dwell := none }).resettle proof.channel).Freed := h
    exact State.recombine_freed ended

theorem State.emptyTried_freed (h : s.Freed) : s.emptyTried.Freed := h

/-- A recomputation lets the spring go or leaves it: at no removal is it applied (R99, R103). -/
theorem State.combine_awaiting (k : ∀ w, Awaiting x w (ev w)) (s : State) : Awaiting x s (s.combine ev false) := by
  have combined := s.recombine_awaiting (x := x)
  unfold State.combine
  dsimp only
  split
  · exact combined
  · rename_i changed
    cases law : s.springLaw s.comb.park with
    | false =>
      have released : (s.recombine false).comb.springApplied = false := law
      have freed : ((s.recombine false).springNotice ev (s.recombine false).comb.springApplied).Freed := by
        rw [released]
        exact State.emptyTried_freed (State.abandonProof_freed ((k _).1 law))
      exact ⟨fun _ => freed, fun _ => .inl freed⟩
    | true =>
      exact ⟨fun freed => absurd (law.symm.trans freed) (by decide), fun h => absurd (law.trans h.spring.symm) changed⟩

theorem State.removeWith_awaiting (k : ∀ w, Awaiting x w (ev w)) (s : State) (c : Cause) : Awaiting x s (s.removeWith ev c) := by
  unfold State.removeWith
  split
  · exact ((((s.erase_awaiting c).trans (State.report_awaiting _ _)).trans (k _)).trans (State.combine_awaiting k _)).trans
      (State.testProof_awaiting _)
  · exact Awaiting.refl x s

theorem State.evaluateAside_awaiting (s : State) : Awaiting x s s.evaluateAside :=
  have quiet : ∀ w : State, Awaiting x w w.evaluateQuiet := fun w => w.figures_awaiting _
  ite_keeps (P := Awaiting x s) ((s.figures_awaiting _).trans (State.removeWith_awaiting quiet _ _)) (s.figures_awaiting _)

/-- A removal begins the round that the car awaits, where the spring stays applied and no EMERGENCY-level entry is left (R123). -/
theorem State.removeAside_round (h : s.Freed ∨ s.Awaits x) (present : s.set.has c = true) (held : ¬(s.removeAside c).Freed)
    (calm : (s.removeAside c).set.hasLevel .emergency = false) : (s.removeAside c).Round x.owed x.tried := by
  have noticed := (((s.erase_awaiting c).trans (State.report_awaiting (x := x) _ (.cleared c))).trans
    (State.evaluateAside_awaiting _)).trans (State.combine_awaiting State.evaluateAside_awaiting _)
  rw [State.removeAside, State.removeWith, if_pos present] at held calm ⊢
  dsimp only at held calm ⊢
  rw [State.testProof_freed] at held
  rw [State.testProof_set] at calm
  have awaits := h.elim (fun freed => .inl (noticed.1 freed)) noticed.2
  exact (awaits.resolve_left held).begins calm

theorem State.acknowledge_round (h : s.Freed ∨ s.Awaits x) (b : Bool) :
    ((s.acknowledge b).1.Freed ∨ (s.acknowledge b).1.Awaits x)
      ∧ ((s.acknowledge b).1.set.entries.length < s.set.entries.length → ¬(s.acknowledge b).1.Freed →
          (s.acknowledge b).1.set.hasLevel .emergency = false → (s.acknowledge b).1.Round x.owed x.tried) := by
  refine State.acknowledge_keeps (fun u => (u.Freed ∨ u.Awaits x) ∧ (u.set.entries.length < s.set.entries.length → ¬u.Freed →
    u.set.hasLevel .emergency = false → u.Round x.owed x.tried)) b ⟨h, fun shorter => absurd shorter (Nat.lt_irrefl _)⟩
    fun u c ⟨k, round⟩ _ => ?_
  by_cases present : u.set.has c = true
  · have kept : Awaiting x u (u.removeAside c) := State.removeWith_awaiting State.evaluateAside_awaiting u c
    exact ⟨k.elim (fun freed => .inl (kept.1 freed)) kept.2, fun _ held calm => State.removeAside_round k present held calm⟩
  · rw [State.removeAside, State.removeWith_absent (by simpa using present)]
    exact ⟨k, round⟩

end Sys2Proof.Machine
end

section
/-! PROOFS. ACK_INTERVENTION as a whole (O27): the owner's step, the response built on the state it leaves (log 13), and the raisings
behind it (log 33). -/

namespace Sys2Proof.Machine

set_option Elab.async false

variable {s : State} {e : Entry}

/-! ### The step and its response -/

/-- The state in which the step of an ACK_INTERVENTION on the cab line ends, before its response (R86). -/
def State.acked (s : State) : State := ((s.heardAt .cab).acknowledge s.set.heard).1

/-- The same with the response given to the port `p`, once the raisings of the step have joined (log 33). -/
def State.ackedAfter (s : State) (p : Port) : State := (s.acked.withPort .cab p).afterRemovals (s.heardAt .cab) s.acked

/-- The response is built on the state in which the step ends, and the raisings of the step come behind it (log 33). -/
theorem State.request_acknowledges (can : s.CanTake .cab) :
    ∃ p, s.request .cab .ackIntervention [] = s.ackedAfter p
      ∧ (s.line.port .cab).Given p .cab s.clock
          (frameOf (s.acked.responseBody 0x08#8 (.done (s.acked.set.entries.flatMap Entry.bytes)))) := by
  obtain ⟨p, made, served⟩ := s.served_serves .cab .ackIntervention []
  have request := s.request_eq .cab .ackIntervention [] can rfl rfl
  rw [if_pos rfl, made] at request
  exact ⟨p, request, served.answered⟩

theorem State.acked_sound (h : s.Sound) : s.acked.Sound := (State.acknowledge_lawful _ _).sound (State.heardAt_sound h .cab)

theorem State.acked_frame (s : State) : Frame [] overspeeds acknowledged (s.heardAt .cab) s.acked := State.acknowledge_frame _ _

theorem State.acked_fresh (s : State) (shrunk : s.acked.set.entries.length < s.set.entries.length) : s.acked.Fresh :=
  ((s.heardAt .cab).acknowledge_figured s.set.heard (by rwa [State.heardAt_entries_length])).fresh

/-! ### Which entries it leaves -/

theorem State.heardAt_entries (s : State) : (s.heardAt .cab).set.entries = s.set.entries.map Entry.hear :=
  congrArg InterventionSet.entries (s.heardAt_set .cab)

/-- The entries that an ACK_INTERVENTION at standstill leaves (R84, R86, R89, R90). -/
def State.remains (s : State) (e : Entry) : Bool :=
  match e.cause with
  | .authorityOverrun => true
  | .cabSilent => !e.heard
  | .emergencyLoop => s.set.loopOpen
  | .doorUnlockedMoving => s.doors.anyUnlocked
  | _ => false

theorem State.remains_iff (law : s.InterventionLaw) (stands : s.odo.standstill = true) (mem : e ∈ s.set.entries) :
    s.remains e = !(s.heardAt .cab).releasable s.set.heard e.cause := by
  obtain ⟨odo, -, -, -, -, -, -, -, doors, -, -, -, loop, -⟩ := s.heardAt_keeps .cab
  unfold State.remains
  cases cause : e.cause <;> simp [State.releasable, State.belowService, odo, doors, loop, stands]
  exact (InterventionSet.heard_eq law.1 mem cause).symm

theorem State.acked_still (sound : s.Sound) (stands : s.odo.standstill = true) :
    s.acked.set.entries = (s.set.entries.filter s.remains).map Entry.hear := by
  obtain ⟨odo, -⟩ := s.heardAt_keeps .cab
  have left := State.acknowledge_still (State.heardAt_sound sound .cab).interventions (odo ▸ stands) s.set.heard
  rw [State.acked, left, s.heardAt_entries, List.filter_map]
  refine congrArg _ (List.filter_congr fun e mem => ?_)
  rw [State.remains_iff sound.interventions stands mem, Function.comp, Entry.hear_cause]

/-- In motion the entries of the causes that ask for standstill stay (R84). -/
theorem State.acked_moving (moving : s.odo.standstill = false) (mem : e ∈ s.set.entries) (overspeed : e.cause ≠ .overspeedService)
    (silent : e.cause ≠ .cabSilent) : e ∈ s.acked.set.entries := by
  obtain ⟨odo, -⟩ := s.heardAt_keeps .cab
  have here : e ∈ (s.heardAt .cab).set.entries := by
    rw [s.heardAt_entries]
    exact List.mem_map.2 ⟨e, mem, if_neg silent⟩
  refine State.acknowledge_leaves here overspeed fun u f => State.releasable_moving ?_ overspeed silent
  rw [f.standstill (by decide), odo, moving]

/-- CAB_SILENT leaves by the mark as it stood before the request (R89). -/
theorem State.acked_silent (law : s.InterventionLaw) (mem : e ∈ s.set.entries) (silent : e.cause = .cabSilent) :
    (e.heard = true → s.acked.set.has .cabSilent = false)
      ∧ (e.heard = false → { e with heard := true } ∈ s.acked.set.entries) := by
  have mark := InterventionSet.heard_eq law.1 mem silent
  refine ⟨fun heard => State.acknowledge_lifts fun _ _ => mark.trans heard, fun unheard => ?_⟩
  have here : { e with heard := true } ∈ (s.heardAt .cab).set.entries := by
    rw [s.heardAt_entries]
    exact List.mem_map.2 ⟨e, mem, if_pos silent⟩
  refine State.acknowledge_leaves here (by simp [silent]) fun u _ => ?_
  simp only [silent]
  exact mark.trans unheard

/-! ### The round of proofs -/

/-- A lawful car at standstill with no proof in progress awaits its round, or the law lets its spring go (R103, R123). -/
theorem State.Sound.awaits (h : s.Sound) (stands : s.odo.standstill = true) (idle : s.prov.proof = none) :
    s.Freed ∨ s.Awaits s.prov := by
  obtain ⟨-, rest, -, -, dwell⟩ := h.timers
  cases law : s.springLaw s.comb.park with
  | false => exact .inl law
  | true =>
    rw [idle] at dwell
    exact .inr ⟨⟨stands, rest stands⟩, h.braked.1.trans law, law, rfl, ⟨idle, by simpa using dwell⟩, .inl rfl⟩

theorem State.acked_round (sound : s.Sound) (stands : s.odo.standstill = true) (idle : s.prov.proof = none)
    (applied : s.acked.comb.springApplied = true) (calm : s.acked.set.hasLevel .emergency = false)
    (shrunk : s.acked.set.entries.length < s.set.entries.length) : s.acked.Round s.prov.owed s.prov.tried := by
  obtain ⟨odo, -, -, -, -, -, -, prov, -⟩ := s.heardAt_keeps .cab
  have awaits := (State.heardAt_sound sound .cab).awaits (odo ▸ stands) (prov ▸ idle)
  rw [prov] at awaits
  refine (State.acknowledge_round awaits s.set.heard).2 (by rwa [State.heardAt_entries_length]) (fun freed => ?_) calm
  exact absurd (applied.symm.trans ((State.acked_sound sound).braked.1.trans freed)) (by decide)

/-! ### Behind the response -/

theorem State.ackedAfter_frame (s : State) (p : Port) :
    Frame [] overspeeds [.overspeedService] (s.acked.withPort .cab p) (s.ackedAfter p) := (State.afterRemovals_lawful _ _ _).frame

theorem State.ackedAfter_port (s : State) (p : Port) : (s.ackedAfter p).line.port .cab = p := by
  rw [(s.ackedAfter_frame p).port .cab (by decide), State.withPort_line, LineUnit.port_withPort, if_pos rfl]

theorem State.ackedAfter_entries (s : State) (p : Port) :
    (s.ackedAfter p).set.entries
      = s.acked.set.entries
          ++ s.acked.joining (s.acked.set.entries.length < s.set.entries.length) .overspeedService s.acked.sup.serviceSpeed
          ++ s.acked.joining (s.acked.set.entries.length < s.set.entries.length) .overspeedEmergency
              s.acked.sup.emergencySpeed := by
  have entries := State.afterRemovals_entries (t := s.acked.withPort .cab p) (u := s.acked) (s.heardAt .cab) rfl rfl
  rwa [State.heardAt_entries_length] at entries

theorem State.ackedAfter_keeps (p : Port) (mem : e ∈ s.acked.set.entries) : e ∈ (s.ackedAfter p).set.entries := by
  rw [State.ackedAfter_entries]
  exact List.mem_append_left _ (List.mem_append_left _ mem)

/-- Where no entry has joined, the response is the last thing that happens. -/
theorem State.ackedAfter_same {p : Port} (same : (s.ackedAfter p).set.entries = s.acked.set.entries) :
    s.ackedAfter p = s.acked.withPort .cab p := by
  rw [State.ackedAfter_entries, List.append_assoc, List.append_right_eq_self, List.append_eq_nil_iff,
    ← State.heardAt_entries_length s .cab] at same
  exact State.afterRemovals_quiet (t := s.acked.withPort .cab p) (s.heardAt .cab) rfl same.1 same.2

/-- At standstill v is 0, so no overspeed joins. -/
theorem State.ackedAfter_still (sound : s.Sound) (stands : s.odo.standstill = true) (p : Port) :
    s.ackedAfter p = s.acked.withPort .cab p := by
  have rest : s.acked.odo.v = 0 := (State.acked_sound sound).timers.2.1 <| by
    rw [s.acked_frame.standstill (by decide), (s.heardAt_keeps .cab).1, stands]
  refine State.ackedAfter_same ?_
  rw [State.ackedAfter_entries]
  simp [State.joining, rest]

theorem State.ackedAfter_round (sound : s.Sound) (stands : s.odo.standstill = true) (idle : s.prov.proof = none) {p : Port}
    (applied : (s.ackedAfter p).comb.springApplied = true)
    (calm : ∀ e ∈ (s.ackedAfter p).set.entries, e.cause.level ≠ .emergency)
    (shrunk : (s.ackedAfter p).set.entries.length < s.set.entries.length) :
    (s.ackedAfter p).Round s.prov.owed s.prov.tried := by
  rw [State.ackedAfter_still sound stands] at applied calm shrunk ⊢
  have none : s.acked.set.hasLevel .emergency = false := by
    rw [Bool.eq_false_iff, ne_eq, InterventionSet.hasLevel_iff]
    exact fun ⟨e, mem, level⟩ => calm e mem level
  exact (State.acked_round sound stands idle applied none shrunk).of_frame
    (State.withPort_frame (r := []) (m := []) s.acked .cab p) rfl

theorem State.ackedAfter_heard (s : State) (p : Port) :
    Frame [.cabPort] overspeeds acknowledged (s.heardAt .cab) (s.ackedAfter p) := by
  have responded : Frame [.cabPort] overspeeds acknowledged (s.heardAt .cab) (s.acked.withPort .cab p) :=
    (s.acked_frame.mono (by decide) (fun _ h => h) fun _ h => h).trans (State.withPort_frame _ .cab p)
  exact responded.trans ((s.ackedAfter_frame p).mono (by decide) (fun _ h => h) (by decide))

/-- Settles O27: `u` is the state in which the step ends, `t` the one with its response and the raisings behind it. -/
theorem acknowledgementClearsWhatIsPutRight : Obligations.AcknowledgementClearsWhatIsPutRight := by
  intro s sound can
  obtain ⟨p, made, given⟩ := State.request_acknowledges can
  have safe : (s.ackedAfter p).Sound := made ▸ (State.request_orderly s .cab .ackIntervention []).sound sound
  have port := s.ackedAfter_port p
  refine ⟨s.acked, s.ackedAfter p, congrArg Host.Outcome.next made, State.acknowledge_sublist _ _, s.acked_fresh,
    port.symm ▸ given, s.ackedAfter_entries p, fun same => ?_, fun present => safe.fullBrake rfl present, fun stands => ?_,
    fun stands idle applied calm shrunk => State.ackedAfter_round sound stands idle applied calm shrunk,
    fun moving => ⟨fun e mem overspeed silent => ?_, fun e mem silent => ?_⟩, s.ackedAfter_heard p⟩
  · rw [port]
    exact State.ackedAfter_same same
  · rw [State.ackedAfter_still sound stands]
    exact State.acked_still sound stands
  · exact State.ackedAfter_keeps p (State.acked_moving moving mem overspeed silent)
  · obtain ⟨leaves, marked⟩ := State.acked_silent sound.interventions mem silent
    exact ⟨fun heard => (s.ackedAfter_frame p).absent (leaves heard),
      fun unheard => State.ackedAfter_keeps p (marked unheard)⟩

end Sys2Proof.Machine
end

section
/-! PROOFS. Period ends (O32), and the expiries of the scan timer and of the position timer (O33). -/

namespace Sys2Proof.Machine

set_option Elab.async false

variable {s : State}

/-! ### Period ends -/

/-- The period that an output running with a pending duty begins at its period end (R106, R108). -/
def Output.nextPeriod (o : Output) (duty period now : Nat) : Output :=
  { o with
    period := period
    boundary := some (now + period)
    activeOn := duty * period / 100
    pendingOn := duty * period / 100
    activeSense := o.pendingSense }

theorem Output.endPeriod_running {o : Output} {duty : Nat} (runs : o.boundary.isSome = true) (pending : o.pendingDuty = some duty)
    (period now : Nat) : o.endPeriod period now = o.nextPeriod duty period now := by
  obtain ⟨b, at_b⟩ := Option.isSome_iff_exists.1 runs
  simp [Output.endPeriod, Output.nextPeriod, at_b, pending, onTime]

theorem Output.endPeriod_stopped {o : Output} (stopped : o.boundary = none) (period now : Nat) : o.endPeriod period now = o := by
  rw [Output.endPeriod, stopped]

theorem Output.nextPeriod_off (o : Output) (period start now : Nat) : (o.nextPeriod 0 period start).isOn now = false := by
  simp [Output.nextPeriod, Output.isOn]

/-- An on-time of the whole period leaves no gap, at the start of the next period either (R106). -/
theorem Output.nextPeriod_on (o : Output) {period : Nat} (long : 0 < period) (start now : Nat) :
    (o.nextPeriod 100 period start).isOn now = true := by
  simp [Output.nextPeriod, Output.isOn, long]

theorem State.wantGang_false (h : s.cfg.gangRack = false ∨ s.prov.proof ≠ none) : s.wantGang = false := by
  rw [Bool.eq_false_iff, ne_eq, State.wantGang_iff]
  rintro ⟨ganged, idle⟩
  exact h.elim (fun off => absurd (off.symm.trans ganged) (by decide)) fun busy => busy idle

/-- The end of a valve's own period, where no other valve follows it and it follows none (R106, R109). -/
theorem DriveEngine.valveEnds_alone {e : DriveEngine} {c : Channel} {wantGang : Bool} (first : c = .rb1 → wantGang = false)
    (second : c = .rb2 → e.ganged = false) (period now : Nat) :
    e.valveEnds c wantGang period now = { e with valve := e.valve.put c ((e.valve.get c).endPeriod period now) } := by
  cases c with
  | rb1 =>
    rw [DriveEngine.valveEnds, first rfl]
    rfl
  | rb2 =>
    rw [DriveEngine.valveEnds, second rfl]
    rfl
  | ab1 => rfl
  | ab2 => rfl

/-- Settles O32. -/
theorem periodsTakeThePendingDuty : Obligations.PeriodsTakeThePendingDuty := by
  intro s duty
  refine ⟨fun d runs pending => ?_, fun c runs pending first second => ?_, fun runs pending ganged idle => ?_,
    fun d stopped => ?_, fun o period long => ⟨?_, ?_⟩⟩
  · have next := Output.endPeriod_running runs pending s.cfg.motorPeriod s.clock
    exact congrArg (fun o => Host.Outcome.next (s.withDrive { s.drive with motor := s.drive.motor.put d o })) next
  · have next := Output.endPeriod_running runs pending s.cfg.valvePeriod s.clock
    have alone := DriveEngine.valveEnds_alone (fun e => State.wantGang_false (first e)) second s.cfg.valvePeriod s.clock
    rw [next] at alone
    exact congrArg (fun e => Host.Outcome.next (s.withDrive e)) alone
  · have next := Output.endPeriod_running runs pending s.cfg.valvePeriod s.clock
    have both : s.drive.valveEnds .rb1 s.wantGang s.cfg.valvePeriod s.clock
        = { s.drive with
            valve :=
              { s.drive.valve with
                rb1 := s.drive.valve.rb1.endPeriod s.cfg.valvePeriod s.clock
                rb2 := s.drive.valve.rb1.endPeriod s.cfg.valvePeriod s.clock }
            ganged := true } := if_pos (State.wantGang_iff.2 ⟨ganged, idle⟩)
    rw [next] at both
    exact congrArg (fun e => Host.Outcome.next (s.withDrive e)) both
  · have same : s.drive.motor.put d ((s.drive.motor.get d).endPeriod s.cfg.motorPeriod s.clock) = s.drive.motor := by
      rw [Output.endPeriod_stopped stopped]
      cases d <;> rfl
    exact congrArg (fun m => Host.Outcome.next (s.withDrive { s.drive with motor := m })) same
  · rintro rfl
    exact o.nextPeriod_off period s.clock
  · rintro rfl
    exact o.nextPeriod_on long s.clock

/-! ### The expiries -/

/-- A POSITION record takes the place of the one unsent POSITION record (R168). -/
theorem RadioUnit.queuePosition_replaces {q : RadioUnit} {before after : List Report} {x : Report}
    (list : q.queue = before ++ x :: after) (fly : q.flying ≤ before.length) (held : x.isPosition = true)
    (only : ∀ y ∈ before.drop q.flying ++ after, y.isPosition = false) (y : Report) :
    q.queuePosition y = { q with queue := before ++ y :: after } := by
  have unsent : q.queue.drop q.flying = before.drop q.flying ++ x :: after := by rw [list, List.drop_append_of_le_length fly]
  have sent : q.queue.take q.flying = before.take q.flying := by rw [list, List.take_append_of_le_length fly]
  have others : ∀ l : List Report, (∀ z ∈ l, z.isPosition = false) → l.map (fun z => if z.isPosition then y else z) = l :=
    fun l none => (List.map_congr_left fun z mem => by simp [none z mem]).trans (List.map_id l)
  rw [List.forall_mem_append] at only
  obtain ⟨front, behind⟩ := only
  unfold RadioUnit.queuePosition
  rw [if_pos (by rw [RadioUnit.holdsUnsentPosition, unsent]; simp [held]), unsent, sent, List.map_append, List.map_cons,
    others _ front, others _ behind, if_pos held, ← List.append_assoc, List.take_append_drop]

theorem RadioUnit.holdsUnsentPosition_false {q : RadioUnit} (none : ∀ y ∈ q.queue.drop q.flying, y.isPosition = false) :
    ¬q.holdsUnsentPosition = true := by simpa [RadioUnit.holdsUnsentPosition] using none

theorem RadioUnit.queuePosition_appends {q : RadioUnit} (none : ∀ y ∈ q.queue.drop q.flying, y.isPosition = false)
    (room : q.queue.length < Config.queueCapacity) (y : Report) : q.queuePosition y = { q with queue := q.queue ++ [y] } := by
  rw [RadioUnit.queuePosition, if_neg (RadioUnit.holdsUnsentPosition_false none), if_pos room]

theorem RadioUnit.queuePosition_drops {q : RadioUnit} (none : ∀ y ∈ q.queue.drop q.flying, y.isPosition = false)
    (full : Config.queueCapacity ≤ q.queue.length) (y : Report) : q.queuePosition y = q := by
  rw [RadioUnit.queuePosition, if_neg (RadioUnit.holdsUnsentPosition_false none), if_neg (Nat.not_lt.2 full)]

/-- The state of a position timer that has just restarted (R169). -/
def State.repositioned (s : State) : State :=
  s.withRadio { s.radio with positionTimer := some (s.clock + s.cfg.positionInterval * 1000) }

theorem State.positionExpiry_expires (h : s.radio.positionTimer.Elapsing s.clock (s.cfg.positionInterval * 1000)) :
    s.positionExpiry = if s.odo.located then s.repositioned.reportPosition else s.repositioned := if_pos (Timer.Elapsing.expires h)

theorem State.positionExpiry_silent (h : s.radio.positionTimer.Elapsing s.clock (s.cfg.positionInterval * 1000))
    (silent : s.odo.located = false ∨ s.cfg.listenOnly = true) : s.positionExpiry = s.repositioned := by
  rw [State.positionExpiry_expires h]
  rcases silent with lost | listens
  · rw [if_neg (by simp [lost])]
  · exact (ite_congr rfl (fun _ => if_pos listens) fun _ => rfl).trans (ite_self _)

/-- The record that the expiry makes of a located car (R168, R169). -/
def State.positionRecord (s : State) : Report where
  time := s.recordTime
  body := .position s.odo.p s.odo.u s.odo.v s.sup.permitted s.odo.direction s.odo.standstill s.odo.located

theorem State.positionExpiry_located (h : s.radio.positionTimer.Elapsing s.clock (s.cfg.positionInterval * 1000))
    (located : s.odo.located = true) (speaks : s.cfg.listenOnly = false) :
    s.positionExpiry = s.withRadio (s.repositioned.radio.queuePosition s.positionRecord) := by
  rw [State.positionExpiry_expires h, if_pos located]
  exact if_neg (by simp [show s.repositioned.cfg.listenOnly = false from speaks])

/-- Settles O33. -/
theorem timersRunOn : Obligations.TimersRunOn := by
  intro s
  refine ⟨fun rests => congrArg Host.Outcome.next (if_neg (Bool.eq_false_iff.1 rests.stays)),
    fun rests => congrArg Host.Outcome.next (if_neg (Bool.eq_false_iff.1 rests.stays)),
    fun elapses => congrArg Host.Outcome.next (if_pos elapses.expires), fun elapses =>
    ⟨fun silent => congrArg Host.Outcome.next (State.positionExpiry_silent elapses silent), fun located speaks => ?_⟩⟩
  have queued : ∀ q, s.repositioned.radio.queuePosition s.positionRecord = q →
      exec .positionTimerExpiry s = .next (s.withRadio q) := fun q made =>
    congrArg Host.Outcome.next ((State.positionExpiry_located elapses located speaks).trans (congrArg _ made))
  exact ⟨fun before x after list fly held only =>
      queued _ (RadioUnit.queuePosition_replaces (q := s.repositioned.radio) list fly held only _),
    fun none room => queued _ (RadioUnit.queuePosition_appends (q := s.repositioned.radio) none room _),
    fun none full => queued _ (RadioUnit.queuePosition_drops (q := s.repositioned.radio) none full _)⟩

end Sys2Proof.Machine
end

section
/-! PROOFS. DRIVER_BRAKE (O30) and PARK (O31): each is its block's setting and a recomputation of the combiner, with the spring notice
that a change of the spring brings. -/

namespace Sys2Proof.Machine

set_option Elab.async false

variable {s : State} {f : List Byte} {x : ParkSetting}

/-! ### DRIVER_BRAKE -/

/-- The fields of the response, each of one byte but the four demands (log 12). -/
theorem Combiner.replyBytes_eq (c : Combiner) :
    c.replyBytes = [byteOf c.driver, byteOf c.park.code, byteOf (bit (!c.springApplied))]
      ++ channels.map (fun x => byteOf (c.demand.get x)) := by
  rw [Combiner.replyBytes, byte_eq, byte_eq]
  rfl

/-- The driver demand set, before the recomputation (R102). -/
def State.withDriver (s : State) (f : List Byte) : State := s.withComb { s.comb with driver := min 100 (field f 0 1) }

theorem State.driverBrake_eq (s : State) (f : List Byte) :
    s.driverBrake f = ((s.withDriver f).recompute, .done (s.withDriver f).recompute.comb.replyBytes) := rfl

/-- The response touches the port alone, so the brakes are those that the recomputation left. -/
theorem State.Combined.withPort (h : s.Combined) (p : Port) : (s.withPort .cab p).Combined := h

/-- Settles O30. -/
theorem driverBrakeSetsTheDemand : Obligations.DriverBrakeSetsTheDemand := by
  intro s f can one
  obtain ⟨p, made, served⟩ := s.request_serves .cab .driverBrake f can rfl one (by decide)
  have lawful := State.driverBrake_lawful (s.heardAt .cab) f
  simp only [State.serve, State.driverBrake_eq, Combiner.replyBytes_eq] at made served lawful
  have driver := (State.recompute_lawful ((s.heardAt .cab).withDriver f)).frame.driver (by decide)
  have combined := (State.recompute_combined ((s.heardAt .cab).withDriver f)).withPort p
  refine ⟨_, congrArg Host.Outcome.next made, driver, combined.1, fun sound => ?_, served⟩
  obtain ⟨-, -, -, -, drives, valves, -⟩ := (lawful.sound (State.heardAt_sound sound .cab)).brakes
  exact ⟨drives, valves⟩

/-! ### The spring notice -/

theorem State.recompute_releases (applied : s.comb.springApplied = true) (released : s.recompute.comb.springApplied = false) :
    s.recompute.prov.proof = none ∧ s.recompute.prov.tried = [] := by
  unfold State.recompute State.combine at *
  dsimp only at *
  split at released
  · rename_i same
    exact absurd (same.symm.trans released) (by simp [applied])
  · rename_i changed
    have free : (s.recombine false).comb.springApplied = false := by simpa [applied] using changed
    rw [if_neg changed, free]
    exact State.proofEnds_idle _

theorem State.recompute_applies (released : s.comb.springApplied = false) (law : s.springLaw s.comb.park = true) :
    s.recompute = (s.recombine false).springNotice State.evaluate true := by
  have applied : (s.recombine false).comb.springApplied = true := law
  unfold State.recompute State.combine
  dsimp only
  rw [if_neg (by simp [law, released]), applied]

/-- On the notice of a spring applied a car that stands begins the round that its Proving Unit asks for (R123, R124), and the entry
into CONFIG that may follow leaves it (R189). -/
theorem State.Quiet.springNotice_round {x : Proving} (h : s.Quiet x) (idle : x.proof = none) (dwell : x.dwell = none) :
    (s.springNotice State.evaluate true).Round x.owed x.tried := by
  obtain ⟨u, quiet, same⟩ := h.evaluate_testProof
  have can := quiet.canProve idle
  have round := State.testProof_round can (by rw [quiet.prov, dwell])
  have begun := quiet.testProof_quiet
  rw [quiet.prov, ← same] at round
  rw [← same] at begun
  have off : s.evaluate.testProof.set.has .overspeedService = false := by
    rw [State.testProof_set]
    exact State.evaluate_underService (.inr (h.rest.of_frame (State.evaluate_lawful s).frame))
  unfold State.springNotice
  dsimp only
  rw [if_pos rfl]
  split
  · rename_i quiesced
    have entered := State.enterConfig_frame State.evaluate_evaluator (State.quiesced_iff.1 quiesced).1
    exact round.of_frame entered ((begun.setConfig.evaluate off).recombine true).prov
  · exact round

/-! ### PARK -/

/-- The setting of PARK, before the recomputation (R104). -/
def State.withPark (s : State) (x : ParkSetting) : State := s.withComb { s.comb with park := x }

theorem State.setPark_accepted (code : field f 0 1 = x.code) (outside : x = .release → s.line.opState ≠ .config) :
    s.setPark f = ((s.withPark x).recompute, .done (s.withPark x).recompute.comb.replyBytes) := by
  have run : ¬(x = .release ∧ s.line.opState = .config) := fun ⟨release, config⟩ => outside release config
  rw [State.setPark, parkOfCode_eq.2 code]
  exact if_neg run

/-- The spring is released exactly where R103 lets it go. -/
theorem State.Combined.released_iff (h : s.Combined) :
    s.comb.springApplied = false
      ↔ s.line.opState ≠ .config ∧ s.comb.park = .release ∧ ∀ e ∈ s.set.entries, e.cause.level ≠ .emergency := by
  have outside : s.line.opState = .run ∨ s.line.opState = .quiescing ↔ s.line.opState ≠ .config := by
    cases s.line.opState <;> decide
  have calm : s.set.hasLevel .emergency = false ↔ ∀ e ∈ s.set.entries, e.cause.level ≠ .emergency := by
    simp [InterventionSet.hasLevel]
  rw [h.2, ← outside, ← calm]
  exact State.freed_iff

/-- The spring that APPLY has applied begins the round of a car that stands (R104, R123). -/
theorem State.Sound.park_round (h : s.Sound) (released : s.comb.springApplied = false) (stands : s.odo.standstill = true)
    (idle : s.prov.proof = none) : (s.withPark .apply).recompute.Round s.prov.owed s.prov.tried := by
  have freed : s.Freed := h.braked.1.symm.trans released
  have law : (s.withPark .apply).springLaw .apply = true := by simp [State.springLaw]
  have dwell : s.prov.dwell = none := by simpa [idle] using h.dwell
  have quiet : ((s.withPark .apply).recombine false).Quiet s.prov :=
    ⟨⟨stands, h.timers.2.1 stands⟩, law, law, (State.freed_iff.1 freed).2.2, rfl⟩
  rw [State.recompute_applies (s := s.withPark .apply) released law]
  exact quiet.springNotice_round idle dwell

/-- Settles O31. -/
theorem parkWorksTheSpring : Obligations.ParkWorksTheSpring := by
  intro s f x can one code outside
  obtain ⟨odo, -, -, -, comb, -, -, prov, -, -, op, -⟩ := s.heardAt_keeps .cab
  obtain ⟨p, made, served⟩ := s.request_serves .cab .park f can rfl one (by decide)
  have accepted := State.setPark_accepted (s := s.heardAt .cab) code (op.symm ▸ outside)
  simp only [State.serve, accepted, Combiner.replyBytes_eq] at made served
  have park := (State.recompute_lawful ((s.heardAt .cab).withPark x)).frame.park (by decide)
  refine ⟨_, congrArg Host.Outcome.next made, park.imp_right (And.imp_left op.symm.trans),
    ((State.recompute_combined ((s.heardAt .cab).withPark x)).withPort p).released_iff,
    fun _ applied released => State.recompute_releases (s := (s.heardAt .cab).withPark x) ((congrArg _ comb).trans applied) released,
    fun sound released apply stands idle => ?_, served⟩
  subst apply
  have round := (State.heardAt_sound sound .cab).park_round ((congrArg _ comb).trans released) ((congrArg _ odo).trans stands)
    ((congrArg _ prov).trans idle)
  rw [prov] at round
  exact round.of_frame (State.withPort_frame (r := []) (m := []) _ .cab p) rfl

end Sys2Proof.Machine
end

section
/-! PROOFS. The dwell timer (O37): the judgement of a step, the end of a proof, and the round that goes on behind it (R123 to R127). -/

namespace Sys2Proof.Machine

set_option Elab.async false

variable {free : List Block} {r m : List Cause} {s t : State} {c : Channel} {o : ProofOutcome} {x : Proving}

/-! ### A car at rest that awaits its round -/

/-- At rest the supervisor raises nothing, so its raisings may as well wait (R70, R91). -/
theorem State.AtRest.evaluate_aside (h : s.AtRest) : s.evaluate = s.evaluateAside := by
  obtain ⟨slow, safe⟩ := State.calm_rest h.2
  have none : ∀ u : State, u.raiseOverspeeds s.decayed.withFigures = u := fun u => by
    simp only [State.raiseOverspeeds, slow, safe, Bool.false_eq_true, if_false]
  exact congrArg (State.judgeWith · s.decayed.withFigures) (funext none)

/-- The law lets the spring go after a step beside PARK and the operating state only where it did so before. -/
theorem Frame.freed (f : Frame [] r m s t) (calm : s.set.hasLevel .emergency = false) (freed : t.Freed) : s.Freed := by
  obtain ⟨open_, release, -⟩ := State.freed_iff.1 freed
  have outside : t.line.opState ≠ .config := by rcases open_ with run | quiescing <;> simp_all
  rcases f.opState (by decide) with op | ⟨-, config⟩
  · rcases f.park (by decide) with park | ⟨-, config⟩
    · exact State.freed_iff.2 ⟨op ▸ open_, park ▸ release, calm⟩
    · exact absurd config outside
  · exact absurd config outside

/-- The car awaits its round, or has begun it, with no EMERGENCY-level entry in the set. -/
def State.Poised (s : State) (x : Proving) : Prop := s.Awaits x ∧ s.set.hasLevel .emergency = false

theorem State.Quiet.poised (h : s.Quiet x) (idle : x.proof = none) (dwell : x.dwell = none) : s.Poised x :=
  ⟨⟨h.rest, h.spring, h.law, congrArg _ h.prov, ⟨idle, dwell⟩, .inl h.prov⟩, h.calm⟩

theorem State.Poised.step (h : s.Poised x) (f : Frame [] r m s t) (k : Awaiting x s t) (calm : t.set.hasLevel .emergency = false) :
    t.Poised x := by
  refine ⟨(k.2 h.1).resolve_left fun freed => ?_, calm⟩
  exact absurd ((f.freed h.2 freed).symm.trans h.1.law) (by decide)

theorem State.Poised.report (h : s.Poised x) (b : ReportBody) (event : b.IsEvent := by exact fun _ => rfl) :
    (s.report b).Poised x :=
  h.step (State.report_frame (r := []) (m := []) s b event) (State.report_awaiting s b event) (by rw [State.report_set]; exact h.2)

/-- An evaluation may take OVERSPEED_SERVICE away, with its own test for a proof (R71, R81). -/
theorem State.Poised.evaluate (h : s.Poised x) : s.evaluate.Poised x := by
  have frame := State.evaluate_evaluator.frame s
  rw [h.1.rest.evaluate_aside] at frame ⊢
  refine h.step frame (State.evaluateAside_awaiting s) ?_
  rcases s.evaluateAside_set with same | fewer
  · rw [same]
    exact h.2
  · have quiet : s.Quiet s.prov := ⟨h.1.rest, h.1.spring, h.1.law, h.2, rfl⟩
    rw [fewer]
    exact (quiet.erase .overspeedService).calm

theorem State.Poised.noticeIfCapabilityChanged (h : s.Poised x) (old : State) : (s.noticeIfCapabilityChanged old).Poised x := by
  unfold State.noticeIfCapabilityChanged State.noticeCapability
  dsimp only
  split
  · exact h
  · split
    · exact h.evaluate
    · exact h.evaluate.evaluate

/-! ### The end of a proof -/

/-- The rating that an outcome gives (R127). -/
def ProofOutcome.health (o : ProofOutcome) : Health := if o == .pass then .healthy else .failed

/-- What a channel owes after an outcome (R127). -/
def ProofOutcome.owed (o : ProofOutcome) (before : Nat) : Nat := if o == .pass then 0 else atLeastOne before

theorem ProofOutcome.health_eq (o : ProofOutcome) : o.health = if o = .pass then .healthy else .failed := by cases o <;> rfl

theorem ProofOutcome.owed_eq (o : ProofOutcome) (n : Nat) : o.owed n = if o = .pass then 0 else max 1 n := by cases o <;> rfl

/-- The count and the rating after a proof, before the records (R127). -/
def State.proofRated (s : State) (c : Channel) (o : ProofOutcome) : State :=
  ((s.endProof c).withProv
    { (s.endProof c).prov with
      owed := (s.endProof c).prov.owed.put c (o.owed ((s.endProof c).prov.owed.get c)) }).rate c o.health

/-- The same with the record PROOF_RESULT (R127). -/
def State.proofReported (s : State) (c : Channel) (o : ProofOutcome) : State :=
  (s.proofRated c o).report (.proofResult c o (o.owed ((s.endProof c).prov.owed.get c)))

/-- The same with the record and the notice of a rating that changed (R122). -/
def State.proofNoticed (s : State) (c : Channel) (o : ProofOutcome) : State :=
  if (s.endProof c).prov.health.get c = o.health then s.proofReported c o
  else ((s.proofReported c o).report (.channelState c o.health)).noticeIfCapabilityChanged (s.endProof c)

theorem State.concludeProof_eq (s : State) (c : Channel) (o : ProofOutcome) :
    s.concludeProof c o = (s.proofNoticed c o).testProof := rfl

/-- The end of a proof changes the Proving Unit and the combiner's figures alone (R127). -/
theorem State.endProof_keeps (s : State) (c : Channel) :
    (s.endProof c).clock = s.clock ∧ (s.endProof c).radio = s.radio ∧ (s.endProof c).line = s.line
      ∧ (s.endProof c).prov = { s.prov with proof := none, dwell := none } := by
  rw [State.endProof, State.recombine_clock, State.recombine_radio, State.recombine_line, State.recombine_prov]
  exact ⟨rfl, rfl, rfl, rfl⟩

/-- The rating changes the Proving Unit and the window beside (R122, R127). -/
theorem State.proofRated_keeps (s : State) (c : Channel) (o : ProofOutcome) :
    (s.proofRated c o).clock = s.clock ∧ (s.proofRated c o).radio = s.radio ∧ (s.proofRated c o).line = s.line
      ∧ (s.proofRated c o).comb = (s.endProof c).comb := by
  obtain ⟨clock, radio, line, -⟩ := s.endProof_keeps c
  exact ⟨clock, radio, line, rfl⟩

theorem State.endProof_settled (s : State) (c : Channel) :
    (s.endProof c).comb.feedback.get c = { lastChange := s.clock, deviationStart := none } :=
  State.recombine_settled false (PerChannel.get_put_same _ _ _)

theorem State.proofReported_prov (s : State) (c : Channel) (o : ProofOutcome) :
    (s.proofReported c o).prov = (s.proofRated c o).prov := (State.report_ratings _ _).1

/-- What the records and notices behind the rating leave (R122, R123). -/
theorem State.concludeProof_frame (s : State) (c : Channel) (o : ProofOutcome) :
    Frame [] overspeeds [.overspeedService] (s.proofReported c o) (s.concludeProof c o) := by
  have noticed : Frame [] overspeeds [.overspeedService] (s.proofReported c o) (s.proofNoticed c o) := by
    unfold State.proofNoticed
    split
    · exact Frame.refl
    · exact (State.report_frame _ _).trans (State.noticeIfCapabilityChanged_lawful _ _).frame
  rw [State.concludeProof_eq]
  exact noticed.trans (State.testProof_frame _)

theorem State.concludeProof_ratings (s : State) (c : Channel) (o : ProofOutcome) :
    (s.concludeProof c o).prov.health = s.prov.health.put c o.health
      ∧ (s.concludeProof c o).prov.owed = s.prov.owed.put c (o.owed (s.prov.owed.get c)) := by
  have f := s.concludeProof_frame c o
  exact ⟨(f.health (by decide)).trans (congrArg Proving.health (s.proofReported_prov c o)),
    (f.owed (by decide)).trans (congrArg Proving.owed (s.proofReported_prov c o))⟩

/-- An event record that is queued stays so (R167). -/
theorem Frame.remembers {y : Report} (f : Frame free r m s t) (mem : y ∈ s.radio.queue) (event : y.isPosition = false)
    (h : Block.queue ∉ free := by decide) : y ∈ t.radio.queue := by
  have kept := (f.records h).events.subset (List.mem_filter.2 ⟨mem, by simp [event]⟩)
  exact (List.mem_filter.1 kept).1

theorem State.concludeProof_reports (c : Channel) (o : ProofOutcome) (speaks : s.cfg.listenOnly = false)
    (room : s.radio.queue.length < Config.queueCapacity) :
    { time := s.recordTime, body := .proofResult c o (o.owed (s.prov.owed.get c)) } ∈ (s.concludeProof c o).radio.queue := by
  obtain ⟨clock, radio, line, -⟩ := s.proofRated_keeps c o
  have time : (s.proofRated c o).recordTime = s.recordTime := by rw [State.recordTime, State.partTime, clock]; rfl
  have queued := State.report_mem (s.proofRated c o) (.proofResult c o (o.owed (s.prov.owed.get c)))
    (by rw [State.cfg, line]; exact speaks) (by rw [radio]; exact room)
  rw [time] at queued
  exact (s.concludeProof_frame c o).remembers queued rfl

theorem State.concludeProof_settles (s : State) (c : Channel) (o : ProofOutcome) :
    (s.concludeProof c o).comb.feedback.get c = { lastChange := s.clock, deviationStart := none } := by
  obtain ⟨clock, -, -, comb⟩ := s.proofRated_keeps c o
  have ended : (s.proofRated c o).SettlesAfresh c := by
    rw [State.SettlesAfresh, comb, clock]
    exact s.endProof_settled c
  have reported : Frame [] overspeeds [.overspeedService] (s.proofRated c o) (s.proofReported c o) := State.report_frame _ _
  have f := reported.trans (s.concludeProof_frame c o)
  have settled := f.settlesAfresh ended
  rwa [State.SettlesAfresh, f.clock, clock] at settled

theorem State.Quiet.withProv (h : s.Quiet x) (y : Proving) : (s.withProv y).Quiet y := ⟨h.rest, h.spring, h.law, h.calm, rfl⟩

theorem State.Quiet.rate (h : s.Quiet x) (c : Channel) (y : Health) : (s.rate c y).Quiet (s.rate c y).prov :=
  ⟨h.rest, h.spring, h.law, h.calm, rfl⟩

theorem State.Quiet.endProof (h : s.Quiet x) (c : Channel) : (s.endProof c).Quiet { s.prov with proof := none, dwell := none } := by
  have ended := h.withProv { s.prov with proof := none, dwell := none }
  have settled : ((s.withProv { s.prov with proof := none, dwell := none }).resettle c).Quiet _ :=
    ⟨ended.rest, ended.spring, ended.law, ended.calm, rfl⟩
  exact settled.recombine false

/-- Behind the end of a proof a lawful car stands ready for the next (R123, R128). -/
theorem State.concludeProof_round (sound : s.Sound) (law : s.ProofLaw) (busy : s.prov.proof.isSome = true) (c : Channel)
    (o : ProofOutcome) : (s.concludeProof c o).Round (s.concludeProof c o).prov.owed s.prov.tried := by
  obtain ⟨stands, applied, calm⟩ := law busy
  have quiet : s.Quiet s.prov := ⟨⟨stands, sound.timers.2.1 stands⟩, applied, sound.braked.1.symm.trans applied, calm, rfl⟩
  have rated : (s.proofRated c o).Poised (s.proofRated c o).prov :=
    (((quiet.endProof c).withProv _).rate c o.health).poised rfl rfl
  have reported : (s.proofReported c o).Poised (s.proofRated c o).prov := rated.report _
  have noticed : (s.proofNoticed c o).Poised (s.proofRated c o).prov := by
    unfold State.proofNoticed
    split
    · exact reported
    · exact (reported.report _).noticeIfCapabilityChanged _
  rw [(s.concludeProof_ratings c o).2, State.concludeProof_eq]
  exact noticed.1.begins noticed.2

/-! ### The expiry -/

theorem State.dwellExpiry_expires {y : Proof} (proof : s.prov.proof = some y) (h : s.prov.dwell.Elapsing s.clock 300000) :
    s.dwellExpiry = s.judgeProof y := by
  rw [State.dwellExpiry, proof]
  exact if_pos h.expires

theorem State.dwellExpiry_rests (h : s.prov.dwell.Resting s.clock 300000) : s.dwellExpiry = s := by
  unfold State.dwellExpiry
  split
  · rfl
  · exact if_neg (Bool.eq_false_iff.1 h.stays)

/-- The state of a proof that goes on to FALL, before the recomputation (R125). -/
def State.falling (s : State) (y : Proof) : State :=
  s.withProv { s.prov with proof := some { y with step := .fall }, dwell := some (s.clock + 300000) }

theorem State.judgeProof_rises {y : Proof} (rise : y.step = .rise) (high : 9 * s.cfg.fullPressure.get y.channel ≤ 10 * y.sample) :
    s.judgeProof y = (s.falling y).recombine false := by
  rw [State.judgeProof, rise]
  exact if_pos high

theorem State.judgeProof_concludes {y : Proof}
    (h : y.step = .rise ∧ 10 * y.sample < 9 * s.cfg.fullPressure.get y.channel ∧ o = .failRise
      ∨ y.step = .fall ∧ 10 * y.sample ≤ s.cfg.fullPressure.get y.channel ∧ o = .pass
      ∨ y.step = .fall ∧ s.cfg.fullPressure.get y.channel < 10 * y.sample ∧ o = .failFall) :
    s.judgeProof y = s.concludeProof y.channel o := by
  unfold State.judgeProof
  rcases h with ⟨step, low, rfl⟩ | ⟨step, low, rfl⟩ | ⟨step, high, rfl⟩ <;> simp only [step]
  · exact if_neg (Nat.not_le.2 low)
  · rw [if_pos low]
  · rw [if_neg (Nat.not_le.2 high)]

/-- The channel of a proof in FALL is driven at 0 (R101). -/
theorem State.falling_drive (y : Proof) (calm : s.set.hasLevel .emergency = false) :
    ((s.falling y).recombine false).comb.drive.get y.channel = 0 := by
  have quiet : ¬(s.falling y).set.hasLevel .emergency = true := by simpa [State.falling] using calm
  rw [State.recombine_drive, State.driveValue, if_neg quiet]
  exact if_pos rfl

/-- Settles O37. -/
theorem dwellTimersJudgeTheStep : Obligations.DwellTimersJudgeTheStep := by
  intro s
  refine ⟨fun rests => congrArg Host.Outcome.next (State.dwellExpiry_rests rests), fun y elapses proof =>
    ⟨fun rise high => ?_, fun o judged => ?_⟩⟩
  · have made := (State.dwellExpiry_expires proof elapses).trans (State.judgeProof_rises rise high)
    exact ⟨_, congrArg Host.Outcome.next made, rfl, State.falling_drive y, (State.nextStep_lawful s y proof).frame⟩
  · have made := (State.dwellExpiry_expires proof elapses).trans (State.judgeProof_concludes judged)
    obtain ⟨health, owed⟩ := s.concludeProof_ratings y.channel o
    have reports := State.concludeProof_reports (s := s) y.channel o
    rw [ProofOutcome.health_eq] at health
    rw [ProofOutcome.owed_eq] at owed reports
    exact ⟨_, congrArg Host.Outcome.next made, health, owed, reports, s.concludeProof_settles y.channel o,
      fun sound ordered => State.concludeProof_round sound ordered.proof (by rw [proof]; rfl) y.channel o,
      (State.concludeProof_lawful s y.channel o).frame⟩

end Sys2Proof.Machine
end

section
/-! PROOFS. What every completed scan leaves, failures and obstructions or not (O34, first part): the samples, the combiner's figures,
the step sample of a proof, and the settling of a channel whose demand it changes. -/

namespace Sys2Proof.Machine

set_option Elab.async false

variable {free : List Block} {r m : List Cause} {s t u : State} {w : ScanWords} {c : Channel} {d : Door} {P : State → Prop}
  {ev : State → State}

/-! ### A scan step by step -/

/-- The samples taken, and the combiner's recomputation (R110). -/
def State.scanned (s : State) (w : ScanWords) : State := (s.withScan (s.scan.take w)).recompute

/-- The scan up to the doors: the feedback check and the step sample (R110, R125). -/
def State.scanChecked (s : State) (w : ScanWords) : State := (s.scanned w).checkFeedback.takeStepSample

theorem State.scanComplete_eq (s : State) (w : ScanWords) : s.scanComplete w = allDoors.foldl State.scanDoor (s.scanChecked w) := rfl

/-- What each step of the feedback check keeps holds at its end (R113, R114). -/
theorem State.checkFeedback_keeps (track : ∀ u c, P u → P (u.trackDeviation c)) (fails : ∀ u c, P u → P (u.failChannel c))
    (h : P s) : P s.checkFeedback :=
  List.foldlRecOn _ _ (List.foldlRecOn _ _ h fun u k c _ => track u c k) fun u k c _ => fails u c k

/-- What each step of a scan behind the recomputation keeps holds at its end (R110). -/
theorem State.scanComplete_keeps (track : ∀ u c, P u → P (u.trackDeviation c)) (fails : ∀ u c, P u → P (u.failChannel c))
    (sample : ∀ u, P u → P u.takeStepSample) (door : ∀ u d, P u → P (u.scanDoor d)) (h : P (s.scanned w)) :
    P (s.scanComplete w) :=
  List.foldlRecOn _ _ (sample _ (State.checkFeedback_keeps track fails h)) fun u k d _ => door u d k

/-! ### The failure of one channel -/

/-- A failed channel with its count and rating, before the test for a proof and the notices (R114, R120, R122). -/
def State.channelFailed (s : State) (c : Channel) : State :=
  ((s.withDeviationStart c none).withProv
    { s.prov with owed := s.prov.owed.put c (atLeastOne (s.prov.owed.get c)) }).rate c .failed

/-- The test for a proof, the record and the raising that follow (R114). -/
def State.channelRaised (s : State) (c : Channel) : State :=
  (s.testProof.report (.channelState c .failed)).raise .brakeFeedback (s.testProof.report (.channelState c .failed)).capture

theorem State.failChannel_eq (s : State) (c : Channel) :
    s.failChannel c = ((s.channelFailed c).channelRaised c).noticeIfCapabilityChanged (s.withDeviationStart c none) := rfl

theorem State.channelFailed_frame (s : State) (c : Channel) : Frame ratingBlocks r m (s.withDeviationStart c none) (s.channelFailed c) :=
  have owed := State.withRatings_frame (r := r) (m := m) (s := s.withDeviationStart c none)
    { s.prov with owed := s.prov.owed.put c (atLeastOne (s.prov.owed.get c)) } rfl
  (owed.mono (by decide) (fun _ h => h) fun _ h => h).trans (State.rate_lawful _ c .failed).frame

theorem State.channelRaised_frame (s : State) (c : Channel) :
    Frame [] feedbackCauses [.overspeedService] s (s.channelRaised c) :=
  ((State.testProof_frame s).trans (State.report_frame _ _)).trans (State.raise_lawful _ .brakeFeedback _).frame

/-- What follows the rating of a failed channel (R114, R122). -/
theorem State.failChannel_notices (s : State) (c : Channel) :
    Frame [] feedbackCauses [.overspeedService] (s.channelFailed c) (s.failChannel c) :=
  ((s.channelFailed c).channelRaised_frame c).trans
    ((State.noticeIfCapabilityChanged_lawful _ _).frame.mono (by decide) (by decide) (by decide))

/-- Beside the deviation start, a failure is a change of rating with its notices. -/
theorem State.failChannel_frame (s : State) (c : Channel) :
    Frame ratingBlocks feedbackCauses [.overspeedService] (s.withDeviationStart c none) (s.failChannel c) :=
  (s.channelFailed_frame c).trans ((s.failChannel_notices c).mono (by decide) (fun _ h => h) fun _ h => h)

/-! ### The tracking of one channel -/

/-- A channel's feedback record after a scan that does not fail it, by the rows of R113. -/
def State.tracked (s : State) (c : Channel) : Feedback :=
  if s.isChecked c then
    { s.comb.feedback.get c with
      deviationStart := if s.deviates c then some ((s.comb.feedback.get c).deviationStart.getD s.clock) else none }
  else s.comb.feedback.get c

/-- Only the feedback records of the state are others. -/
def State.withFeedback (s : State) (x : PerChannel Feedback) : State := s.withComb { s.comb with feedback := x }

theorem State.withFeedback_same (s : State) (c : Channel) : s.withFeedback (s.comb.feedback.put c (s.comb.feedback.get c)) = s := by
  rw [PerChannel.put_get]
  rfl

theorem State.trackDeviation_eq (s : State) (c : Channel) :
    s.trackDeviation c = s.withFeedback (s.comb.feedback.put c (s.tracked c)) := by
  unfold State.trackDeviation State.tracked
  split
  · split
    · split
      · rename_i unset
        rw [unset]
        rfl
      · rename_i start running
        have kept : ({ s.comb.feedback.get c with deviationStart := some start } : Feedback) = s.comb.feedback.get c := by
          rw [← running]
        rw [running, Option.getD_some, kept, State.withFeedback_same]
    · rfl
  · exact (s.withFeedback_same c).symm

/-! ### The samples -/

theorem State.scanned_scan (s : State) (w : ScanWords) : (s.scanned w).scan = s.scan.take w :=
  (State.recompute_lawful (s.withScan (s.scan.take w))).frame.scan (by decide)

theorem State.scanDoor_frame (s : State) (d : Door) : Frame doorBlocks doorCauses doorRemovals s (s.scanDoor d) :=
  (s.scanDoor_lawful d).frame

theorem State.takeStepSample_frame (s : State) : Frame [] r m s s.takeStepSample := s.takeStepSample_lawful.frame

/-- No step behind the taking touches the samples (R110). -/
theorem State.scanComplete_scan (s : State) (w : ScanWords) : (s.scanComplete w).scan = s.scan.take w :=
  State.scanComplete_keeps (P := fun u => u.scan = s.scan.take w)
    (fun u c h => by
      rw [State.trackDeviation_eq]
      exact h)
    (fun u c h => ((u.failChannel_frame c).scan (by decide)).trans h)
    (fun u h => ((State.takeStepSample_frame (r := []) (m := []) u).scan (by decide)).trans h)
    (fun u d h => ((u.scanDoor_frame d).scan (by decide)).trans h) (s.scanned_scan w)

theorem sampleAfter_read (old most : Nat) (x : BitVec 16) :
    (x = 0xFFFF#16 → sampleAfter old most x = old) ∧ (x ≠ 0xFFFF#16 → sampleAfter old most x = min most x.toNat) :=
  ⟨fun none => if_pos none, fun reading => if_neg reading⟩

/-! ### The combiner's figures -/

/-- Recomputed barred flags leave the kinds of the records where they lie (R34, R98). -/
theorem State.rebar_blendKind (s : State) : s.rebar.blendKind = s.blendKind := by
  have found : ∀ (l : List Segment) (x : Int) (cap : PerKind Nat),
      ((l.map fun g => g.withBarring cap).find? fun g => g.contains x).map Segment.kind
        = (l.find? fun g => g.contains x).map Segment.kind := fun l x cap => by
    rw [List.find?_map, Option.map_map]
    rfl
  exact found _ _ _

theorem State.Combined.rebar (h : s.Combined) : s.rebar.Combined := by
  obtain ⟨blended, spring⟩ := h
  obtain ⟨holding, service, blend, demand⟩ := State.blended_iff.1 blended
  refine ⟨State.blended_iff.2 ⟨holding, service, blend.trans s.rebar_blendKind.symm, fun c => (demand c).trans ?_⟩, spring⟩
  show s.channelDemand c
    = if s.set.hasLevel .emergency then 100 else s.serviceDemand * s.cfg.share c s.rebar.blendKind / 100
  rw [s.rebar_blendKind]
  rfl

theorem State.Combined.rate (h : s.Combined) (c : Channel) (x : Health) : (s.rate c x).Combined :=
  State.Combined.rebar
    (s := (s.withProv { s.prov with health := s.prov.health.put c x }).withProv
      { s.prov with
        health := s.prov.health.put c x
        capability := capabilityOf s.cfg.nominal (s.prov.health.put c x) }) h

theorem State.noticeIfCapabilityChanged_combined (h : s.Combined) (old : State) : (s.noticeIfCapabilityChanged old).Combined := by
  unfold State.noticeIfCapabilityChanged State.noticeCapability
  dsimp only
  split
  · exact h
  · split
    · exact State.evaluate_combined _ h
    · exact State.evaluate_combined _ (State.evaluate_combined _ h)

theorem State.failChannel_combined (h : s.Combined) (c : Channel) : (s.failChannel c).Combined := by
  have rated : (s.channelFailed c).Combined :=
    State.Combined.rate
      (s := (s.withDeviationStart c none).withProv
        { s.prov with owed := s.prov.owed.put c (atLeastOne (s.prov.owed.get c)) }) h c .failed
  rw [State.failChannel_eq]
  exact State.noticeIfCapabilityChanged_combined
    (State.raise_combined (State.report_combined (State.testProof_combined rated) _) _ _) _

theorem State.takeStepSample_combined (h : s.Combined) : s.takeStepSample.Combined := by
  unfold State.takeStepSample
  split <;> exact h

/-! ### The doors of a scan -/

/-- A property that a door's record, its motor output and its step keep. -/
structure DoorSteps (P : State → Prop) : Prop where
  record : ∀ {s} d x, P s → P (s.withDoor d x)
  motor : ∀ {s} d n x, P s → P (s.writeMotor d n x)
  step : ∀ {s} d x, P s → P (s.stepDoor d x)

namespace DoorSteps

theorem landDoor (k : DoorSteps P) (h : P s) (d : Door) : P (s.landDoor d) := k.step d _ (k.record d _ h)

theorem closeDoor (k : DoorSteps P) (h : P s) (d : Door) : P (s.closeDoor d) := by
  unfold State.closeDoor
  dsimp only
  split
  · exact k.landDoor (k.step d _ h) d
  · exact k.step d _ h

theorem reachOpen (k : DoorSteps P) (h : P s) (d : Door) : P (s.reachOpen d) := by
  unfold State.reachOpen
  dsimp only
  split
  · exact k.closeDoor (k.step d _ h) d
  · exact k.step d _ h

theorem openDoor (k : DoorSteps P) (h : P s) (d : Door) : P (s.openDoor d) := by
  unfold State.openDoor
  dsimp only
  split
  · exact k.reachOpen (k.step d _ h) d
  · exact k.step d _ h

theorem obstructed (k : DoorSteps P) (h : P s) (d : Door) : P (s.obstructed d) := by
  unfold State.obstructed
  dsimp only
  split
  · exact k.openDoor (k.record d _ h) d
  · exact k.step d _ (k.record d _ h)

theorem driveDoor (k : DoorSteps P) (h : P s) (d : Door) (x : Sense) : P (s.driveDoor d x) := by
  unfold State.driveDoor
  dsimp only
  split
  · exact k.record d _ h
  · exact k.motor d _ _ (k.record d _ h)

theorem scanDoor (k : DoorSteps P) (h : P s) (d : Door) : P (s.scanDoor d) := by
  have closing := k.driveDoor h d .close
  unfold State.scanDoor
  split
  · exact k.driveDoor h d .open
  · dsimp only
    split
    · exact k.record d _ closing
    · split
      · exact k.record d _ closing
      · split
        · exact k.obstructed closing d
        · exact closing
  · exact h

theorem scanDoors (k : DoorSteps P) (h : P s) : P (allDoors.foldl State.scanDoor s) :=
  List.foldlRecOn _ _ h fun _ j d _ => k.scanDoor j d

end DoorSteps

theorem combined_doorSteps : DoorSteps State.Combined where
  record := fun _ _ h => h
  motor := fun _ _ _ h => h
  step := fun d x h => State.stepDoor_combined h d x

/-- The combiner's figures are those of the state after every scan (R96 to R100). -/
theorem State.scanComplete_combined (s : State) (w : ScanWords) : (s.scanComplete w).Combined :=
  State.scanComplete_keeps (P := State.Combined)
    (fun u c h => by
      rw [State.trackDeviation_eq]
      exact h)
    (fun _ c h => State.failChannel_combined h c) (fun _ h => State.takeStepSample_combined h)
    (fun _ d h => combined_doorSteps.scanDoor h d) (State.recompute_combined _)

/-- A property that a door's record, its motor output and the notices of its step keep (R135). -/
structure DoorNotices (P : State → Prop) : Prop where
  record : ∀ {s} d x, P s → P (s.withDoor d x)
  motor : ∀ {s} d n x, P s → P (s.writeMotor d n x)
  report : ∀ {s} b, P s → P (s.report b)
  raise : ∀ {s}, s.odo.standstill = false → P s → P s.raiseDoorMoving
  evaluate : ∀ {s}, P s → P s.evaluate
  release : ∀ {s}, P s → P s.testDoorRelease
  rehold : ∀ {s}, P s → P s.rehold

namespace DoorNotices

theorem moveDoor (k : DoorNotices P) (h : P s) (d : Door) (x : DoorState) : P (s.moveDoor d x) := by
  have drives : ∀ {u : State} y, P u → P (u.driveDoor d y) := fun {u} y g => by
    unfold State.driveDoor
    dsimp only
    split
    · exact k.record d _ g
    · exact k.motor d _ _ (k.record d _ g)
  unfold State.moveDoor
  dsimp only
  split
  · exact drives _ (k.record d _ h)
  · exact drives _ (k.record d _ h)
  · split
    · exact k.motor d _ _ (k.record d _ h)
    · exact k.record d _ h

theorem steps (k : DoorNotices P) : DoorSteps P where
  record := k.record
  motor := k.motor
  step := fun {s} d x h => by
    have told := k.report (.doorEvent d x ((s.moveDoor d x).doorAt d).closeFailed) (k.moveDoor h d x)
    have head : P (s.stepDoorHead d x) := by
      unfold State.stepDoorHead
      dsimp only
      split
      · rename_i moving
        exact k.raise (by simpa using (Bool.and_eq_true_iff.1 moving).1) told
      · exact told
    exact k.rehold (k.release (k.evaluate head))

end DoorNotices

/-! ### The step sample -/

/-- The step sample of a proof in progress is its channel's present pressure sample (R125). -/
def State.Sampled (s : State) : Prop := ∀ x, s.prov.proof = some x → x.sample = s.scan.pressure.get x.channel

/-- An evaluation that a notice brings leaves the step sample the present one. -/
def KeepsSampled (ev : State → State) : Prop := ∀ s : State, s.Sampled → (ev s).Sampled

namespace State.Sampled

theorem congr (h : s.Sampled) (proof : t.prov.proof = s.prov.proof) (scan : t.scan = s.scan) : t.Sampled := by
  intro x present
  rw [scan]
  exact h x (proof ▸ present)

theorem idle (h : s.prov.proof = none) : s.Sampled := fun _ present => absurd (h.symm.trans present) (by simp)

theorem report (h : s.Sampled) (b : ReportBody) : (s.report b).Sampled := by
  unfold State.report
  split <;> exact h

theorem reportPosition (h : s.Sampled) : s.reportPosition.Sampled := by
  unfold State.reportPosition
  split <;> exact h

/-- A proof begins with the present sample (R124). -/
theorem testProof (h : s.Sampled) : s.testProof.Sampled := by
  unfold State.testProof
  split
  · split
    · exact h
    · intro x present
      obtain rfl := Option.some.inj present
      rfl
  · exact h

theorem springNotice (h : s.Sampled) (k : KeepsSampled ev) (a : Bool) : (s.springNotice ev a).Sampled := by
  unfold State.springNotice
  cases a with
  | false => exact idle (s := (ev s).abandonProof.emptyTried) (State.abandonProof_none _)
  | true =>
    have tested := (k s h).testProof
    dsimp only
    rw [if_pos rfl]
    split
    · exact (k _ (tested.congr (t := (ev s).testProof.setOpState .config) rfl rfl)).congr rfl rfl
    · exact tested

theorem combine (h : s.Sampled) (k : KeepsSampled ev) (b : Bool) : (s.combine ev b).Sampled := by
  have combined : (s.recombine b).Sampled := h.congr rfl rfl
  unfold State.combine
  dsimp only
  split
  · exact combined
  · exact combined.springNotice k _

theorem raiseWith (h : s.Sampled) (k : KeepsSampled ev) (c : Cause) (x : Capture) : (s.raiseWith ev c x).Sampled := by
  unfold State.raiseWith
  split
  · exact h
  · have joined : (s.withSet (s.set.append (s.entryOf c x))).Sampled := h
    have noticed := (k _ (joined.report (.raised c x)).reportPosition).combine k false
    dsimp only
    split
    · exact idle (State.abandonProof_none _)
    · exact noticed

theorem removeWith (h : s.Sampled) (k : KeepsSampled ev) (c : Cause) : (s.removeWith ev c).Sampled := by
  unfold State.removeWith
  split
  · have left : (s.withSet (s.set.erase c)).Sampled := h
    exact ((k _ (left.report (.cleared c))).combine k false).testProof
  · exact h

theorem evaluate (s : State) (h : s.Sampled) : s.evaluate.Sampled :=
  have quiet : KeepsSampled State.evaluateQuiet := fun _ k => k
  State.judge_keeps State.Sampled (fun _ => h) (fun _ _ _ k => k.raiseWith quiet _ _) fun _ k => k.removeWith quiet _

theorem takeStepSample (s : State) : s.takeStepSample.Sampled := by
  unfold State.takeStepSample
  split
  · rename_i none
    exact idle none
  · intro x present
    obtain rfl := Option.some.inj present
    rfl

end State.Sampled

theorem sampled_doorNotices : DoorNotices State.Sampled where
  record := fun _ _ h => h
  motor := fun _ _ _ h => h
  report := fun b h => h.report b
  raise := fun _ h => h.raiseWith State.Sampled.evaluate _ _
  evaluate := fun {s} h => State.Sampled.evaluate s h
  release := fun {s} h => by
    unfold State.testDoorRelease
    split
    · exact h.removeWith State.Sampled.evaluate _
    · exact h
  rehold := fun {s} h => by
    have held : (s.withDoors { s.doors with hold := s.doors.anyUnlocked }).Sampled := h
    unfold State.rehold
    dsimp only
    split
    · exact held
    · exact held.combine State.Sampled.evaluate false

theorem State.scanComplete_sampled (s : State) (w : ScanWords) : (s.scanComplete w).Sampled := by
  rw [State.scanComplete_eq]
  exact sampled_doorNotices.steps.scanDoors (State.Sampled.takeStepSample _)

/-! ### Settling -/

/-- A channel whose demand has changed settles afresh, and one that does so already stays (R99, R113). -/
structure Settles (c : Channel) (s t : State) : Prop where
  clock : t.clock = s.clock
  settles : t.SettlesAfresh c ∨ t.comb.demand.get c = s.comb.demand.get c ∧ (s.SettlesAfresh c → t.SettlesAfresh c)

theorem Settles.trans (f : Settles c s t) (g : Settles c t u) : Settles c s u where
  clock := g.clock.trans f.clock
  settles := by
    rcases g.settles with fresh | ⟨same, keeps⟩
    · exact .inl fresh
    · rcases f.settles with fresh | ⟨same', keeps'⟩
      · exact .inl (keeps fresh)
      · exact .inr ⟨same.trans same', keeps ∘ keeps'⟩

theorem Frame.settles (f : Frame free r m s t) (c : Channel) (h : Block.scan ∉ free := by decide) : Settles c s t where
  clock := f.clock
  settles := (f.settling h c).imp id fun same => ⟨same.1, fun fresh => f.settlesAfresh fresh h⟩

/-- A change of the feedback records that leaves those which settle afresh. -/
theorem State.withFeedback_settles (x : PerChannel Feedback) (h : s.SettlesAfresh c → x.get c = s.comb.feedback.get c) :
    Settles c s (s.withFeedback x) where
  clock := rfl
  settles := .inr ⟨rfl, fun fresh => (h fresh).trans fresh⟩

/-- A channel that settles is not checked, so its tracking leaves it (R113). -/
theorem State.SettlesAfresh.tracked (h : s.SettlesAfresh c) : s.tracked c = s.comb.feedback.get c := by
  have early : s.isChecked c = false := by
    rw [State.SettlesAfresh] at h
    simp [State.isChecked, h, Config.feedbackSettle]
  rw [State.tracked, early]
  rfl

theorem State.trackDeviation_settles (s : State) (c e : Channel) : Settles c s (s.trackDeviation e) := by
  rw [State.trackDeviation_eq]
  refine State.withFeedback_settles _ fun fresh => ?_
  rw [PerChannel.get_put]
  split
  · rename_i same
    rw [← same]
    exact fresh.tracked
  · rfl

theorem State.failChannel_settles (s : State) (c e : Channel) : Settles c s (s.failChannel e) := by
  have cleared : Settles c s (s.withDeviationStart e none) := by
    refine State.withFeedback_settles (s := s) _ fun fresh => ?_
    rw [PerChannel.get_put]
    split
    · rename_i same
      rw [← same, fresh]
    · rfl
  exact cleared.trans ((s.failChannel_frame e).settles c)

theorem State.scanComplete_settles (s : State) (w : ScanWords) (c : Channel) : Settles c s (s.scanComplete w) :=
  have taken : Settles c s (s.withScan (s.scan.take w)) := ⟨rfl, .inr ⟨rfl, id⟩⟩
  State.scanComplete_keeps (P := Settles c s) (fun u e h => h.trans (u.trackDeviation_settles c e))
    (fun u e h => h.trans (u.failChannel_settles c e))
    (fun u h => h.trans ((State.takeStepSample_frame (r := []) (m := []) u).settles c))
    (fun u d h => h.trans ((u.scanDoor_frame d).settles c)) (taken.trans ((State.recompute_lawful _).frame.settles c))

end Sys2Proof.Machine
end

section
/-! PROOFS. A scan of a lawful car (O34): the recomputation leaves the brakes as they are; a scan that fails no channel and finds no
obstruction keeps the feedback records by the rows of R113 and the doors' by the rows of R145. -/

namespace Sys2Proof.Machine

set_option Elab.async false

variable {free : List Block} {r m : List Cause} {s t u : State} {w : ScanWords} {c : Channel} {d e : Door}

/-! ### The recomputation of a lawful car -/

theorem State.recombine_feedback (s : State) (b : Bool) (c : Channel) :
    (s.recombine b).comb.feedback.get c
      = if s.channelDemand c = s.comb.demand.get c then s.comb.feedback.get c
        else { lastChange := s.clock, deviationStart := none } := by cases c <;> rfl

theorem State.scanned_eq (sound : s.Sound) (w : ScanWords) :
    s.scanned w = (s.withScan (s.scan.take w)).recombine false :=
  if_pos (State.recombine_sameSpring (s := s.withScan (s.scan.take w)) sound.braked)

/-- The samples alone change where the brakes agree with the state already (R99). -/
theorem State.scanned_keeps (sound : s.Sound) (blended : s.Blended) (w : ScanWords) :
    (∀ c, (s.scanned w).comb.demand.get c = s.comb.demand.get c) ∧ (s.scanned w).comb.feedback = s.comb.feedback
      ∧ (s.scanned w).prov = s.prov := by
  obtain ⟨-, -, -, demand⟩ := State.blended_iff.1 blended
  have same : ∀ c, (s.withScan (s.scan.take w)).channelDemand c = s.comb.demand.get c := fun c => (demand c).symm
  rw [State.scanned_eq sound]
  refine ⟨fun c => (State.recombine_demand _ _ c).trans (same c), PerChannel.ext_get fun c => ?_, rfl⟩
  rw [State.recombine_feedback]
  exact if_pos (same c)

theorem State.scanned_frame (sound : s.Sound) (w : ScanWords) : Frame [.scan] r m s (s.scanned w) := by
  rw [State.scanned_eq sound]
  exact (State.withScan_lawful s _).frame.trans ((State.recombine_frame _).mono (by decide) (fun _ h => h) fun _ h => h)

/-! ### The check of one channel -/

theorem State.isChecked_iff : s.isChecked c = true ↔ s.Watches c := by
  have free : s.prov.holds c = false ↔ ∀ x, s.prov.proof = some x → x.channel ≠ c := by
    unfold Proving.holds
    cases s.prov.proof <;> simp
  rw [State.isChecked, State.Watches, ← free, Bool.and_eq_true, Bool.and_eq_true, bne_iff_ne, Bool.not_eq_true',
    decide_eq_true_eq, and_assoc]
  exact Iff.rfl

theorem State.deviates_iff :
    s.deviates c = true ↔ s.scan.pressure.get c + s.cfg.feedbackTol < s.expectedPressure c
      ∨ s.expectedPressure c + s.cfg.feedbackTol < s.scan.pressure.get c := by
  rw [State.deviates, decide_eq_true_eq, State.deviation]
  omega

theorem State.failsCheck_iff :
    s.failsCheck c = true ↔ s.Watches c ∧ s.deviates c = true
      ∧ ∃ m, (s.comb.feedback.get c).deviationStart = some m ∧ m + 200000 ≤ s.clock := by
  rw [State.failsCheck, Bool.and_eq_true, Bool.and_eq_true, State.isChecked_iff, and_assoc]
  refine and_congr_right fun _ => and_congr_right fun _ => ?_
  cases (s.comb.feedback.get c).deviationStart with
  | none => simp
  | some start =>
    rw [decide_eq_true_eq]
    exact ⟨fun lasted => ⟨start, rfl, lasted⟩, fun ⟨_, same, lasted⟩ => Option.some.inj same ▸ lasted⟩

theorem State.scanned_watches (sound : s.Sound) (blended : s.Blended) (w : ScanWords) (c : Channel) :
    (s.scanned w).Watches c ↔ s.Watches c := by
  obtain ⟨-, feedback, prov⟩ := State.scanned_keeps sound blended w
  have clock : (s.scanned w).clock = s.clock := (State.scanned_frame (r := []) (m := []) sound w).clock
  rw [State.Watches, State.Watches, feedback, prov, clock]

theorem State.scanned_deviates (sound : s.Sound) (blended : s.Blended) (w : ScanWords) (c : Channel) :
    (s.scanned w).deviates c = true ↔ s.Strays w c := by
  obtain ⟨demand, -, -⟩ := State.scanned_keeps sound blended w
  have cfg : (s.scanned w).cfg = s.cfg := (State.scanned_frame (r := []) (m := []) sound w).settings (by decide)
  rw [State.deviates_iff, State.expectedPressure, demand, cfg, State.scanned_scan, SensorScan.take, PerChannel.get_of]
  exact Iff.rfl

theorem State.scanned_fails (sound : s.Sound) (blended : s.Blended) (w : ScanWords) (c : Channel) :
    (s.scanned w).failsCheck c = true ↔ s.Watches c ∧ s.Strays w c
      ∧ ∃ m, (s.comb.feedback.get c).deviationStart = some m ∧ m + 200000 ≤ s.clock := by
  obtain ⟨-, feedback, -⟩ := State.scanned_keeps sound blended w
  have clock : (s.scanned w).clock = s.clock := (State.scanned_frame (r := []) (m := []) sound w).clock
  rw [State.failsCheck_iff, State.scanned_watches sound blended, State.scanned_deviates sound blended, feedback, clock]

/-! ### The tracking of every channel -/

/-- The tracking of one channel reads its own record alone. -/
theorem State.tracked_withFeedback {x : PerChannel Feedback} (h : x.get c = s.comb.feedback.get c) :
    (s.withFeedback x).tracked c = s.tracked c := by
  have feedback : (s.withFeedback x).comb.feedback.get c = s.comb.feedback.get c := h
  unfold State.tracked State.isChecked
  rw [feedback]
  rfl

theorem State.trackDeviations_eq {l : List Channel} (once : l.Nodup) (s : State) :
    l.foldl State.trackDeviation s
      = s.withFeedback (PerChannel.of fun c => if c ∈ l then s.tracked c else s.comb.feedback.get c) := by
  induction l generalizing s with
  | nil =>
    have same : PerChannel.of (fun c => s.comb.feedback.get c) = s.comb.feedback := PerChannel.ext_get fun c => PerChannel.get_of _ c
    simp only [List.foldl_nil, List.not_mem_nil, if_false, same]
    rfl
  | cons a l ih =>
    obtain ⟨absent, rest⟩ := List.nodup_cons.1 once
    rw [List.foldl_cons, ih rest, State.trackDeviation_eq]
    refine congrArg s.withFeedback (PerChannel.ext_get fun c => ?_)
    rw [PerChannel.get_of, PerChannel.get_of]
    have put : (s.withFeedback (s.comb.feedback.put a (s.tracked a))).comb.feedback.get c
        = if c = a then s.tracked a else s.comb.feedback.get c := PerChannel.get_put _ _ _ _
    by_cases first : c = a
    · subst first
      rw [if_neg absent, put, if_pos rfl, if_pos List.mem_cons_self]
    · rw [if_neg first] at put
      have kept : (s.withFeedback (s.comb.feedback.put a (s.tracked a))).tracked c = s.tracked c :=
        State.tracked_withFeedback (by rw [PerChannel.get_put, if_neg first])
      rw [kept, put]
      simp [first]

theorem State.trackAll_eq (s : State) : channels.foldl State.trackDeviation s = s.withFeedback (PerChannel.of s.tracked) := by
  have all : ∀ c, c ∈ channels := fun c => by cases c <;> decide
  rw [State.trackDeviations_eq (by decide)]
  simp [all]

/-- A lawful car's feedback records behind the recomputation and the tracking, by the rows of R113. -/
theorem State.scanned_tracked (sound : s.Sound) (blended : s.Blended) (w : ScanWords) (c : Channel) :
    (s.Watches c → ¬s.Strays w c → (s.scanned w).tracked c = { s.comb.feedback.get c with deviationStart := none })
      ∧ (s.Watches c → s.Strays w c → (s.scanned w).tracked c
          = { s.comb.feedback.get c with deviationStart := some ((s.comb.feedback.get c).deviationStart.getD s.clock) })
      ∧ (¬s.Watches c → (s.scanned w).tracked c = s.comb.feedback.get c) := by
  obtain ⟨-, feedback, -⟩ := State.scanned_keeps sound blended w
  have clock : (s.scanned w).clock = s.clock := (State.scanned_frame (r := []) (m := []) sound w).clock
  have checked := State.isChecked_iff.trans (State.scanned_watches sound blended w c)
  have strays := State.scanned_deviates (c := c) sound blended w
  rw [State.tracked, feedback, clock]
  exact ⟨fun watched near => by rw [if_pos (checked.2 watched), if_neg (near ∘ strays.1)],
    fun watched far => by rw [if_pos (checked.2 watched), if_pos (strays.2 far)], fun idle => if_neg (idle ∘ checked.1)⟩

theorem State.withFeedback_frame (s : State) (x : PerChannel Feedback) : Frame [.scan] r m s (s.withFeedback x) :=
  Frame.withFeedback _ rfl rfl

/-- A scan that fails no channel tracks the deviations, takes the step sample and goes on to the doors. -/
theorem State.scanChecked_passes (pass : ∀ c, (s.scanned w).failsCheck c = false) :
    s.scanChecked w = ((s.scanned w).withFeedback (PerChannel.of (s.scanned w).tracked)).takeStepSample := by
  have none : channels.filter (s.scanned w).failsCheck = [] := List.filter_eq_nil_iff.2 fun c _ => by simp [pass c]
  rw [State.scanChecked, State.checkFeedback, none, List.foldl_nil, State.trackAll_eq]

/-! ### The scan of one door -/

/-- The sense in which a door's state drives it (R140, R142). -/
def DoorState.sense : DoorState → Option Sense
  | .opening => some .open
  | .closing => some .close
  | _ => none

/-- A door's record after a scan that finds no obstruction, by the rows of R144 and R145. -/
def State.scannedDoor (s : State) (d : Door) : DoorRecord :=
  match (s.doorAt d).state with
  | .opening => { s.doorAt d with limit := s.limitOnSlope d (s.way d .open) }
  | .closing =>
    { s.doorAt d with
      limit := s.limitOnSlope d (s.way d .close)
      obstruction :=
        if s.scan.current.get d ≤ s.limitOnSlope d (s.way d .close) then none
        else some ((s.doorAt d).obstruction.getD s.clock) }
  | _ => s.doorAt d

/-- No obstruction of a door has lasted for 150 ms (R145). -/
def State.Unhindered (s : State) (d : Door) : Prop :=
  ∀ m, (s.doorAt d).state = .closing → s.limitOnSlope d (s.way d .close) < s.scan.current.get d →
    (s.doorAt d).obstruction = some m → s.clock < m + 150000

/-- What a scan that finds no obstruction makes of one door. -/
structure DoorScanned (d : Door) (s t : State) : Prop where
  only : OnlyDoor d s t
  record : t.doorAt d = s.scannedDoor d
  drives : ∀ x, (s.doorAt d).state.sense = some x → t.Drives d (s.dutyOnSlope d (s.way d x)) x
  still : (s.doorAt d).state.sense = none → t.drive.motor.get d = s.drive.motor.get d
  hold : t.doors.hold = s.doors.hold
  comb : t.comb = s.comb
  frame : Frame doorBlocks [] [] s t

theorem State.withDoor_same (s : State) (d : Door) : s.withDoor d (s.doorAt d) = s := by
  have same : s.doors.door.put d (s.doors.door.get d) = s.doors.door := by cases d <;> rfl
  show s.withDoors { s.doors with door := s.doors.door.put d (s.doors.door.get d) } = s
  rw [same]
  rfl

theorem State.driveDoor_hold (s : State) (d : Door) (x : Sense) : (s.driveDoor d x).doors.hold = s.doors.hold := by
  unfold State.driveDoor
  dsimp only
  split <;> rfl

theorem State.driveDoor_comb (s : State) (d : Door) (x : Sense) : (s.driveDoor d x).comb = s.comb := by
  obtain ⟨-, -, comb, -⟩ := s.driveDoor_still d x
  exact comb

theorem State.driveDoor_only (s : State) (d : Door) (x : Sense) : OnlyDoor d s (s.driveDoor d x) := by
  obtain ⟨clock, place, window, settings⟩ := (State.driveDoor_frame (r := []) (m := []) s d x).place
  obtain ⟨-, -, -, -, left, right⟩ := s.driveDoor_still d x
  exact ⟨fun e other => (s.driveDoor_doorAt d e x).trans (if_neg other), fun e other => s.driveDoor_other other x, left, right, clock,
    place, window, settings⟩

/-- A closing door without an obstruction is driven, and its record kept by the rows of R145. -/
theorem State.scanDoor_closing (closing : (s.doorAt d).state = .closing) (free : s.Unhindered d) :
    s.scanDoor d = (s.driveDoor d .close).withDoor d (s.scannedDoor d) := by
  have driven : (s.driveDoor d .close).doorAt d = { s.doorAt d with limit := s.limitOnSlope d (s.way d .close) } := by
    rw [State.driveDoor_doorAt, if_pos rfl, State.doorLimit_eq]
  have frame := State.driveDoor_frame (r := []) (m := []) s d .close
  have same := (s.driveDoor d .close).withDoor_same d
  have record : s.scannedDoor d =
      { s.doorAt d with
        limit := s.limitOnSlope d (s.way d .close)
        obstruction :=
          if s.scan.current.get d ≤ s.limitOnSlope d (s.way d .close) then none
          else some ((s.doorAt d).obstruction.getD s.clock) } := by rw [State.scannedDoor, closing]
  rw [record, State.scanDoor, closing]
  rw [driven] at same
  dsimp only
  rw [driven, frame.scan (by decide), frame.clock]
  dsimp only
  split
  · rfl
  · rename_i blocked
    split
    · rename_i unset
      rw [unset]
      rfl
    · rename_i start running
      have early := free start closing (Nat.not_le.1 blocked) running
      have kept : ({ s.doorAt d with
          limit := s.limitOnSlope d (s.way d .close), obstruction := some start } : DoorRecord)
          = { s.doorAt d with limit := s.limitOnSlope d (s.way d .close) } := by rw [← running]
      have short : ¬start + Config.obstructionPersistence ≤ s.clock := Nat.not_le.2 early
      rw [if_neg short, running, Option.getD_some, kept, same]

theorem State.scanDoor_scanned (duty : 1 ≤ s.cfg.doorDuty) (free : s.Unhindered d) : DoorScanned d s (s.scanDoor d) := by
  have frame := fun x => State.driveDoor_frame (r := []) (m := []) s d x
  cases state : (s.doorAt d).state with
  | opening =>
    have made : s.scanDoor d = s.driveDoor d .open := by rw [State.scanDoor, state]
    rw [made]
    refine ⟨s.driveDoor_only d .open, ?_, fun x sense => ?_, fun none => ?_, s.driveDoor_hold d .open, s.driveDoor_comb d .open,
      frame .open⟩
    · rw [State.driveDoor_doorAt, if_pos rfl, State.doorLimit_eq, State.scannedDoor, state]
    · rw [state] at sense
      obtain rfl := Option.some.inj sense
      exact State.driveDoor_drives duty d .open
    · rw [state] at none
      cases none
  | closing =>
    rw [State.scanDoor_closing state free]
    refine ⟨(s.driveDoor_only d .close).trans (State.withDoor_only _ d _), State.doorAt_withDoor_same _ d _, fun x sense => ?_,
      fun none => ?_, s.driveDoor_hold d .close, s.driveDoor_comb d .close,
      (frame .close).trans ((State.withDoor_frame _ d _).mono (by decide) (fun _ h => h) fun _ h => h)⟩
    · rw [state] at sense
      obtain rfl := Option.some.inj sense
      exact State.driveDoor_drives duty d .close
    · rw [state] at none
      cases none
  | _ =>
    have made : s.scanDoor d = s := by rw [State.scanDoor, state]
    rw [made]
    refine ⟨OnlyDoor.refl s d, by rw [State.scannedDoor, state], fun x sense => ?_, fun _ => rfl, rfl, rfl, Frame.refl⟩
    rw [state] at sense
    cases sense

/-! ### The scan of every door -/

/-- Another door's scan reads nothing that this one has changed. -/
theorem DoorScanned.reads (f : DoorScanned d s t) (other : e ≠ d) :
    t.doorAt e = s.doorAt e ∧ t.scan = s.scan ∧ t.clock = s.clock ∧ (∀ x, t.way e x = s.way e x)
      ∧ (∀ v, t.limitOnSlope e v = s.limitOnSlope e v) ∧ ∀ v, t.dutyOnSlope e v = s.dutyOnSlope e v := by
  refine ⟨f.only.doors e other, f.frame.scan (by decide), f.only.clock, fun x => ?_, f.only.limit e, f.only.duty e⟩
  cases x <;> rw [State.way, f.only.settings] <;> rfl

theorem DoorScanned.scannedDoor (f : DoorScanned d s t) (other : e ≠ d) : t.scannedDoor e = s.scannedDoor e := by
  obtain ⟨record, scan, clock, way, limit, -⟩ := f.reads other
  rw [State.scannedDoor, State.scannedDoor, record, scan, clock]
  simp only [way, limit]

theorem DoorScanned.unhindered (f : DoorScanned d s t) (other : e ≠ d) (free : s.Unhindered e) : t.Unhindered e := by
  obtain ⟨record, scan, clock, way, limit, -⟩ := f.reads other
  rw [State.Unhindered, record, scan, clock]
  simp only [way, limit]
  exact free

/-- What a scan that finds no obstruction makes of the doors listed. -/
structure DoorsScanned (l : List Door) (s t : State) : Prop where
  records : ∀ d ∈ l, t.doorAt d = s.scannedDoor d
  drives : ∀ d ∈ l, ∀ x, (s.doorAt d).state.sense = some x → t.Drives d (s.dutyOnSlope d (s.way d x)) x
  still : ∀ d ∈ l, (s.doorAt d).state.sense = none → t.drive.motor.get d = s.drive.motor.get d
  others : ∀ d, d ∉ l → t.doorAt d = s.doorAt d ∧ t.drive.motor.get d = s.drive.motor.get d
  left : t.doors.releasedLeft = s.doors.releasedLeft
  right : t.doors.releasedRight = s.doors.releasedRight
  hold : t.doors.hold = s.doors.hold
  comb : t.comb = s.comb
  frame : Frame doorBlocks [] [] s t

theorem State.scanDoors_scanned {l : List Door} (once : l.Nodup) (duty : 1 ≤ s.cfg.doorDuty) (free : ∀ d ∈ l, s.Unhindered d) :
    DoorsScanned l s (l.foldl State.scanDoor s) := by
  induction l generalizing s with
  | nil =>
    exact ⟨fun _ mem => absurd mem List.not_mem_nil, fun _ mem => absurd mem List.not_mem_nil,
      fun _ mem => absurd mem List.not_mem_nil, fun _ _ => ⟨rfl, rfl⟩, rfl, rfl, rfl, rfl, Frame.refl⟩
  | cons a l ih =>
    obtain ⟨absent, rest⟩ := List.nodup_cons.1 once
    have first : DoorScanned a s (s.scanDoor a) := State.scanDoor_scanned duty (free a List.mem_cons_self)
    have other : ∀ e ∈ l, e ≠ a := fun e mem same => absent (same ▸ mem)
    have behind := ih (s := s.scanDoor a) rest (first.only.settings ▸ duty) fun e mem =>
      first.unhindered (other e mem) (free e (List.mem_cons_of_mem a mem))
    rw [List.foldl_cons]
    refine ⟨fun e mem => ?_, fun e mem x sense => ?_, fun e mem none => ?_, fun e mem => ?_, behind.left.trans first.only.left,
      behind.right.trans first.only.right, behind.hold.trans first.hold, behind.comb.trans first.comb,
      first.frame.trans behind.frame⟩
    · rcases List.mem_cons.1 mem with rfl | mem
      · exact (behind.others e absent).1.trans first.record
      · exact (behind.records e mem).trans (first.scannedDoor (other e mem))
    · rcases List.mem_cons.1 mem with rfl | mem
      · rw [State.Drives, (behind.others e absent).2]
        exact first.drives x sense
      · obtain ⟨record, -, -, way, -, duty⟩ := first.reads (other e mem)
        rw [← way, ← duty]
        exact behind.drives e mem x (record ▸ sense)
    · rcases List.mem_cons.1 mem with rfl | mem
      · exact (behind.others e absent).2.trans (first.still none)
      · exact (behind.still e mem ((first.only.doors e (other e mem)).symm ▸ none)).trans (first.only.motors e (other e mem))
    · obtain ⟨head, tail⟩ := not_or.1 (mt List.mem_cons.2 mem)
      obtain ⟨record, motor⟩ := behind.others e tail
      exact ⟨record.trans (first.only.doors e head), motor.trans (first.only.motors e head)⟩

/-! ### A scan without a failure and without an obstruction -/

/-- The statement's condition on the channels: no deviation has lasted for 200 ms (R113). -/
theorem State.scanned_passes (sound : s.Sound) (blended : s.Blended)
    (near : ∀ c m, s.Watches c → s.Strays w c → (s.comb.feedback.get c).deviationStart = some m → s.clock < m + 200000)
    (c : Channel) : (s.scanned w).failsCheck c = false := by
  refine Bool.eq_false_iff.2 fun fails => ?_
  obtain ⟨watches, strays, start, running, lasted⟩ := (State.scanned_fails sound blended w c).1 fails
  exact absurd (near c start watches strays running) (Nat.not_lt.2 lasted)

/-- The state behind the checks of a scan that fails no channel. -/
structure ScanTracked (w : ScanWords) (s t : State) : Prop where
  frame : Frame [.scan] [] [] s t
  scan : t.scan = s.scan.take w
  feedback : ∀ c, t.comb.feedback.get c = (s.scanned w).tracked c

theorem State.takeStepSample_comb (s : State) : s.takeStepSample.comb = s.comb := by
  unfold State.takeStepSample
  split <;> rfl

theorem State.scanChecked_tracked (sound : s.Sound) (pass : ∀ c, (s.scanned w).failsCheck c = false) :
    ScanTracked w s (s.scanChecked w) := by
  rw [State.scanChecked_passes pass]
  have sample := fun u => State.takeStepSample_frame (r := []) (m := []) u
  refine ⟨((State.scanned_frame sound w).trans (State.withFeedback_frame _ _)).trans
    ((sample _).mono (by decide) (fun _ h => h) fun _ h => h), ?_, fun c => ?_⟩
  · exact ((sample _).scan (by decide)).trans (s.scanned_scan w)
  · rw [State.takeStepSample_comb]
    exact PerChannel.get_of _ c

namespace ScanTracked

theorem doorAt (f : ScanTracked w s t) (d : Door) : t.doorAt d = s.doorAt d := by
  rw [State.doorAt, f.frame.doors (by decide), ← State.doorAt]

theorem motor (f : ScanTracked w s t) : t.drive.motor = s.drive.motor := f.frame.motors (by decide)

theorem onlyDoor (f : ScanTracked w s t) (d : Door) : OnlyDoor d s t where
  doors e _ := f.doorAt e
  motors e _ := by rw [f.motor]
  left := by rw [f.frame.doors (by decide)]
  right := by rw [f.frame.doors (by decide)]
  clock := f.frame.clock
  position := by rw [f.frame.odometry (by decide)]
  window := f.frame.window (by decide)
  settings := f.frame.settings (by decide)

theorem way (f : ScanTracked w s t) (d : Door) (x : Sense) : t.way d x = s.way d x := by
  cases x <;> rw [State.way, (f.onlyDoor d).settings] <;> rfl

theorem limit (f : ScanTracked w s t) (d : Door) (x : Sense) : t.limitOnSlope d (t.way d x) = s.limitOnSlope d (s.way d x) := by
  rw [f.way, (f.onlyDoor d).limit]

theorem duty (f : ScanTracked w s t) (d : Door) (x : Sense) : t.dutyOnSlope d (t.way d x) = s.dutyOnSlope d (s.way d x) := by
  rw [f.way, (f.onlyDoor d).duty]

theorem blocks (f : ScanTracked w s t) (d : Door) : t.limitOnSlope d (t.way d .close) < t.scan.current.get d ↔ s.Blocks w d := by
  rw [f.limit, f.scan, SensorScan.take, PerDoor.get_of]
  exact Iff.rfl

theorem unhindered (f : ScanTracked w s t)
    (free : ∀ d m, (s.doorAt d).state = .closing → s.Blocks w d → (s.doorAt d).obstruction = some m → s.clock < m + 150000)
    (d : Door) : t.Unhindered d := by
  intro start closing blocked running
  rw [f.doorAt] at closing running
  rw [f.frame.clock]
  exact free d start closing ((f.blocks d).1 blocked) running

theorem opening (f : ScanTracked w s t) (state : (s.doorAt d).state = .opening) :
    t.scannedDoor d = { s.doorAt d with limit := s.limitOnSlope d (s.cfg.openDir.get d) } := by
  rw [State.scannedDoor, f.doorAt, state, f.limit]
  rfl

theorem closing (f : ScanTracked w s t) (state : (s.doorAt d).state = .closing) :
    (¬s.Blocks w d → t.scannedDoor d
        = { s.doorAt d with limit := s.limitOnSlope d (s.cfg.openDir.get d).opposite, obstruction := none })
      ∧ (s.Blocks w d → t.scannedDoor d
        = { s.doorAt d with
            limit := s.limitOnSlope d (s.cfg.openDir.get d).opposite
            obstruction := some ((s.doorAt d).obstruction.getD s.clock) }) := by
  have record : t.scannedDoor d =
      { s.doorAt d with
        limit := s.limitOnSlope d (s.way d .close)
        obstruction :=
          if t.scan.current.get d ≤ t.limitOnSlope d (t.way d .close) then none
          else some ((s.doorAt d).obstruction.getD s.clock) } := by
    rw [State.scannedDoor, f.doorAt, state, ← f.limit, f.frame.clock]
  rw [record]
  refine ⟨fun clear => ?_, fun blocked => ?_⟩
  · rw [if_pos (Nat.not_lt.1 (clear ∘ (f.blocks d).1))]
    rfl
  · rw [if_neg (Nat.not_le.2 ((f.blocks d).2 blocked))]
    rfl

theorem resting (f : ScanTracked w s t) (state : (s.doorAt d).state.sense = none) : t.scannedDoor d = s.doorAt d := by
  rw [State.scannedDoor, f.doorAt]
  split
  · rename_i opening
    rw [opening] at state
    cases state
  · rename_i closing
    rw [closing] at state
    cases state
  · rfl

end ScanTracked

/-- The doors' part of a scan that fails no channel and finds no obstruction (R144, R145). -/
theorem State.scanComplete_tracked (sound : s.Sound) (pass : ∀ c, (s.scanned w).failsCheck c = false)
    (free : ∀ d m, (s.doorAt d).state = .closing → s.Blocks w d → (s.doorAt d).obstruction = some m → s.clock < m + 150000) :
    ScanTracked w s (s.scanChecked w) ∧ DoorsScanned allDoors (s.scanChecked w) (s.scanComplete w) := by
  have tracked := State.scanChecked_tracked sound pass
  refine ⟨tracked, ?_⟩
  rw [State.scanComplete_eq]
  exact State.scanDoors_scanned (by decide) (tracked.frame.settings (by decide) ▸ sound.doorDuty) fun d _ => tracked.unhindered free d

/-- A lawful car's feedback records after such a scan, by the rows of R113. -/
theorem ScanTracked.feedbackRows (f : ScanTracked w s t) (sound : s.Sound) (blended : s.Blended) (comb : u.comb = t.comb) (c : Channel) :
    (s.Watches c → ¬s.Strays w c → u.comb.feedback.get c = { s.comb.feedback.get c with deviationStart := none })
      ∧ (s.Watches c → s.Strays w c → (s.comb.feedback.get c).deviationStart = none →
        u.comb.feedback.get c = { s.comb.feedback.get c with deviationStart := some s.clock })
      ∧ (∀ m, s.Watches c → s.Strays w c → (s.comb.feedback.get c).deviationStart = some m →
        u.comb.feedback.get c = s.comb.feedback.get c)
      ∧ (¬s.Watches c → u.comb.feedback.get c = s.comb.feedback.get c) := by
  obtain ⟨near, far, idle⟩ := State.scanned_tracked sound blended w c
  rw [comb, f.feedback]
  refine ⟨near, fun watches strays unset => ?_, fun start watches strays running => ?_, idle⟩
  · rw [far watches strays, unset]
    rfl
  · have kept : ({ s.comb.feedback.get c with deviationStart := some start } : Feedback) = s.comb.feedback.get c := by rw [← running]
    rw [far watches strays, running, Option.getD_some, kept]

/-- A closing door's record and motor after such a scan, by the rows of R145. -/
theorem ScanTracked.closingRows (f : ScanTracked w s t) (state : (s.doorAt d).state = .closing)
    (record : u.doorAt d = t.scannedDoor d) :
    let limit := s.limitOnSlope d (s.cfg.openDir.get d).opposite
    (¬s.Blocks w d → u.doorAt d = { s.doorAt d with limit := limit, obstruction := none })
      ∧ (s.Blocks w d → (s.doorAt d).obstruction = none →
          u.doorAt d = { s.doorAt d with limit := limit, obstruction := some s.clock })
      ∧ ∀ m, s.Blocks w d → (s.doorAt d).obstruction = some m → u.doorAt d = { s.doorAt d with limit := limit } := by
  obtain ⟨clear, blocked⟩ := f.closing state
  rw [record]
  refine ⟨clear, fun blocks unset => ?_, fun start blocks running => ?_⟩
  · rw [blocked blocks, unset]
    rfl
  · rw [blocked blocks, running, Option.getD_some, ← running]

/-- A door in motion is driven by such a scan as its leaf moves on the slope (R144). -/
theorem ScanTracked.drives (f : ScanTracked w s t) (g : DoorsScanned allDoors t u) {x : Sense}
    (moves : (s.doorAt d).state.sense = some x) : u.Drives d (s.dutyOnSlope d (s.way d x)) x := by
  rw [← f.duty]
  exact g.drives d (mem_allDoors d) x ((f.doorAt d).symm ▸ moves)

/-- A door at rest is left with its motor by such a scan. -/
theorem ScanTracked.rests (f : ScanTracked w s t) (g : DoorsScanned allDoors t u) (state : (s.doorAt d).state ∉ [.opening, .closing]) :
    u.doorAt d = s.doorAt d ∧ u.drive.motor.get d = s.drive.motor.get d := by
  have rest : (s.doorAt d).state.sense = none := by
    cases kind : (s.doorAt d).state <;> simp [kind, DoorState.sense] at state ⊢
  refine ⟨(g.records d (mem_allDoors d)).trans (f.resting rest), ?_⟩
  rw [g.still d (mem_allDoors d) ((f.doorAt d).symm ▸ rest), f.motor]

/-- Settles O34: the samples, the figures and the frame hold of every scan; the rows of R113 and R145 of one that passes the checks. -/
theorem scansTakeTheSamples : Obligations.ScansTakeTheSamples := by
  intro s w
  have scan := s.scanComplete_scan w
  have lawful := s.scanComplete_lawful w
  obtain ⟨blended, -⟩ := s.scanComplete_combined w
  refine ⟨s.scanComplete w, rfl, by rw [scan]; rfl, by rw [scan]; rfl, fun c => ?_, fun d => ?_, blended, fun sound => ?_,
    s.scanComplete_sampled w, fun c changed => ?_, lawful.frame, fun sound blended near free => ?_⟩
  · rw [scan, SensorScan.take, PerChannel.get_of]
    exact sampleAfter_read _ _ _
  · rw [scan, SensorScan.take, PerDoor.get_of]
    exact sampleAfter_read _ _ _
  · obtain ⟨-, -, -, -, drive, valve, -⟩ := (lawful.sound sound).brakes
    exact ⟨drive, valve⟩
  · obtain ⟨clock, settles⟩ := s.scanComplete_settles w c
    exact (settles.resolve_right fun same => changed same.1).trans (by rw [clock])
  · obtain ⟨checked, doors⟩ := State.scanComplete_tracked sound (State.scanned_passes sound blended near) free
    refine ⟨fun c => checked.feedbackRows sound blended doors.comb c, fun d state => ?_, fun d state => ?_,
      fun d state => checked.rests doors state, doors.left.trans (checked.onlyDoor .d1).left,
      doors.right.trans (checked.onlyDoor .d1).right, doors.hold.trans ?_,
      (checked.frame.mono (by decide) (fun _ h => h) fun _ h => h).trans (doors.frame.mono (by decide) (fun _ h => h) fun _ h => h)⟩
    · exact ⟨(doors.records d (mem_allDoors d)).trans (checked.opening state), checked.drives doors (by rw [state]; rfl)⟩
    · exact ⟨checked.closingRows state (doors.records d (mem_allDoors d)), checked.drives doors (x := .close) (by rw [state]; rfl)⟩
    · rw [checked.frame.doors (by decide)]

end Sys2Proof.Machine
end

section
/-! PROOFS. The failure of a channel (O35): a scan at which one channel alone has strayed for 200 ms fails it, and a car that may prove
has begun its round before the records, the raising and the doors, which leave it (R114, R123). -/

namespace Sys2Proof.Machine

set_option Elab.async false

variable {s t : State} {w : ScanWords} {c : Channel} {x : Proving}

/-! ### What leaves a car poised for its round -/

namespace State.Poised

theorem quiet (h : s.Poised x) : s.Quiet s.prov := ⟨h.1.rest, h.1.spring, h.1.law, h.2, rfl⟩

theorem told (h : s.Poised x) (b : ReportBody) : (s.report b).Poised x := by
  obtain ⟨⟨rest, spring, law, owed, idle, round⟩, calm⟩ := h
  unfold State.report
  split <;> exact ⟨⟨rest, spring, law, owed, idle, round⟩, calm⟩

theorem reportPosition (h : s.Poised x) : s.reportPosition.Poised x := by
  obtain ⟨⟨rest, spring, law, owed, idle, round⟩, calm⟩ := h
  unfold State.reportPosition
  split <;> exact ⟨⟨rest, spring, law, owed, idle, round⟩, calm⟩

/-- The spring stays applied, so a recomputation hands no notice (R99). -/
theorem combine (h : s.Poised x) (ev : State → State) : (s.combine ev false).Poised x := by
  rw [h.quiet.combine]
  exact h.step (State.recombine_frame (r := []) (m := []) s) s.recombine_awaiting h.2

theorem testProof (h : s.Poised x) : s.testProof.Poised x := ⟨h.1.testProof, by rw [State.testProof_set]; exact h.2⟩

theorem erase (h : s.Poised x) (c : Cause) : (s.withSet (s.set.erase c)).Poised x :=
  h.step (State.erase_frame (r := []) (m := [c]) s c (by simp)) (s.erase_awaiting c) (h.quiet.erase c).calm

theorem remove (h : s.Poised x) (c : Cause) : (s.remove c).Poised x := by
  rw [State.remove, State.removeWith]
  split
  · exact ((h.erase c).told _).evaluate.combine _ |>.testProof
  · exact h

/-- A SERVICE-level cause leaves the spring and the proof alone (R80). -/
theorem raise (h : s.Poised x) {c : Cause} (service : c.level ≠ .emergency) (y : Capture) : (s.raise c y).Poised x := by
  have calm : (s.set.append (s.entryOf c y)).hasLevel .emergency = false := by
    rw [InterventionSet.append_hasLevel, h.2]
    exact beq_eq_false_iff_ne.2 service
  have joined : (s.withSet (s.set.append (s.entryOf c y))).Poised x :=
    have f := State.append_frame (r := [c]) (m := []) s (s.entryOf c y) (List.mem_singleton.2 rfl)
    h.step f (.of_same f rfl rfl rfl fun _ => calm) calm
  rw [State.raise, State.raiseWith]
  split
  · exact h
  · exact (joined.told _).reportPosition.evaluate.combine _

theorem doors (h : s.Poised x) (y : DoorController) : (s.withDoors y).Poised x :=
  ⟨⟨h.1.rest, h.1.spring, h.1.law, h.1.owed, h.1.idle, h.1.round⟩, h.2⟩

theorem rehold (h : s.Poised x) : s.rehold.Poised x := by
  have held := h.doors { s.doors with hold := s.doors.anyUnlocked }
  unfold State.rehold
  dsimp only
  split
  · exact held
  · rw [State.recompute]
    exact held.combine _

/-- The first sample of a proof's step is the present one already (R124, R125). -/
theorem takeStepSample (h : s.Poised x) : s.takeStepSample.Poised x := by
  have same : s.takeStepSample = s := by
    unfold State.takeStepSample
    split
    · rfl
    · rename_i y busy
      have sampled : s.Sampled := by
        rcases h.1.round with same | ⟨-, round⟩
        · exact .idle (same ▸ h.1.idle.1)
        · rw [State.Round] at round
          split at round
          · exact .idle round.1
          · intro z present
            obtain rfl := Option.some.inj (round.1.symm.trans present)
            rfl
      rw [← sampled y busy]
      show s.withProv { s.prov with proof := some y } = s
      rw [← busy]
      rfl
  rwa [same]

end State.Poised

/-- A standing car's doors move without a raising, and leave it poised. -/
theorem poised_doorNotices (x : Proving) : DoorNotices (State.Poised · x) where
  record := fun _ _ h => h.doors _
  motor := fun _ _ _ h => ⟨⟨h.1.rest, h.1.spring, h.1.law, h.1.owed, h.1.idle, h.1.round⟩, h.2⟩
  report := fun b h => h.told b
  raise := fun moving h => absurd (h.1.rest.1.symm.trans moving) (by decide)
  evaluate := fun h => h.evaluate
  release := fun h => by
    unfold State.testDoorRelease
    split
    · exact h.remove _
    · exact h
  rehold := fun h => h.rehold

/-- A round that has begun stays so through what leaves a car poised: held against a Proving Unit that awaits the same round with
another proof timer, the state behind can only be that of the round begun. -/
theorem State.Poised.stays (h : s.Poised x) (round : s.Round x.owed x.tried) (keeps : ∀ y, s.Poised y → t.Poised y)
    (timer : t.prov.timer = s.prov.timer) : t.Round x.owed x.tried := by
  obtain ⟨other, differs⟩ : ∃ other : Option Nat, other ≠ s.prov.timer := exists_ne _
  have awaits : s.Poised { x with timer := other } :=
    ⟨⟨h.1.rest, h.1.spring, h.1.law, h.1.owed, h.1.idle, .inr ⟨h.2, round⟩⟩, h.2⟩
  rcases (keeps _ awaits).1.round with same | ⟨-, begun⟩
  · exact absurd ((congrArg Proving.timer same).symm.trans timer) differs
  · exact begun

/-! ### The one channel that fails -/

/-- The state in which the one channel that strays fails: its samples taken and the deviations tracked. -/
def State.scannedTracked (s : State) (w : ScanWords) : State := (s.scanned w).withFeedback (PerChannel.of (s.scanned w).tracked)

theorem State.scanComplete_failing (fails : ∀ x, (s.scanned w).failsCheck x = true ↔ x = c) :
    s.scanComplete w = allDoors.foldl State.scanDoor ((s.scannedTracked w).failChannel c).takeStepSample := by
  have check : (s.scanned w).failsCheck = fun x => decide (x = c) := funext fun x => Bool.eq_iff_iff.2 ((fails x).trans (by simp))
  have one : channels.filter (s.scanned w).failsCheck = [c] := by
    rw [check]
    cases c <;> rfl
  rw [State.scanComplete_eq, State.scanChecked, State.checkFeedback, one, State.trackAll_eq]
  rfl

/-- The step sample and the doors' scans, behind the failure. -/
def State.scanRest (s : State) : State := allDoors.foldl State.scanDoor s.takeStepSample

theorem State.scanRest_frame (s : State) : Frame doorBlocks doorCauses doorRemovals s s.scanRest :=
  List.foldlRecOn (motive := fun u => Frame doorBlocks doorCauses doorRemovals s u) allDoors State.scanDoor
    (s.takeStepSample_frame.mono (by decide) (fun _ h => h) fun _ h => h) fun u f d _ => f.trans (u.scanDoor_frame d)

/-- Behind the rating nothing touches the ratings, the counts or the proof timer. -/
theorem State.failing_frame (s : State) (c : Channel) :
    Frame doorBlocks (.brakeFeedback :: doorCauses) doorRemovals (s.channelFailed c) (s.failChannel c).scanRest :=
  ((s.failChannel_notices c).mono (by decide) (by decide) (by decide)).trans
    ((s.failChannel c).scanRest_frame.mono (by decide) (by decide) (by decide))

theorem State.failing_ratings (s : State) (c : Channel) :
    (s.failChannel c).scanRest.prov.health = s.prov.health.put c .failed
      ∧ (s.failChannel c).scanRest.prov.owed = s.prov.owed.put c (max 1 (s.prov.owed.get c)) := by
  have f := s.failing_frame c
  exact ⟨f.health (by decide), f.owed (by decide)⟩

theorem State.failChannel_has (s : State) (c : Channel) : (s.failChannel c).set.has .brakeFeedback = true := by
  rw [State.failChannel_eq]
  exact (State.noticeIfCapabilityChanged_lawful _ _).frame.has_kept (by decide) (State.raise_has _ _ _ (by decide))

/-- The deviation start is cleared, and no change of demand sets one (R113, R114). -/
theorem State.failing_clears (s : State) (c : Channel) :
    ((s.failChannel c).scanRest.comb.feedback.get c).deviationStart = none := by
  have cleared : ((s.channelFailed c).comb.feedback.get c).deviationStart = none := by
    show ((s.comb.feedback.put c { s.comb.feedback.get c with deviationStart := none }).get c).deviationStart = none
    rw [PerChannel.get_put_same]
  rcases (s.failing_frame c).settling (by decide) c with fresh | ⟨-, kept⟩
  · rw [fresh]
  · rw [kept, cleared]

/-! ### The round that begins -/

/-- A car that may prove has begun its round before the raising, and nothing behind it touches that (R114, R123). -/
theorem State.Quiet.failing_round (h : s.Quiet x) (idle : x.proof = none) (dwell : x.dwell = none) (c : Channel) :
    (s.failChannel c).scanRest.Round (s.failChannel c).scanRest.prov.owed x.tried := by
  have rated : (s.channelFailed c).Quiet (s.channelFailed c).prov := ⟨h.rest, h.spring, h.law, h.calm, rfl⟩
  have same : (s.channelFailed c).prov.proof = x.proof ∧ (s.channelFailed c).prov.dwell = x.dwell
      ∧ (s.channelFailed c).prov.tried = x.tried := h.prov ▸ ⟨rfl, rfl, rfl⟩
  obtain ⟨proof, waits, tried⟩ := same
  have poised := rated.poised (proof.trans idle) (waits.trans dwell)
  have f := s.failing_frame c
  have tested : Frame [] [] [] (s.channelFailed c) (s.channelFailed c).testProof := State.testProof_frame _
  have kept : ∀ y, (s.channelFailed c).testProof.Poised y → (s.failChannel c).scanRest.Poised y := fun y k =>
    (poised_doorNotices y).steps.scanDoors
      ((((k.told _).raise (by decide) _).noticeIfCapabilityChanged _).takeStepSample)
  rw [f.owed (by decide), ← tried]
  exact poised.testProof.stays (poised.1.begins poised.2) kept
    ((f.proofTimer (by decide)).trans (tested.proofTimer (by decide)).symm)

/-- A lawful car that may prove, its samples taken and its deviations tracked. -/
theorem State.scannedTracked_quiet (sound : s.Sound) (may : s.MayProve) (w : ScanWords) : (s.scannedTracked w).Quiet s.prov := by
  obtain ⟨stands, applied, calm, -⟩ := may
  have level : s.set.hasLevel .emergency = false := by simpa [InterventionSet.hasLevel] using calm
  have taken : (s.withScan (s.scan.take w)).Quiet s.prov :=
    ⟨⟨stands, sound.timers.2.1 stands⟩, applied, sound.braked.1.symm.trans applied, level, rfl⟩
  have scanned : (s.scanned w).Quiet s.prov := by
    rw [State.scanned_eq sound]
    exact taken.recombine false
  exact ⟨scanned.rest, scanned.spring, scanned.law, scanned.calm, scanned.prov⟩

/-- Settles O35. -/
theorem feedbackFailsTheChannel : Obligations.FeedbackFailsTheChannel := by
  intro s w c start sound blended strays rated free settled running lasted
  have fails : ∀ x, (s.scanned w).failsCheck x = true ↔ x = c := fun x => by
    have far : s.Strays w x ↔ x = c := by
      rw [← not_iff_not, ← ne_eq, ← strays x, State.Strays, sampleAfter]
      omega
    rw [State.scanned_fails sound blended, far]
    refine ⟨fun ⟨_, same, _⟩ => same, fun same => ⟨?_, same, ?_⟩⟩
    · rw [same]
      exact ⟨rated, free, settled⟩
    · rw [same]
      exact ⟨start, running, lasted⟩
  obtain ⟨-, -, prov⟩ := State.scanned_keeps sound blended w
  obtain ⟨health, owed⟩ := (s.scannedTracked w).failing_ratings c
  have same : (s.scannedTracked w).prov = s.prov := prov
  rw [same] at health owed
  refine ⟨((s.scannedTracked w).failChannel c).scanRest, congrArg Host.Outcome.next (State.scanComplete_failing fails), health, owed,
    (State.scanRest_frame _).has_kept (by decide) (State.failChannel_has _ c), State.failing_clears _ c, fun may => ?_⟩
  obtain ⟨-, -, -, idle⟩ := id may
  have dwell : s.prov.dwell = none := by simpa [idle] using sound.dwell
  exact (State.scannedTracked_quiet sound may w).failing_round idle dwell c

end Sys2Proof.Machine
end

section
/-! PROOFS. The end of a proof period (O36) and PROVE_NOW (O38): both set the counts anew, degrade the channels that then owe too
much, empty the tried list and test for a proof (R117, R118, R123, R130). -/

namespace Sys2Proof.Machine

set_option Elab.async false

variable {free : List Block} {r : List Cause} {s t : State} {x y : Proving} {owed : PerChannel Nat} {timer : Timer}

/-! ### The degrading, rating by rating -/

/-- The degrading keeps what a rating that falls, its record and the evaluations of its notice keep (R117, R122). -/
theorem State.degradeOwing_keeps {P : State → Prop} (rate : ∀ u c, P u → P (u.rate c .degraded))
    (report : ∀ u c, P u → P (u.report (.channelState c .degraded))) (evaluate : ∀ u, P u → P u.evaluate) (h : P s) :
    P s.degradeOwing := by
  refine List.foldlRecOn (motive := P) channels _ h fun u hu c _ => ?_
  have told := report _ c (rate u c hu)
  unfold State.changeHealth State.noticeIfCapabilityChanged State.noticeCapability
  dsimp only
  split
  · split
    · exact told
    · split
      · exact evaluate _ told
      · exact evaluate _ (evaluate _ told)
  · exact hu

theorem State.degradeOwing_ratings (s : State) :
    s.degradeOwing.prov.owed = s.prov.owed
      ∧ ∀ c, s.degradeOwing.prov.health.get c
          = if s.prov.health.get c = .healthy ∧ s.cfg.owedDegrade ≤ s.prov.owed.get c then .degraded
            else s.prov.health.get c := by
  obtain ⟨counts, -, health⟩ := State.degrading_ratings channels s (by decide)
  have listed : ∀ c, c ∈ channels := forall_channels fun _ h => h
  simp only [listed, true_and] at health
  exact ⟨counts, health⟩

/-- The tried list emptied and the proof timer set (R118, R123). -/
def State.untried (s : State) (timer : Timer) : State := s.withProv { s.prov with tried := [], timer := timer }

theorem State.untried_prov (s : State) (timer : Timer) : (s.untried timer).prov = { s.prov with tried := [], timer := timer } := rfl

/-- The counts set anew, the degrading they ask for, the tried list emptied and the proof timer set: the state that the proof timer
and PROVE_NOW test for a proof (R118, R130). -/
def State.reowed (s : State) (owed : PerChannel Nat) (timer : Timer) : State :=
  (s.withProv { s.prov with owed := owed }).degradeOwing.untried timer

/-- All of that keeps a property that the degrading keeps and that reads no more of the Proving Unit than the proof in progress and
its dwell timer. -/
theorem State.reowed_keeps {P : State → Prop}
    (prov : ∀ (u : State) (y : Proving), y.proof = u.prov.proof → y.dwell = u.prov.dwell → P u → P (u.withProv y))
    (rate : ∀ u c, P u → P (u.rate c .degraded))
    (report : ∀ u c, P u → P (u.report (.channelState c .degraded))) (evaluate : ∀ u, P u → P u.evaluate) (h : P s) :
    P (s.reowed owed timer) :=
  have degraded := State.degradeOwing_keeps rate report evaluate (prov s { s.prov with owed := owed } rfl rfl h)
  prov _ _ rfl rfl degraded

/-- The counts are those given, and by them the HEALTHY channels that owe OWED_DEGRADE or more are DEGRADED (R117). -/
theorem State.reowed_ratings (s : State) (owed : PerChannel Nat) (timer : Timer) :
    (s.reowed owed timer).prov.owed = owed
      ∧ ∀ c, (s.reowed owed timer).prov.health.get c
          = if s.prov.health.get c = .healthy ∧ s.cfg.owedDegrade ≤ owed.get c then .degraded else s.prov.health.get c := by
  rw [State.reowed, State.untried_prov]
  exact (s.withProv { s.prov with owed := owed }).degradeOwing_ratings

theorem State.reowed_tried (s : State) (owed : PerChannel Nat) (timer : Timer) : (s.reowed owed timer).prov.tried = [] := by
  rw [State.reowed, State.untried_prov]

theorem State.reowed_timer (s : State) (owed : PerChannel Nat) (timer : Timer) : (s.reowed owed timer).prov.timer = timer := by
  rw [State.reowed, State.untried_prov]

/-- The test for a proof behind them leaves the counts, the ratings and the timer. -/
theorem State.reowedTested_ratings (s : State) (owed : PerChannel Nat) (timer : Timer) :
    (s.reowed owed timer).testProof.prov.owed = owed ∧ (s.reowed owed timer).testProof.prov.timer = timer
      ∧ ∀ c, (s.reowed owed timer).testProof.prov.health.get c
          = if s.prov.health.get c = .healthy ∧ s.cfg.owedDegrade ≤ owed.get c then .degraded else s.prov.health.get c := by
  have f : Frame [] [] [] (s.reowed owed timer) (s.reowed owed timer).testProof := State.testProof_frame _
  obtain ⟨counts, health⟩ := s.reowed_ratings owed timer
  refine ⟨(f.owed (by decide)).trans counts, (f.proofTimer (by decide)).trans (s.reowed_timer owed timer), fun c => ?_⟩
  rw [f.health (by decide), health]

/-! ### A car that stands parked -/

/-- A car that stands with the spring applied and no emergency is quiet (R103). -/
theorem State.Sound.quiet (h : s.Sound) (stands : s.odo.standstill = true) (applied : s.comb.springApplied = true)
    (calm : s.set.hasLevel .emergency = false) : s.Quiet s.prov :=
  ⟨⟨stands, h.timers.2.1 stands⟩, applied, h.braked.1.symm.trans applied, calm, rfl⟩

theorem State.Sound.idle_dwell (h : s.Sound) (idle : s.prov.proof = none) : s.prov.dwell = none := by
  simpa [idle] using h.dwell

/-- The car is quiet with no OVERSPEED_SERVICE, whose removal would test for a proof, and the proof in progress is that of `x`. -/
structure State.Paused (s : State) (x : Proving) : Prop where
  quiet : s.Quiet s.prov
  slow : s.set.has .overspeedService = false
  proof : s.prov.proof = x.proof
  dwell : s.prov.dwell = x.dwell

namespace State.Paused

theorem withProv (h : s.Paused x) (proof : y.proof = s.prov.proof) (dwell : y.dwell = s.prov.dwell) : (s.withProv y).Paused x :=
  ⟨h.quiet.withProv y, h.slow, proof.trans h.proof, dwell.trans h.dwell⟩

theorem rate (h : s.Paused x) (c : Channel) (k : Health) : (s.rate c k).Paused x := ⟨h.quiet.rate c k, h.slow, h.proof, h.dwell⟩

/-- What leaves the Proving Unit as it was. -/
theorem step (h : s.Paused x) (quiet : t.Quiet s.prov) (slow : t.set.has .overspeedService = false) : t.Paused x :=
  ⟨quiet.prov.symm ▸ quiet, slow, quiet.prov ▸ h.proof, quiet.prov ▸ h.dwell⟩

theorem report (h : s.Paused x) (b : ReportBody) : (s.report b).Paused x :=
  h.step (h.quiet.report b) (by rw [State.report_set]; exact h.slow)

theorem evaluate (h : s.Paused x) : s.evaluate.Paused x := by
  have quiet := h.quiet.evaluate h.slow
  exact h.step quiet (State.evaluate_underService (.inr quiet.rest))

theorem reowed (h : s.Paused x) (owed : PerChannel Nat) (timer : Timer) : (s.reowed owed timer).Paused x :=
  State.reowed_keeps (P := (State.Paused · x)) (fun _ _ proof dwell k => k.withProv proof dwell) (fun _ c k => k.rate c _)
    (fun _ _ k => k.report _) (fun _ k => k.evaluate) h

/-- No proof in progress: the round over every channel that owes one begins (R123, R124). -/
theorem reowed_round (h : s.Paused x) (idle : x.proof = none) (dwell : x.dwell = none) (owed : PerChannel Nat) (timer : Timer) :
    (s.reowed owed timer).testProof.Round owed [] := by
  have paused := h.reowed owed timer
  have round := State.testProof_round (paused.quiet.canProve (paused.proof.trans idle)) (paused.dwell.trans dwell)
  rwa [(s.reowed_ratings owed timer).1, s.reowed_tried] at round

/-- A proof in progress runs on (R123). -/
theorem reowed_busy (h : s.Paused x) (busy : x.proof ≠ none) (owed : PerChannel Nat) (timer : Timer) :
    (s.reowed owed timer).testProof.prov.proof = x.proof ∧ (s.reowed owed timer).testProof.prov.dwell = x.dwell
      ∧ (s.reowed owed timer).testProof.prov.tried = [] := by
  have paused := h.reowed owed timer
  rw [paused.quiet.testProof (.inl (paused.proof ▸ busy))]
  exact ⟨paused.proof, paused.dwell, s.reowed_tried owed timer⟩

end State.Paused

theorem State.Sound.paused (h : s.Sound) (stands : s.odo.standstill = true) (applied : s.comb.springApplied = true)
    (calm : s.set.hasLevel .emergency = false) (slow : s.set.has .overspeedService = false) : s.Paused s.prov :=
  ⟨h.quiet stands applied calm, slow, rfl, rfl⟩

/-- A lawful car that is proving a channel goes on with it (R123, R128). -/
theorem State.Sound.reowed_busy (h : s.Sound) (law : s.ProofLaw) (busy : s.prov.proof ≠ none)
    (slow : s.set.has .overspeedService = false) (owed : PerChannel Nat) (timer : Timer) :
    (s.reowed owed timer).testProof.prov.proof = s.prov.proof ∧ (s.reowed owed timer).testProof.prov.dwell = s.prov.dwell
      ∧ (s.reowed owed timer).testProof.prov.tried = [] := by
  obtain ⟨stands, applied, calm⟩ := law (Option.isSome_iff_ne_none.2 busy)
  exact (h.paused stands applied calm slow).reowed_busy busy owed timer

/-! ### A car that may not prove -/

/-- An evaluation of a car at rest does not apply its spring (R71, R103). -/
theorem State.AtRest.evaluate_freed (rest : s.AtRest) (freed : s.Freed) : s.evaluate.Freed := by
  rw [rest.evaluate_aside]
  exact (State.evaluateAside_awaiting (x := s.prov) s).1 freed

theorem State.reowedTested_freed (rest : s.AtRest) (freed : s.Freed) (owed : PerChannel Nat) (timer : Timer) :
    (s.reowed owed timer).testProof.Freed := by
  refine (State.testProof_freed _).2 (State.reowed_keeps (P := fun u => u.AtRest ∧ u.Freed) (fun _ _ _ _ k => k)
    (fun _ _ k => k) (fun u c k => ?_) (fun u k => ?_) ⟨rest, freed⟩).2
  · exact ⟨k.1.of_frame (State.report_frame (r := []) (m := []) u _), (State.report_awaiting (x := u.prov) u _).1 k.2⟩
  · exact ⟨k.1.of_frame u.evaluate_lawful.frame, k.1.evaluate_freed k.2⟩

/-- An emergency outlasts a step that removes no EMERGENCY-level cause. -/
theorem Frame.emergency (f : Frame free r [.overspeedService] s t) (h : s.set.hasLevel .emergency = true)
    (he : Block.entries ∉ free := by decide) : t.set.hasLevel .emergency = true := by
  obtain ⟨e, present, level⟩ := InterventionSet.hasLevel_iff.1 h
  refine InterventionSet.hasLevel_iff.2 ⟨e, f.kept he e present fun service => ?_, level⟩
  rw [List.mem_singleton.1 service] at level
  cases level

/-- A car that moves, has its spring released or is in an emergency is proving no channel after such a step: the law of the proof
(R123, R128) would have it stand parked with no emergency, and the step brings that about for none of the three. -/
theorem Frame.bars (f : Frame free r [.overspeedService] s t) (before : s.Sound) (after : t.Sound) (law : t.ProofLaw)
    (bar : s.odo.standstill = false ∨ s.comb.springApplied = false ∨ s.set.hasLevel .emergency = true)
    (freed : s.AtRest → s.Freed → t.Freed) (ho : Block.odometry ∉ free := by decide) (he : Block.entries ∉ free := by decide) :
    t.prov.proof = none := by
  by_contra busy
  obtain ⟨stands, applied, calm⟩ := law (Option.isSome_iff_ne_none.2 busy)
  have stood : s.odo.standstill = true := (f.standstill ho).symm.trans stands
  rcases bar with moves | released | emergency
  · exact absurd (stood.symm.trans moves) (by decide)
  · have free : t.Freed := freed ⟨stood, before.timers.2.1 stood⟩ (before.braked.1.symm.trans released)
    exact absurd (applied.symm.trans (after.braked.1.trans free)) (by decide)
  · exact absurd (calm.symm.trans (f.emergency emergency he)) (by decide)

/-- A test that begins no proof leaves the tried list. -/
theorem State.testProof_idle_tried : s.testProof.prov.proof = none → s.testProof.prov.tried = s.prov.tried := by
  unfold State.testProof
  split
  · split
    · exact fun _ => rfl
    · exact fun idle => absurd idle (Option.some_ne_none _)
  · exact fun _ => rfl

theorem State.reowedTested_tried (idle : (s.reowed owed timer).testProof.prov.proof = none) :
    (s.reowed owed timer).testProof.prov.tried = [] :=
  (State.testProof_idle_tried idle).trans (s.reowed_tried owed timer)

/-! ### The proof timer -/

/-- What the channels owe after a proof period (R118). -/
def Proving.owesMore (x : Proving) : PerChannel Nat := PerChannel.of fun c => min 15 (x.owed.get c + 1)

/-- The timer as the step that restarts it writes it (R118). -/
theorem State.untried_again (s : State) :
    s.emptyTried.withProv
        { s.emptyTried.prov with timer := some (s.emptyTried.after (s.emptyTried.cfg.proofPeriod * 1000000)) }
      = s.untried (some (s.clock + s.cfg.proofPeriod * 1000000)) := rfl

theorem State.proofExpiry_expires (h : s.prov.timer.Elapsing s.clock (s.cfg.proofPeriod * 1000000)) :
    s.proofExpiry = (s.reowed s.prov.owesMore (some (s.clock + s.cfg.proofPeriod * 1000000))).testProof := by
  have f := (State.degradeOwing_lawful (s.withProv s.prov.allOweMore)).frame
  rw [State.proofExpiry, if_pos h.expires]
  dsimp only
  rw [State.untried_again, f.clock, f.settings (by decide)]
  rfl

theorem Proving.owesMore_get (x : Proving) (c : Channel) : x.owesMore.get c = min 15 (x.owed.get c + 1) := PerChannel.get_of _ c

/-- RB1 is the first channel to owe a proof after a proof period (R124). -/
theorem Proving.owesMore_first (x : Proving) : firstOwing x.owesMore [] = some .rb1 := by
  refine List.find?_cons_of_pos ?_
  have owes : 1 ≤ x.owesMore.get .rb1 := by
    rw [x.owesMore_get]
    omega
  simpa using owes

/-- A car that may prove begins with RB1 (R123, R124), whose drive value RISE sets (R101). -/
theorem State.Paused.begins (h : s.Paused x) (idle : x.proof = none) (dwell : x.dwell = none)
    (sound : (s.reowed s.prov.owesMore timer).testProof.Sound) :
    (s.reowed s.prov.owesMore timer).testProof.prov.proof
        = some { channel := .rb1, step := .rise, sample := (s.reowed s.prov.owesMore timer).testProof.scan.pressure.rb1 }
      ∧ (s.reowed s.prov.owesMore timer).testProof.comb.drive.rb1 = 100
      ∧ (s.reowed s.prov.owesMore timer).testProof.Round s.prov.owesMore [] := by
  have round := h.reowed_round idle dwell s.prov.owesMore timer
  have begun := round
  rw [State.Round, s.prov.owesMore_first] at begun
  obtain ⟨proof, -⟩ := begun
  have calm := (h.reowed s.prov.owesMore timer).quiet.testProof_quiet.calm
  obtain ⟨-, -, -, -, drives, -⟩ := sound.brakes
  have rises := drives .rb1
  rw [proof, calm] at rises
  exact ⟨proof, rises, round⟩

/-- Settles O36. -/
theorem proofPeriodsAddToWhatIsOwed : Obligations.ProofPeriodsAddToWhatIsOwed := by
  intro s
  refine ⟨fun rests => congrArg Host.Outcome.next (if_neg (Bool.eq_false_iff.1 rests.stays)), fun elapses => ?_⟩
  have lawful := s.proofExpiry_lawful
  have made := State.proofExpiry_expires elapses
  rw [made] at lawful
  obtain ⟨owed, timer, health⟩ := s.reowedTested_ratings s.prov.owesMore (some (s.clock + s.cfg.proofPeriod * 1000000))
  refine ⟨_, congrArg Host.Outcome.next made, timer, fun c => ?_, fun c => ?_, fun sound stands applied calm slow idle => ?_,
    fun sound ordered _ slow busy => sound.reowed_busy ordered.proof busy slow _ _, fun sound ordered bar => ?_, lawful.frame⟩
  · rw [owed, Proving.owesMore_get]
  · rw [health, Proving.owesMore_get]
  · have begun := (sound.paused stands applied calm slow).begins idle (sound.idle_dwell idle) (lawful.sound sound)
    rw [lawful.frame.scan (by decide)] at begun
    rwa [owed]
  · have idle := lawful.frame.bars sound (lawful.sound sound) (ordered.step lawful sound).proof bar fun rest freed =>
      State.reowedTested_freed rest freed _ _
    exact ⟨idle, State.reowedTested_tried idle⟩

/-! ### PROVE_NOW -/

/-- What the channels owe after a PROVE_NOW (R130). -/
def Proving.owesOne (x : Proving) : PerChannel Nat := PerChannel.of fun c => atLeastOne (x.owed.get c)

theorem Proving.owesOne_get (x : Proving) (c : Channel) : x.owesOne.get c = max 1 (x.owed.get c) := PerChannel.get_of _ c

theorem State.untried_same (s : State) : s.untried s.prov.timer = s.emptyTried := rfl

/-- PROVE_NOW leaves the proof timer (R130). -/
theorem State.reowed_sameTimer (s : State) (owed : PerChannel Nat) :
    s.reowed owed s.prov.timer = (s.withProv { s.prov with owed := owed }).degradeOwing.emptyTried := by
  have f := (State.degradeOwing_lawful (s.withProv { s.prov with owed := owed })).frame
  have timer : (s.withProv { s.prov with owed := owed }).degradeOwing.prov.timer = s.prov.timer := f.proofTimer (by decide)
  rw [State.reowed, ← timer, State.untried_same]

theorem State.proveNow_eq (s : State) :
    s.proveNow = ((s.reowed s.prov.owesOne s.prov.timer).testProof,
      .done (channels.map (s.reowed s.prov.owesOne s.prov.timer).testProof.prov.channelByte
        ++ [(s.reowed s.prov.owesOne s.prov.timer).testProof.prov.proofByte])) := by
  rw [State.reowed_sameTimer]
  rfl

/-- What the step of PROVE_NOW leaves (R130). -/
structure ProvesNow (s t : State) : Prop where
  owed : ∀ c, t.prov.owed.get c = max 1 (s.prov.owed.get c)
  health : ∀ c, t.prov.health.get c
    = if s.prov.health.get c = .healthy ∧ s.cfg.owedDegrade ≤ max 1 (s.prov.owed.get c) then .degraded else s.prov.health.get c
  round : s.Sound → s.MayProve → s.set.has .overspeedService = false → t.Round t.prov.owed []
  goesOn : s.Sound → s.Ordered → s.set.has .overspeedService = false → ¬s.MayProve →
    t.prov.proof = s.prov.proof ∧ t.prov.dwell = s.prov.dwell ∧ t.prov.tried = []

/-- The conditions of R123 other than an eligible channel. -/
theorem State.mayProve_iff : s.MayProve ↔ s.canProve = true := by
  simp [State.canProve_iff, State.MayProve, InterventionSet.hasLevel]

/-- A car that may not prove and proves no channel goes on with none (R123, R130). -/
theorem Frame.goesOn_idle (f : Frame free r [.overspeedService] s t) (before : s.Sound) (after : t.Sound) (law : t.ProofLaw)
    (may : ¬s.MayProve) (idle : s.prov.proof = none) (freed : s.AtRest → s.Freed → t.Freed)
    (ho : Block.odometry ∉ free := by decide) (he : Block.entries ∉ free := by decide) :
    t.prov.proof = none ∧ t.prov.dwell = none := by
  have bar : s.odo.standstill = false ∨ s.comb.springApplied = false ∨ s.set.hasLevel .emergency = true := by
    by_contra! parked
    obtain ⟨stands, applied, calm⟩ := parked
    exact may (State.mayProve_iff.2 (State.canProve_iff.2
      ⟨by simpa using stands, by simpa using applied, by simpa using calm, idle⟩))
  have barred := f.bars before after law bar freed ho he
  exact ⟨barred, after.idle_dwell barred⟩

theorem State.reowedTested_provesNow (s : State) : ProvesNow s (s.reowed s.prov.owesOne s.prov.timer).testProof := by
  obtain ⟨owed, -, health⟩ := s.reowedTested_ratings s.prov.owesOne s.prov.timer
  refine ⟨fun c => ?_, fun c => ?_, fun sound may slow => ?_, fun sound ordered slow may => ?_⟩
  · rw [owed, Proving.owesOne_get]
  · rw [health, Proving.owesOne_get]
  · obtain ⟨stands, applied, calm, idle⟩ := State.canProve_iff.1 (State.mayProve_iff.1 may)
    rw [owed]
    exact (sound.paused stands applied calm slow).reowed_round idle (sound.idle_dwell idle) _ _
  · by_cases idle : s.prov.proof = none
    · have lawful := s.proveNow_lawful
      rw [State.proveNow_eq] at lawful
      obtain ⟨proof, dwell⟩ := lawful.frame.goesOn_idle sound (lawful.sound sound) (ordered.step lawful sound).proof may idle
        fun rest freed => State.reowedTested_freed rest freed _ _
      exact ⟨proof.trans idle.symm, dwell.trans (sound.idle_dwell idle).symm, State.reowedTested_tried proof⟩
    · exact sound.reowed_busy ordered.proof idle slow _ _

theorem State.heardAt_ordered (sound : s.Sound) (ordered : s.Ordered) (x : RequestLine) : (s.heardAt x).Ordered := by
  have framed := State.withFramer_orderly s (serialOf x) []
  exact (ordered.step framed sound).step (State.heardOn_lawful (r := []) (m := []) _ x) (framed.sound sound)

/-- Settles O38. A request on the crew line leaves what the Proving Unit reads as it was (R182), and the response its port alone. -/
theorem proveNowMakesEveryChannelOwe : Obligations.ProveNowMakesEveryChannelOwe := by
  intro s can
  obtain ⟨p, made, served⟩ := s.request_serves .crew .proveNow [] can rfl rfl (by decide)
  obtain ⟨-, -, -, -, -, -, -, prov, -, -, -, cfg, -⟩ := s.heardAt_keeps .crew
  have step := (s.heardAt .crew).reowedTested_provesNow
  simp only [State.serve, State.proveNow_eq] at made served
  generalize ((s.heardAt .crew).reowed (s.heardAt .crew).prov.owesOne (s.heardAt .crew).prov.timer).testProof = t
    at made served step
  obtain ⟨owed, health, round, goesOn⟩ := step
  rw [prov] at owed goesOn
  rw [prov, cfg] at health
  refine ⟨_, congrArg Host.Outcome.next made, owed, health, fun sound may slow => ?_, fun sound ordered slow may => ?_, served⟩
  · have begun := round (State.heardAt_sound sound .crew) may slow
    exact begun.of_frame (State.withPort_frame (r := []) (m := []) _ .crew p) rfl
  · exact goesOn (State.heardAt_sound sound .crew) (State.heardAt_ordered sound ordered .crew) slow may

end Sys2Proof.Machine
end

section
/-! PROOFS. The limit switches (O43, O45) and the time limits of a door's motion (O46): each is one step of R135, or a change of
level alone. -/

namespace Sys2Proof.Machine

set_option Elab.async false

variable {s : State} {d : Door} {x : DoorState}

/-! ### The hold and the frame of a door's step -/

/-- A door that is neither LOCKED nor ISOLATED has the hold asserted behind its step (R151). -/
theorem State.stepDoor_holds (s : State) (d : Door) (unlocked : x.unlocked = true) : (s.stepDoor d x).doors.hold = true := by
  rw [State.stepDoor_doors]
  refine List.any_eq_true.2 ⟨d, mem_allDoors d, ?_⟩
  show ((s.moveDoor d x).doorAt d).state.unlocked = true
  rw [State.moveDoor_state, unlocked]

/-- At standstill, or for a door known to be shut, a door's step raises nothing of its own (R135). -/
theorem State.stepDoorHead_calm (calm : s.odo.standstill = true ∨ x.ajar = false) :
    s.stepDoorHead d x = (s.moveDoor d x).report (.doorEvent d x ((s.moveDoor d x).doorAt d).closeFailed) := by
  obtain ⟨odo, -⟩ := s.moveDoor_still d x
  refine if_neg ?_
  rw [(State.report_frame (r := []) (m := []) _ _).standstill (by decide), odo]
  rcases calm with stands | shut
  · simp [stands]
  · simp [shut]

theorem State.stepDoor_frame_calm (calm : s.odo.standstill = true ∨ x.ajar = false) :
    Frame doorBlocks overspeeds doorRemovals s (s.stepDoor d x) := by
  rw [State.stepDoor_eq, State.stepDoorHead_calm calm]
  exact ((((s.moveDoor_frame d x).trans
    ((State.report_frame _ _).mono (by decide) (fun _ h => h) fun _ h => h)).trans
    ((State.evaluate_lawful _).frame.mono (by decide) (by decide) (by decide))).trans
    ((State.testDoorRelease_lawful _).frame.mono (by decide) (by decide) (by decide))).trans
    ((State.rehold_frame _).mono (by decide) (by decide) (by decide))

/-- A calm step from rest to rest leaves the motors too. -/
theorem State.stepDoor_frame_still (calm : s.odo.standstill = true ∨ x.ajar = false) (rest : x.moving = false)
    (stood : (s.doorAt d).state.moving = false) : Frame [.doors] overspeeds doorRemovals s (s.stepDoor d x) :=
  ((State.stepDoor_frame_calm calm).mono (by decide) (fun _ h => h) fun _ h => h).withoutMotors
    (s.stepDoor_keepsMotors d x rest stood)

/-! ### The end of an opening -/

theorem State.reachOpen_rests (free : (s.doorAt d).closeOrdered = false) : s.reachOpen d = s.stepDoor d .open :=
  if_neg (by simp [free])

theorem State.reachOpen_closes (ordered : (s.doorAt d).closeOrdered = true) :
    s.reachOpen d = (s.stepDoor d .open).closeDoor d := if_pos ordered

/-- The level of the fully-open switch that makes (R134). -/
def State.openMade (s : State) (d : Door) : State := s.withPins d { (s.doorAt d).pins with openMade := true }

theorem State.openMade_doorAt (s : State) (d : Door) :
    (s.openMade d).doorAt d = { s.doorAt d with pins := { (s.doorAt d).pins with openMade := true } } :=
  s.doorAt_withDoor_same d _

theorem State.openSwitchMakes_eq (free : (s.doorAt d).pins.openMade = false) :
    s.openSwitchMakes d = if (s.doorAt d).state = .opening then (s.openMade d).reachOpen d else s.openMade d :=
  if_neg (by simp [free])

/-- Settles O43. -/
theorem openSwitchesEndTheOpening : Obligations.OpenSwitchesEndTheOpening := by
  intro s d sound free
  have frame := (s.openSwitchMakes_lawful d).frame
  have only : OnlyDoor d s (s.openMade d) := s.withDoor_only d _
  have record := s.openMade_doorAt d
  refine ⟨fun opening unordered => ?_, fun opening ordered gap => ?_, fun other => congrArg Host.Outcome.next ?_⟩
  · have made : s.openSwitchMakes d = (s.openMade d).stepDoor d .open := by
      rw [State.openSwitchMakes_eq free, if_pos opening, State.reachOpen_rests (by rw [record, unordered])]
    refine ⟨_, congrArg Host.Outcome.next made, ?_, ?_, (only.trans ((s.openMade d).stepDoor_only d _)).doors, made ▸ frame⟩
    · rw [State.stepDoor_rest _ d .open rfl, record]
    · exact (s.openMade d).stepDoor_stops d .open rfl (by rw [record, opening]; rfl)
  · have stopped : ((s.openMade d).stepDoor d .open).doorAt d
        = { s.doorAt d with state := .open, motion := none, pins := { (s.doorAt d).pins with openMade := true } } := by
      rw [State.stepDoor_rest _ d .open rfl, record]
    have made : s.openSwitchMakes d = ((s.openMade d).stepDoor d .open).stepDoor d .closing := by
      rw [State.openSwitchMakes_eq free, if_pos opening, State.reachOpen_closes (by rw [record, ordered]),
        State.closeDoor_ajar (by rw [stopped, gap])]
    have only' := only.trans ((s.openMade d).stepDoor_only d .open)
    refine ⟨_, congrArg Host.Outcome.next made, ?_, ?_, (only'.trans (State.stepDoor_only _ d _)).doors, made ▸ frame⟩
    · rw [State.stepDoor_closing, stopped, only'.limit, only'.settings, only'.clock]
      rfl
    · rw [← only'.duty, ← only'.settings]
      exact State.stepDoor_drives (only'.settings ▸ sound.doorDuty) d .close
  · rw [State.openSwitchMakes_eq free, if_neg other]
    rfl

/-! ### The closed-and-locked switch -/

/-- The level of the closed-and-locked switch (R134). -/
def State.withClosed (s : State) (d : Door) (b : Bool) : State := s.withPins d { (s.doorAt d).pins with closedMade := b }

theorem State.withClosed_doorAt (s : State) (d : Door) (b : Bool) :
    (s.withClosed d b).doorAt d = { s.doorAt d with pins := { (s.doorAt d).pins with closedMade := b } } :=
  s.doorAt_withDoor_same d _

/-- The switch that makes shuts a CLOSING, OPEN or FAULT door and is else a change of level alone (R142, R148). -/
theorem State.closedSwitchMakes_eq (gap : (s.doorAt d).pins.closedMade = false) :
    s.closedSwitchMakes d
      = if (s.doorAt d).state ∈ [.closing, .open, .fault] then (s.withClosed d true).landDoor d else s.withClosed d true := by
  refine (if_neg (by simp [gap])).trans ?_
  cases (s.doorAt d).state <;> rfl

/-- The switch that breaks takes a LOCKED or RELEASED door to FAULT and is else a change of level alone (R148). -/
theorem State.closedSwitchBreaks_eq (shut : (s.doorAt d).pins.closedMade = true) :
    s.closedSwitchBreaks d
      = if (s.doorAt d).state ∈ [.locked, .released] then (s.withClosed d false).stepDoor d .fault
        else s.withClosed d false := by
  refine (if_pos shut).trans ?_
  cases (s.doorAt d).state <;> rfl

/-- A door whose leaf is shut out of its closing has its motor taken to 0 (R142). -/
theorem State.landDoor_stops (closing : (s.doorAt d).state = .closing) :
    ((s.landDoor d).drive.motor.get d).pendingDuty = some 0 := by
  have rest : (s.shutState d).moving = false := by
    unfold State.shutState
    split <;> rfl
  refine State.stepDoor_stops _ d _ rest ?_
  rw [State.withCloseOrdered, State.doorAt_withDoor_same, closing]
  rfl

/-- Settles O45. -/
theorem closedSwitchesShutTheDoor : Obligations.ClosedSwitchesShutTheDoor := by
  intro s d
  have only : ∀ b, OnlyDoor d s (s.withClosed d b) := fun b => s.withDoor_only d _
  refine ⟨fun gap ajar => ?_, fun gap other => congrArg Host.Outcome.next ?_, fun shut rest => ?_,
    fun shut other => congrArg Host.Outcome.next ?_⟩
  · have made : s.closedSwitchMakes d = (s.withClosed d true).landDoor d := by
      rw [State.closedSwitchMakes_eq gap, if_pos ajar]
    refine ⟨_, congrArg Host.Outcome.next made, ?_, fun closing => ?_, ((only true).trans (State.landDoor_only _ d)).doors,
      made ▸ (s.closedSwitchMakes_lawful d).frame⟩
    · rw [State.landDoor_at, State.withClosed_doorAt]
      rfl
    · exact State.landDoor_stops (by rw [State.withClosed_doorAt, closing])
  · rw [State.closedSwitchMakes_eq gap, if_neg other]
    rfl
  · have made : s.closedSwitchBreaks d = (s.withClosed d false).stepDoor d .fault := by
      rw [State.closedSwitchBreaks_eq shut, if_pos rest]
    have stood : ((s.withClosed d false).doorAt d).state.moving = false := by
      rw [State.withClosed_doorAt]
      rcases List.mem_pair.1 rest with locked | released
      · rw [locked]; rfl
      · rw [released]; rfl
    have motors : ((s.withClosed d false).stepDoor d .fault).drive.motor = s.drive.motor :=
      State.stepDoor_keepsMotors _ d .fault rfl stood
    refine ⟨_, congrArg Host.Outcome.next made, ?_, fun moving => ?_, State.stepDoor_holds _ d rfl, motors,
      ((only false).trans (State.stepDoor_only _ d _)).doors, ?_⟩
    · rw [State.stepDoor_rest _ d .fault rfl, State.withClosed_doorAt]
    · exact State.stepDoor_raises (s := s.withClosed d false) moving rfl
    · rw [← made] at motors ⊢
      exact ((s.closedSwitchBreaks_lawful d).frame.mono (by decide) (fun _ h => h) fun _ h => h).withoutMotors motors
  · rw [State.closedSwitchBreaks_eq shut, if_neg other]
    rfl

/-! ### The time limits -/

/-- The state whose motion a time limit ends (R140, R142). -/
def limitedState : MotionLimit → DoorState
  | .opening => .opening
  | .closing => .closing

theorem DoorState.timeLimit_iff {l : MotionLimit} : x.timeLimit = some l ↔ x = limitedState l := by
  cases l <;> cases x <;> decide

/-- An expiry of the door's present motion ends its close order and takes it to FAULT; any other does nothing (R140, R142, R147). -/
theorem State.motionExpiry_eq (s : State) (d : Door) (l : MotionLimit) :
    ((s.doorAt d).motion.Elapsing s.clock (motionLength l) → (s.doorAt d).state = limitedState l →
        s.motionExpiry d l = (s.withCloseOrdered d false).stepDoor d .fault)
      ∧ ((s.doorAt d).motion.Resting s.clock (motionLength l) ∨ (s.doorAt d).state ≠ limitedState l → s.motionExpiry d l = s) := by
  refine ⟨fun elapsing moves => if_pos ?_, fun idle => if_neg fun expires => ?_⟩
  · exact Bool.and_eq_true_iff.2 ⟨elapsing.expires, decide_eq_true (DoorState.timeLimit_iff.2 moves)⟩
  · obtain ⟨runs, moves⟩ := Bool.and_eq_true_iff.1 expires
    rcases idle with resting | other
    · exact absurd (runs.symm.trans resting.stays) (by decide)
    · exact other (DoorState.timeLimit_iff.1 (of_decide_eq_true moves))

/-- Settles O46. -/
theorem motionLimitsEndInFault : Obligations.MotionLimitsEndInFault := by
  intro s d l
  obtain ⟨ends, idles⟩ := s.motionExpiry_eq d l
  refine ⟨fun elapsing moves => ?_, fun idle => congrArg Host.Outcome.next (idles (by cases l <;> exact idle))⟩
  have limited : (s.doorAt d).state = limitedState l := by cases l <;> exact moves
  have made := ends (by cases l <;> exact elapsing) limited
  have record : (s.withCloseOrdered d false).doorAt d = { s.doorAt d with closeOrdered := false } := s.doorAt_withDoor_same d _
  have moving : ((s.withCloseOrdered d false).doorAt d).state.moving = true := by
    rw [record, limited]
    cases l <;> rfl
  refine ⟨_, congrArg Host.Outcome.next made, ?_, State.stepDoor_stops _ d .fault rfl moving,
    ((s.withDoor_only d _).trans (State.stepDoor_only _ d _)).doors, State.stepDoor_holds _ d rfl, fun rolls => ?_,
    made ▸ (s.motionExpiry_lawful d l).frame⟩
  · rw [State.stepDoor_rest _ d .fault rfl, record]
  · exact State.stepDoor_raises (s := s.withCloseOrdered d false) rolls rfl

end Sys2Proof.Machine
end

section
/-! PROOFS. DOOR_ISOLATE and DOOR_UNISOLATE (O47), DOOR_RELEASE (O40): steps of R135 from rest to rest at standstill, which raise
nothing and leave the motors. -/

namespace Sys2Proof.Machine

set_option Elab.async false

variable {free : List Block} {r m : List Cause} {s t u : State} {f : List Byte} {d e : Door} {x : PlatformSide}

/-! ### A request on the crew line -/

/-- A request that its line serves, with the frame that its owner's step is known to have (R182, R183). -/
theorem State.request_within {k : RequestKind} {reply : Reply} (can : s.CanTake .crew) (crew : k.servedOn .crew = true)
    (size : f.length = k.size) (n : k ≠ .ackIntervention)
    (served : (s.heardAt .crew).serve .crew s.set.heard k f = (t, reply)) (frame : Frame free r m (s.heardAt .crew) t)
    (nq : Block.opState ∈ Block.crewPort :: free → Block.park ∈ Block.crewPort :: free ∧ Block.cabTimer ∈ Block.crewPort :: free
      := by decide) :
    ∃ p, s.request .crew k f = t.withPort .crew p ∧ Served s (t.withPort .crew p) .crew k.code reply free r m := by
  obtain ⟨p, made, answered, -⟩ := s.request_serves .crew k f can crew size n
  rw [served] at made answered
  exact ⟨p, made, answered, (frame.mono (fun _ h => List.mem_cons_of_mem _ h) (fun _ h => h) fun _ h => h).trans
    ((t.withPort_frame .crew p).mono (by simp) (fun _ h => h) fun _ h => h) nq⟩

/-! ### One door out of service and back -/

theorem State.doorIsolate_taken (code : field f 0 1 = doorCode d) (stands : s.odo.standstill = true)
    (locked : (s.doorAt d).state = .locked) :
    s.doorIsolate f = (s.stepDoor d .isolated, .done (s.stepDoor d .isolated).doorStateBytes) := by
  simp [State.doorIsolate, doorOfCode_eq.2 code, stands, locked]

/-- The state that DOOR_UNISOLATE returns a door to, as its switch reads (R150). -/
def DoorRecord.returned (x : DoorRecord) : DoorState := if x.pins.closedMade then .locked else .fault

/-- A door returned to service, its close order ended (R150). -/
def State.returnDoor (s : State) (d : Door) : State := (s.withCloseOrdered d false).stepDoor d (s.doorAt d).returned

theorem State.doorUnisolate_taken (code : field f 0 1 = doorCode d) (stands : s.odo.standstill = true)
    (isolated : (s.doorAt d).state = .isolated) : s.doorUnisolate f = (s.returnDoor d, .done (s.returnDoor d).doorStateBytes) := by
  simp [State.doorUnisolate, doorOfCode_eq.2 code, stands, isolated, State.returnDoor, DoorRecord.returned]

theorem DoorRecord.returned_rests (x : DoorRecord) : x.returned.moving = false := by
  unfold DoorRecord.returned
  split <;> rfl

/-- Settles O47. -/
theorem doorsAreIsolatedAndReturned : Obligations.DoorsAreIsolatedAndReturned := by
  intro s f d can size code stands
  refine ⟨fun locked => ?_, fun isolated => ?_⟩
  · have stood : ((s.heardAt .crew).doorAt d).state.moving = false := by
      show (s.doorAt d).state.moving = false
      rw [locked]
      rfl
    obtain ⟨p, made, served⟩ := State.request_within (k := .doorIsolate) can rfl size (by decide)
      (State.doorIsolate_taken (s := s.heardAt .crew) code stands locked) (State.stepDoor_frame_still (.inl stands) rfl stood)
    exact ⟨_, congrArg Host.Outcome.next made, State.stepDoor_rest (s.heardAt .crew) d .isolated rfl,
      (State.stepDoor_only (s.heardAt .crew) d _).doors, State.stepDoor_keepsMotors (s.heardAt .crew) d .isolated rfl stood, served⟩
  · have record : ((s.heardAt .crew).withCloseOrdered d false).doorAt d = { s.doorAt d with closeOrdered := false } :=
      State.doorAt_withDoor_same _ d _
    have rest := (s.doorAt d).returned_rests
    have stood : (((s.heardAt .crew).withCloseOrdered d false).doorAt d).state.moving = false := by
      rw [record, isolated]
      rfl
    have frame : Frame [.doors] overspeeds doorRemovals (s.heardAt .crew) ((s.heardAt .crew).returnDoor d) :=
      (State.withDoor_frame _ d _).trans (State.stepDoor_frame_still (.inl stands) rest stood)
    obtain ⟨p, made, served⟩ := State.request_within (k := .doorUnisolate) can rfl size (by decide)
      (State.doorUnisolate_taken (s := s.heardAt .crew) code stands isolated) frame
    refine ⟨_, congrArg Host.Outcome.next made, ?_,
      ((State.withDoor_only (s.heardAt .crew) d _).trans (State.stepDoor_only _ d _)).doors, State.stepDoor_keepsMotors _ d _ rest stood, served⟩
    exact (State.stepDoor_rest _ d _ rest).trans (by rw [record]; rfl)

/-! ### The platform check -/

/-- The platform check of R136 is passed where the statement says so. -/
theorem State.check_of_atPlatform (h : s.AtPlatform x) : s.platformCheck x = true := by
  obtain ⟨covers, id, station⟩ := h
  unfold State.platformCheck
  simp only [Bool.and_eq_true, List.all_eq_true]
  refine ⟨⟨covers, fun g mem => ?_⟩, fun i mem => ?_⟩
  · obtain ⟨p, platform, -, side⟩ := station g mem
    rw [platform]
    simpa [PlatformSide.serves] using side
  · have all : ∀ i ∈ (s.win.overlapping s.carLo s.hi).map fun g => g.platform.map Platform.id, i = some id := fun i listed => by
      obtain ⟨g, inside, rfl⟩ := List.mem_map.1 listed
      obtain ⟨p, platform, same, -⟩ := station g inside
      rw [platform, Option.map_some, same]
    cases ids : (s.win.overlapping s.carLo s.hi).map fun g => g.platform.map Platform.id with
    | nil =>
      rw [ids] at mem
      exact absurd mem List.not_mem_nil
    | cons a rest =>
      rw [ids] at all mem
      rw [all i mem, all a List.mem_cons_self, List.head?_cons, beq_self_eq_true]

/-! ### The release of a side -/

/-- A LOCKED door becomes RELEASED (R137). -/
def State.releaseLocked (s : State) (d : Door) : State := if (s.doorAt d).state = .locked then s.stepDoor d .released else s

theorem State.releaseSide_eq (s : State) (x : PlatformSide) :
    s.releaseSide x = (doorsOf x).foldl State.releaseLocked (s.withDoors (s.doors.setReleased x true)) := rfl

/-- A door's record once its side is released. -/
def DoorRecord.freed (y : DoorRecord) : DoorRecord :=
  if y.state = .locked then { y with state := .released, motion := none } else y

theorem DoorRecord.freed_freed (y : DoorRecord) : y.freed.freed = y.freed := by
  unfold DoorRecord.freed
  split <;> simp_all

theorem State.releaseLocked_only (s : State) (d : Door) : OnlyDoor d s (s.releaseLocked d) := by
  unfold State.releaseLocked
  split
  · exact s.stepDoor_only d _
  · exact .refl s d

theorem State.releaseLocked_doorAt (s : State) (d e : Door) :
    (s.releaseLocked d).doorAt e = if e = d then (s.doorAt d).freed else s.doorAt e := by
  by_cases same : e = d
  · subst same
    unfold State.releaseLocked DoorRecord.freed
    rw [if_pos rfl]
    split
    · exact s.stepDoor_rest e .released rfl
    · rfl
  · rw [if_neg same]
    exact (s.releaseLocked_only d).doors e same

theorem State.releaseLocked_frame (stands : s.odo.standstill = true) (d : Door) :
    Frame [.doors] overspeeds doorRemovals s (s.releaseLocked d) := by
  unfold State.releaseLocked
  split
  · rename_i locked
    exact State.stepDoor_frame_still (.inl stands) rfl (by rw [locked]; rfl)
  · exact .refl

/-- The side's doors step one after the other, at standstill: neither a motor nor a released side changes. -/
theorem State.releaseSide_frame (stands : s.odo.standstill = true) (x : PlatformSide) :
    Frame [.doors] overspeeds doorRemovals s (s.releaseSide x) :=
  List.foldlRecOn (motive := Frame [.doors] overspeeds doorRemovals s) _ _ (Frame.withDoors _) fun u frame d _ =>
    frame.trans (State.releaseLocked_frame ((frame.standstill (by decide)).trans stands) d)

/-- The released sides once a side has joined them, and once one or both are taken out (R137, R141). -/
theorem DoorController.setReleased_true (c : DoorController) (single : x ≠ .both) :
    (c.setReleased x true).releasedLeft = (c.releasedLeft || x == .left)
      ∧ (c.setReleased x true).releasedRight = (c.releasedRight || x == .right) := by
  cases x with
  | both => exact absurd rfl single
  | left => exact ⟨(Bool.or_true _).symm, (Bool.or_false _).symm⟩
  | right => exact ⟨(Bool.or_false _).symm, (Bool.or_true _).symm⟩

theorem DoorController.setReleased_false (c : DoorController) (x : PlatformSide) :
    (c.setReleased x false).releasedLeft = (c.releasedLeft && x == .right)
      ∧ (c.setReleased x false).releasedRight = (c.releasedRight && x == .left) := by
  cases x with
  | both => exact ⟨(Bool.and_false _).symm, (Bool.and_false _).symm⟩
  | left => exact ⟨(Bool.and_false _).symm, (Bool.and_true _).symm⟩
  | right => exact ⟨(Bool.and_true _).symm, (Bool.and_false _).symm⟩

/-- A fold of steps of single doors leaves the released sides. -/
theorem foldl_sides {step : State → Door → State} (only : ∀ s d, OnlyDoor d s (step s d)) (l : List Door) (s : State) :
    (l.foldl step s).doors.releasedLeft = s.doors.releasedLeft ∧ (l.foldl step s).doors.releasedRight = s.doors.releasedRight :=
  List.foldlRecOn (motive := fun u => u.doors.releasedLeft = s.doors.releasedLeft ∧ u.doors.releasedRight = s.doors.releasedRight)
    l step ⟨rfl, rfl⟩ fun u ⟨left, right⟩ d _ => ⟨(only u d).left.trans left, (only u d).right.trans right⟩

theorem State.releaseSide_doorAt (s : State) (x : PlatformSide) (d : Door) :
    (s.releaseSide x).doorAt d = if d ∈ doorsOf x then (s.doorAt d).freed else s.doorAt d := by
  have same : (s.withDoors (s.doors.setReleased x true)).doorAt d = s.doorAt d := by cases x <;> rfl
  rw [State.releaseSide_eq, foldl_doorAt State.releaseLocked_doorAt DoorRecord.freed_freed, same]

/-- The doors of a side, as the statements name them. -/
theorem mem_doorsOf (d : Door) (x : PlatformSide) : d ∈ doorsOf x ↔ x = .both ∨ (isLeft d = true ↔ x = .left) := by
  cases x <;> cases d <;> decide

theorem State.doorRelease_taken (single : x ≠ .both) (code : field f 0 1 = x.code) (located : s.odo.located = true)
    (stands : s.odo.standstill = true) (platform : s.AtPlatform x) :
    s.doorRelease f = (s.releaseSide x, .done ((s.releaseSide x).doors.releasedByte :: (s.releaseSide x).doorStateBytes)) := by
  have passed := State.check_of_atPlatform platform
  unfold State.doorRelease
  rw [sideOfCode_eq.2 code]
  cases x with
  | both => exact absurd rfl single
  | left => simp [located, stands, passed]
  | right => simp [located, stands, passed]

/-- Settles O40. -/
theorem doorReleaseReleasesTheSide : Obligations.DoorReleaseReleasesTheSide := by
  intro s f x can size code single located stands platform
  have frame := State.releaseSide_frame (s := s.heardAt .crew) stands x
  obtain ⟨p, made, served⟩ := State.request_within (k := .doorRelease) can rfl size (by decide)
    (State.doorRelease_taken (s := s.heardAt .crew) single code located stands platform) frame
  obtain ⟨left, right⟩ := foldl_sides State.releaseLocked_only (doorsOf x)
    ((s.heardAt .crew).withDoors ((s.heardAt .crew).doors.setReleased x true))
  have doors := (s.heardAt .crew).releaseSide_doorAt x
  have side : ∀ d, d ∈ doorsOf x ↔ (isLeft d = true ↔ x = .left) := fun d => by simp [mem_doorsOf, single]
  refine ⟨_, congrArg Host.Outcome.next made, left.trans ?_, right.trans ?_, fun d own locked => (doors d).trans ?_,
    fun d other => (doors d).trans ?_, frame.motors (by decide), served⟩
  · exact (s.doors.setReleased_true single).1
  · exact (s.doors.setReleased_true single).2
  · rw [if_pos ((side d).2 own)]
    exact if_pos locked
  · split
    · rename_i mem
      exact if_neg fun locked => other ⟨(side d).1 mem, locked⟩
    · rfl

end Sys2Proof.Machine
end

section
/-! PROOFS. DOOR_OPEN_RELEASED (O42) and DOOR_CLOSE (O44): the doors take their steps one after the other, and the step of one leaves
what the others start from (`LeavesDoor`). -/

namespace Sys2Proof.Machine

set_option Elab.async false

variable {s t u : State} {f : List Byte} {d e : Door} {x : PlatformSide} {step : State → Door → State}

/-! ### One door among the others -/

/-- The state of a shut leaf reads the released sides alone (R142). -/
theorem State.shutState_congr (left : t.doors.releasedLeft = s.doors.releasedLeft) (right : t.doors.releasedRight = s.doors.releasedRight)
    (d : Door) : t.shutState d = s.shutState d := by
  rw [State.shutState, DoorController.isReleased, left, right, ← DoorController.isReleased, ← State.shutState]

theorem OnlyDoor.shutState (f : OnlyDoor e s t) (d : Door) : t.shutState d = s.shutState d := State.shutState_congr f.left f.right d

/-- A door's record and motor are as they were, and so is all that its own step reads (R135, R142, R143, R144). -/
structure LeavesDoor (d : Door) (s t : State) : Prop where
  record : t.doorAt d = s.doorAt d
  motor : t.drive.motor.get d = s.drive.motor.get d
  left : t.doors.releasedLeft = s.doors.releasedLeft
  right : t.doors.releasedRight = s.doors.releasedRight
  clock : t.clock = s.clock
  slope : t.slopeAt d = s.slopeAt d
  settings : t.cfg = s.cfg

namespace LeavesDoor

theorem refl (d : Door) (s : State) : LeavesDoor d s s := ⟨rfl, rfl, rfl, rfl, rfl, rfl, rfl⟩

theorem trans (f : LeavesDoor d s t) (g : LeavesDoor d t u) : LeavesDoor d s u where
  record := g.record.trans f.record
  motor := g.motor.trans f.motor
  left := g.left.trans f.left
  right := g.right.trans f.right
  clock := g.clock.trans f.clock
  slope := g.slope.trans f.slope
  settings := g.settings.trans f.settings

theorem duty (f : LeavesDoor d s t) (v : Vertical) : t.dutyOnSlope d v = s.dutyOnSlope d v := by
  rw [State.dutyOnSlope, f.slope, f.settings, ← State.dutyOnSlope]

theorem limit (f : LeavesDoor d s t) (v : Vertical) : t.limitOnSlope d v = s.limitOnSlope d v := by
  rw [State.limitOnSlope, f.slope, f.settings, ← State.limitOnSlope]

theorem drives (f : LeavesDoor d s t) {n : Nat} {y : Sense} (h : s.Drives d n y) : t.Drives d n y := by
  rw [State.Drives, f.motor]
  exact h

theorem shutState (f : LeavesDoor d s t) : t.shutState d = s.shutState d := State.shutState_congr f.left f.right d

end LeavesDoor

/-- The step of one door leaves the others. -/
theorem OnlyDoor.leaves (f : OnlyDoor e s t) (other : d ≠ e) : LeavesDoor d s t :=
  ⟨f.doors d other, f.motors d other, f.left, f.right, f.clock, f.slope d, f.settings⟩

theorem foldl_leaves (only : ∀ s d, OnlyDoor d s (step s d)) {l : List Door} (apart : d ∉ l) (s : State) :
    LeavesDoor d s (l.foldl step s) :=
  List.foldlRecOn (motive := LeavesDoor d s) l step (.refl d s) fun u left e mem =>
    left.trans ((only u e).leaves fun same => apart (same ▸ mem))

/-- Among the steps of single doors a door's own step starts from what it was, and the later ones leave what that step makes. -/
theorem foldl_reaches (only : ∀ s d, OnlyDoor d s (step s d)) {l : List Door} (once : l.Nodup) (mem : d ∈ l) (s : State) :
    ∃ before : List Door, LeavesDoor d s (before.foldl step s) ∧ LeavesDoor d (step (before.foldl step s) d) (l.foldl step s) := by
  obtain ⟨before, behind, rfl⟩ := List.append_of_mem mem
  obtain ⟨apart, -⟩ := List.nodup_cons.1 (List.nodup_middle.1 once)
  obtain ⟨early, late⟩ := not_or.1 (mt List.mem_append.2 apart)
  refine ⟨before, foldl_leaves only early s, ?_⟩
  rw [List.foldl_append, List.foldl_cons]
  exact foldl_leaves only late _

/-- A request on the crew line leaves the doors until its owner's step (R182), and the response its port alone. -/
theorem State.heardAt_leaves (s : State) (d : Door) : LeavesDoor d s (s.heardAt .crew) := ⟨rfl, rfl, rfl, rfl, rfl, rfl, rfl⟩

theorem State.withPort_leaves (s : State) (d : Door) (p : Port) : LeavesDoor d s (s.withPort .crew p) :=
  ⟨rfl, rfl, rfl, rfl, rfl, rfl, rfl⟩

/-! ### The closing and the opening of one door -/

/-- A closing with the leaf still ajar: the record, and the drive on the slope (R142, R144). -/
theorem State.closeDoor_starts (duty : 1 ≤ s.cfg.doorDuty) (gap : (s.doorAt d).pins.closedMade = false) :
    (s.closeDoor d).doorAt d
        = { s.doorAt d with
            state := .closing, motion := some (s.clock + 8000000), obstruction := none
            limit := s.limitOnSlope d (s.cfg.openDir.get d).opposite }
      ∧ (s.closeDoor d).Drives d (s.dutyOnSlope d (s.cfg.openDir.get d).opposite) .close := by
  rw [State.closeDoor_ajar gap]
  exact ⟨s.stepDoor_closing d, State.stepDoor_drives duty d .close⟩

/-- A closing of a leaf that is shut already ends at once (R142). -/
theorem State.closeDoor_lands (shut : (s.doorAt d).pins.closedMade = true) :
    ((s.closeDoor d).doorAt d).state = s.shutState d ∧ ((s.closeDoor d).doorAt d).motion = none
      ∧ ((s.closeDoor d).doorAt d).closeOrdered = false ∧ ((s.closeDoor d).drive.motor.get d).pendingDuty = some 0 := by
  rw [State.closeDoor_shut shut, State.landDoor_at, (s.stepDoor_only d .closing).shutState]
  exact ⟨rfl, rfl, rfl, State.landDoor_stops (by rw [State.stepDoor_closing])⟩

/-- An opening whose switch reads made reaches the stop at once (R140). -/
theorem State.openDoor_atStop (stop : (s.doorAt d).pins.openMade = true) :
    ((s.doorAt d).closeOrdered = false → s.openDoor d = (s.stepDoor d .opening).stepDoor d .open)
      ∧ ((s.doorAt d).closeOrdered = true → s.openDoor d = ((s.stepDoor d .opening).stepDoor d .open).closeDoor d) := by
  rw [State.openDoor_long stop]
  exact ⟨fun free => State.reachOpen_rests (by rw [State.stepDoor_opening, free]),
    fun ordered => State.reachOpen_closes (by rw [State.stepDoor_opening, ordered])⟩

/-! ### DOOR_OPEN_RELEASED -/

/-- What the step of one door of DOOR_OPEN_RELEASED does (R139). -/
def State.openIfReleased (s : State) (d : Door) : State := if (s.doorAt d).state = .released then s.openDoor d else s

/-- The doors after DOOR_OPEN_RELEASED (R139). -/
def State.openSides (s : State) : State := allDoors.foldl State.openIfReleased s

theorem State.openReleased_eq (s : State) : s.openReleased = (s.openSides, .done s.openSides.doorStateBytes) := rfl

theorem State.openIfReleased_only (s : State) (d : Door) : OnlyDoor d s (s.openIfReleased d) := by
  unfold State.openIfReleased
  split
  · exact s.openDoor_only d
  · exact .refl s d

/-- What DOOR_OPEN_RELEASED makes of a RELEASED door, row by row of the statement (R139, R140, R142). -/
structure OpensDoor (d : Door) (s t : State) : Prop where
  short : (s.doorAt d).pins.openMade = false →
    (t.doorAt d).state = .opening ∧ (t.doorAt d).motion = some (s.clock + 6000000)
      ∧ t.Drives d (s.dutyOnSlope d (s.cfg.openDir.get d)) .open
  stop : (s.doorAt d).pins.openMade = true → (s.doorAt d).closeOrdered = false →
    (t.doorAt d).state = .open ∧ (t.doorAt d).motion = none
  closes : (s.doorAt d).pins.openMade = true → (s.doorAt d).closeOrdered = true → (s.doorAt d).pins.closedMade = false →
    (t.doorAt d).state = .closing ∧ (t.doorAt d).motion = some (s.clock + 8000000) ∧ (t.doorAt d).closeOrdered = true
      ∧ t.Drives d (s.dutyOnSlope d (s.cfg.openDir.get d).opposite) .close
  lands : (s.doorAt d).pins.openMade = true → (s.doorAt d).closeOrdered = true → (s.doorAt d).pins.closedMade = true →
    (t.doorAt d).state = s.shutState d ∧ (t.doorAt d).motion = none ∧ (t.doorAt d).closeOrdered = false
      ∧ (t.drive.motor.get d).pendingDuty = some 0

theorem State.openDoor_opens (duty : 1 ≤ s.cfg.doorDuty) (d : Door) : OpensDoor d s (s.openDoor d) := by
  have only : OnlyDoor d s ((s.stepDoor d .opening).stepDoor d .open) := (s.stepDoor_only d _).trans (State.stepDoor_only _ d _)
  have record : ((s.stepDoor d .opening).stepDoor d .open).doorAt d
      = { s.doorAt d with state := .open, motion := none, limit := s.limitOnSlope d (s.cfg.openDir.get d) } := by
    rw [State.stepDoor_rest _ d .open rfl, State.stepDoor_opening]
  refine ⟨fun short => ?_, fun stop free => ?_, fun stop ordered gap => ?_, fun stop ordered shut => ?_⟩
  · rw [State.openDoor_short short]
    exact ⟨by rw [State.stepDoor_opening], by rw [State.stepDoor_opening]; rfl, State.stepDoor_drives duty d .open⟩
  · rw [(State.openDoor_atStop stop).1 free, record]
    exact ⟨rfl, rfl⟩
  · obtain ⟨closing, drives⟩ := State.closeDoor_starts (only.settings ▸ duty) (by rw [record, gap])
    rw [only.duty, only.settings] at drives
    rw [(State.openDoor_atStop stop).2 ordered, closing, record, only.clock]
    exact ⟨rfl, rfl, ordered, drives⟩
  · have lands := State.closeDoor_lands (s := (s.stepDoor d .opening).stepDoor d .open) (d := d) (by rw [record, shut])
    rwa [only.shutState, ← (State.openDoor_atStop stop).2 ordered] at lands

/-- The other doors' steps leave what a door's own makes of it. -/
theorem OpensDoor.among {v : State} (before : LeavesDoor d s t) (own : OpensDoor d t u) (behind : LeavesDoor d u v) :
    OpensDoor d s v := by
  obtain ⟨short, stop, closes, lands⟩ := own
  rw [before.record] at short stop closes lands
  rw [before.clock, before.duty, before.settings] at short closes
  rw [before.shutState] at lands
  rw [← behind.record] at short stop closes lands
  rw [← behind.motor] at lands
  refine ⟨fun a => ?_, stop, fun a b c => ?_, lands⟩
  · obtain ⟨state, motion, drives⟩ := short a
    exact ⟨state, motion, behind.drives drives⟩
  · obtain ⟨state, motion, ordered, drives⟩ := closes a b c
    exact ⟨state, motion, ordered, behind.drives drives⟩

/-- The request as a whole: each RELEASED door is opened, every other left (R139). -/
theorem State.openSides_doors (duty : 1 ≤ s.cfg.doorDuty) (d : Door) :
    ((s.doorAt d).state = .released → OpensDoor d s s.openSides)
      ∧ ((s.doorAt d).state ≠ .released → LeavesDoor d s s.openSides) := by
  obtain ⟨l, before, behind⟩ := foldl_reaches State.openIfReleased_only (l := allDoors) (by decide) (mem_allDoors d) s
  rw [State.openSides]
  generalize l.foldl State.openIfReleased s = u at before behind
  refine ⟨fun released => ?_, fun other => ?_⟩
  · have own : u.openIfReleased d = u.openDoor d := if_pos (by rw [before.record, released])
    rw [own] at behind
    exact .among before (State.openDoor_opens (before.settings ▸ duty) d) behind
  · have own : u.openIfReleased d = u := if_neg (by rw [before.record]; exact other)
    rw [own] at behind
    exact before.trans behind

/-- Settles O42. -/
theorem openReleasedOpensEveryReleasedDoor : Obligations.OpenReleasedOpensEveryReleasedDoor := by
  intro s sound can
  obtain ⟨p, made, served⟩ := s.request_serves .crew .doorOpenReleased [] can rfl rfl (by decide)
  have doors := State.openSides_doors (s := s.heardAt .crew) sound.doorDuty
  simp only [State.serve, State.openReleased_eq] at made served
  generalize (s.heardAt .crew).openSides = t at made served doors
  have opens : ∀ d, (s.doorAt d).state = .released → OpensDoor d s (t.withPort .crew p) := fun d released =>
    .among (s.heardAt_leaves d) ((doors d).1 released) (t.withPort_leaves d p)
  exact ⟨_, congrArg Host.Outcome.next made, fun d released => (opens d released).short, fun d released => (opens d released).stop,
    fun d released stop ordered => ⟨(opens d released).closes stop ordered, (opens d released).lands stop ordered⟩,
    fun d other => ((doors d).2 other).record, served⟩

/-! ### DOOR_CLOSE -/

/-- What DOOR_CLOSE makes of a door of the sides named, row by row of the statement (R141), `shut` the state of a leaf
that is shut already. -/
structure OrdersDoor (d : Door) (shut : DoorState) (s t : State) : Prop where
  locks : (s.doorAt d).state = .released → t.doorAt d = { s.doorAt d with state := .locked, motion := none }
  closes : (s.doorAt d).state ∈ [.opening, .open, .fault] → (s.doorAt d).pins.closedMade = false →
    t.doorAt d =
        { s.doorAt d with
          state := .closing, motion := some (s.clock + 8000000), obstruction := none, reopen := 0
          closeFailed := false, closeOrdered := true, limit := s.limitOnSlope d (s.cfg.openDir.get d).opposite }
      ∧ t.Drives d (s.dutyOnSlope d (s.cfg.openDir.get d).opposite) .close
  lands : (s.doorAt d).state ∈ [.opening, .open, .fault] → (s.doorAt d).pins.closedMade = true →
    (t.doorAt d).state = shut ∧ (t.doorAt d).closeOrdered = false ∧ (t.doorAt d).motion = none
  restarts : (s.doorAt d).state = .closing →
    t.doorAt d =
      { s.doorAt d with
        motion := some (s.clock + 8000000), obstruction := none, reopen := 0, closeFailed := false, closeOrdered := true }
  stays : (s.doorAt d).state ∈ [.locked, .isolated] → t.doorAt d = s.doorAt d

/-- A door that is not shut is closed afresh under its new order (R141). -/
theorem State.orderClose_afresh (ajar : (s.doorAt d).state ∈ [.opening, .open, .fault]) :
    s.orderClose d = (s.withDoor d (s.doorAt d).ordered).closeDoor d := by
  unfold State.orderClose
  dsimp only
  cases state : (s.doorAt d).state <;> simp [state] at ajar ⊢

theorem State.orderClose_orders (duty : 1 ≤ s.cfg.doorDuty) (d : Door) : OrdersDoor d (s.shutState d) s (s.orderClose d) := by
  have record := s.doorAt_withDoor_same d (s.doorAt d).ordered
  have only := s.withDoor_only d (s.doorAt d).ordered
  refine ⟨fun released => ?_, fun ajar gap => ?_, fun ajar shut => ?_, fun closing => ?_, fun rest => ?_⟩
  · rw [State.orderClose, released]
    exact s.stepDoor_rest d .locked rfl
  · rw [State.orderClose_afresh ajar, ← only.duty, ← only.limit, ← only.settings]
    obtain ⟨closing, drives⟩ :=
      State.closeDoor_starts (s := s.withDoor d (s.doorAt d).ordered) (d := d) duty (by rw [record]; exact gap)
    exact ⟨closing.trans (by rw [record]; rfl), drives⟩
  · obtain ⟨state, motion, ordered, -⟩ :=
      State.closeDoor_lands (s := s.withDoor d (s.doorAt d).ordered) (d := d) (by rw [record]; exact shut)
    rw [State.orderClose_afresh ajar]
    exact ⟨state, ordered, motion⟩
  · rw [State.orderClose, closing]
    exact s.doorAt_withDoor_same d _
  · rcases List.mem_pair.1 rest with locked | isolated
    · rw [State.orderClose, locked]
    · rw [State.orderClose, isolated]

/-- The other doors' steps leave what a door's own makes of it. -/
theorem OrdersDoor.among {v : State} {y : DoorState} (before : LeavesDoor d s t) (own : OrdersDoor d y t u)
    (behind : LeavesDoor d u v) : OrdersDoor d y s v := by
  obtain ⟨locks, closes, lands, restarts, stays⟩ := own
  rw [before.record] at locks closes lands restarts stays
  rw [before.clock, before.duty, before.limit, before.settings] at closes
  rw [before.clock] at restarts
  rw [← behind.record] at locks closes lands restarts stays
  exact ⟨locks, fun ajar gap => (closes ajar gap).imp_right behind.drives, lands, restarts, stays⟩

/-- A leaf of the sides named that is shut is LOCKED: its side is no longer released (R141, R142). -/
theorem State.withdrawn_shutState (s : State) {x : PlatformSide} (own : d ∈ doorsOf x) :
    (s.withDoors (s.doors.setReleased x false)).shutState d = .locked := by
  obtain ⟨left, right⟩ := s.doors.setReleased_false x
  refine if_neg ?_
  rw [State.withDoors_doors, DoorController.isReleased, left, right]
  rcases (mem_doorsOf d x).1 own with rfl | side
  · simp
  · by_cases onLeft : isLeft d = true
    · simp [onLeft, side.1 onLeft]
    · simp [onLeft, mt side.2 onLeft]

/-- The withdrawal of a side leaves what the doors' steps start from, but for the state that a shut leaf comes to. -/
theorem OrdersDoor.withdrawn {y : DoorState} (h : OrdersDoor d y (s.withDoors (s.doors.setReleased x false)) t) : OrdersDoor d y s t := by
  obtain ⟨locks, closes, lands, restarts, stays⟩ := h
  cases x <;> exact ⟨locks, closes, lands, restarts, stays⟩

/-- The sides named are withdrawn and their doors closed (R141). -/
def State.closeSides (s : State) (x : PlatformSide) : State :=
  (doorsOf x).foldl State.orderClose (s.withDoors (s.doors.setReleased x false))

theorem State.doorClose_taken (code : field f 0 1 = x.code) :
    s.doorClose f = (s.closeSides x, .done ((s.closeSides x).doors.releasedByte :: (s.closeSides x).doorStateBytes)) := by
  rw [State.doorClose, sideOfCode_eq.2 code]
  rfl

theorem State.closeSides_sides (s : State) (x : PlatformSide) :
    (s.closeSides x).doors.releasedLeft = (s.doors.releasedLeft && x == .right)
      ∧ (s.closeSides x).doors.releasedRight = (s.doors.releasedRight && x == .left) := by
  obtain ⟨left, right⟩ := foldl_sides State.orderClose_only (doorsOf x) (s.withDoors (s.doors.setReleased x false))
  exact ⟨left.trans (s.doors.setReleased_false x).1, right.trans (s.doors.setReleased_false x).2⟩

/-- The request as a whole: each door of the sides named takes its order, every other stays (R141). -/
theorem State.closeSides_doors (duty : 1 ≤ s.cfg.doorDuty) (x : PlatformSide) (d : Door) :
    (d ∈ doorsOf x → OrdersDoor d .locked s (s.closeSides x)) ∧ (d ∉ doorsOf x → (s.closeSides x).doorAt d = s.doorAt d) := by
  rw [State.closeSides]
  refine ⟨fun own => ?_, fun other => ?_⟩
  · have once : (doorsOf x).Nodup := by cases x <;> decide
    have shut := s.withdrawn_shutState own
    obtain ⟨l, before, behind⟩ := foldl_reaches State.orderClose_only once own (s.withDoors (s.doors.setReleased x false))
    have orders := State.orderClose_orders (before.settings ▸ duty) d
    rw [before.shutState, shut] at orders
    exact (OrdersDoor.among before orders behind).withdrawn
  · refine (foldl_leaves State.orderClose_only other _).record.trans ?_
    cases x <;> rfl

/-- Settles O44. -/
theorem doorCloseOrdersTheSide : Obligations.DoorCloseOrdersTheSide := by
  intro s f x sound can size code
  obtain ⟨p, made, served⟩ := s.request_serves .crew .doorClose f can rfl size (by decide)
  have doors := State.closeSides_doors (s := s.heardAt .crew) sound.doorDuty x
  obtain ⟨left, right⟩ := (s.heardAt .crew).closeSides_sides x
  simp only [State.serve, State.doorClose_taken code] at made served
  generalize (s.heardAt .crew).closeSides x = t at made served doors left right
  have orders : ∀ d, x = .both ∨ (isLeft d = true ↔ x = .left) → OrdersDoor d .locked s (t.withPort .crew p) := fun d own =>
    .among (s.heardAt_leaves d) ((doors d).1 ((mem_doorsOf d x).2 own)) (t.withPort_leaves d p)
  refine ⟨_, congrArg Host.Outcome.next made, left, right, fun d own => ?_,
    fun d other => (doors d).2 (mt (mem_doorsOf d x).1 other), served⟩
  obtain ⟨locks, closes, lands, restarts, stays⟩ := orders d own
  exact ⟨locks, closes, lands, restarts, stays⟩

end Sys2Proof.Machine
end

section
/-! PROOFS. An obstructed door (O48): the brakes' part of a scan leaves what the door's reads, the doors scanned before and behind it
leave the door, and its own scan reopens it or stops it at the third obstruction (R145, R146). -/

namespace Sys2Proof.Machine

set_option Elab.async false

variable {free : List Block} {r m : List Cause} {s t u : State} {w : ScanWords} {c : Channel} {d : Door} {start : Nat}

/-! ### The brakes' part of a scan -/

/-- A step whose frame lists none of these blocks leaves the doors. -/
theorem Frame.leaves (f : Frame free r m s t) (d : Door) (doors : Block.doors ∉ free := by decide)
    (motors : Block.motors ∉ free := by decide) (odometry : Block.odometry ∉ free := by decide)
    (window : Block.window ∉ free := by decide) (settings : Block.settings ∉ free := by decide) : LeavesDoor d s t := by
  have same := f.doors doors
  have position : t.odo.p = s.odo.p := by rw [f.odometry odometry]
  have only : OnlyDoor d s t :=
    ⟨fun e _ => by rw [State.doorAt, same, ← State.doorAt], fun e _ => by rw [f.motors motors], by rw [same], by rw [same], f.clock,
      position, f.window window, f.settings settings⟩
  exact ⟨by rw [State.doorAt, same, ← State.doorAt], by rw [f.motors motors], only.left, only.right, only.clock, only.slope d,
    only.settings⟩

/-- Recomputed barred flags leave the gradient at a door (R34, R143). -/
theorem State.rebar_slopeAt (s : State) (d : Door) : s.rebar.slopeAt d = s.slopeAt d := by
  have found : ∀ (l : List Segment) (x : Int) (cap : PerKind Nat),
      ((l.map fun g => g.withBarring cap).find? fun g => g.contains x).map Segment.gradient
        = (l.find? fun g => g.contains x).map Segment.gradient := fun l x cap => by
    rw [List.find?_map, Option.map_map]
    rfl
  exact congrArg (Option.getD · 0) (found _ _ _)

/-- The failure of a channel leaves the doors: of the window it recomputes the barred flags alone (R34, R114). -/
theorem State.failChannel_leaves (s : State) (c : Channel) (d : Door) : LeavesDoor d s (s.failChannel c) := by
  have slope : (s.channelFailed c).slopeAt d = s.slopeAt d := State.rebar_slopeAt _ d
  have rated : LeavesDoor d s (s.channelFailed c) := ⟨rfl, rfl, rfl, rfl, rfl, slope, rfl⟩
  exact rated.trans ((s.failChannel_notices c).leaves d)

/-- The scan up to the doors leaves them, and has the samples taken (R110). -/
theorem State.scanChecked_leaves (s : State) (w : ScanWords) (d : Door) :
    LeavesDoor d s (s.scanChecked w) ∧ (s.scanChecked w).scan = s.scan.take w := by
  have sample := State.takeStepSample_frame (r := []) (m := []) (s.scanned w).checkFeedback
  have taken : LeavesDoor d s (s.withScan (s.scan.take w)) := ⟨rfl, rfl, rfl, rfl, rfl, rfl, rfl⟩
  have scanned := taken.trans ((State.recompute_lawful (s.withScan (s.scan.take w))).frame.leaves d)
  obtain ⟨leaves, scan⟩ := State.checkFeedback_keeps (P := fun u => LeavesDoor d s u ∧ u.scan = s.scan.take w)
    (fun u c ⟨leaves, scan⟩ => by
      rw [State.trackDeviation_eq]
      exact ⟨leaves.trans ((State.withFeedback_frame (r := []) (m := []) u _).leaves d), scan⟩)
    (fun u c ⟨leaves, scan⟩ => ⟨leaves.trans (u.failChannel_leaves c d), ((u.failChannel_frame c).scan (by decide)).trans scan⟩)
    ⟨scanned, s.scanned_scan w⟩
  exact ⟨leaves.trans (sample.leaves d), (sample.scan (by decide)).trans scan⟩

/-! ### The doors' part -/

theorem State.obstructed_only (s : State) (d : Door) : OnlyDoor d s (s.obstructed d) := by
  unfold State.obstructed
  dsimp only
  split
  · exact (s.withDoor_only d _).trans (State.openDoor_only _ d)
  · exact (s.withDoor_only d _).trans (State.stepDoor_only _ d _)

theorem State.scanDoor_only (s : State) (d : Door) : OnlyDoor d s (s.scanDoor d) := by
  have closing := s.driveDoor_only d .close
  unfold State.scanDoor
  split
  · exact s.driveDoor_only d .open
  · dsimp only
    split
    · exact closing.trans (State.withDoor_only _ d _)
    · split
      · exact closing.trans (State.withDoor_only _ d _)
      · split
        · exact closing.trans (State.obstructed_only _ d)
        · exact closing
  · exact .refl s d

theorem State.scanDoors_scan (l : List Door) (s : State) : (l.foldl State.scanDoor s).scan = s.scan :=
  List.foldlRecOn (motive := fun u => u.scan = s.scan) l State.scanDoor rfl fun u same d _ =>
    ((u.scanDoor_frame d).scan (by decide)).trans same

/-! ### The count of reopenings -/

theorem State.stepDoor_reopen (s : State) (d : Door) (x : DoorState) : ((s.stepDoor d x).doorAt d).reopen = (s.doorAt d).reopen := by
  rw [State.stepDoor_doorAt, State.moveDoor_kept]

theorem State.closeDoor_reopen (s : State) (d : Door) : ((s.closeDoor d).doorAt d).reopen = (s.doorAt d).reopen := by
  unfold State.closeDoor
  dsimp only
  split
  · rw [State.landDoor_at]
    exact s.stepDoor_reopen d _
  · exact s.stepDoor_reopen d _

theorem State.reachOpen_reopen (s : State) (d : Door) : ((s.reachOpen d).doorAt d).reopen = (s.doorAt d).reopen := by
  unfold State.reachOpen
  dsimp only
  split
  · exact (State.closeDoor_reopen _ d).trans (s.stepDoor_reopen d _)
  · exact s.stepDoor_reopen d _

/-- An opening, whatever its switches end, leaves the count (R140, R142, R146). -/
theorem State.openDoor_reopen (s : State) (d : Door) : ((s.openDoor d).doorAt d).reopen = (s.doorAt d).reopen := by
  unfold State.openDoor
  dsimp only
  split
  · exact (State.reachOpen_reopen _ d).trans (s.stepDoor_reopen d _)
  · exact s.stepDoor_reopen d _

/-! ### The obstruction of one door -/

/-- What an obstruction makes of a closing door, row by row of the statement (R146). -/
structure Obstructs (d : Door) (s t : State) : Prop where
  count : (t.doorAt d).reopen = min 3 ((s.doorAt d).reopen + 1)
  reopens : (s.doorAt d).reopen < 2 → (s.doorAt d).pins.openMade = false →
    (t.doorAt d).state = .opening ∧ (t.doorAt d).motion = some (s.clock + 6000000)
      ∧ (t.doorAt d).closeOrdered = (s.doorAt d).closeOrdered ∧ t.Drives d (s.dutyOnSlope d (s.cfg.openDir.get d)) .open
  stops : 2 ≤ (s.doorAt d).reopen →
    (t.doorAt d).state = .open ∧ (t.doorAt d).closeFailed = true ∧ (t.doorAt d).closeOrdered = false
      ∧ (t.doorAt d).motion = none ∧ (t.drive.motor.get d).pendingDuty = some 0

/-- The door with one obstruction more (R146). -/
def State.countObstruction (s : State) (d : Door) : State :=
  s.withDoor d { s.doorAt d with reopen := min 3 ((s.doorAt d).reopen + 1) }

/-- The door with its third obstruction: its close has failed (R146). -/
def State.closeFails (s : State) (d : Door) : State :=
  s.withDoor d { s.doorAt d with reopen := min 3 ((s.doorAt d).reopen + 1), closeFailed := true, closeOrdered := false }

theorem State.obstructed_eq (s : State) (d : Door) :
    s.obstructed d = if (s.doorAt d).reopen < 2 then (s.countObstruction d).openDoor d else (s.closeFails d).stepDoor d .open := by
  have third : min 3 ((s.doorAt d).reopen + 1) < 3 ↔ (s.doorAt d).reopen < 2 := by omega
  exact if_congr third rfl rfl

theorem State.obstructed_obstructs (duty : 1 ≤ s.cfg.doorDuty) (closing : (s.doorAt d).state = .closing) :
    Obstructs d s (s.obstructed d) := by
  have counted : (s.countObstruction d).doorAt d = { s.doorAt d with reopen := min 3 ((s.doorAt d).reopen + 1) } :=
    s.doorAt_withDoor_same d _
  have fails : (s.closeFails d).doorAt d =
      { s.doorAt d with reopen := min 3 ((s.doorAt d).reopen + 1), closeFailed := true, closeOrdered := false } :=
    s.doorAt_withDoor_same d _
  have only : OnlyDoor d s (s.countObstruction d) := s.withDoor_only d _
  have stopped := (s.closeFails d).stepDoor_rest d .open rfl
  rw [State.obstructed_eq]
  refine ⟨?_, fun again short => ?_, fun third => ?_⟩
  · split
    · rw [State.openDoor_reopen, counted]
    · rw [State.stepDoor_reopen, fails]
  · have opening := (s.countObstruction d).stepDoor_opening d
    rw [if_pos again, State.openDoor_short (by rw [counted, short]), opening, counted]
    refine ⟨rfl, rfl, rfl, ?_⟩
    rw [← only.duty]
    exact State.stepDoor_drives (s := s.countObstruction d) duty d .open
  · rw [if_neg (Nat.not_lt.2 third), stopped, fails]
    exact ⟨rfl, rfl, rfl, rfl, State.stepDoor_stops _ d .open rfl (by rw [fails, closing]; rfl)⟩

/-- The scan of a closing door whose current has stayed above its limit for 150 ms (R145). -/
theorem State.scanDoor_obstructed (closing : (s.doorAt d).state = .closing)
    (blocked : s.limitOnSlope d (s.cfg.openDir.get d).opposite < s.scan.current.get d)
    (running : (s.doorAt d).obstruction = some start) (lasted : start + 150000 ≤ s.clock) :
    s.scanDoor d = (s.driveDoor d .close).obstructed d := by
  have driven : (s.driveDoor d .close).doorAt d = { s.doorAt d with limit := s.limitOnSlope d (s.way d .close) } := by
    rw [State.driveDoor_doorAt, if_pos rfl, State.doorLimit_eq]
  have frame := State.driveDoor_frame (r := []) (m := []) s d .close
  have above : ¬s.scan.current.get d ≤ s.limitOnSlope d (s.way d .close) := Nat.not_le.2 blocked
  rw [State.scanDoor, closing]
  dsimp only
  rw [driven, frame.scan (by decide), frame.clock]
  dsimp only
  rw [if_neg above, running]
  exact if_pos lasted

theorem State.scanDoor_obstructs (duty : 1 ≤ s.cfg.doorDuty) (closing : (s.doorAt d).state = .closing)
    (blocked : s.limitOnSlope d (s.cfg.openDir.get d).opposite < s.scan.current.get d)
    (running : (s.doorAt d).obstruction = some start) (lasted : start + 150000 ≤ s.clock) : Obstructs d s (s.scanDoor d) := by
  have only := s.driveDoor_only d .close
  have driven : (s.driveDoor d .close).doorAt d = { s.doorAt d with limit := s.doorLimit d .close } := by
    rw [State.driveDoor_doorAt, if_pos rfl]
  obtain ⟨count, reopens, stops⟩ := State.obstructed_obstructs (s := s.driveDoor d .close) (d := d) (only.settings ▸ duty)
    (by rw [driven, closing])
  rw [State.scanDoor_obstructed closing blocked running lasted]
  rw [driven] at count reopens stops
  rw [only.clock, only.duty, only.settings] at reopens
  exact ⟨count, reopens, stops⟩

/-- The steps before and behind a door's own scan leave what the scan makes of it. -/
theorem Obstructs.among {v : State} (before : LeavesDoor d s t) (own : Obstructs d t u) (behind : LeavesDoor d u v) :
    Obstructs d s v := by
  obtain ⟨count, reopens, stops⟩ := own
  rw [before.record] at count reopens stops
  rw [before.clock, before.duty, before.settings] at reopens
  rw [← behind.record] at count reopens stops
  rw [← behind.motor] at stops
  refine ⟨count, fun again short => ?_, stops⟩
  obtain ⟨state, motion, ordered, drives⟩ := reopens again short
  exact ⟨state, motion, ordered, behind.drives drives⟩

/-- Settles O48. -/
theorem obstructedDoorsReopen : Obligations.ObstructedDoorsReopen := by
  intro s w d start sound closing blocked running lasted
  obtain ⟨checked, taken⟩ := s.scanChecked_leaves w d
  obtain ⟨l, early, behind⟩ := foldl_reaches State.scanDoor_only (l := allDoors) (by decide) (mem_allDoors d) (s.scanChecked w)
  have before := checked.trans early
  have scan := (State.scanDoors_scan l (s.scanChecked w)).trans taken
  generalize l.foldl State.scanDoor (s.scanChecked w) = u at before scan behind
  have current : u.scan.current.get d = sampleAfter (s.scan.current.get d) 4000 (w.current.get d) := by
    rw [scan, SensorScan.take, PerDoor.get_of]
  have obstructs : Obstructs d u (u.scanDoor d) := by
    refine State.scanDoor_obstructs (before.settings ▸ sound.doorDuty) (by rw [before.record, closing]) ?_
      (by rw [before.record, running]) (by rw [before.clock]; exact lasted)
    rw [before.limit, before.settings, current]
    exact blocked
  obtain ⟨count, reopens, stops⟩ := obstructs.among before behind
  exact ⟨_, rfl, count, reopens, stops⟩

end Sys2Proof.Machine
end

section
/-! PROOFS. The Radio Unit's bursts (O50, O51): POLL and ACK go to their owner once link supervision has taken the frame; what a
burst holds, what its header says, and what an acknowledgement retires (R171 to R177). -/

namespace Sys2Proof.Machine

set_option Elab.async false

variable {s : State} {f : List Byte} {b : Burst}

/-! ### How many records a burst takes -/

/-- The records that fit stay under the cap (R172). -/
theorem fitting_fits (cap used : Nat) (l : List Report) :
    fitting cap used l = 0 ∨ used + ((l.take (fitting cap used l)).map Report.size).sum ≤ cap := by
  induction l generalizing used with
  | nil => exact .inl rfl
  | cons x l ih =>
    rw [fitting]
    split
    · rename_i fits
      rw [Nat.add_comm 1, List.take_succ_cons, List.map_cons, List.sum_cons, ← Nat.add_assoc]
      obtain none | some := ih (used + x.size)
      · rw [none]
        exact .inr fits
      · exact .inr some
    · exact .inl rfl

/-- One record more than those that fit would pass the cap (R172). -/
theorem fitting_fills (cap used : Nat) (l : List Report) :
    fitting cap used l = l.length ∨ cap < used + ((l.take (fitting cap used l + 1)).map Report.size).sum := by
  induction l generalizing used with
  | nil => exact .inl rfl
  | cons x l ih =>
    rw [fitting, List.take_succ_cons, List.map_cons, List.sum_cons, ← Nat.add_assoc, List.length_cons]
    split
    · rw [Nat.add_comm 1, Nat.succ_inj]
      exact ih (used + x.size)
    · exact .inr (by omega)

theorem burstCount_fits (cap : Nat) {l : List Report} (h : l ≠ []) :
    burstCount cap l = 1 ∨ ((l.take (burstCount cap l)).map Report.size).sum ≤ cap := by
  cases l with
  | nil => exact absurd rfl h
  | cons x l =>
    rw [burstCount, Nat.add_comm 1, Nat.succ_inj, List.take_succ_cons, List.map_cons, List.sum_cons]
    exact fitting_fits cap x.size l

theorem burstCount_fills (cap : Nat) (l : List Report) :
    burstCount cap l = l.length ∨ cap < ((l.take (burstCount cap l + 1)).map Report.size).sum := by
  cases l with
  | nil => exact .inl rfl
  | cons x l =>
    rw [burstCount, Nat.add_comm 1, List.length_cons, Nat.succ_inj, List.take_succ_cons, List.map_cons, List.sum_cons]
    exact fitting_fills cap x.size l

/-! ### The header -/

/-- The two bytes of a 16-bit word, high byte first (R196). -/
theorem bytesOf_two_word (d : BitVec 16) : bytesOf 2 d.toNat = [d.extractLsb' 8 8, d.extractLsb' 0 8] := by
  simp [bytesOf, BitVec.extractLsb', Nat.shiftRight_eq_div_pow]

/-- A bit of the summary byte is its flag where SUMMARY_MASK lets it through (R176). -/
theorem State.summaryByte_bit {i : Nat} (low : i < 8) {flag : Bool} (stands : s.summaryFlags[i]? = some flag) {p : Prop}
    (means : flag = true ↔ p) : s.summaryByte.getLsbD i = true ↔ p ∧ s.cfg.summaryMask.getLsbD i = true := by
  rw [State.summaryByte, byteOf, BitVec.getLsbD_and, BitVec.getLsbD_ofNat, bitsOf_testBit, stands, decide_eq_true low,
    Bool.true_and, Option.getD_some, Bool.and_eq_true, means]

theorem State.anyUnlocked_iff_exists :
    s.doors.anyUnlocked = true ↔ ∃ d, (s.doorAt d).state ≠ .locked ∧ (s.doorAt d).state ≠ .isolated := by
  rw [← not_iff_not, Bool.not_eq_true, State.anyUnlocked_iff]
  push Not
  exact forall_congr' fun d => or_iff_not_imp_left

theorem Proving.anyRated_iff {x : Proving} {h : Health} : x.anyRated h = true ↔ ∃ c, x.health.get c = h := by
  have listed : ∀ c, c ∈ channels := forall_channels fun _ h => h
  simp [Proving.anyRated, listed]

/-! ### POLL -/

theorem exec_poll : exec (.poll s.cfg.carAddress []) s = .next s.linkedAt.takePoll :=
  congrArg Host.Outcome.next (State.downlink_accepted rfl (by simp [Settings.accepts, DownlinkKind.isGrouped]))

theorem State.takePoll_silent (h : s.cfg.listenOnly = true ∨ s.radio.transmitter.isSome = true) : s.takePoll = s := by
  rw [State.takePoll]
  split
  · rfl
  · rename_i speaks
    exact if_pos (h.resolve_left speaks)

section Answering

variable (speaks : s.cfg.listenOnly = false) (idle : s.radio.transmitter = none)
include speaks idle

/-- The burst in flight goes out again (R173). -/
theorem State.takePoll_flying (flying : s.radio.inFlight = some b) : s.takePoll = s.resendBurst b := by
  simp [State.takePoll, speaks, idle, flying]

/-- With nothing to report the answer is a header alone, or none (R171). -/
theorem State.takePoll_empty (landed : s.radio.inFlight = none) (empty : s.radio.queue = []) :
    s.takePoll = if s.cfg.answerEmpty = true then s.transmit (s.burstHeader 0) else s := by
  simp [State.takePoll, speaks, idle, landed, empty, State.burstBody]

/-- Records that wait go out in a new burst (R172). -/
theorem State.takePoll_waiting (landed : s.radio.inFlight = none) (waits : s.radio.queue ≠ []) : s.takePoll = s.buildBurst := by
  simp [State.takePoll, speaks, idle, landed, waits]

end Answering

/-- Settles O50: the answer is that of `State.takePoll` on the state that link supervision leaves. -/
theorem pollsAreAnsweredWithABurst : Obligations.PollsAreAnsweredWithABurst := by
  rintro s u rfl
  rw [exec_poll]
  generalize s.linkedAt = u
  refine ⟨fun n => ⟨u.summaryByte, ?header, ?flag0, ?flag1, ?flag2, ?flag3, ?flag4, ?flag5, ?flag6, ?flag7⟩,
    fun silent => ?silent, fun speaks idle => ?_⟩
  case header =>
    rw [State.burstHeader, bytesOf_two_word]
    rfl
  case flag0 => exact State.summaryByte_bit (by decide) rfl (by simp)
  case flag1 => exact State.summaryByte_bit (by decide) rfl InterventionSet.hasLevel_iff
  case flag2 => exact State.summaryByte_bit (by decide) rfl State.anyUnlocked_iff_exists
  case flag3 => exact State.summaryByte_bit (by decide) rfl Proving.anyRated_iff
  case flag4 => exact State.summaryByte_bit (by decide) rfl Proving.anyRated_iff
  case flag5 => exact State.summaryByte_bit (by decide) rfl decide_eq_true_iff
  case flag6 => exact State.summaryByte_bit (by decide) rfl Iff.rfl
  case flag7 => exact State.summaryByte_bit (by decide) rfl decide_eq_true_iff
  case silent => rw [State.takePoll_silent silent]
  refine ⟨fun b flying => ?again, fun landed empty quiet => ?quiet, fun landed empty answers => ?alone,
    fun landed waits => ⟨burstCount u.cfg.burstCap u.radio.queue, burstCount_pos _ waits, burstCount_le _ _,
      burstCount_fits _ waits, burstCount_fills _ _, ?build⟩⟩
  case again =>
    rw [State.takePoll_flying speaks idle flying]
    rfl
  case quiet => rw [State.takePoll_empty speaks idle landed empty, if_neg (Bool.eq_false_iff.1 quiet)]
  case alone =>
    rw [State.takePoll_empty speaks idle landed empty, if_pos answers]
    rfl
  case build =>
    rw [State.takePoll_waiting speaks idle landed waits]
    rfl

/-! ### ACK -/

theorem exec_ack (size : f.length = 1) : exec (.ack s.cfg.carAddress f) s = .next (s.linkedAt.takeAck f) :=
  congrArg Host.Outcome.next (State.downlink_accepted size (by simp [Settings.accepts, DownlinkKind.isGrouped]))

theorem State.takeAck_names (flying : s.radio.inFlight = some b) (names : field f 0 1 = b.number) :
    s.takeAck f = s.withRadio (s.radio.retire b) := by
  rw [State.takeAck, flying]
  exact if_pos names

theorem State.takeAck_other (other : ∀ b, s.radio.inFlight = some b → field f 0 1 ≠ b.number) : s.takeAck f = s := by
  rw [State.takeAck]
  split
  · rfl
  · rename_i flying
    exact if_neg (other _ flying)

/-- Settles O51: only the number of the burst in flight retires it. -/
theorem acksRetireTheBurst : Obligations.AcksRetireTheBurst := by
  rintro s u f size rfl
  rw [exec_ack size]
  refine ⟨fun b flying names => ?_, fun other => by rw [State.takeAck_other other]⟩
  rw [State.takeAck_names flying names, RadioUnit.retire]
  cases s.linkedAt.radio.carriedLost <;> simp

end Sys2Proof.Machine
end

section
/-! PROOFS. The lines: one frame behind the other (O52), the bytes of a good frame (O59), and what is scanned again after a rejected
one (O60). -/

namespace Sys2Proof.Machine

set_option Elab.async false

variable {s t : State} {x : SerialLine} {body kept noise : List Byte} {b : Byte}

/-! ### Responses and drops -/

theorem State.takeFrame_full {x : RequestLine} {code : Byte} {fields : List Byte} (full : s.isFull x = true) :
    s.takeFrame x (code :: fields) = s.dropRequest x := if_pos full

/-- Settles O52. -/
theorem linesSendOneAfterTheOther : Obligations.LinesSendOneAfterTheOther := by
  refine fun s x => ⟨rfl, fun y sending waiting => congrArg Host.Outcome.next ?last,
    fun y fr rest sending waiting => congrArg Host.Outcome.next ?next, fun code fields full => congrArg Host.Outcome.next ?drop⟩
  case last => simp only [State.responseSent, sending, waiting]
  case next =>
    simp only [State.responseSent, sending, waiting]
    rfl
  case drop =>
    have full' : (s.withFramer (serialOf x) []).isFull x = true := by
      rw [State.isFull, State.withFramer_port_waiting]
      exact decide_eq_true full
    cases x <;> exact State.takeFrame_full full'

/-! ### The framer of a line -/

theorem State.withFramer_framer (s : State) (x : SerialLine) (kept : List Byte) : (s.withFramer x kept).framer x = kept := by
  cases x <;> rfl

theorem State.withFramer_withFramer (s : State) (x : SerialLine) (kept new : List Byte) :
    (s.withFramer x kept).withFramer x new = s.withFramer x new := by cases x <;> rfl

theorem State.withFramer_same (h : s.framer x = kept) : s.withFramer x kept = s := by
  subst h
  cases x <;> rfl

theorem State.withFramer_withPending (s : State) (x : SerialLine) (kept : List Byte) (l : List Instr) :
    (s.withPending l).withFramer x kept = (s.withFramer x kept).withPending l := by cases x <;> rfl

theorem State.withPending_framer (s : State) (x : SerialLine) (l : List Instr) : (s.withPending l).framer x = s.framer x := by
  cases x <;> rfl

/-- A reception that finds no good frame changes the framer alone. -/
theorem State.received_none (s : State) (x : SerialLine) (kept : List Byte) : s.received x ([], kept) = s.withFramer x kept := rfl

/-- A reception that ends in one good frame is that frame given whole. -/
theorem State.received_good (s : State) (x : SerialLine) (body : List Byte) : s.received x ([body], []) = s.frame x body := rfl

/-! ### The bytes of a good frame -/

theorem run_succ {m : Host.Core} {s t : m.State} (h : m.step s = .next t) (n : Nat) : m.run (n + 1) s = m.run n t := by
  rw [Host.Core.run, h]

/-- The command at the front of the queue is the first step of a run. -/
theorem run_front {i : Instr} {rest : List Instr} (h : exec i (s.withPending rest) = .next t) (n : Nat) :
    Host.Core.run Sys2Proof.core (n + 1) (s.withPending (i :: rest)) = Host.Core.run Sys2Proof.core n t :=
  run_succ (m := Sys2Proof.core) (s := s.withPending (i :: rest)) h n

/-- The bytes still to come of a frame whose first bytes the framer keeps. -/
theorem run_frameBytes {left : List Byte} {rest : List Instr} (low : 1 ≤ body.length) (high : body.length ≤ Config.maxBody)
    (whole : frameOf body = kept ++ left) (more : left ≠ []) (keeps : s.framer x = kept) :
    Host.Core.run Sys2Proof.core left.length (s.withPending (left.map (Instr.byteReceived x) ++ rest))
      = .next ((s.withPending rest).frame x body) := by
  induction left generalizing s kept with
  | nil => exact absurd rfl more
  | cons b left ih =>
    have fed (l : List Instr) :
        exec (.byteReceived x b) (s.withPending l) = .next ((s.withPending l).received x (frameByte kept b)) := by
      rw [← keeps, ← State.withPending_framer s x l]
      rfl
    cases left with
    | nil =>
      have last := fed rest
      rw [frameByte_last body kept b low high whole, State.received_good] at last
      exact run_front last 0
    | cons c left =>
      have part := fed ((c :: left).map (Instr.byteReceived x) ++ rest)
      rw [frameByte_part body kept (c :: left) b low high whole (List.cons_ne_nil c left), State.received_none,
        State.withFramer_withPending] at part
      rw [List.map_cons, List.cons_append, List.length_cons, run_front part,
        ih (by rw [whole, List.append_cons]) (List.cons_ne_nil c left) (State.withFramer_framer s x _), State.frame, State.frame,
        State.withFramer_withPending, State.withFramer_withFramer, State.withFramer_withPending]

/-- Settles O59: before the first byte a hunting framer keeps nothing, and the whole frame is still to come. -/
theorem framesAreReceivedAsTheyAreSent : Obligations.FramesAreReceivedAsTheyAreSent :=
  fun _ _ _ _ hunting low high => run_frameBytes low high (kept := []) rfl (List.cons_ne_nil _ _) hunting

/-! ### Rejected frames -/

/-- A length out of range, or a CRC that differs, rejects the frame (R158). -/
theorem receive_rejected {len : Byte} {bytes : List Byte}
    (h : bytes = [] ∧ (len.toNat = 0 ∨ 120 < len.toNat)
      ∨ 1 ≤ len.toNat ∧ len.toNat ≤ 120 ∧ bytes.length = len.toNat + 2
        ∧ crc (len :: bytes.take len.toNat) ≠ BitVec.ofNat 16 (valueOf (bytes.drop len.toNat))) :
    receive (len :: bytes) = .rejected := by
  obtain ⟨-, outside⟩ | ⟨low, high, size, differs⟩ := h
  · exact if_pos outside
  · have inside : ¬(len.toNat = 0 ∨ Config.maxBody < len.toNat) := not_or.2 ⟨by omega, not_lt.2 high⟩
    have two : (bytes.drop len.toNat).take 2 = bytes.drop len.toNat := List.take_of_length_le (by rw [List.length_drop]; omega)
    rw [receive, if_neg inside, if_neg (by omega), two, if_neg differs]

/-- The byte that rejects a frame has what follows its sync scanned again (R160). -/
theorem frameByte_rejected (h : receive (kept ++ [b]) = .rejected) :
    frameByte (Config.sync :: kept) b = scanBytes (kept ++ [b]).length (kept ++ [b]) := by
  rw [frameByte, List.length_cons, List.cons_append, scanBytes, if_pos rfl, h, List.length_append, List.length_singleton]

theorem State.feed_rejected (keeps : s.framer x = Config.sync :: kept) (h : receive (kept ++ [b]) = .rejected) :
    s.feed x b = s.received x (scanBytes (kept ++ [b]).length (kept ++ [b])) := by
  rw [State.feed, keeps, frameByte_rejected h]

/-- A hunting framer drops a byte that is no sync (R158). -/
theorem frameByte_hunting (other : b ≠ Config.sync) : frameByte [] b = ([], []) :=
  scanBytes_noise 1 [b] (List.not_mem_cons_of_ne_of_not_mem other.symm List.not_mem_nil)

/-- Bytes without a sync, then a good frame: the scan finds that frame alone. -/
theorem scanBytes_noise_frameOf (quiet : Config.sync ∉ noise) (low : 1 ≤ body.length) (high : body.length ≤ Config.maxBody) :
    scanBytes (noise ++ frameOf body).length (noise ++ frameOf body) = ([body], []) := by
  rw [List.length_append, scanBytes_after_noise _ _ _ quiet]
  exact scanBytes_frameOf _ body low high

/-- Settles O60: a rejection scans the kept bytes again, and only a good frame among them reaches past the framer. -/
theorem rejectedFramesAreScannedAgain : Obligations.RejectedFramesAreScannedAgain := by
  refine fun s x noise quiet => ⟨fun b hunting other => congrArg Host.Outcome.next ?dropped,
    fun keeps => congrArg Host.Outcome.next ?error, fun kept b len bytes keeps split rejects => ?_⟩
  case dropped => rw [State.feed, hunting, frameByte_hunting other, State.received_none, State.withFramer_same hunting]
  case error => rw [State.characterError, keeps, frameError, List.tail_cons, scanBytes_noise _ _ quiet, State.received_none]
  have again : s.feed x b = s.received x (scanBytes (kept ++ [b]).length (kept ++ [b])) :=
    State.feed_rejected keeps (split ▸ receive_rejected rejects)
  refine ⟨fun same => congrArg Host.Outcome.next ?noise, fun body low high same => congrArg Host.Outcome.next ?frame⟩
  case noise => rw [again, same, scanBytes_noise _ _ quiet, State.received_none]
  case frame => rw [again, same, scanBytes_noise_frameOf quiet low high, State.received_good]

end Sys2Proof.Machine
end

section
/-! PROOFS. RESUME and QUIESCE (O57): a change of operating state is its setting and the notices of an evaluation and a
recomputation; one away from RUN takes the permit, and CONFIG is entered only by a car that stands with its spring applied (R73,
R187 to R189). -/

namespace Sys2Proof.Machine

set_option Elab.async false

variable {free : List Block} {r m : List Cause} {s t : State} {ev : State → State}

/-! ### A change of operating state -/

/-- Behind the setting come notices alone: only the entry into CONFIG touches PARK, too (R105, R186). -/
theorem State.changeOpState_notices {x : OpState} (outside : x ≠ .config) :
    NoticesOnly (s.setOpState x) (s.changeOpState x) := by
  have judged := State.evaluate_evaluator.frame (s.setOpState x)
  have combined := State.combine_frame State.evaluate_evaluator (s.setOpState x).evaluate
  rw [State.changeOpState, beq_false_of_ne outside]
  exact judged.trans combined

theorem State.changeOpState_combined (s : State) (x : OpState) : (s.changeOpState x).Combined :=
  State.combine_combined State.evaluate_combined _ _

theorem State.testQuiesced_combined (h : s.Combined) : s.testQuiesced.Combined := by
  unfold State.testQuiesced
  split
  · exact s.changeOpState_combined .config
  · exact h

/-- The test of R189 leaves nothing to a second one. -/
theorem State.testQuiesced_settled (s : State) : s.testQuiesced.quiesced = false := by
  unfold State.testQuiesced
  split
  · rw [State.quiesced, State.changeOpState_config]
    rfl
  · simpa using ‹¬s.quiesced = true›

/-! ### Into RUN -/

/-- A frame lets PARK go where it is seen to stay. -/
theorem Frame.withoutPark (f : Frame (.park :: free) r m s t) (h : t.comb.park = s.comb.park) : Frame free r m s t := by
  have out {b : Block} (k : b ∉ free) (n : b ≠ .park := by decide) : b ∉ Block.park :: free :=
    List.not_mem_cons_of_ne_of_not_mem n k
  exact {
    clock := f.clock
    pending := f.pending
    odometry := fun k => f.odometry (out k)
    slower := fun k => f.slower (out k)
    still := fun k => f.still (out k)
    window := fun k => f.window (out k)
    authority := fun k => f.authority (out k)
    evaluationTimer := fun k => f.evaluationTimer (out k)
    loop := fun k => f.loop (out k)
    driver := fun k => f.driver (out k)
    park := fun _ => .inl h
    motors := fun k => f.motors (out k)
    scan := fun k => f.scan (out k)
    settling := fun k => f.settling (out k)
    owed := fun k => f.owed (out k)
    health := fun k => f.health (out k)
    capability := fun k => f.capability (out k)
    proofTimer := fun k => f.proofTimer (out k)
    doors := fun k => f.doors (out k)
    radio := fun k => f.radio (out k)
    records := fun k => f.records (out k)
    listening := fun k l => f.listening (out k) (out l)
    opState := fun k => f.opState (out k)
    cabTimer := fun k l => f.cabTimer (out k) (out l)
    settings := fun k => f.settings (out k)
    cabPort := fun k => f.cabPort (out k)
    crewPort := fun k => f.crewPort (out k)
    kept := fun k => f.kept (out k)
    added := fun k => f.added (out k) }

/-- In RUN no notice touches the operating state, the cab timer or PARK: only the end of QUIESCING does (R189). -/
theorem Frame.inRun (f : Frame [] r m s t) (run : s.line.opState = .run) :
    t.line.opState = .run ∧ t.line.cabTimer = s.line.cabTimer ∧ t.comb.park = s.comb.park := by
  have other {p : Prop} : ¬(s.line.opState = .quiescing ∧ p) := fun h => absurd (run.symm.trans h.1) (by decide)
  exact ⟨f.running run, (f.cabTimer (by simp) (by simp)).resolve_right other, (f.park (by simp)).resolve_right other⟩

/-- The change into RUN starts the cab timer and keeps PARK (R186, R193). -/
theorem State.changeOpState_inRun (s : State) :
    (s.changeOpState .run).line.opState = .run
      ∧ (s.changeOpState .run).line.cabTimer = some (s.clock + s.cfg.cabTimeout * 1000)
      ∧ (s.changeOpState .run).comb.park = s.comb.park :=
  (State.changeOpState_notices (s := s) (by decide)).inRun rfl

theorem State.resume_accepted
    (h : s.line.opState = .quiescing
      ∨ s.line.opState = .config ∧ s.cfg.aheadLow + s.cfg.behindHigh ≤ 28 ∧ s.cfg.carLength ≤ s.cfg.trainLength) :
    s.resume = (s.changeOpState .run, .done [0x01#8]) := by
  have reply : (s.changeOpState .run).opStateReply = .done [0x01#8] := by
    rw [State.opStateReply, State.changeOpState_run]
    rfl
  obtain quiescing | ⟨config, window, lengths⟩ := h
  · simp only [State.resume, quiescing, reply]
  · have consistent : s.cfg.consistent = true := by simp [Settings.consistent, window, lengths]
    simp only [State.resume, config, consistent, if_true, reply]

/-! ### Out of RUN -/

/-- Out of RUN the permit is off, and a part in CONFIG has a car that stands (R73, R189). -/
structure State.Withdrawn (s : State) : Prop where
  outside : s.line.opState ≠ .run
  stands : s.line.opState = .config → s.odo.standstill = true
  barred : s.sup.permit = false

/-- An evaluation that a notice brings leaves the part withdrawn. -/
def KeepsWithdrawn (ev : State → State) : Prop := ∀ s : State, s.Withdrawn → (ev s).Withdrawn

/-- Outside RUN the permit goes off as the supervision state is set (R73). -/
theorem State.withSupervision_withdrawn (outside : s.line.opState ≠ .run)
    (stands : s.line.opState = .config → s.odo.standstill = true) (b : Bool) : (s.withSupervision b).Withdrawn where
  outside := outside
  stands := stands
  barred := by simp [State.withSupervision, State.permitHolds, outside]

namespace State.Withdrawn

theorem congr (h : s.Withdrawn) (line : t.line = s.line := by rfl) (odo : t.odo = s.odo := by rfl)
    (sup : t.sup = s.sup := by rfl) : t.Withdrawn :=
  ⟨line ▸ h.outside, fun config => odo ▸ h.stands (line ▸ config), sup ▸ h.barred⟩

theorem report (h : s.Withdrawn) (b : ReportBody) : (s.report b).Withdrawn := by
  unfold State.report
  split <;> exact h.congr

theorem reportPosition (h : s.Withdrawn) : s.reportPosition.Withdrawn := by
  unfold State.reportPosition
  split <;> exact h.congr

theorem testProof (h : s.Withdrawn) : s.testProof.Withdrawn := by
  unfold State.testProof
  split
  · split <;> exact h.congr
  · exact h

theorem abandonProof (h : s.Withdrawn) : s.abandonProof.Withdrawn := by
  unfold State.abandonProof
  split <;> exact h.congr

/-- The test of R189 lets only a car that stands into CONFIG. -/
theorem setConfig (h : s.Withdrawn) (quiesced : s.quiesced = true) : (s.setOpState .config).Withdrawn where
  outside := OpState.noConfusion
  stands := fun _ => (State.quiesced_iff.1 quiesced).2.1
  barred := h.barred

theorem springNotice (h : s.Withdrawn) (k : KeepsWithdrawn ev) (a : Bool) : (s.springNotice ev a).Withdrawn := by
  unfold State.springNotice
  cases a with
  | false => exact (k s h).abandonProof.congr
  | true =>
    have tested := (k s h).testProof
    dsimp only
    rw [if_pos rfl]
    split
    · exact (k _ (tested.setConfig ‹_›)).congr
    · exact tested

theorem combine (h : s.Withdrawn) (k : KeepsWithdrawn ev) (b : Bool) : (s.combine ev b).Withdrawn := by
  have combined : (s.recombine b).Withdrawn := h.congr
  unfold State.combine
  dsimp only
  split
  · exact combined
  · exact combined.springNotice k _

theorem raiseWith (h : s.Withdrawn) (k : KeepsWithdrawn ev) (c : Cause) (x : Capture) : (s.raiseWith ev c x).Withdrawn := by
  unfold State.raiseWith
  split
  · exact h
  · have joined : (s.withSet (s.set.append (s.entryOf c x))).Withdrawn := h.congr
    have noticed := (k _ (joined.report (.raised c x)).reportPosition).combine k false
    dsimp only
    split
    · exact noticed.abandonProof
    · exact noticed

theorem removeWith (h : s.Withdrawn) (k : KeepsWithdrawn ev) (c : Cause) : (s.removeWith ev c).Withdrawn := by
  unfold State.removeWith
  split
  · have left : (s.withSet (s.set.erase c)).Withdrawn := h.congr
    exact ((k _ (left.report (.cleared c))).combine k false).testProof
  · exact h

end State.Withdrawn

/-- An evaluation takes the permit, whatever it was before (R59, R73). -/
theorem State.evaluate_withdrawn (outside : s.line.opState ≠ .run)
    (stands : s.line.opState = .config → s.odo.standstill = true) : s.evaluate.Withdrawn :=
  have quiet : KeepsWithdrawn State.evaluateQuiet := fun s h =>
    State.withSupervision_withdrawn (s := s.decayed.withFigures) h.outside h.stands _
  State.judge_keeps State.Withdrawn (State.withSupervision_withdrawn outside stands) (fun _ _ _ h => h.raiseWith quiet _ _)
    fun _ h => h.removeWith quiet _

theorem State.evaluate_keepsWithdrawn : KeepsWithdrawn State.evaluate := fun _ h =>
  State.evaluate_withdrawn h.outside h.stands

/-- A change to QUIESCING takes the permit (R73, R188). -/
theorem State.changeOpState_withdrawn (s : State) : (s.changeOpState .quiescing).Withdrawn :=
  (State.evaluate_withdrawn (s := s.setOpState .quiescing) OpState.noConfusion OpState.noConfusion).combine
    State.evaluate_keepsWithdrawn _

namespace State.Withdrawn

theorem testQuiesced (h : s.Withdrawn) : s.testQuiesced.Withdrawn := by
  unfold State.testQuiesced
  split
  · exact (State.evaluate_keepsWithdrawn _ (h.setConfig ‹_›)).combine State.evaluate_keepsWithdrawn _
  · exact h

/-- Once the test of R189 is done, the part is in CONFIG exactly where the car stands with its spring applied. -/
theorem opState_eq (h : s.Withdrawn) (combined : s.Combined) (settled : s.quiesced = false) :
    s.line.opState = if s.odo.standstill && s.comb.springApplied then .config else .quiescing := by
  cases op : s.line.opState with
  | run => exact absurd op h.outside
  | config =>
    have applied : s.comb.springApplied = true := by
      by_contra released
      exact (combined.released_iff.1 (by simpa using released)).1 op
    rw [h.stands op, applied]
    rfl
  | quiescing =>
    have bar : (s.odo.standstill && s.comb.springApplied) = false := by simpa [State.quiesced, op] using settled
    rw [bar]
    rfl

end State.Withdrawn

/-- The step of a QUIESCE in RUN (R188, R189). -/
def State.leftRun (s : State) : State := (s.changeOpState .quiescing).testQuiesced

theorem State.quiesce_accepted (run : s.line.opState = .run) :
    s.quiesce = (s.leftRun, .done [byteOf s.leftRun.line.opState.code]) := by
  rw [State.quiesce, run]
  rfl

theorem State.quiesce_already (quiescing : s.line.opState = .quiescing) : s.quiesce = (s, .done [0x02#8]) := by
  have reply : s.opStateReply = .done [0x02#8] := by
    rw [State.opStateReply, quiescing]
    rfl
  simp only [State.quiesce, quiescing, reply]

theorem State.leftRun_notices (s : State) : NoticesOnly (s.setOpState .quiescing) s.leftRun :=
  (State.changeOpState_notices (by decide)).trans (State.testQuiesced_frame _)

theorem State.leftRun_cabTimer (s : State) : s.leftRun.line.cabTimer = none := s.leftRun_notices.cabStopped rfl

theorem State.leftRun_withdrawn (s : State) : s.leftRun.Withdrawn := s.changeOpState_withdrawn.testQuiesced

/-- The car neither stops nor starts by it, so the test of R189 reads whether it stood before. -/
theorem State.leftRun_opState (s : State) :
    s.leftRun.line.opState = if s.odo.standstill && s.leftRun.comb.springApplied then .config else .quiescing := by
  have stands : s.leftRun.odo.standstill = s.odo.standstill := s.leftRun_notices.standstill (by decide)
  rw [← stands]
  exact s.leftRun_withdrawn.opState_eq (State.testQuiesced_combined (s.changeOpState_combined .quiescing))
    (State.testQuiesced_settled _)

/-- Settles O57: both requests are served as the state after the hearing says, which has what their checks read as it was. -/
theorem serviceIsEnteredAndLeft : Obligations.ServiceIsEnteredAndLeft := by
  intro s can
  have clock := s.heardAt_clock .cab
  obtain ⟨odo, -, -, -, comb, -, -, -, -, -, op, cfg, -, -⟩ := s.heardAt_keeps .cab
  refine ⟨fun enters => ?_, fun run => ?_, fun quiescing => ?_⟩
  · obtain ⟨p, made, served⟩ := s.request_serves .cab .resume [] can rfl rfl (by decide)
    have accepted := State.resume_accepted (s := s.heardAt .cab) (by rwa [op, cfg])
    simp only [State.serve, accepted] at made served
    obtain ⟨entered, started, park⟩ := (s.heardAt .cab).changeOpState_inRun
    rw [clock, cfg] at started
    refine ⟨_, congrArg Host.Outcome.next made, ?_⟩
    simp only [State.withPort_line, LineUnit.withPort_opState, LineUnit.withPort_cabTimer, State.withPort_comb]
    exact ⟨entered, started, park.trans (congrArg _ comb), served.answered,
      (served.frame.mono (by decide) (fun _ h => h) fun _ h => h).withoutPark park⟩
  · obtain ⟨p, made, served⟩ := s.request_serves .cab .quiesce [] can rfl rfl (by decide)
    have accepted := State.quiesce_accepted (op.trans run)
    simp only [State.serve, accepted] at made served
    have left := (s.heardAt .cab).leftRun_opState
    rw [odo] at left
    refine ⟨_, congrArg Host.Outcome.next made, ?_⟩
    simp only [State.withPort_line, LineUnit.withPort_opState, LineUnit.withPort_cabTimer, State.withPort_comb, State.withPort_sup]
    exact ⟨left, State.leftRun_cabTimer _, (State.leftRun_withdrawn _).barred, served⟩
  · exact ⟨_, rfl, State.request_answersOnly .quiesce can rfl rfl (by decide) (State.quiesce_already (op.trans quiescing))⟩

end Sys2Proof.Machine
end

section
/-! PROOFS. The step on a queue that holds a command (O1): it is fixed by the queue and by the state with the rest of it, and of two
settings of the queue the later one stands. -/

namespace Sys2Proof.Machine

/-- The later setting of the queue stands. -/
@[simp] theorem State.withPending_withPending (s : State) (l m : List Instr) : (s.withPending l).withPending m = s.withPending m := rfl

/-- The branch of `step` on a queue that is not empty; on an empty queue the step is `idle`. -/
theorem step_of_pending_cons {i : Instr} {rest : List Instr} {s : State} (queue : s.pending = i :: rest) :
    step s = exec i (s.withPending rest) := by
  simp only [step, queue]

/-- Settles O1: the queue set is the queue read, and its rest is set over it. -/
theorem stepTakesTheFrontCommand : Obligations.StepTakesTheFrontCommand := by
  intro i rest s
  calc step (s.withPending (i :: rest))
      = exec i ((s.withPending (i :: rest)).withPending rest) := step_of_pending_cons (s.withPending_pending _)
    _ = exec i (s.withPending rest) := by rw [State.withPending_withPending]

end Sys2Proof.Machine
end
